-- ==== Sys2Proof/Word.lean ====
section
/-! DEFINITION. The byte, and the toggle bit the station line uses. Numbers the manual counts with are plain `Nat`. -/
namespace Sys2Proof

/-- A byte of a host frame, or the eight data bits of a station line character. -/
abbrev Byte := BitVec 8

/-- A report, acknowledge or verdict toggle (R128): `true` is 1. -/
abbrev Toggle := Bool

end Sys2Proof
end

