-- ==== Sys2Proof/Syntax.lean ====
section
/-! DEFINITION. The commands of the part: one constructor per row of the table of operations and events. -/
namespace Sys2Proof

/-- One character of the station line as received (section 12.4): nine bits, and whether it came with a framing error. -/
structure StationChar where
  mark : Bool
  framingError : Bool
  data : Byte
  deriving DecidableEq, Repr

/-- What became of the backup supply since the last step (R176): it kept the retained domain; it let the domain decay, so
that the retention check fails; it was disconnected, so that the retention mark is absent. -/
inductive Backup where
  | kept
  | decayed
  | disconnected
  deriving DecidableEq, Repr

/-- The steps of start-up, in the order and under the numbers of R178: 1 the unretained state, 2 the kind, 3 the straps
and the mode, 4 the RESTART record, 5 the READY notice, 6 the engine work, 7 the mark. -/
inductive StartUpStep where
  | unretained
  | kind
  | mode
  | record
  | ready
  | engine
  | mark
  deriving DecidableEq, Repr

/-- The two things that hold the part in reset (R176): the reset line active, the main supply below its working level. -/
inductive ResetHold where
  | resetLine
  | mainSupply
  deriving DecidableEq, Repr

/-- A start-up cut short (R178): the last step it carries out, and the hold in reset that cuts it. -/
structure StartUpCut where
  after : StartUpStep
  hold : ResetHold
  deriving DecidableEq, Repr

/-- What the part finds outside itself when a restart begins: the two rate strap pins (R160; `true` is high), what became
of its backup supply (R176), and whether another restart cuts the start-up short (R178; log entry 33). -/
structure RestartInputs where
  strap1 : Bool
  strap0 : Bool
  backup : Backup
  cut : Option StartUpCut
  deriving DecidableEq, Repr

/-- The commands. A request row (IDENTIFY to UNKNOWN_KIND) serves the outstanding request, and a job row takes the work
the arbiter selects, so neither carries an operand: the body, the station and the entry are in the state. Each docstring
names the rule the table gives the row. -/
inductive Instr where
  /-- FRAME_RECEIVED (R162). The bytes received after the start byte: length, kind, tag, body and CRC. -/
  | frameReceived (bytes : List Byte)
  /-- RECEIVE_GAP (R161). -/
  | receiveGap
  /-- FRAME_SENT (R165). The operand is read only when a restart is carried out by it (R177). -/
  | frameSent (inputs : RestartInputs)
  /-- IDENTIFY (R168). -/
  | identify
  /-- STATUS (R169). -/
  | status
  /-- SETTINGS_WRITE (R170). -/
  | settingsWrite
  /-- SETTINGS_READ (R170). -/
  | settingsRead
  /-- CLOCK_SET (R89). -/
  | clockSet
  /-- CLOCK_READ (R91). -/
  | clockRead
  /-- PERMIT_ADD (R8). -/
  | permitAdd
  /-- PERMIT_AMEND (R9). -/
  | permitAmend
  /-- PERMIT_REMOVE (R13). -/
  | permitRemove
  /-- PERMIT_READ (R14). -/
  | permitRead
  /-- PERMIT_FIND (R15). -/
  | permitFind
  /-- REVOKE (R17). -/
  | revoke
  /-- UNREVOKE (R19). -/
  | unrevoke
  /-- REVOKE_LIST (R20). -/
  | revokeList
  /-- ROOM_SET (R24). -/
  | roomSet
  /-- ROOM_MODE (R26). -/
  | roomMode
  /-- ROOM_READ (R27). -/
  | roomRead
  /-- OCCUPANT_RELEASE (R34). -/
  | occupantRelease
  /-- STATION_SET (R131). -/
  | stationSet
  /-- STATION_CHANNEL (R132). -/
  | stationChannel
  /-- STATION_READ (R133). -/
  | stationRead
  /-- TRAIL_READ (R155). -/
  | trailRead
  /-- TRAIL_CLOSE (R156). -/
  | trailClose
  /-- TRAIL_FREE (R157). -/
  | trailFree
  /-- MODE_REQUEST_RUN (R173). -/
  | modeRequestRun
  /-- MODE_REQUEST_RESERVE (R173). -/
  | modeRequestReserve
  /-- MODE_REQUEST_STANDBY (R174). -/
  | modeRequestStandby
  /-- RESTART_WARM_REQUEST (R177). -/
  | restartWarmRequest
  /-- RESTART_CLEAN_REQUEST (R177). -/
  | restartCleanRequest
  /-- UNKNOWN_KIND (R164). -/
  | unknownKind
  /-- DOOR_COMMIT (R31). -/
  | doorCommit
  /-- DOOR_LAPSE (R32). -/
  | doorLapse
  /-- PAIRING_EXPIRY (R78). -/
  | pairingExpiry
  /-- STAY_DEADLINE_DUE (R40). -/
  | stayDeadlineDue
  /-- ESCALATION_DUE (R41). -/
  | escalationDue
  /-- LIMIT_DUE (R39). -/
  | limitDue
  /-- ENTRY_DECISION (R45). -/
  | entryDecision
  /-- EXIT_DECISION (R65). -/
  | exitDecision
  /-- SWEEP_STEP (R124). -/
  | sweepStep
  /-- SWEEP_INTERVAL_EXPIRY (R98). -/
  | sweepIntervalExpiry
  /-- CLOCK_END (R87). -/
  | clockEnd
  /-- POLL_ROUND_START (R134). -/
  | pollRoundStart
  /-- CALL (R135). -/
  | call
  /-- GOOD_ANSWER (R137). The characters of the answer, check character included. -/
  | goodAnswer (chars : List StationChar)
  /-- MISSING_ANSWER (R135). -/
  | missingAnswer
  /-- CORRUPT_ANSWER (R135). The characters that came before 15 ms of silence, one or more. -/
  | corruptAnswer (chars : List StationChar)
  /-- RELEASE_TIMER_EXPIRY (R146) of the station at the address. -/
  | releaseTimerExpiry (station : Nat)
  /-- HELD_TIMER_EXPIRY (R147) of the station at the address. -/
  | heldTimerExpiry (station : Nat)
  /-- SUPPLY_FALL (R172). -/
  | supplyFall
  /-- SUPPLY_RISE (R172). -/
  | supplyRise
  /-- ATTENTION (R175). The line becomes active; the operand says whether it stays active. -/
  | attention (stays : Bool)
  /-- RESET_LINE_ACTIVE (R176). -/
  | resetLineActive
  /-- RESET_LINE_RELEASED (R176). -/
  | resetLineReleased (inputs : RestartInputs)
  /-- MAIN_SUPPLY_LOSS (R176). -/
  | mainSupplyLoss
  /-- MAIN_SUPPLY_UP (R176). -/
  | mainSupplyUp (inputs : RestartInputs)
  /-- START_BYTE_RECEIVED (R161). -/
  | startByteReceived
  /-- FRAMING_ERROR (R161). -/
  | framingError
  /-- LENGTH_OVER_1024 (R161). -/
  | lengthOver1024
  deriving DecidableEq, Repr

end Sys2Proof
end

