-- ==== Sys2Proof/Decode.lean ====
section
/-! DEFINITION. The table of operations and events gives no row any bits: a command is an event, not a word. -/
namespace Sys2Proof

/-- The command a word spells by the table's bits. Every row of the table has an empty "fields" list and no "fixed"
pattern, so no word spells a command (log entry 30). -/
def decodeTableWord (_nbits _w : Nat) : Option Instr := none

end Sys2Proof
end

