-- ==== Sys2Proof/Config.lean ====
section
/-! DEFINITION. The capacities and constants the manual fixes for this part (the table "The part at a glance", and the
rules named). The manual leaves no value of any operation to the implementation, so there is no free constant here. -/
namespace Sys2Proof.Config

/-- R1: slots of the permit table. -/
def permitSlots : Nat := 256
/-- R1: permits one credential may hold. -/
def permitsPerCredential : Nat := 8
/-- R16: credentials the revocation set holds. -/
def revocations : Nat := 32
/-- R22. -/
def rooms : Nat := 12
/-- R128. -/
def stations : Nat := 16
/-- R28. -/
def poolRecords : Nat := 48
/-- R70. -/
def groups : Nat := 8
/-- R70. -/
def membersPerGroup : Nat := 4
/-- R139. -/
def presentations : Nat := 8
/-- R92. -/
def deadlines : Nat := 80
/-- R150. -/
def trailHalves : Nat := 2
/-- R150. -/
def recordsPerHalf : Nat := 64
/-- R166. -/
def notices : Nat := 16
/-- R163: entries of the BUSY list. -/
def busyEntries : Nat := 4
/-- R161: the largest body length. -/
def maxBody : Nat := 1024
/-- R168: family code, part number and revision that IDENTIFY reports. -/
def familyCode : Nat := 0x61
/-- R168. -/
def partNumber : Nat := 6120
/-- R168: "the revision of the part, 1 for this part". -/
def revision : Nat := 1
/-- R84: seconds of a day, and minutes of a day. -/
def daySeconds : Nat := 86400
/-- R100. -/
def dayMinutes : Nat := 1440
/-- R87: the last estate second, day 65535 second 86399. -/
def lastSecond : Nat := 5662310399
/-- R84, R104: the last estate minute, which caps every stay deadline. -/
def lastMinute : Nat := 94371839
/-- R89: the clock step allowed while rooms are occupied. -/
def clockStep : Nat := 300
/-- R99: the most sweeps owed. -/
def owedSweeps : Nat := 4
/-- R124: steps of a pass, and slots of a step. -/
def sweepSteps : Nat := 16
/-- R142: where the missed count saturates. -/
def missedLimit : Nat := 15
/-- R154, R114, R4: where the lost count, a reported debit and an allowance saturate. -/
def count16 : Nat := 65535

end Sys2Proof.Config
end

