-- ==== Sys2Proof/Machine/Types.lean ====
section
/-! DEFINITION. The kinds of things the part's state holds, under the manual's own names. Data only. -/
namespace Sys2Proof.Machine

/-! ### Names with a fixed set of values -/

/-- R2. -/
inductive Role where | worker | escort
  deriving DecidableEq, Repr
/-- R2. -/
inductive PermitStatus where | active | suspended
  deriving DecidableEq, Repr
/-- R22. -/
inductive RoomClass where | general | twoPerson
  deriving DecidableEq, Repr
/-- R22, R26. -/
inductive RoomMode where | service | escortedOnly | closed
  deriving DecidableEq, Repr
/-- An alert level: 0 clear, 1 raised, 2 escalated (R35). -/
inductive Level where | clear | raised | escalated
  deriving DecidableEq, Repr
/-- R128, R130. -/
inductive Channel where | serve | hold | barred
  deriving DecidableEq, Repr
/-- R128. -/
inductive Link where | silent | online
  deriving DecidableEq, Repr
/-- R45. -/
inductive Side where | outside | inside
  deriving DecidableEq, Repr
/-- The outcome of a decision (R47). -/
inductive VerdictOutcome where | release | deny | wait
  deriving DecidableEq, Repr
/-- R47: the class of a reason that a verdict carries to the station. -/
inductive ReasonClass where | proceed | exit | partner | card | room | system
  deriving DecidableEq, Repr
/-- R172. -/
inductive SupplyMode where | run | reserve | standby
  deriving DecidableEq, Repr
/-- The cause of a change of supply mode (R172, R173, R175). -/
inductive ModeCause where | supplyFall | supplyRise | request | wakeHost | wakeAttention | wakeSupply
  deriving DecidableEq, Repr
/-- R176. -/
inductive RestartKind where | powerOn | resetLine | restartWarm | restartClean
  deriving DecidableEq, Repr
/-- R167. -/
inductive AlertKind where | lone | unescorted | overstay | revokedInside | forced | held
  deriving DecidableEq, Repr
/-- R134, R185: 19,200, 38,400 and 76,800. -/
inductive LineRate where | r19200 | r38400 | r76800
  deriving DecidableEq, Repr
/-- R150. -/
inductive HalfId where | a | b
  deriving DecidableEq, Repr
/-- R150. -/
inductive HalfState where | filling | closed | free
  deriving DecidableEq, Repr
/-- R164. -/
inductive ReplyCode where
  | ok | malformed | unknownKind | busy | range | notFound | existing | tableFull | inUse | wrongState | occupied
  | clockUnset | supply
  deriving DecidableEq, Repr
/-- The reasons of R185, with the alert kinds, the mode causes and the restart kinds that share their code table. -/
inductive Reason where
  | none | granted | repeated | groupComplete | exit | awaitPartner | awaitEscort | clockUnset | stationBarred | revoked
  | passback | noPermit | roomNotPermitted | suspended | notYetValid | expired | outsideHours | allowanceSpent | tooLate
  | roomClosed | trailFull | stationSilent | roomFull | occupancyFull | groupFull | pairingFull | pairingTimeout
  | releaseExpired | earlyExit | restart | operator | forced
  | alert (k : AlertKind)
  | cause (c : ModeCause)
  | restarted (k : RestartKind)
  deriving DecidableEq, Repr
/-- R152. -/
inductive TrailKind where
  | grant | repeated | wait | groupGrant | deny | entry | lapse | exit | exitUnmatched | operatorRelease | recompute
  | alert | roomMode | channel | link | retire | clockSet | mode | restart | gap
  deriving DecidableEq, Repr

/-! ### Estate time -/

/-- The estate clock (R84, R86, R87). -/
structure Clock where
  unset : Bool
  day : Nat
  second : Nat
  ended : Bool
  deriving DecidableEq, Repr

/-- What a deadline-queue entry refers to, with its kind (R92): a group by its station, a pool record by its credential
(no two records share one, R53), a room by its number. -/
inductive Due where
  | pairing (station : Nat)
  | stayDeadline (credential : Nat)
  | escalation (credential : Nat)
  | loneLimit (room : Nat)
  | unescortedLimit (room : Nat)
  deriving DecidableEq, Repr

/-- R92. -/
structure DeadlineEntry where
  due : Nat
  what : Due
  deriving DecidableEq, Repr

/-! ### Permits, rooms, persons -/

/-- R3. Bit 0 of the mask is Monday. -/
structure Window where
  fromMinute : Nat
  toMinute : Nat
  mask : BitVec 7
  deriving DecidableEq, Repr

/-- R2, the stored fields. The in-use count is derived (R5). -/
structure Permit where
  number : Nat
  credential : Nat
  role : Role
  rooms : List Nat
  validFrom : Nat
  validUntil : Nat
  window : Option Window
  needsEscort : Bool
  maxStay : Nat
  allowance : Option Nat
  status : PermitStatus
  deriving DecidableEq, Repr

/-- R22. The occupancy list is the pool's records of the room (R28). -/
structure Room where
  cls : RoomClass
  mode : RoomMode
  capacity : Nat
  escortRatio : Nat
  minStay : Nat
  grace : Nat
  pairingWindow : Nat
  loneLimit : Nat
  unescortedLimit : Nat
  strict : Bool
  lone : Level
  unescorted : Level
  deriving DecidableEq, Repr

/-- The state of an occupancy record (R29): an INSIDE record has an entry second and a stay deadline, an ADMITTING one
has neither. -/
inductive Presence where
  | admitting
  | inside (entry : Nat) (deadline : Nat)
  deriving DecidableEq, Repr

/-- R29. -/
structure Occupant where
  credential : Nat
  permit : Nat
  role : Role
  needsEscort : Bool
  room : Nat
  station : Nat
  presence : Presence
  overstay : Level
  revokedInside : Bool
  deriving DecidableEq, Repr

/-- R71. -/
structure Member where
  credential : Nat
  permit : Nat
  role : Role
  needsEscort : Bool
  joined : Nat
  deriving DecidableEq, Repr

/-- R70. -/
structure Group where
  station : Nat
  room : Nat
  members : List Member
  expiry : Nat
  deriving DecidableEq, Repr

/-! ### Stations and the station line -/

/-- R128, R140. -/
structure Verdict where
  outcome : VerdictOutcome
  reason : Reason
  seconds : Nat
  toggle : Toggle
  sent : Bool
  deriving DecidableEq, Repr

/-- R138: the toggle of the next new report, or adopt. -/
inductive Expected where
  | toggle (t : Toggle)
  | adopt
  deriving DecidableEq, Repr

/-- The door state with the timer that runs in it (R128: the release timer runs in RELEASED only, the held timer in OPEN
only). -/
inductive Door where
  | unknown
  | secure
  | released (remaining : Nat)
  | opened (remaining : Nat)
  | heldOpen
  | forcedOpen
  deriving DecidableEq, Repr

/-- R118. The flag of a lapse says that its cause is silence. -/
inductive DoorEvent where
  | commit
  | lapse (silence : Bool)
  deriving DecidableEq, Repr

/-- R49. -/
structure LastPresentation where
  side : Side
  credential : Nat
  taken : Nat
  outcome : VerdictOutcome
  reason : Reason
  deriving DecidableEq, Repr

/-- R128. Pending door events stand in the order of raising, oldest first. -/
structure Station where
  room : Nat
  releaseTime : Nat
  heldLimit : Nat
  channel : Channel
  link : Link
  missed : Nat
  expected : Expected
  acknowledge : Toggle
  verdict : Option Verdict
  verdictToggle : Toggle
  door : Door
  events : List DoorEvent
  last : Option LastPresentation
  corrupt : Bool
  deriving DecidableEq, Repr

/-- An entry of the presentation queue (R139). -/
structure Presentation where
  station : Nat
  side : Side
  credential : Nat
  taken : Nat
  deriving DecidableEq, Repr

/-- The turn under way (R135): the station called and the characters of the call. -/
structure Turn where
  station : Nat
  sent : List StationChar
  deriving DecidableEq, Repr

/-- The poll round under way (R134): the stations still to be called, the turn under way, and whether it is the settle
round (R136). -/
structure Round where
  toCall : List Nat
  turn : Option Turn
  settle : Bool
  deriving DecidableEq, Repr

/-- The station line: the round under way, whether the next round is a settle round, and the poll period and bit rate
the last round started with (R134). -/
structure Line where
  round : Option Round
  settleNext : Bool
  periodMs : Nat
  rate : LineRate
  deriving DecidableEq, Repr

/-- A good answer read from its characters (R137, R183). -/
structure StationAnswer where
  report : Option (Toggle × Side × Nat)
  seen : Toggle
  open? : Bool
  latch : Bool
  deriving DecidableEq, Repr

/-! ### The trail -/

/-- R184: a number, or a pair of codes (old, new). -/
inductive TrailValue where
  | number (n : Nat)
  | pair (old new : Nat)
  deriving DecidableEq, Repr

/-- R151. -/
structure TrailRecord where
  kind : TrailKind
  day : Nat := 0
  second : Nat := 0
  station : Nat := 0
  room : Nat := 0
  credential : Nat := 0
  permit : Nat := 0
  reason : Reason := .none
  value : TrailValue := .number 0
  deriving DecidableEq, Repr

/-- R150. -/
structure Half where
  state : HalfState
  records : List TrailRecord
  deriving DecidableEq, Repr

/-- R150. -/
structure Trail where
  a : Half
  b : Half
  lost : Nat
  lastClosed : Option HalfId
  deriving DecidableEq, Repr

/-! ### The host line -/

/-- The DECISION notice (R64, R182). -/
structure DecisionNotice where
  station : Nat
  side : Side
  credential : Nat
  taken : Nat
  decided : Nat
  outcome : VerdictOutcome
  reason : Reason
  permit : Nat
  room : Nat
  deriving DecidableEq, Repr

/-- The ALERT notice (R182). The channel carries meaning for FORCED only. -/
structure AlertNotice where
  kind : AlertKind
  level : Level
  room : Nat
  station : Nat := 0
  credential : Nat := 0
  permit : Nat := 0
  channel : Option Channel := none
  deriving DecidableEq, Repr

/-- R167. -/
inductive Notice where
  | ready (kind : RestartKind) (retentionLost : Bool)
  | decision (d : DecisionNotice)
  | alert (n : AlertNotice)
  | link (station : Nat) (link : Link)
  | trailHalf (half : HalfId) (byRequest : Bool) (full : Bool)
  | retired (permit credential slot : Nat)
  | mode (old new : SupplyMode) (cause : ModeCause)
  deriving DecidableEq, Repr

/-- A frame of the host line without its start byte, length and CRC (R160). -/
structure Frame where
  kind : Byte
  tag : Byte
  body : List Byte
  deriving DecidableEq, Repr

/-- R163. `served` says that the request's reply has been handed. -/
structure Outstanding where
  request : Frame
  served : Bool
  deriving DecidableEq, Repr

/-- What the transmitter is sending (R165). -/
inductive SendSource where | reply | busy | notice
  deriving DecidableEq, Repr

/-- The frame being sent (R165). -/
structure Sending where
  frame : Frame
  source : SendSource
  deriving DecidableEq, Repr

/-- The host line interface (R161, R163, R165, R166, R162, R160). The BUSY list holds the kind and tag of each refused
frame, oldest first. -/
structure HostLine where
  receiving : Bool
  outstanding : Option Outstanding
  reply : Option Frame
  busy : List (Byte × Byte)
  sending : Option Sending
  notices : List Notice
  frameDiscarded : Bool
  noticesDropped : Bool
  rateCode : Nat
  deriving DecidableEq, Repr

/-- The nine settings (R170). -/
structure Settings where
  pollPeriod : Nat
  reserveFactor : Nat
  silenceThreshold : Nat
  bitRate : LineRate
  sweepInterval : Nat
  requestFirst : Bool
  sweepEarly : Bool
  decisionNotices : Bool
  weekdayOffset : Nat
  deriving DecidableEq, Repr

/-! ### The sweep and the supply -/

/-- The sweep interval timer's count (R98), the owed-sweep count (R99) and the pass position (R124). -/
structure Sweep where
  count : Nat
  owed : Nat
  position : Nat
  deriving DecidableEq, Repr

/-- R177: the restart a RESTART request asks for. -/
inductive RestartRequest where | warm | clean
  deriving DecidableEq, Repr

/-- The supply and mode controller (R172 to R178): the mode, the by-request flag, the levels of the supply-good and
attention lines, the interval between an accepted STANDBY and its stop with the first wake event held in it (R174) and
whether the request came in RESERVE (the model's own field, log entry 14), the restart a RESTART request has asked for
(R177), the two holds in reset, the retention mark and check (R176) and the last restart cause. -/
structure Supply where
  mode : SupplyMode
  byRequest : Bool
  supplyGood : Bool
  attention : Bool
  stopPending : Bool
  fromReserve : Bool
  heldWake : Option ModeCause
  restartRequested : Option RestartRequest
  resetActive : Bool
  mainLost : Bool
  markPresent : Bool
  checkHolds : Bool
  lastKind : RestartKind
  retentionLost : Bool
  deriving DecidableEq, Repr

/-! ### Values a request body carries -/

/-- A change of the allowance (R9). -/
inductive AllowanceChange where
  | unchanged
  | set (minutes : Nat)
  | topUp (minutes : Nat)
  | remove
  deriving DecidableEq, Repr

/-- The changes of a PERMIT-AMEND (R9); `none` is unchanged. The window's inner option is `none` for a removal. -/
structure PermitAmend where
  number : Nat
  status : Option PermitStatus
  validFrom : Option Nat
  validUntil : Option Nat
  window : Option (Option Window)
  maxStay : Option Nat
  allowance : AllowanceChange
  rooms : Option (List Nat)
  needsEscort : Option Bool
  deriving DecidableEq, Repr

/-- The configuration a ROOM-SET carries (R24), after clamping. -/
structure RoomConfig where
  room : Nat
  cls : RoomClass
  capacity : Nat
  escortRatio : Nat
  minStay : Nat
  grace : Nat
  pairingWindow : Nat
  loneLimit : Nat
  unescortedLimit : Nat
  strict : Bool
  deriving DecidableEq, Repr

/-- A person in a requirement test (R23). -/
structure Person where
  role : Role
  needsEscort : Bool
  deriving DecidableEq, Repr

/-- The result of the occurrence test (R100): outside, or inside with the occurrence's end, `none` for unlimited. -/
inductive Occurrence where
  | outside
  | inside (fin : Option Nat)
  deriving DecidableEq, Repr

/-- The room alerts (R35). -/
inductive RoomAlert where | lone | unescorted
  deriving DecidableEq, Repr

/-- The job classes (R117). -/
inductive JobClass where | door | timer | present | request | sweep
  deriving DecidableEq, Repr

end Sys2Proof.Machine
end

