-- ==== Sys2Proof/Machine/Operands.lean ====
section
/-! DEFINITION. Every operand form: the byte order of host frames (R179), the CRC (R160), request bodies (R180, R181) and
station answers (R135, R183). -/
namespace Sys2Proof.Machine

/-! ### Bytes -/

/-- R179: a value of several bytes, least significant byte first. -/
def leNat : List Byte → Nat
  | [] => 0
  | b :: bs => b.toNat + 256 * leNat bs

/-- R179: `n` as `width` bytes, least significant byte first. -/
def leBytes : Nat → Nat → List Byte
  | 0, _ => []
  | width + 1, n => BitVec.ofNat 8 n :: leBytes width (n / 256)

/-- The byte at an offset of a body, as a number. -/
def byteAt (body : List Byte) (offset : Nat) : Nat := (body.getD offset 0).toNat

/-- The value of `width` bytes at an offset of a body. -/
def valueAt (body : List Byte) (offset width : Nat) : Nat := leNat ((body.drop offset).take width)

/-- A presence or flag value as one byte. -/
def boolByte (b : Bool) : Byte := if b then 1 else 0

/-- One bit of the CRC register: shifted left, with the polynomial x^16 + x^12 + x^5 + 1 when the bit shifted out is set
(R160). -/
def crcShift (c : BitVec 16) : BitVec 16 := if c.msb then (c <<< 1) ^^^ 0x1021#16 else c <<< 1

/-- One byte into the CRC, most significant bit first (R160). -/
def crcByte (c : BitVec 16) (b : Byte) : BitVec 16 :=
  Nat.iterate crcShift 8 (c ^^^ (b.zeroExtend 16 <<< 8))

/-- R160: the CRC of a list of bytes, initial value 0xFFFF, no final XOR. -/
def crc (bytes : List Byte) : BitVec 16 := bytes.foldl crcByte 0xFFFF#16

/-! ### Host frames -/

/-- The bytes a frame's CRC covers: length, kind, tag and body (R160, section 12.1). -/
def Frame.covered (f : Frame) : List Byte := leBytes 2 f.body.length ++ f.kind :: f.tag :: f.body

/-- The bytes of a frame on the line: the start byte 0xD7, the covered bytes and the CRC (R160, R179). -/
def Frame.wire (f : Frame) : List Byte := 0xD7 :: f.covered ++ leBytes 2 (crc f.covered).toNat

/-- The body length the two length bytes after a start byte give (R161). -/
def frameLength (bytes : List Byte) : Nat := valueAt bytes 0 2

/-- The bytes after a start byte make up one complete frame (R161 case 4): the last CRC byte is the 6th byte plus the
body length. -/
def isFrame (bytes : List Byte) : Bool :=
  6 ≤ bytes.length && frameLength bytes ≤ Config.maxBody && bytes.length == frameLength bytes + 6

/-- The frame that complete bytes carry. -/
def frameOf (bytes : List Byte) : Frame where
  kind := bytes.getD 2 0
  tag := bytes.getD 3 0
  body := (bytes.drop 4).take (frameLength bytes)

/-- The CRC that complete bytes carry agrees with the CRC computed over their length, kind, tag and body (R162). -/
def crcAgrees (bytes : List Byte) : Bool :=
  (crc (bytes.take (frameLength bytes + 4))).toNat == valueAt bytes (frameLength bytes + 4) 2

/-! ### Values of request bodies

Each reader answers MALFORMED, then RANGE, in that order (R164), then the values as taken. -/

/-- R6, R17: a number that is no credential. -/
def badCredential (c : Nat) : Bool := c == 0 || c == 4294967295

/-- The role, status, class, mode and channel codes of section 12.2 and R185. -/
def roleOf (n : Nat) : Role := if n = 0 then .worker else .escort
/-- R181. -/
def statusOf (n : Nat) : PermitStatus := if n = 0 then .active else .suspended
/-- R185. -/
def classOf (n : Nat) : RoomClass := if n = 0 then .general else .twoPerson
/-- R185. -/
def roomModeOf (n : Nat) : RoomMode := if n = 0 then .service else if n = 1 then .escortedOnly else .closed
/-- R185. -/
def channelOf (n : Nat) : Channel := if n = 0 then .serve else if n = 1 then .hold else .barred
/-- R185. -/
def rateOf (n : Nat) : LineRate := if n = 0 then .r19200 else if n = 1 then .r38400 else .r76800
/-- R185: 1 is A, 2 is B. -/
def halfOf (n : Nat) : HalfId := if n = 1 then .a else .b

/-- Clamping (section Conventions): the nearest end of the range. -/
def clampTo (lo hi n : Nat) : Nat := if n < lo then lo else if hi < n then hi else n

/-- R7 item 3: a rooms list in ascending order, repeats merged. -/
def sortRooms (rooms : List Nat) : List Nat := (List.range' 1 Config.rooms).filter (fun r => rooms.contains r)

/-- R7 items 1 and 3, R8: a rooms list out of range: empty, or naming a room outside 1..12. -/
def badRooms (rooms : List Nat) : Bool := rooms.isEmpty || rooms.any (fun r => r < 1 || Config.rooms < r)

/-- R7 item 1. -/
def takenMaxStay (n : Nat) : Nat := clampTo 1 1440 n

/-- The rooms list at an offset that holds its count (R181). -/
def roomsAt (body : List Byte) (offset : Nat) : List Nat :=
  (List.range (byteAt body offset)).map (fun i => byteAt body (offset + 1 + i))

/-- The daily window at an offset (R181). -/
def windowAt (body : List Byte) (offset : Nat) : Window where
  fromMinute := valueAt body offset 2
  toMinute := valueAt body (offset + 2) 2
  mask := BitVec.ofNat 7 (byteAt body (offset + 4))

/-- R8: a present window out of range: a minute above 1439, or a mask byte with bit 7 set (R181). -/
def badWindow (body : List Byte) (offset : Nat) : Bool :=
  1439 < valueAt body offset 2 || 1439 < valueAt body (offset + 2) 2 || 127 < byteAt body (offset + 4)

/-- R7 item 2: the needs-escort value as taken. -/
def takenNeedsEscort (role : Role) (v : Bool) : Bool := role == .worker && v

/-- R8 step 2, of a permit body of the right length and shape. -/
def permitBodyOutOfRange (b : List Byte) : Bool :=
  valueAt b 0 2 == 0 || badCredential (valueAt b 2 4) || 1 < byteAt b 6 || 1 < byteAt b 7 || 1 < byteAt b 8
    || badRooms (roomsAt b 9) || Config.lastMinute < valueAt b 22 4
    || valueAt b 26 4 == 0 || Config.lastMinute + 1 < valueAt b 26 4 || valueAt b 26 4 ≤ valueAt b 22 4
    || (byteAt b 30 == 1 && badWindow b 31)

/-- The permit a permit body carries, normalised (R181, R7). -/
def permitOf (b : List Byte) : Permit where
  number := valueAt b 0 2
  credential := valueAt b 2 4
  role := roleOf (byteAt b 6)
  status := statusOf (byteAt b 7)
  needsEscort := takenNeedsEscort (roleOf (byteAt b 6)) (byteAt b 8 == 1)
  rooms := sortRooms (roomsAt b 9)
  validFrom := valueAt b 22 4
  validUntil := valueAt b 26 4
  window := if byteAt b 30 = 1 then some (windowAt b 31) else none
  maxStay := takenMaxStay (valueAt b 36 2)
  allowance := if byteAt b 38 = 1 then some (valueAt b 39 2) else none

/-- The body of PERMIT-ADD (R181, R8 steps 1 and 2). -/
def readPermitBody (b : List Byte) : Except ReplyCode Permit :=
  if b.length ≠ 41 ∨ 12 < byteAt b 9 ∨ 1 < byteAt b 30 ∨ 1 < byteAt b 38 then .error .malformed
  else if permitBodyOutOfRange b then .error .range
  else .ok (permitOf b)

/-- R181: an action byte that its layout does not define, or a replacing rooms list of more than 12 entries (R7). -/
def amendBodyMisshaped (b : List Byte) : Bool :=
  1 < byteAt b 2 || 1 < byteAt b 4 || 1 < byteAt b 9 || 2 < byteAt b 14 || 1 < byteAt b 20 || 3 < byteAt b 23
    || 1 < byteAt b 26 || (byteAt b 26 == 1 && 12 < byteAt b 27) || 1 < byteAt b 40

/-- R9 step 2. -/
def amendBodyOutOfRange (b : List Byte) : Bool :=
  valueAt b 0 2 == 0
    || (byteAt b 2 == 1 && 1 < byteAt b 3)
    || (byteAt b 4 == 1 && Config.lastMinute < valueAt b 5 4)
    || (byteAt b 9 == 1 && (valueAt b 10 4 == 0 || Config.lastMinute + 1 < valueAt b 10 4))
    || (byteAt b 14 == 1 && badWindow b 15)
    || (byteAt b 23 == 2 && valueAt b 24 2 == 0)
    || (byteAt b 26 == 1 && badRooms (roomsAt b 27))
    || (byteAt b 40 == 1 && 1 < byteAt b 41)

/-- The changes an amend body carries (R181). The needs-escort value is normalised against the stored role later (R7). -/
def amendOf (b : List Byte) : PermitAmend where
  number := valueAt b 0 2
  status := if byteAt b 2 = 1 then some (statusOf (byteAt b 3)) else none
  validFrom := if byteAt b 4 = 1 then some (valueAt b 5 4) else none
  validUntil := if byteAt b 9 = 1 then some (valueAt b 10 4) else none
  window := if byteAt b 14 = 1 then some (some (windowAt b 15)) else if byteAt b 14 = 2 then some none else none
  maxStay := if byteAt b 20 = 1 then some (takenMaxStay (valueAt b 21 2)) else none
  allowance :=
    if byteAt b 23 = 1 then .set (valueAt b 24 2) else if byteAt b 23 = 2 then .topUp (valueAt b 24 2)
    else if byteAt b 23 = 3 then .remove else .unchanged
  rooms := if byteAt b 26 = 1 then some (sortRooms (roomsAt b 27)) else none
  needsEscort := if byteAt b 40 = 1 then some (byteAt b 41 == 1) else none

/-- The body of PERMIT-AMEND (R181, R9 steps 1 and 2). -/
def readAmendBody (b : List Byte) : Except ReplyCode PermitAmend :=
  if b.length ≠ 42 ∨ amendBodyMisshaped b then .error .malformed
  else if amendBodyOutOfRange b then .error .range
  else .ok (amendOf b)

/-- The body of PERMIT-REMOVE and PERMIT-READ: a permit number, 0 being RANGE (R13, R14). -/
def readPermitNumber (b : List Byte) : Except ReplyCode Nat :=
  if b.length ≠ 2 then .error .malformed else if valueAt b 0 2 = 0 then .error .range else .ok (valueAt b 0 2)

/-- The body of PERMIT-FIND, REVOKE and UNREVOKE: a credential (R15, R17, R19). -/
def readCredential (b : List Byte) : Except ReplyCode Nat :=
  if b.length ≠ 4 then .error .malformed else if badCredential (valueAt b 0 4) then .error .range else .ok (valueAt b 0 4)

/-- An empty body (R164). -/
def readNothing (b : List Byte) : Except ReplyCode Unit := if b.length ≠ 0 then .error .malformed else .ok ()

/-- The body of ROOM-SET: MALFORMED, RANGE, then the clamping (R24, R180). -/
def readRoomConfig (b : List Byte) : Except ReplyCode RoomConfig :=
  if b.length ≠ 12 then .error .malformed
  else if byteAt b 0 < 1 ∨ Config.rooms < byteAt b 0 ∨ 1 < byteAt b 1 ∨ 1 < byteAt b 11 ∨ byteAt b 2 < 1 ∨ 8 < byteAt b 2
  then .error .range
  else .ok
    { room := byteAt b 0
      cls := classOf (byteAt b 1)
      capacity := byteAt b 2
      escortRatio := clampTo 1 4 (byteAt b 3)
      minStay := clampTo 0 60 (byteAt b 4)
      grace := clampTo 0 60 (byteAt b 5)
      pairingWindow := clampTo 5 120 (byteAt b 6)
      loneLimit := clampTo 0 600 (valueAt b 7 2)
      unescortedLimit := clampTo 0 600 (valueAt b 9 2)
      strict := byteAt b 11 == 1 }

/-- The body of ROOM-MODE (R26). -/
def readRoomMode (b : List Byte) : Except ReplyCode (Nat × RoomMode) :=
  if b.length ≠ 2 then .error .malformed
  else if byteAt b 0 < 1 ∨ Config.rooms < byteAt b 0 ∨ 2 < byteAt b 1 then .error .range
  else .ok (byteAt b 0, roomModeOf (byteAt b 1))

/-- The body of ROOM-READ (R27). -/
def readRoomNumber (b : List Byte) : Except ReplyCode Nat :=
  if b.length ≠ 1 then .error .malformed
  else if byteAt b 0 < 1 ∨ Config.rooms < byteAt b 0 then .error .range else .ok (byteAt b 0)

/-- The body of OCCUPANT-RELEASE (R34). -/
def readRoomCredential (b : List Byte) : Except ReplyCode (Nat × Nat) :=
  if b.length ≠ 5 then .error .malformed
  else if byteAt b 0 < 1 ∨ Config.rooms < byteAt b 0 ∨ badCredential (valueAt b 1 4) then .error .range
  else .ok (byteAt b 0, valueAt b 1 4)

/-- The body of STATION-SET: station, room, release time and held limit, the last two clamped (R131). -/
def readStationSet (b : List Byte) : Except ReplyCode (Nat × Nat × Nat × Nat) :=
  if b.length ≠ 5 then .error .malformed
  else if byteAt b 0 < 1 ∨ Config.stations < byteAt b 0 ∨ Config.rooms < byteAt b 1 then .error .range
  else .ok (byteAt b 0, byteAt b 1, clampTo 3 30 (byteAt b 2), clampTo 10 300 (valueAt b 3 2))

/-- The body of STATION-CHANNEL (R132). -/
def readStationChannel (b : List Byte) : Except ReplyCode (Nat × Channel) :=
  if b.length ≠ 2 then .error .malformed
  else if byteAt b 0 < 1 ∨ Config.stations < byteAt b 0 ∨ 2 < byteAt b 1 then .error .range
  else .ok (byteAt b 0, channelOf (byteAt b 1))

/-- The body of STATION-READ (R133). -/
def readStationNumber (b : List Byte) : Except ReplyCode Nat :=
  if b.length ≠ 1 then .error .malformed
  else if byteAt b 0 < 1 ∨ Config.stations < byteAt b 0 then .error .range else .ok (byteAt b 0)

/-- The body of TRAIL-READ (R155). -/
def readTrailRange (b : List Byte) : Except ReplyCode (HalfId × Nat × Nat) :=
  if b.length ≠ 3 then .error .malformed
  else if byteAt b 0 < 1 ∨ 2 < byteAt b 0 ∨ 63 < byteAt b 1 ∨ byteAt b 2 < 1 ∨ 16 < byteAt b 2 then .error .range
  else .ok (halfOf (byteAt b 0), byteAt b 1, byteAt b 2)

/-- The body of TRAIL-FREE (R157). -/
def readHalf (b : List Byte) : Except ReplyCode HalfId :=
  if b.length ≠ 1 then .error .malformed
  else if byteAt b 0 < 1 ∨ 2 < byteAt b 0 then .error .range else .ok (halfOf (byteAt b 0))

/-- The body of CLOCK-SET (R89): a day and a second of day. -/
def readClockSet (b : List Byte) : Except ReplyCode (Nat × Nat) :=
  if b.length ≠ 6 then .error .malformed
  else if Config.daySeconds ≤ valueAt b 2 4 then .error .range else .ok (valueAt b 0 2, valueAt b 2 4)

/-- The body of SETTINGS-WRITE, every value clamped or normalised (R170, R180). -/
def readSettings (b : List Byte) : Except ReplyCode Settings :=
  if b.length ≠ 10 then .error .malformed
  else .ok
    { pollPeriod := clampTo 50 1000 (valueAt b 0 2)
      reserveFactor := clampTo 2 8 (byteAt b 2)
      silenceThreshold := clampTo 3 15 (byteAt b 3)
      bitRate := rateOf (byteAt b 4)
      sweepInterval := clampTo 1 60 (byteAt b 5)
      requestFirst := byteAt b 6 != 0
      sweepEarly := byteAt b 7 != 0
      decisionNotices := byteAt b 8 != 0
      weekdayOffset := clampTo 0 6 (byteAt b 9) }

/-- The body of MODE-REQUEST (R173) and of RESTART (R177): one code, `top` being the highest defined. -/
def readCode (top : Nat) (b : List Byte) : Except ReplyCode Nat :=
  if b.length ≠ 1 then .error .malformed else if top < byteAt b 0 then .error .range else .ok (byteAt b 0)

/-! ### Station answers -/

/-- The sum of the data bytes of all characters, modulo 256 (section 12.4). -/
def charSum (chars : List StationChar) : Byte := (chars.map StationChar.data).sum

/-- R135: the length, against the report kind of the status character: 2 for NONE, 7 for PRESENT (R183). -/
def answerLength (chars : List StationChar) : Nat :=
  match chars.head? with
  | some c => if c.data.getLsbD 0 then 7 else 2
  | none => 0

/-- R135: a good answer. All marks clear, no framing error, the length its status character gives, the sum 0. A character
that follows the check character within 15 ms makes the list longer than its status character gives. -/
def isGoodAnswer (chars : List StationChar) : Bool :=
  !chars.isEmpty && chars.all (fun c => !c.mark && !c.framingError) && chars.length == answerLength chars
    && charSum chars == 0

/-- The values of a good answer (R137, R183). Bits 5 to 7 of the status character and 1 to 7 of the side are ignored. -/
def answerOf (chars : List StationChar) : StationAnswer :=
  let status := (chars.map StationChar.data).getD 0 0
  { report :=
      if status.getLsbD 0 then
        some (status.getLsbD 1, if ((chars.map StationChar.data).getD 1 0).getLsbD 0 then .inside else .outside,
          valueAt (chars.map StationChar.data) 2 4)
      else none
    seen := status.getLsbD 2
    open? := status.getLsbD 3
    latch := status.getLsbD 4 }

end Sys2Proof.Machine
end

