-- ==== Sys2Proof/Machine/Defaults.lean ====
section
/-! DEFINITION. The value of each table and register after POWER_ON, as each chapter gives it, and the values that every
restart gives. -/
namespace Sys2Proof.Machine

/-- R22: a room after POWER_ON and RESTART_CLEAN. -/
def defaultRoom : Room where
  cls := .general
  mode := .closed
  capacity := 4
  escortRatio := 2
  minStay := 10
  grace := 15
  pairingWindow := 30
  loneLimit := 60
  unescortedLimit := 120
  strict := false
  lone := .clear
  unescorted := .clear

/-- R129: a station after POWER_ON and RESTART_CLEAN. -/
def defaultStation : Station where
  room := 0
  releaseTime := 8
  heldLimit := 45
  channel := .hold
  link := .silent
  missed := 0
  expected := .adopt
  acknowledge := true
  verdict := none
  verdictToggle := false
  door := .unknown
  events := []
  last := none
  corrupt := false

/-- R129: a station after RESET_LINE and RESTART_WARM keeps its binding, timings, channel and last presentation. -/
def warmStation (st : Station) : Station :=
  { defaultStation with
    room := st.room, releaseTime := st.releaseTime, heldLimit := st.heldLimit, channel := st.channel, last := st.last }

/-- R170. -/
def defaultSettings : Settings where
  pollPeriod := 200
  reserveFactor := 4
  silenceThreshold := 5
  bitRate := .r38400
  sweepInterval := 5
  requestFirst := false
  sweepEarly := false
  decisionNotices := false
  weekdayOffset := 0

/-- R150, R159: half A FILLING and empty, half B FREE. -/
def defaultTrail : Trail where
  a := ⟨.filling, []⟩
  b := ⟨.free, []⟩
  lost := 0
  lastClosed := none

/-- R88: the clock after POWER_ON. -/
def unsetClock : Clock where
  unset := true
  day := 0
  second := 0
  ended := false

/-- R171: the host line interface at a restart, with the rate sampled from the straps. -/
def restartedHost (rateCode : Nat) : HostLine where
  receiving := false
  outstanding := none
  reply := none
  busy := []
  sending := none
  notices := []
  frameDiscarded := false
  noticesDropped := false
  rateCode := rateCode

/-- R98, R99: the sweep timer, the owed count and the pass position at every restart. -/
def restartedSweep : Sweep where
  count := 0
  owed := 0
  position := 1

/-- R122: the last DOOR station after every restart. -/
def restartedLastDoor : Nat := 16

end Sys2Proof.Machine
end

