-- ==== Sys2Proof/Machine/State.lean ====
section
/-! DEFINITION. The state of the part, the reasons a command can stop, and the state after reset. -/
namespace Sys2Proof.Machine

/-- Everything the manual gives the part, and the queue of waiting commands. INVENTORY.md lists each field with its rule. -/
structure State where
  /-- R84. -/
  clock : Clock
  /-- R170. -/
  settings : Settings
  /-- R1: the occupied slots, each with its slot number, in ascending slot order. -/
  permits : List (Nat × Permit)
  /-- R16: oldest first. -/
  revoked : List Nat
  /-- R22: rooms 1 to 12 in order. -/
  rooms : List Room
  /-- R28: the records in order of creation; a room's list is its records in this order. -/
  pool : List Occupant
  /-- R70: the groups in ascending station order. -/
  groups : List Group
  /-- R92: in ascending due second. -/
  deadlines : List DeadlineEntry
  /-- R139: oldest first. -/
  presentations : List Presentation
  /-- R128: stations 1 to 16 in order. -/
  stations : List Station
  /-- R134. -/
  line : Line
  /-- R150. -/
  trail : Trail
  /-- R163. -/
  host : HostLine
  /-- R98, R99, R124. -/
  sweep : Sweep
  /-- R172. -/
  supply : Supply
  /-- R121: the last DOOR station. -/
  lastDoor : Nat
  /-- The model's own: the commands waiting, first in, first out. -/
  pending : List Instr
  deriving DecidableEq, Repr

/-- The stops of `exec`. Each is raised on an ill-formed command alone, one that `WellFormed` refuses whatever the state:
it names no event of the part. -/
inductive Fault where
  /-- Raised by RELEASE_TIMER_EXPIRY and HELD_TIMER_EXPIRY at an address outside 1..16: the manual gives the part no such
  station (R128). Safe: the model stops where no event of the part exists. -/
  | noSuchStation
  /-- Raised by FRAME_RECEIVED when its bytes do not make up one complete frame of R161 (at least 6 bytes, and 6 plus the
  body length, which is at most 1024). Safe. -/
  | notAFrame
  /-- Raised by GOOD_ANSWER when its characters are not a good answer under R135. Safe. -/
  | notAGoodAnswer
  /-- Raised by CORRUPT_ANSWER when its characters are none at all (a missing answer) or a good answer (R135). Safe. -/
  | notACorruptAnswer
  deriving DecidableEq, Repr

/-- The commands the model gives no meaning. -/
inductive Refusal where
  /-- Raised by `exec` on a command not modelled yet, named as the table names it. No arm raises it: every command has
  its meaning. Safe. -/
  | notModelled (mnemonic : String)
  deriving DecidableEq, Repr

/-- The machine right after reset: a POWER_ON start-up (R178) that has just ended, on a part that never ran before. The
trail holds the RESTART record (R159) and the READY notice is being sent (R178 step 5, R165). Every table is at its
default. The levels of the pins (supply-good high, attention inactive, both straps low, no hold in reset) are the
model's choice (DESIGN CHOICE, log entry 5; unsafe). -/
def State.reset : State where
  clock := unsetClock
  settings := defaultSettings
  permits := []
  revoked := []
  rooms := List.replicate Config.rooms defaultRoom
  pool := []
  groups := []
  deadlines := []
  presentations := []
  stations := List.replicate Config.stations defaultStation
  line := { round := none, settleNext := true, periodMs := 200, rate := .r38400 }
  trail := { defaultTrail with a := ⟨.filling, [{ kind := .restart, reason := .restarted .powerOn }]⟩ }
  host := { restartedHost 0 with sending := some ⟨⟨0x40, 0, [48, 0]⟩, .notice⟩ }
  sweep := restartedSweep
  supply :=
    { mode := .run, byRequest := false, supplyGood := true, attention := false, stopPending := false,
      fromReserve := false, heldWake := none, restartRequested := none, resetActive := false, mainLost := false, markPresent := true, checkHolds := true,
      lastKind := .powerOn, retentionLost := false }
  lastDoor := restartedLastDoor
  pending := []

end Sys2Proof.Machine
end

