-- ==== Sys2Proof/Machine/Flags.lean ====
section
/-! DEFINITION. The code tables (R185), the flag bytes, and the bodies the part builds: replies (R180, R181), notices
(R182), calls (R183) and trail records (R184). -/
namespace Sys2Proof.Machine

/-! ### Code tables (R185) -/

/-- R185. -/
def ReplyCode.code : ReplyCode → Nat
  | .ok => 0 | .malformed => 1 | .unknownKind => 2 | .busy => 3 | .range => 4 | .notFound => 5 | .existing => 6
  | .tableFull => 7 | .inUse => 8 | .wrongState => 9 | .occupied => 10 | .clockUnset => 11 | .supply => 12
/-- R185. -/
def AlertKind.code : AlertKind → Nat
  | .lone => 1 | .unescorted => 2 | .overstay => 3 | .revokedInside => 4 | .forced => 5 | .held => 6
/-- R185. -/
def ModeCause.code : ModeCause → Nat
  | .supplyFall => 40 | .supplyRise => 41 | .request => 42 | .wakeHost => 43 | .wakeAttention => 44 | .wakeSupply => 45
/-- R185. -/
def RestartKind.code : RestartKind → Nat
  | .powerOn => 48 | .resetLine => 49 | .restartWarm => 50 | .restartClean => 51
/-- R185; an ALERT record's reason holds 32 plus the alert kind code (R184). -/
def Reason.code : Reason → Nat
  | .none => 0 | .granted => 1 | .repeated => 2 | .groupComplete => 3 | .exit => 4 | .awaitPartner => 5
  | .awaitEscort => 6 | .clockUnset => 7 | .stationBarred => 8 | .revoked => 9 | .passback => 10 | .noPermit => 11
  | .roomNotPermitted => 12 | .suspended => 13 | .notYetValid => 14 | .expired => 15 | .outsideHours => 16
  | .allowanceSpent => 17 | .tooLate => 18 | .roomClosed => 19 | .trailFull => 20 | .stationSilent => 21
  | .roomFull => 22 | .occupancyFull => 23 | .groupFull => 24 | .pairingFull => 25 | .pairingTimeout => 26
  | .releaseExpired => 27 | .earlyExit => 28 | .restart => 29 | .operator => 30 | .forced => 31
  | .alert k => 32 + k.code | .cause c => c.code | .restarted k => k.code
/-- R185. -/
def TrailKind.code : TrailKind → Nat
  | .grant => 1 | .repeated => 2 | .wait => 3 | .groupGrant => 4 | .deny => 5 | .entry => 6 | .lapse => 7 | .exit => 8
  | .exitUnmatched => 9 | .operatorRelease => 10 | .recompute => 11 | .alert => 12 | .roomMode => 13 | .channel => 14
  | .link => 15 | .retire => 16 | .clockSet => 17 | .mode => 18 | .restart => 19 | .gap => 20
/-- R185. -/
def VerdictOutcome.code : VerdictOutcome → Nat | .release => 0 | .deny => 1 | .wait => 2
/-- R185. -/
def ReasonClass.code : ReasonClass → Nat
  | .proceed => 0 | .exit => 1 | .partner => 2 | .card => 3 | .room => 4 | .system => 5
/-- R181. -/
def Role.code : Role → Nat | .worker => 0 | .escort => 1
/-- R181. -/
def PermitStatus.code : PermitStatus → Nat | .active => 0 | .suspended => 1
/-- R185. -/
def RoomClass.code : RoomClass → Nat | .general => 0 | .twoPerson => 1
/-- R185. -/
def RoomMode.code : RoomMode → Nat | .service => 0 | .escortedOnly => 1 | .closed => 2
/-- R35. -/
def Level.code : Level → Nat | .clear => 0 | .raised => 1 | .escalated => 2
/-- R185. -/
def Channel.code : Channel → Nat | .serve => 0 | .hold => 1 | .barred => 2
/-- R185. -/
def Link.code : Link → Nat | .silent => 0 | .online => 1
/-- R185. -/
def Side.code : Side → Nat | .outside => 0 | .inside => 1
/-- R185. -/
def SupplyMode.code : SupplyMode → Nat | .run => 0 | .reserve => 1 | .standby => 2
/-- R185. -/
def LineRate.code : LineRate → Nat | .r19200 => 0 | .r38400 => 1 | .r76800 => 2
/-- R185. -/
def HalfId.code : HalfId → Nat | .a => 1 | .b => 2
/-- R185: 0 for none. -/
def halfCode : Option HalfId → Nat | some h => h.code | none => 0
/-- R185. -/
def HalfState.code : HalfState → Nat | .filling => 0 | .closed => 1 | .free => 2
/-- R185. -/
def Door.code : Door → Nat
  | .unknown => 0 | .secure => 1 | .released _ => 2 | .opened _ => 3 | .heldOpen => 4 | .forcedOpen => 5
/-- R180: expected report toggle, 2 for adopt. -/
def Expected.code : Expected → Nat | .toggle t => t.toNat | .adopt => 2
/-- R180: pending door events in their order of raising. -/
def eventsCode : List DoorEvent → Nat
  | [] => 0
  | [.commit] => 1
  | [.lapse silence] => if silence then 3 else 2
  | .commit :: .lapse silence :: _ => if silence then 5 else 4
  | .lapse silence :: .commit :: _ => if silence then 7 else 6
  | .commit :: .commit :: _ => 1
  | .lapse _ :: .lapse silence :: _ => if silence then 3 else 2

/-- R47: the class of each reason that a verdict carries. The reasons of no verdict take SYSTEM; no verdict holds one. -/
def Reason.cls : Reason → ReasonClass
  | .granted | .repeated | .groupComplete => .proceed
  | .exit => .exit
  | .awaitPartner | .awaitEscort | .groupFull | .pairingFull | .pairingTimeout => .partner
  | .revoked | .passback | .noPermit | .roomNotPermitted | .suspended | .notYetValid | .expired | .outsideHours
  | .allowanceSpent | .tooLate => .card
  | .roomClosed | .roomFull | .occupancyFull => .room
  | .clockUnset | .stationBarred | .stationSilent | .trailFull => .system
  | .none | .releaseExpired | .earlyExit | .restart | .operator | .forced | .alert _ | .cause _ | .restarted _ => .system

/-! ### Flag bytes -/

/-- R180: bit 0 is UNSET, bit 1 is CLOCK_END. -/
def clockFlags (c : Clock) : Byte := BitVec.ofNat 8 (c.unset.toNat + 2 * c.ended.toNat)

/-- R180: bit 0 is frame discarded, bit 1 is notices dropped. -/
def lineFlags (h : HostLine) : Byte := BitVec.ofNat 8 (h.frameDiscarded.toNat + 2 * h.noticesDropped.toNat)

/-! ### Frames and replies -/

/-- Section 12.1: the kind of a reply is the request's kind with 0x80 added, and 0xFF for a kind of 0x80 or above. -/
def replyKind (kind : Byte) : Byte := if 0x80 ≤ kind.toNat then 0xFF else kind + 0x80

/-- The reply to a frame: its kind and tag, the reply code, and for OK the body (section 12.1, R164). -/
def replyFrame (request : Frame) (code : ReplyCode) (body : List Byte) : Frame where
  kind := replyKind request.kind
  tag := request.tag
  body := BitVec.ofNat 8 code.code :: (if code = .ok then body else [])

/-- R163: a BUSY reply carries the refused frame's kind and tag and the code alone. -/
def busyFrame (refused : Byte × Byte) : Frame := replyFrame ⟨refused.1, refused.2, []⟩ .busy []

/-- R180: the settings block. -/
def settingsBlock (x : Settings) : List Byte :=
  leBytes 2 x.pollPeriod ++ leBytes 1 x.reserveFactor ++ leBytes 1 x.silenceThreshold ++ leBytes 1 x.bitRate.code
    ++ leBytes 1 x.sweepInterval ++ [boolByte x.requestFirst, boolByte x.sweepEarly, boolByte x.decisionNotices]
    ++ leBytes 1 x.weekdayOffset

/-- R180: the trail block. -/
def trailBlock (t : Trail) : List Byte :=
  leBytes 1 t.a.state.code ++ leBytes 1 t.a.records.length ++ leBytes 1 t.b.state.code ++ leBytes 1 t.b.records.length
    ++ leBytes 2 t.lost ++ leBytes 1 (halfCode t.lastClosed)

/-- R180: the room configuration block. -/
def roomBlock (n : Nat) (r : Room) : List Byte :=
  leBytes 1 n ++ leBytes 1 r.cls.code ++ leBytes 1 r.capacity ++ leBytes 1 r.escortRatio ++ leBytes 1 r.minStay
    ++ leBytes 1 r.grace ++ leBytes 1 r.pairingWindow ++ leBytes 2 r.loneLimit ++ leBytes 2 r.unescortedLimit
    ++ [boolByte r.strict]

/-- R180: the occupant entry. Entry second and stay deadline are 0 while ADMITTING. -/
def occupantEntry (o : Occupant) : List Byte :=
  leBytes 4 o.credential ++ leBytes 2 o.permit ++ leBytes 1 o.role.code ++ [boolByte o.needsEscort]
    ++ leBytes 1 o.station
    ++ (match o.presence with
        | .admitting => leBytes 1 0 ++ leBytes 5 0 ++ leBytes 4 0
        | .inside entry deadline => leBytes 1 1 ++ leBytes 5 entry ++ leBytes 4 deadline)
    ++ leBytes 1 o.overstay.code ++ [boolByte o.revokedInside]

/-- R128: the remaining seconds of the running timer, 0 when none runs. -/
def Door.remaining : Door → Nat
  | .released n => n
  | .opened n => n
  | .unknown | .secure | .heldOpen | .forcedOpen => 0

/-- R180: the pending verdict of a station report: present, outcome, full reason, release seconds, toggle, sent marker. -/
def verdictBlock : Option Verdict → List Byte
  | none => leBytes 6 0
  | some v =>
    1 :: leBytes 1 v.outcome.code ++ leBytes 1 v.reason.code ++ leBytes 1 v.seconds ++ [boolByte v.toggle, boolByte v.sent]

/-- R180: the last presentation of a station report. -/
def lastBlock : Option LastPresentation → List Byte
  | none => leBytes 13 0
  | some l =>
    1 :: leBytes 1 l.side.code ++ leBytes 4 l.credential ++ leBytes 5 l.taken ++ leBytes 1 l.outcome.code
      ++ leBytes 1 l.reason.code

/-- R180: the station report. -/
def stationReport (n : Nat) (st : Station) : List Byte :=
  leBytes 1 n ++ leBytes 1 st.room ++ leBytes 1 st.releaseTime ++ leBytes 2 st.heldLimit ++ leBytes 1 st.channel.code
    ++ leBytes 1 st.link.code ++ leBytes 1 st.missed ++ leBytes 1 st.expected.code ++ [boolByte st.acknowledge]
    ++ verdictBlock st.verdict ++ [boolByte st.verdictToggle] ++ leBytes 1 st.door.code ++ leBytes 2 st.door.remaining
    ++ leBytes 1 (eventsCode st.events) ++ lastBlock st.last ++ [boolByte st.corrupt]

/-- R181: a rooms list as a count and 12 bytes, the bytes beyond the count 0. -/
def roomsField (rooms : List Nat) : List Byte :=
  leBytes 1 rooms.length ++ (List.range 12).map (fun i => BitVec.ofNat 8 (rooms.getD i 0))

/-- R181: the daily window with its presence byte. -/
def windowField : Option Window → List Byte
  | none => leBytes 6 0
  | some w => 1 :: leBytes 2 w.fromMinute ++ leBytes 2 w.toMinute ++ leBytes 1 w.mask.toNat

/-- R181: the permit body. -/
def permitBody (p : Permit) : List Byte :=
  leBytes 2 p.number ++ leBytes 4 p.credential ++ leBytes 1 p.role.code ++ leBytes 1 p.status.code
    ++ [boolByte p.needsEscort] ++ roomsField p.rooms ++ leBytes 4 p.validFrom ++ leBytes 4 p.validUntil
    ++ windowField p.window ++ leBytes 2 p.maxStay
    ++ (match p.allowance with | none => leBytes 3 0 | some n => 1 :: leBytes 2 n)

/-- R181: the permit report: slot, permit body, in-use count. -/
def permitReport (slot : Nat) (p : Permit) (inUse : Nat) : List Byte :=
  leBytes 1 slot ++ permitBody p ++ leBytes 1 inUse

/-- R168, R180: the identity, with the capacities in the order of R168. -/
def identityBlock (rateCode : Nat) : List Byte :=
  leBytes 1 Config.familyCode ++ leBytes 2 Config.partNumber ++ leBytes 1 Config.revision ++ leBytes 1 rateCode
    ++ leBytes 1 Config.rooms ++ leBytes 1 Config.stations ++ leBytes 2 Config.permitSlots
    ++ leBytes 1 Config.permitsPerCredential ++ leBytes 1 Config.revocations ++ leBytes 1 Config.poolRecords
    ++ leBytes 1 Config.groups ++ leBytes 1 Config.membersPerGroup ++ leBytes 1 Config.presentations
    ++ leBytes 1 Config.deadlines ++ leBytes 1 Config.trailHalves ++ leBytes 1 Config.recordsPerHalf
    ++ leBytes 1 Config.notices

/-- R169, R180: the status. -/
def statusBlock (s : State) : List Byte :=
  leBytes 1 s.supply.mode.code ++ [boolByte s.supply.byRequest, clockFlags s.clock] ++ trailBlock s.trail
    ++ leBytes 2 s.permits.length ++ leBytes 1 s.revoked.length ++ leBytes 1 s.pool.length ++ leBytes 1 s.groups.length
    ++ leBytes 1 s.deadlines.length ++ leBytes 1 s.presentations.length ++ leBytes 1 s.sweep.owed
    ++ [lineFlags s.host] ++ leBytes 1 s.supply.lastKind.code ++ [boolByte s.supply.retentionLost]

/-! ### Trail records and notices -/

/-- R184: the six value bytes. -/
def TrailValue.bytes : TrailValue → List Byte
  | .number n => leBytes 6 n
  | .pair old new => leBytes 1 old ++ leBytes 1 new ++ leBytes 4 0

/-- R184: the 22 bytes of a trail record. -/
def TrailRecord.bytes (r : TrailRecord) : List Byte :=
  leBytes 1 r.kind.code ++ leBytes 2 r.day ++ leBytes 4 r.second ++ leBytes 1 r.station ++ leBytes 1 r.room
    ++ leBytes 4 r.credential ++ leBytes 2 r.permit ++ leBytes 1 r.reason.code ++ r.value.bytes

/-- R182: the kind of a notice. -/
def Notice.kind : Notice → Byte
  | .ready _ _ => 0x40
  | .decision _ => 0x41
  | .alert _ => 0x42
  | .link _ _ => 0x43
  | .trailHalf _ _ _ => 0x44
  | .retired _ _ _ => 0x45
  | .mode _ _ _ => 0x46

/-- R182: the body of a notice. -/
def Notice.body : Notice → List Byte
  | .ready kind lost => leBytes 1 kind.code ++ [boolByte lost]
  | .decision d =>
    leBytes 1 d.station ++ leBytes 1 d.side.code ++ leBytes 4 d.credential ++ leBytes 5 d.taken ++ leBytes 5 d.decided
      ++ leBytes 1 d.outcome.code ++ leBytes 1 d.reason.code ++ leBytes 2 d.permit ++ leBytes 1 d.room
  | .alert n =>
    leBytes 1 n.kind.code ++ leBytes 1 n.level.code ++ leBytes 1 n.room ++ leBytes 1 n.station ++ leBytes 4 n.credential
      ++ leBytes 2 n.permit ++ leBytes 1 (match n.channel with | some c => c.code | none => 0)
  | .link st l => leBytes 1 st ++ leBytes 1 l.code
  | .trailHalf half byRequest full => leBytes 1 half.code ++ [boolByte byRequest, boolByte full]
  | .retired permit credential slot =>
    leBytes 2 permit ++ leBytes 4 credential ++ leBytes 1 slot
  | .mode old new cause => leBytes 1 old.code ++ leBytes 1 new.code ++ leBytes 1 cause.code

/-- R167, R182: a notice's frame carries tag 0. -/
def Notice.frame (n : Notice) : Frame := ⟨n.kind, 0, n.body⟩

/-! ### Calls -/

/-- A character with the mark bit clear. -/
def plainChar (data : Byte) : StationChar := ⟨false, false, data⟩

/-- R135, R183: the characters of a call before the check character. -/
def callBody (address : Nat) (st : Station) : List StationChar :=
  match st.verdict with
  | none =>
    [⟨true, false, BitVec.ofNat 8 address⟩,
     plainChar (BitVec.ofNat 8 (st.acknowledge.toNat + 4 * st.verdictToggle.toNat))]
  | some v =>
    [⟨true, false, BitVec.ofNat 8 address⟩,
     plainChar (BitVec.ofNat 8 (st.acknowledge.toNat + 2 + 4 * v.toggle.toNat)),
     plainChar (BitVec.ofNat 8 (v.outcome.code + 16 * v.reason.cls.code)),
     plainChar (BitVec.ofNat 8 v.seconds)]

/-- R135, R183: a call, with the check character that makes the sum of its characters 0 modulo 256. -/
def callChars (address : Nat) (st : Station) : List StationChar :=
  callBody address st ++ [plainChar (-(charSum (callBody address st)))]

end Sys2Proof.Machine
end

