-- ==== Sys2Proof/Machine/Ops.lean ====
section
/-! DEFINITION. The operations the commands share: tables and queues, the trail, notices and replies, verdicts, the
requirement test and the room alerts, removal of records, pairing groups, stay accounting, door events, the supply mode
and the passing of a second. -/
namespace Sys2Proof.Machine

/-! ### Numbered tables -/

/-- Entry `n` of a table numbered from 1, or the default where there is no such entry. -/
def nth {α : Type} (l : List α) (n : Nat) (d : α) : α :=
  match n with
  | 0 => d
  | k + 1 => l.getD k d

/-- A table numbered from 1 with entry `n` replaced. -/
def setNth {α : Type} (l : List α) (n : Nat) (x : α) : List α :=
  match n with
  | 0 => l
  | k + 1 => l.set k x

/-- R22. -/
def State.room (s : State) (n : Nat) : Room := nth s.rooms n defaultRoom
/-- R22. -/
def State.setRoom (s : State) (n : Nat) (r : Room) : State := { s with rooms := setNth s.rooms n r }
/-- R128. -/
def State.station (s : State) (n : Nat) : Station := nth s.stations n defaultStation
/-- R128. -/
def State.setStation (s : State) (n : Nat) (st : Station) : State := { s with stations := setNth s.stations n st }

/-! ### Estate time -/

/-- R84: the estate second. -/
def Clock.estateSecond (c : Clock) : Nat := c.day * Config.daySeconds + c.second

/-- R84, R116: the now of a job, in seconds and in minutes. -/
def State.now (s : State) : Nat := s.clock.estateSecond
/-- R84. -/
def State.nowMinute (s : State) : Nat := s.now / 60

/-- R85: the weekday of a day, 0 Monday to 6 Sunday. -/
def weekday (offset day : Nat) : Nat := (day + offset) % 7

/-- R87: the clock at its last second, held. -/
def Clock.atEnd (c : Clock) : Clock := { c with day := 65535, second := 86399, ended := true }

/-- R84, R86, R87: one second counted from the crystal. -/
def Clock.tick (c : Clock) : Clock :=
  if c.unset || c.ended then c
  else if Config.lastSecond ≤ c.estateSecond + 1 then c.atEnd
  else if c.second + 1 < Config.daySeconds then { c with second := c.second + 1 }
  else { c with day := c.day + 1, second := 0 }

/-! ### The deadline queue -/

/-- R93: an inserted entry takes its place after every entry with an earlier or equal due second. -/
def insertDeadline (e : DeadlineEntry) : List DeadlineEntry → List DeadlineEntry
  | [] => [e]
  | x :: xs => if x.due ≤ e.due then x :: insertDeadline e xs else e :: x :: xs

/-- R93. -/
def State.schedule (s : State) (due : Nat) (what : Due) : State :=
  { s with deadlines := insertDeadline ⟨due, what⟩ s.deadlines }

/-- R93: a removed entry leaves the queue; the others keep their order. -/
def State.unschedule (s : State) (what : Due) : State :=
  { s with deadlines := s.deadlines.filter (fun e => e.what ≠ what) }

/-- R94: the head of the queue, when it is due. -/
def State.dueHead (s : State) : Option DeadlineEntry :=
  match s.deadlines with
  | e :: _ => if e.due ≤ s.now then some e else none
  | [] => none

/-! ### Notices, the trail and replies -/

/-- R166: a notice enters the queue, or is dropped with the flag set when the queue holds 16. The transmitter looks at
the queue when the step ends (log entry 9). -/
def State.offer (s : State) (n : Notice) : State :=
  if s.host.notices.length < Config.notices then
    { s with host := { s.host with notices := s.host.notices ++ [n] } }
  else { s with host := { s.host with noticesDropped := true } }

/-- R64: a DECISION notice, while the setting is on. -/
def State.offerDecision (s : State) (d : DecisionNotice) : State :=
  if s.settings.decisionNotices then s.offer (.decision d) else s

/-- R150: the half that is FILLING. -/
def Trail.filling (t : Trail) : Option HalfId :=
  if t.a.state = .filling then some .a else if t.b.state = .filling then some .b else none

/-- R150: FULL, neither half FILLING. -/
def Trail.full (t : Trail) : Bool := t.filling.isNone

/-- R150. -/
def Trail.half (t : Trail) : HalfId → Half
  | .a => t.a
  | .b => t.b

/-- R150. -/
def Trail.setHalf (t : Trail) (h : HalfId) (x : Half) : Trail :=
  match h with
  | .a => { t with a := x }
  | .b => { t with b := x }

/-- R150. -/
def HalfId.other : HalfId → HalfId
  | .a => .b
  | .b => .a

/-- R153, R156: a FILLING half is closed with the records given; a FREE other half begins to fill. -/
def Trail.close (t : Trail) (h : HalfId) (records : List TrailRecord) : Trail :=
  let closed := { t.setHalf h ⟨.closed, records⟩ with lastClosed := some h }
  if (t.half h.other).state = .free then closed.setHalf h.other ⟨.filling, []⟩ else closed

/-- R153, R154: a record handed to the trail is written, closing the half at its 64th record with a TRAIL-HALF notice,
or is lost and counted while the trail is FULL. -/
def Trail.put (t : Trail) (r : TrailRecord) : Trail × Option Notice :=
  match t.filling with
  | none => ({ t with lost := min Config.count16 (t.lost + 1) }, none)
  | some h =>
    if (t.half h).records.length + 1 < Config.recordsPerHalf then
      (t.setHalf h ⟨.filling, (t.half h).records ++ [r]⟩, none)
    else
      let t' := t.close h ((t.half h).records ++ [r])
      (t', some (.trailHalf h false t'.full))

/-- R151: the estate day and second of a record, 0 while the clock is UNSET. -/
def State.stamp (s : State) (r : TrailRecord) : TrailRecord :=
  { r with day := if s.clock.unset then 0 else s.clock.day, second := if s.clock.unset then 0 else s.clock.second }

/-- The TRAIL-HALF notice of a write, if there is one (R153). -/
def State.offerSome (s : State) : Option Notice → State
  | none => s
  | some n => s.offer n

/-- A record handed to the trail now (R151, R153, R154). -/
def State.put (s : State) (r : TrailRecord) : State :=
  ({ s with trail := (s.trail.put (s.stamp r)).1 } : State).offerSome (s.trail.put (s.stamp r)).2

/-- R165: a free transmitter begins the first of: the reply handed, the oldest BUSY reply, the head notice. -/
def HostLine.begin (h : HostLine) : HostLine :=
  match h.sending with
  | some _ => h
  | none =>
    match h.reply with
    | some f => { h with reply := none, sending := some ⟨f, .reply⟩ }
    | none =>
      match h.busy with
      | b :: bs => { h with busy := bs, sending := some ⟨busyFrame b, .busy⟩ }
      | [] =>
        match h.notices with
        | n :: ns => { h with notices := ns, sending := some ⟨n.frame, .notice⟩ }
        | [] => h

/-- R165, at the end of a step. -/
def State.pump (s : State) : State := { s with host := s.host.begin }

/-- R164: the reply to the outstanding request is handed to the transmitter. -/
def State.hand (s : State) (request : Frame) (code : ReplyCode) (body : List Byte) : State :=
  { s with
    host := { s.host with outstanding := some ⟨request, true⟩, reply := some (replyFrame request code body) } }

/-- R164: a request checked and served. A refused request changes no state; its reply carries the code. -/
def State.answer (s : State) (request : Frame) (result : Except ReplyCode (State × List Byte)) : State :=
  match result with
  | .error code => (s.hand request code []).pump
  | .ok (s', body) => (s'.hand request .ok body).pump

/-! ### Permits (chapter 1) -/

/-- R1: the lowest free slot at or above `n`, of slots in ascending order. -/
def lowestFree (n : Nat) : List (Nat × Permit) → Nat
  | [] => n
  | (k, _) :: rest => if k = n then lowestFree (n + 1) rest else n

/-- A permit in its slot, slots kept in ascending order. -/
def insertPermit (slot : Nat) (p : Permit) : List (Nat × Permit) → List (Nat × Permit)
  | [] => [(slot, p)]
  | (k, q) :: rest => if slot < k then (slot, p) :: (k, q) :: rest else (k, q) :: insertPermit slot p rest

/-- R1: a permit found by its number, with its slot. -/
def State.permit (s : State) (number : Nat) : Option (Nat × Permit) := s.permits.find? (fun e => e.2.number = number)

/-- A permit's stored fields changed, its slot kept. -/
def State.updatePermit (s : State) (number : Nat) (f : Permit → Permit) : State :=
  { s with permits := s.permits.map (fun e => if e.2.number = number then (e.1, f e.2) else e) }

/-- A permit removed and its slot freed (R13, R125). -/
def State.dropPermit (s : State) (number : Nat) : State :=
  { s with permits := s.permits.filter (fun e => e.2.number ≠ number) }

/-- Ascending permit number (R1 item 2). -/
def insertByNumber (p : Permit) : List Permit → List Permit
  | [] => [p]
  | q :: qs => if p.number < q.number then p :: q :: qs else q :: insertByNumber p qs

/-- R15, R56: the permits naming a credential, in ascending permit number. -/
def State.permitsOf (s : State) (credential : Nat) : List Permit :=
  ((s.permits.map Prod.snd).filter (fun p => p.credential = credential)).foldr insertByNumber []

/-- All members of all groups (R28). -/
def State.members (s : State) : List Member := s.groups.flatMap Group.members

/-- R5: the in-use count of a permit. -/
def State.inUse (s : State) (number : Nat) : Nat :=
  s.pool.countP (fun o => o.permit = number) + s.members.countP (fun m => m.permit = number)

/-! ### Rooms (chapter 2) -/

/-- R28: a room's occupancy list, oldest first. -/
def State.occupants (s : State) (room : Nat) : List Occupant := s.pool.filter (fun o => o.room = room)

/-- The groups waiting at a room's stations, in ascending station order (R70). -/
def State.groupsOf (s : State) (room : Nat) : List Group := s.groups.filter (fun g => g.room = room)

/-- R28: the places reserved in a room by group members. -/
def State.reserved (s : State) (room : Nat) : Nat := ((s.groupsOf room).flatMap Group.members).length

/-- The record of a credential (R53: there is at most one). -/
def State.recordOf (s : State) (credential : Nat) : Option Occupant := s.pool.find? (fun o => o.credential = credential)

/-- The group a credential is a member of, with the member. -/
def State.membershipOf (s : State) (credential : Nat) : Option (Group × Member) :=
  s.groups.findSome? (fun g => (g.members.find? (fun m => m.credential = credential)).map (fun m => (g, m)))

/-- The group waiting at a station (R70). -/
def State.groupAt (s : State) (station : Nat) : Option Group := s.groups.find? (fun g => g.station = station)

/-- The ADMITTING records of a station, in list order (R31). -/
def State.admittingAt (s : State) (station : Nat) : List Occupant :=
  s.pool.filter (fun o => o.station = station ∧ o.presence = .admitting)

/-- R23: counts-as-needing-escort. -/
def countsAsNeedingEscort (role : Role) (mode : RoomMode) (permitNeeds : Bool) : Bool :=
  match role, mode with
  | .escort, _ => false
  | .worker, .escortedOnly => true
  | .worker, .service => permitNeeds
  | .worker, .closed => permitNeeds

/-- R23. -/
def Occupant.person (o : Occupant) : Person := ⟨o.role, o.needsEscort⟩
/-- R23. -/
def Member.person (m : Member) : Person := ⟨m.role, m.needsEscort⟩

/-- R23: W is no greater than E multiplied by the escort ratio. -/
def escortsCover (room : Room) (ps : List Person) : Bool :=
  ps.countP (fun p => p.needsEscort) ≤ ps.countP (fun p => p.role = .escort) * room.escortRatio

/-- R23: the two-person part of the requirement test. -/
def twoPersonPart (room : Room) (ps : List Person) : Bool := room.cls == .general || 2 ≤ ps.length

/-- R23: the requirement test. -/
def requirementTest (room : Room) (ps : List Person) : Bool := twoPersonPart room ps && escortsCover room ps

/-- R74: the reason of a WAIT. -/
def waitReason (room : Room) (ps : List Person) : Reason :=
  if twoPersonPart room ps then .awaitEscort else .awaitPartner

/-- R74: the set of a group's completion test. -/
def State.personsWith (s : State) (g : Group) : List Person :=
  (s.occupants g.room).map Occupant.person ++ g.members.map Member.person

/-! ### Room alerts (R35 to R38) -/

/-- R35. -/
def RoomAlert.kind : RoomAlert → AlertKind
  | .lone => .lone
  | .unescorted => .unescorted
/-- R92. -/
def RoomAlert.due (a : RoomAlert) (room : Nat) : Due :=
  match a with
  | .lone => .loneLimit room
  | .unescorted => .unescortedLimit room
/-- R22. -/
def RoomAlert.level (a : RoomAlert) (r : Room) : Level :=
  match a with
  | .lone => r.lone
  | .unescorted => r.unescorted
/-- R22. -/
def RoomAlert.setLevel (a : RoomAlert) (r : Room) (l : Level) : Room :=
  match a with
  | .lone => { r with lone := l }
  | .unescorted => { r with unescorted := l }
/-- R37, R38: the alert's limit in seconds. -/
def RoomAlert.limit (a : RoomAlert) (r : Room) : Nat :=
  match a with
  | .lone => r.loneLimit
  | .unescorted => r.unescortedLimit
/-- R37, R38: the alert's condition over the persons on the room's list. -/
def RoomAlert.stands (a : RoomAlert) (r : Room) (ps : List Person) : Bool :=
  match a with
  | .lone => r.cls == .twoPerson && ps.length == 1
  | .unescorted => !escortsCover r ps

/-- A room alert moved to a level, with its ALERT notice and its ALERT record (R35, R39). -/
def State.moveRoomAlert (s : State) (a : RoomAlert) (room : Nat) (l : Level) : State :=
  ((s.setRoom room (a.setLevel (s.room room) l)).offer (.alert { kind := a.kind, level := l, room := room })).put
    { kind := .alert, room := room, reason := .alert a.kind, value := .number l.code }

/-- R35: one alert of one room re-evaluated. -/
def State.reevaluate (s : State) (a : RoomAlert) (room : Nat) : State :=
  match a.level (s.room room), a.stands (s.room room) ((s.occupants room).map Occupant.person) with
  | .clear, true => (s.moveRoomAlert a room .raised).schedule (s.now + a.limit (s.room room)) (a.due room)
  | .clear, false => s
  | .raised, true => s
  | .escalated, true => s
  | .raised, false => (s.moveRoomAlert a room .clear).unschedule (a.due room)
  | .escalated, false => (s.moveRoomAlert a room .clear).unschedule (a.due room)

/-- R36: the room's alerts re-evaluated, LONE before UNESCORTED. -/
def State.reevaluateRoom (s : State) (room : Nat) : State := (s.reevaluate .lone room).reevaluate .unescorted room

/-! ### Verdicts (R48, R140) -/

/-- R48, R140: a verdict placed in a station's slot. The release seconds of a RELEASE are the station's release time
(R47). -/
def Station.place (st : Station) (outcome : VerdictOutcome) (reason : Reason) : Station :=
  let seconds := if outcome = .release then st.releaseTime else 0
  match st.verdict with
  | none => { st with verdict := some ⟨outcome, reason, seconds, st.verdictToggle, false⟩ }
  | some old =>
    if old.outcome = .release ∧ outcome ≠ .release then st
    else if old.sent then
      { st with
        verdictToggle := !st.verdictToggle, verdict := some ⟨outcome, reason, seconds, !st.verdictToggle, false⟩ }
    else { st with verdict := some ⟨outcome, reason, seconds, old.toggle, false⟩ }

/-- R48. -/
def State.placeVerdict (s : State) (station : Nat) (outcome : VerdictOutcome) (reason : Reason) : State :=
  s.setStation station ((s.station station).place outcome reason)

/-- R49: the presenting station's last presentation. -/
def State.setLast (s : State) (p : Presentation) (outcome : VerdictOutcome) (reason : Reason) : State :=
  s.setStation p.station { s.station p.station with last := some ⟨p.side, p.credential, p.taken, outcome, reason⟩ }

/-! ### Stay accounting (chapter 6) -/

/-- R100: a weekday is in the mask. -/
def Window.holds (w : Window) (offset day : Nat) : Bool := w.mask.getLsbD (weekday offset day)

/-- R100 to R103: the occurrence test of a daily window at an estate minute. -/
def occurrence (window : Option Window) (offset minute : Nat) : Occurrence :=
  match window with
  | none => .inside none
  | some w =>
    let d := minute / Config.dayMinutes
    let m := minute % Config.dayMinutes
    if w.mask = 0 then .outside
    else if w.fromMinute < w.toMinute then
      if w.fromMinute ≤ m ∧ m < w.toMinute ∧ w.holds offset d then .inside (some (d * Config.dayMinutes + w.toMinute))
      else .outside
    else if w.toMinute < w.fromMinute then
      if w.fromMinute ≤ m ∧ w.holds offset d then .inside (some ((d + 1) * Config.dayMinutes + w.toMinute))
      else if m < w.toMinute ∧ 1 ≤ d ∧ w.holds offset (d - 1) then .inside (some (d * Config.dayMinutes + w.toMinute))
      else .outside
    else if w.holds offset d then
      match (List.range' 1 6).find? (fun k => !w.holds offset (d + k)) with
      | none => .inside none
      | some k => .inside (some ((d + k) * Config.dayMinutes))
    else .outside

/-- The lesser of a deadline and a bound; an unlimited bound takes no part (R104). -/
def boundedBy (deadline : Nat) : Option Nat → Nat
  | none => deadline
  | some b => min deadline b

/-- R104: the occurrence bound, unlimited outside every occurrence. -/
def Occurrence.bound : Occurrence → Option Nat
  | .outside => none
  | .inside fin => fin

/-- R104: the stay deadline for an entry minute under a permit. -/
def stayDeadline (p : Permit) (offset entryMinute : Nat) : Nat :=
  min Config.lastMinute
    (boundedBy (boundedBy (min (entryMinute + p.maxStay) p.validUntil) (occurrence p.window offset entryMinute).bound)
      (p.allowance.map (fun a => entryMinute + a)))

/-- R113: the debit in minutes of a stay. -/
def debitMinutes (entry now : Nat) : Nat := if now ≤ entry + 60 then 1 else (now - entry + 59) / 60

/-- R114: the allowance after a debit. -/
def Permit.debited (p : Permit) (minutes : Nat) : Permit := { p with allowance := p.allowance.map (fun a => a - minutes) }

/-- R32, R113, R114: the minutes a removal reports. -/
def State.reportedDebit (s : State) (o : Occupant) : Nat :=
  match o.presence, s.permit o.permit with
  | .inside entry _, some (_, p) =>
    match p.allowance with
    | some _ => min Config.count16 (debitMinutes entry s.now)
    | none => 0
  | .inside _ _, none => 0
  | .admitting, _ => 0

/-- R33 step 1: the debit of an INSIDE record. -/
def State.debit (s : State) (o : Occupant) : State :=
  match o.presence with
  | .inside entry _ => s.updatePermit o.permit (fun p => p.debited (debitMinutes entry s.now))
  | .admitting => s

/-! ### Records leaving and joining the pool (R30, R33) -/

/-- The ALERT notice of an occupant alert (R40). -/
def Occupant.notice (o : Occupant) (kind : AlertKind) (l : Level) : Notice :=
  .alert { kind := kind, level := l, room := o.room, station := o.station, credential := o.credential, permit := o.permit }

/-- The ALERT trail record of an occupant alert (R40, R152). -/
def Occupant.record (o : Occupant) (kind : AlertKind) (l : Level) : TrailRecord :=
  { kind := .alert, station := o.station, room := o.room, credential := o.credential, permit := o.permit,
    reason := .alert kind, value := .number l.code }

/-- A record of the pool changed, its place kept. -/
def State.updateRecord (s : State) (credential : Nat) (f : Occupant → Occupant) : State :=
  { s with pool := s.pool.map (fun o => if o.credential = credential then f o else o) }

/-- R93: the deadline-queue entry of a record removed, whichever it has. -/
def State.unscheduleRecord (s : State) (credential : Nat) : State :=
  (s.unschedule (.stayDeadline credential)).unschedule (.escalation credential)

/-- R33 step 4: the notice that clears an overstay level, where one stands. -/
def State.clearOverstay (s : State) (o : Occupant) : State :=
  if o.overstay = .clear then s else s.offer (o.notice .overstay .clear)

/-- R33 step 4: the notice that clears a revoked-inside marker, where it is set. -/
def State.clearRevoked (s : State) (o : Occupant) : State :=
  if o.revokedInside then s.offer (o.notice .revokedInside .clear) else s

/-- R33 steps 3 to 5: the record's entry removed, its alerts cleared, its pool place freed. -/
def State.leave (s : State) (o : Occupant) : State :=
  let s1 := ((s.unscheduleRecord o.credential).clearOverstay o).clearRevoked o
  { s1 with pool := s1.pool.filter (fun x => x.credential ≠ o.credential) }

/-- R32: an ADMITTING record removed by a lapse (R33 steps 1 to 5). -/
def State.lapse (reason : Reason) (s : State) (o : Occupant) : State :=
  (s.put { kind := .lapse, station := o.station, room := o.room, credential := o.credential, permit := o.permit,
           reason := reason }).leave o

/-- R30: the ADMITTING record of a presenter under the chosen permit. -/
def newRecord (s : State) (station room credential : Nat) (p : Permit) : Occupant where
  credential := credential
  permit := p.number
  role := p.role
  needsEscort := countsAsNeedingEscort p.role (s.room room).mode p.needsEscort
  room := room
  station := station
  presence := .admitting
  overstay := .clear
  revokedInside := false

/-- R76 step 2: the ADMITTING record of a group member. Its counts-as-needing-escort value is the member's present value. -/
def Member.toRecord (g : Group) (m : Member) : Occupant where
  credential := m.credential
  permit := m.permit
  role := m.role
  needsEscort := m.needsEscort
  room := g.room
  station := g.station
  presence := .admitting
  overstay := .clear
  revokedInside := false

/-! ### Pairing groups (chapter 4) -/

/-- The groups in ascending station order. -/
def insertGroup (g : Group) : List Group → List Group
  | [] => [g]
  | x :: xs => if g.station < x.station then g :: x :: xs else x :: insertGroup g xs

/-- R70: the group at a station ended. -/
def State.dropGroup (s : State) (station : Nat) : State :=
  { s with groups := s.groups.filter (fun g => g.station ≠ station) }

/-- The group at a station with other members (R73, R79). -/
def State.setMembers (s : State) (station : Nat) (members : List Member) : State :=
  { s with groups := s.groups.map (fun g => if g.station = station then { g with members := members } else g) }

/-- R77: the GROUP_GRANT record of one member, and its DECISION notice. `tap` is the presenter of a completing join with
the estate second his report was taken. -/
def State.grantMember (g : Group) (tap : Option (Nat × Nat)) (s : State) (m : Member) : State :=
  (s.put { kind := .groupGrant, station := g.station, room := g.room, credential := m.credential, permit := m.permit,
           reason := .groupComplete, value := .number g.members.length }).offerDecision
    { station := g.station, side := .outside, credential := m.credential
      taken := match tap with
        | some (c, taken) => if c = m.credential then taken else m.joined
        | none => m.joined
      decided := s.now, outcome := .release, reason := .groupComplete, permit := m.permit, room := g.room }

/-- R76 steps 1 to 6: a group completed. -/
def State.completeGroup (s : State) (g : Group) (tap : Option (Nat × Nat)) : State :=
  let s1 := s.unschedule (.pairing g.station)
  let s2 : State := { s1 with pool := s1.pool ++ g.members.map (Member.toRecord g) }
  let s3 := (s2.dropGroup g.station).placeVerdict g.station .release .groupComplete
  (g.members.foldl (State.grantMember g tap) s3).reevaluateRoom g.room

/-- R74: a group passes its completion test. -/
def State.passes (s : State) (g : Group) : Bool := requirementTest (s.room g.room) (s.personsWith g)

/-- R75: the groups of a room re-tested in ascending station order, starting again after each completion. `fuel` is the
number of groups: each completion removes one. -/
def State.retestFor : Nat → Nat → State → State
  | 0, _, s => s
  | fuel + 1, room, s =>
    match (s.groupsOf room).find? s.passes with
    | none => s
    | some g => State.retestFor fuel room (s.completeGroup g none)

/-- R75. -/
def State.retest (s : State) (room : Nat) : State := State.retestFor s.groups.length room s

/-- R33 steps 6 and 7. -/
def State.afterRemoval (s : State) (room : Nat) : State := (s.reevaluateRoom room).retest room

/-- A member denied: the DENY record and the DECISION notice (R78, R79, R80). -/
def State.denyMember (g : Group) (reason : Reason) (s : State) (m : Member) : State :=
  (s.put { kind := .deny, station := g.station, room := g.room, credential := m.credential, permit := m.permit,
           reason := reason }).offerDecision
    { station := g.station, side := .outside, credential := m.credential, taken := m.joined, decided := s.now
      outcome := .deny, reason := reason, permit := m.permit, room := g.room }

/-- R79 step 5: the group alone re-tested; a completion goes on with step 7 of R76. -/
def State.retestGroup (s : State) (station : Nat) : State :=
  match s.groupAt station with
  | none => s
  | some g => if s.passes g then (s.completeGroup g none).retest g.room else s

/-- R79: a member removed by a REVOKE or a suspending PERMIT-AMEND. -/
def State.removeMember (s : State) (g : Group) (m : Member) (reason : Reason) : State :=
  let rest := g.members.filter (fun x => x.credential ≠ m.credential)
  let s1 := (State.denyMember g reason (s.setMembers g.station rest) m).placeVerdict g.station .deny reason
  if rest = [] then (s1.unschedule (.pairing g.station)).dropGroup g.station else s1.retestGroup g.station

/-! ### Doors and door events (R118, R144 to R148) -/

/-- R118: a commit raised; a pending commit merges it. -/
def raiseCommit (events : List DoorEvent) : List DoorEvent :=
  if events.any (fun e => e = .commit) then events else events ++ [.commit]

/-- R118: a lapse raised; a pending lapse merges it, keeping its place, with cause silence if either cause was. -/
def raiseLapse (silence : Bool) : List DoorEvent → List DoorEvent
  | [] => [.lapse silence]
  | .lapse c :: rest => .lapse (c || silence) :: rest
  | .commit :: rest => .commit :: raiseLapse silence rest

/-- R148: an ADMITTING record names the station. -/
def State.hasAdmitting (s : State) (station : Nat) : Bool :=
  s.pool.any (fun o => o.station = station && o.presence = .admitting)

/-- R147: the ALERT record and the ALERT notice of a door alert. FORCED carries the station's channel. -/
def State.doorAlert (s : State) (station : Nat) (kind : AlertKind) (l : Level) : State :=
  (s.put { kind := .alert, station := station, room := (s.station station).room, reason := .alert kind
           value := .number l.code }).offer
    (.alert { kind := kind, level := l, room := (s.station station).room, station := station
              channel := if kind = .forced then some (s.station station).channel else none })

/-- A station's channel written with its CHANNEL record (R132, R147). -/
def State.writeChannel (s : State) (station : Nat) (channel : Channel) (reason : Reason) : State :=
  (s.setStation station { s.station station with channel := channel }).put
    { kind := .channel, station := station, room := (s.station station).room, reason := reason
      value := .pair (s.station station).channel.code channel.code }

/-- A station's door state written. -/
def State.setDoor (s : State) (station : Nat) (door : Door) : State :=
  s.setStation station { s.station station with door := door }

/-- A commit raised where an ADMITTING record names the station (R148). -/
def State.commitIfAdmitting (s : State) (station : Nat) : State :=
  if s.hasAdmitting station then
    s.setStation station { s.station station with events := raiseCommit (s.station station).events }
  else s

/-- A lapse raised (R148). -/
def State.raiseLapseAt (s : State) (station : Nat) (silence : Bool) : State :=
  s.setStation station { s.station station with events := raiseLapse silence (s.station station).events }

/-- R147: FORCED raised, a SERVE channel barred first. -/
def State.raiseForced (s : State) (station : Nat) : State :=
  let s1 := s.setDoor station .forcedOpen
  let s2 := if (s.station station).channel = .serve then s1.writeChannel station .barred .forced else s1
  s2.doorAlert station .forced .raised

/-- R144: the event opened. -/
def State.doorOpened (s : State) (station : Nat) : State :=
  match (s.station station).door with
  | .unknown => s.setDoor station (.opened (s.station station).heldLimit)
  | .secure => s.raiseForced station
  | .released _ => (s.setDoor station (.opened (s.station station).heldLimit)).commitIfAdmitting station
  | .opened _ => s
  | .heldOpen => s
  | .forcedOpen => s

/-- R144: the event closed. -/
def State.doorClosed (s : State) (station : Nat) : State :=
  match (s.station station).door with
  | .unknown => s.setDoor station .secure
  | .secure => s
  | .released _ => s
  | .opened _ => s.setDoor station .secure
  | .heldOpen => (s.setDoor station .secure).doorAlert station .held .clear
  | .forcedOpen => (s.setDoor station .secure).doorAlert station .forced .clear

/-- R145: a delivered RELEASE acts on the door. -/
def State.doorReleased (s : State) (station seconds : Nat) : State :=
  match (s.station station).door with
  | .unknown => s.setDoor station (.released seconds)
  | .secure => s.setDoor station (.released seconds)
  | .released _ => s.setDoor station (.released seconds)
  | .opened _ => (s.setDoor station (.opened (s.station station).heldLimit)).commitIfAdmitting station
  | .heldOpen =>
    ((s.setDoor station (.opened (s.station station).heldLimit)).doorAlert station .held .clear).commitIfAdmitting station
  | .forcedOpen => s.commitIfAdmitting station

/-! ### The supply mode and the timers -/

/-- R176: the part is held in reset. -/
def State.inReset (s : State) : Bool := s.supply.resetActive || s.supply.mainLost

/-- R149, R174: the station line runs: not in reset, and in STANDBY only until the stop. -/
def State.lineRuns (s : State) : Bool := !s.inReset && (s.supply.mode != .standby || s.supply.stopPending)

/-- R98, R174: the sweep interval timer runs as the station line does: not in reset, and in STANDBY only until the
stop. -/
def State.sweepRuns (s : State) : Bool := s.lineRuns

/-- R98: the effective interval, in seconds. Between an accepted STANDBY and its stop the timer goes on toward the
interval of the mode that STANDBY was accepted in (the model's choice, log entry 14). -/
def State.effectiveInterval (s : State) : Nat :=
  match s.supply.mode with
  | .run => s.settings.sweepInterval * 60
  | .reserve => s.settings.sweepInterval * 120
  | .standby => if s.supply.fromReserve then s.settings.sweepInterval * 120 else s.settings.sweepInterval * 60

/-- R98, R99: the sweep interval timer's expiry. -/
def Sweep.expired (w : Sweep) : Sweep := { w with count := 0, owed := min Config.owedSweeps (w.owed + 1) }

/-- R98 item 1: a count already at or above a new effective interval expires at once. -/
def State.settleSweep (s : State) : State :=
  if s.effectiveInterval ≤ s.sweep.count then { s with sweep := s.sweep.expired } else s

/-- R172: a change of supply mode, with its MODE record and MODE notice. The by-request flag is set by the caller. -/
def State.changeMode (s : State) (new : SupplyMode) (byRequest : Bool) (cause : ModeCause) : State :=
  (({ s with supply := { s.supply with mode := new, byRequest := byRequest } } : State).put
    { kind := .mode, reason := .cause cause, value := .pair s.supply.mode.code new.code }).offer
    (.mode s.supply.mode new cause)

/-- R172, R175: the mode the supply-good line gives. -/
def Supply.modeOfLine (p : Supply) : SupplyMode := if p.supplyGood then .run else .reserve

/-- R149: a bound station at a wake. -/
def wokenStation (st : Station) : Station :=
  if st.room = 0 then st else { st with door := .unknown, link := .silent, missed := 0, expected := .adopt }

/-- R134: the poll period in milliseconds, multiplied by the reserve factor while the mode is RESERVE. -/
def State.pollPeriodMs (s : State) : Nat :=
  if s.supply.mode = .reserve then s.settings.pollPeriod * s.settings.reserveFactor else s.settings.pollPeriod

/-- R136, R149, R178 step 8: the station line begins anew, with a settle round first. -/
def State.restartLine (s : State) : State :=
  { s with line := { round := none, settleNext := true, periodMs := s.pollPeriodMs, rate := s.settings.bitRate } }

/-- R175: the wake. -/
def State.wake (s : State) (cause : ModeCause) : State :=
  let s1 := s.changeMode s.supply.modeOfLine false cause
  ({ s1 with stations := s1.stations.map wokenStation, sweep := { s1.sweep with count := 0 } } : State).restartLine

/-- R175: a wake event in STANDBY wakes the part; between an accepted STANDBY and its stop it is held (R174). -/
def State.wakeEvent (s : State) (cause : ModeCause) : State :=
  if s.supply.mode ≠ .standby then s
  else if s.supply.stopPending then
    { s with supply := { s.supply with heldWake := some (s.supply.heldWake.getD cause) } }
  else s.wake cause

/-- The door's timer after one second. -/
def Door.tick : Door → Door
  | .released n => .released (n - 1)
  | .opened n => .opened (n - 1)
  | .unknown => .unknown
  | .secure => .secure
  | .heldOpen => .heldOpen
  | .forcedOpen => .forcedOpen

/-- One second counted from the crystal: the estate clock (R84), the sweep interval timer while it runs (R98) and the
stations' release and held timers (R128). In reset only the clock goes on (R176). -/
def State.tick (s : State) : State :=
  if s.inReset then { s with clock := s.clock.tick }
  else
    { s with
      clock := s.clock.tick
      sweep := if s.sweepRuns then { s.sweep with count := s.sweep.count + 1 } else s.sweep
      stations := s.stations.map (fun st => { st with door := st.door.tick }) }

end Sys2Proof.Machine
end

