-- ==== Sys2Proof/Machine/Arbiter.lean ====
section
/-! DEFINITION. The engine arbiter (R117 to R121): which job the decision engine takes next; and which command serves the
outstanding request (R164). -/
namespace Sys2Proof.Machine

/-! ### Requests by kind (R164, R180) -/

/-- R173, R174: the row of a MODE-REQUEST. A body of another length, or with a code that names no mode, is checked and
refused by the RUN row (log entry 13). -/
def modeRequestRow (body : List Byte) : Instr :=
  if body.length = 1 ∧ byteAt body 0 = 1 then .modeRequestReserve
  else if body.length = 1 ∧ byteAt body 0 = 2 then .modeRequestStandby
  else .modeRequestRun

/-- R177: the row of a RESTART. A body of another length, or with a code that names neither, is checked and refused by
the WARM row (log entry 13). -/
def restartRow (body : List Byte) : Instr :=
  if body.length = 1 ∧ byteAt body 0 = 1 then .restartCleanRequest else .restartWarmRequest

/-- R180: the row that serves a request frame, by its kind. -/
def requestRow (f : Frame) : Instr :=
  match f.kind.toNat with
  | 0x01 => .identify
  | 0x02 => .status
  | 0x03 => .settingsWrite
  | 0x04 => .settingsRead
  | 0x05 => .clockSet
  | 0x06 => .clockRead
  | 0x07 => .permitAdd
  | 0x08 => .permitAmend
  | 0x09 => .permitRemove
  | 0x0A => .permitRead
  | 0x0B => .permitFind
  | 0x0C => .revoke
  | 0x0D => .unrevoke
  | 0x0E => .revokeList
  | 0x0F => .roomSet
  | 0x10 => .roomMode
  | 0x11 => .roomRead
  | 0x12 => .occupantRelease
  | 0x13 => .stationSet
  | 0x14 => .stationChannel
  | 0x15 => .stationRead
  | 0x16 => .trailRead
  | 0x17 => .trailClose
  | 0x18 => .trailFree
  | 0x19 => modeRequestRow f.body
  | 0x1A => restartRow f.body
  | _ => .unknownKind

/-- R164: the kinds the host line interface serves itself or through the access trail, at acceptance. -/
def servedAtAcceptance (f : Frame) : Bool :=
  match f.kind.toNat with
  | 0x01 | 0x02 | 0x04 | 0x16 | 0x17 | 0x18 => true
  | k => k = 0 || 0x1A < k

/-- The outstanding request not yet served (R163, R164). -/
def State.unserved (s : State) : Option Frame :=
  match s.host.outstanding with
  | some o => if o.served then none else some o.request
  | none => none

/-- R164: the request to be served at acceptance by the host line interface, with the row that serves it. -/
def State.acceptedFor (s : State) (i : Instr) : Option Frame :=
  if s.inReset then none
  else
    match s.unserved with
    | some f => if servedAtAcceptance f && requestRow f = i then some f else none
    | none => none

/-! ### The classes (R117) and the work each would take (R121) -/

/-- R121 item 1: the stations in ascending address order after the last DOOR station, wrapping from 16 to 1. -/
def doorOrder (last : Nat) : List Nat :=
  (List.range' 1 Config.stations).filter (fun n => last < n) ++ (List.range' 1 Config.stations).filter (fun n => n ≤ last)

/-- R121 item 1: the station the next DOOR job serves. -/
def State.doorStation (s : State) : Option Nat :=
  (doorOrder s.lastDoor).find? (fun n => !(s.station n).events.isEmpty)

/-- The row of a due entry (R94). -/
def Due.row : Due → Instr
  | .pairing _ => .pairingExpiry
  | .stayDeadline _ => .stayDeadlineDue
  | .escalation _ => .escalationDue
  | .loneLimit _ => .limitDue
  | .unescortedLimit _ => .limitDue

/-- R117, R121: the job a class has waiting, as the row that carries it out; `none` while the class does not wait. -/
def State.work (s : State) : JobClass → Option Instr
  | .door =>
    match s.doorStation with
    | some n =>
      match (s.station n).events with
      | .commit :: _ => some .doorCommit
      | .lapse _ :: _ => some .doorLapse
      | [] => none
    | none => none
  | .timer => s.dueHead.map (fun e => e.what.row)
  | .present =>
    match s.presentations with
    | p :: _ => some (if p.side = .outside then .entryDecision else .exitDecision)
    | [] => none
  | .request =>
    match s.unserved with
    | some f => if servedAtAcceptance f then none else some (requestRow f)
    | none => none
  | .sweep => if 0 < s.sweep.owed then some .sweepStep else none

/-- R119: the order the two settings give, highest first. -/
def settingsOrder (x : Settings) : List JobClass :=
  match x.requestFirst, x.sweepEarly with
  | false, false => [.door, .timer, .present, .request, .sweep]
  | true, false => [.door, .timer, .request, .present, .sweep]
  | false, true => [.door, .timer, .present, .sweep, .request]
  | true, true => [.door, .timer, .request, .sweep, .present]

/-- R119, R120: the order at a grant. While four sweeps are owed SWEEP is placed first. -/
def State.order (s : State) : List JobClass :=
  if s.sweep.owed = Config.owedSweeps then .sweep :: (settingsOrder s.settings).filter (fun c => c ≠ .sweep)
  else settingsOrder s.settings

/-- R119: the job the arbiter grants now. None in reset (R176), and none after a RESTART was accepted (R177). -/
def State.granted (s : State) : Option Instr :=
  if s.inReset || s.supply.restartRequested.isSome then none else s.order.findSome? s.work

/-! ### Carrying out a job or a request -/

/-- The outcome of a job row: its effect when the arbiter grants that row now, and otherwise no change, since no such
job takes place (log entry 3). The transmitter then looks at what waits (R165). -/
def whenGranted (i : Instr) (s : State) (job : State → State) : Host.Outcome State Fault Refusal :=
  if s.granted = some i then .next (job s).pump else .next s

/-- The outcome of an engine request row: the REQUEST job, when the arbiter grants it now (R164). -/
def requestJob (i : Instr) (s : State) (serve : List Byte → State → Except ReplyCode (State × List Byte)) :
    Host.Outcome State Fault Refusal :=
  if s.granted = some i then
    match s.unserved with
    | some f => .next (s.answer f (serve f.body s))
    | none => .next s
  else .next s

/-- The outcome of a request row served at acceptance (R164). The frame's acceptance and this service are two commands,
and another command may take effect between them (the model's choice, log entry 35). -/
def acceptedRequest (i : Instr) (s : State) (serve : List Byte → State → Except ReplyCode (State × List Byte)) :
    Host.Outcome State Fault Refusal :=
  match s.acceptedFor i with
  | some f => .next (s.answer f (serve f.body s))
  | none => .next s

end Sys2Proof.Machine
end

