-- ==== Sys2Proof/Machine/ClockRequests.lean ====
section
/-! DEFINITION. Estate time (chapter 5): CLOCK-SET, CLOCK-READ, the end of the clock and the sweep interval timer. -/
namespace Sys2Proof.Machine

/-- R87, R90: the clock at the time set; the last second sets CLOCK_END. -/
def clockAt (day second : Nat) : Clock where
  unset := false
  day := day
  second := second
  ended := decide (day = 65535 ∧ second = 86399)

/-- R89 step 4: the step is within 300 s either way. -/
def smallStep (old new : Nat) : Bool := new ≤ old + Config.clockStep && old ≤ new + Config.clockStep

/-- R89 steps 3 and 4: the set is accepted. -/
def State.acceptsSet (s : State) (new : Nat) : Bool :=
  s.clock.unset || smallStep s.now new || (s.pool.isEmpty && s.groups.isEmpty)

/-- R90: an accepted CLOCK-SET. The CLOCK_SET record carries the new time, and the old estate second as its value. -/
def State.setClock (s : State) (day second : Nat) : State :=
  ({ s with clock := clockAt day second } : State).put
    { kind := .clockSet, value := .number (if s.clock.unset then 0 else s.now) }

/-- R89, R90: CLOCK-SET served. -/
def serveClockSet (body : List Byte) (s : State) : Except ReplyCode (State × List Byte) :=
  match readClockSet body with
  | .error c => .error c
  | .ok (day, second) =>
    if s.acceptsSet (clockAt day second).estateSecond then
      .ok (s.setClock day second,
        leBytes 2 s.clock.day ++ leBytes 4 s.clock.second ++ leBytes 2 day ++ leBytes 4 second)
    else .error .occupied

/-- CLOCK_SET (R89, R90). -/
def execClockSet (s : State) : Host.Outcome State Fault Refusal := requestJob .clockSet s serveClockSet

/-- R91: the clock report. -/
def clockReport (s : State) : List Byte :=
  leBytes 2 s.clock.day ++ leBytes 4 s.clock.second
    ++ leBytes 1 (if s.clock.unset then 0 else weekday s.settings.weekdayOffset s.clock.day)
    ++ [clockFlags s.clock] ++ leBytes 1 s.settings.weekdayOffset

/-- CLOCK_READ (R91). -/
def execClockRead (s : State) : Host.Outcome State Fault Refusal :=
  requestJob .clockRead s fun body s => (readNothing body).map fun _ => (s, clockReport s)

/-- CLOCK_END (R87): a set clock one second short of its end reaches it and holds, in reset too (R84). The sweep interval
timer and the door timers do not count the second that the command moves (the model's choice, log entry 34). -/
def execClockEnd (s : State) : Host.Outcome State Fault Refusal :=
  if !s.clock.unset && !s.clock.ended && Config.lastSecond ≤ s.now + 1 then .next { s with clock := s.clock.atEnd }
  else .next s

/-- SWEEP_INTERVAL_EXPIRY (R98, R99): the running timer reaches the effective interval (log entry 4). In STANDBY the timer
runs until the stop alone (R174). -/
def execSweepIntervalExpiry (s : State) : Host.Outcome State Fault Refusal :=
  if s.sweepRuns then .next { s with sweep := s.sweep.expired } else .next s

end Sys2Proof.Machine
end

