-- ==== Sys2Proof/Machine/Engine.lean ====
section
/-! DEFINITION. The DOOR, TIMER, PRESENT and SWEEP jobs of the decision engine (chapters 2, 3, 4 and 7). -/
namespace Sys2Proof.Machine

/-! ### DOOR jobs (R31, R32, R80, R118) -/

/-- R118, R121: the station's older event taken, and the station remembered as the last DOOR station. -/
def State.takeDoorEvent (s : State) (n : Nat) : State :=
  { s.setStation n { s.station n with events := (s.station n).events.tail } with lastDoor := n }

/-- R31, R106: the stay deadline a record gets at its commit. -/
def State.commitDeadline (s : State) (o : Occupant) : Nat :=
  match s.permit o.permit with
  | some (_, p) => stayDeadline p s.settings.weekdayOffset s.nowMinute
  | none => min Config.lastMinute s.nowMinute

/-- R31: one ADMITTING record committed: INSIDE, its STAY_DEADLINE entry, its ENTRY record. -/
def State.commitRecord (s : State) (o : Occupant) : State :=
  ((s.updateRecord o.credential (fun x => { x with presence := .inside s.now (s.commitDeadline o) })).schedule
      (s.commitDeadline o * 60) (.stayDeadline o.credential)).put
    { kind := .entry, station := o.station, room := o.room, credential := o.credential, permit := o.permit
      value := .number (s.commitDeadline o) }

/-- R31: a commit of a station; no change where no ADMITTING record of the station is found. -/
def State.commitStation (s : State) (n : Nat) : State :=
  if (s.admittingAt n).isEmpty then s
  else ((s.admittingAt n).foldl State.commitRecord s).afterRemoval (s.station n).room

/-- DOOR_COMMIT (R31). -/
def execDoorCommit (s : State) : Host.Outcome State Fault Refusal :=
  whenGranted .doorCommit s fun s =>
    match s.doorStation with
    | some n => (s.takeDoorEvent n).commitStation n
    | none => s

/-- R80 step 2: the group waiting at a silent station cancelled. -/
def State.cancelGroup (s : State) (n : Nat) : State :=
  match s.groupAt n with
  | none => s
  | some g => ((g.members.foldl (State.denyMember g .stationSilent) s).unschedule (.pairing n)).dropGroup n

/-- R32, R80: a lapse of a station, with the cancellation of its group when the cause is silence. -/
def State.lapseStation (s : State) (n : Nat) (silence : Bool) : State :=
  let s1 := (s.admittingAt n).foldl (State.lapse (if silence then .stationSilent else .releaseExpired)) s
  let s2 := if silence then s1.cancelGroup n else s1
  if (s.admittingAt n).isEmpty then s2 else s2.afterRemoval (s.station n).room

/-- DOOR_LAPSE (R32). -/
def execDoorLapse (s : State) : Host.Outcome State Fault Refusal :=
  whenGranted .doorLapse s fun s =>
    match s.doorStation with
    | some n =>
      match (s.station n).events with
      | .lapse silence :: _ => (s.takeDoorEvent n).lapseStation n silence
      | .commit :: _ => s
      | [] => s
    | none => s

/-! ### TIMER jobs (R94) -/

/-- R94: the head removed from the queue. -/
def State.dropHead (s : State) : State := { s with deadlines := s.deadlines.tail }

/-- R78: the group at a station expires. -/
def State.expireGroup (s : State) (n : Nat) : State :=
  match s.groupAt n with
  | none => s
  | some g =>
    ((g.members.foldl (State.denyMember g .pairingTimeout) s).dropGroup n).placeVerdict n .deny .pairingTimeout

/-- R78, R94: the action on a PAIRING entry. -/
def pairingAction (w : Due) (s : State) : State :=
  match w with
  | .pairing n => s.expireGroup n
  | .stayDeadline _ | .escalation _ | .loneLimit _ | .unescortedLimit _ => s

/-- The head taken when it is due, and acted on by its kind (R94). -/
def State.takeDue (s : State) (act : Due → State → State) : State :=
  match s.dueHead with
  | some e => act e.what s.dropHead
  | none => s

/-- PAIRING_EXPIRY (R78). -/
def execPairingExpiry (s : State) : Host.Outcome State Fault Refusal :=
  whenGranted .pairingExpiry s fun s => s.takeDue pairingAction

/-- R40: OVERSTAY raised on a record, with its ESCALATION entry. -/
def State.raiseOverstay (s : State) (o : Occupant) : State :=
  let s1 := ((s.updateRecord o.credential (fun x => { x with overstay := .raised })).offer
    (o.notice .overstay .raised)).put (o.record .overstay .raised)
  match o.presence with
  | .inside _ deadline => s1.schedule ((deadline + (s.room o.room).grace) * 60) (.escalation o.credential)
  | .admitting => s1

/-- R40, R94: the action on a STAY_DEADLINE entry. -/
def stayDeadlineAction (w : Due) (s : State) : State :=
  match w with
  | .stayDeadline c =>
    match s.recordOf c with
    | some o => s.raiseOverstay o
    | none => s
  | .pairing _ | .escalation _ | .loneLimit _ | .unescortedLimit _ => s

/-- STAY_DEADLINE_DUE (R40). -/
def execStayDeadlineDue (s : State) : Host.Outcome State Fault Refusal :=
  whenGranted .stayDeadlineDue s fun s => s.takeDue stayDeadlineAction

/-- R41: the record's overstay level raised to 2. -/
def State.escalateOverstay (s : State) (o : Occupant) : State :=
  ((s.updateRecord o.credential (fun x => { x with overstay := .escalated })).offer
    (o.notice .overstay .escalated)).put (o.record .overstay .escalated)

/-- R41, R94: the action on an ESCALATION entry. -/
def escalationAction (w : Due) (s : State) : State :=
  match w with
  | .escalation c =>
    match s.recordOf c with
    | some o => s.escalateOverstay o
    | none => s
  | .pairing _ | .stayDeadline _ | .loneLimit _ | .unescortedLimit _ => s

/-- ESCALATION_DUE (R41). -/
def execEscalationDue (s : State) : Host.Outcome State Fault Refusal :=
  whenGranted .escalationDue s fun s => s.takeDue escalationAction

/-- R39: a room alert escalated from level 1; no change at level 0 or 2. -/
def State.escalateAlert (s : State) (a : RoomAlert) (room : Nat) : State :=
  match a.level (s.room room) with
  | .raised => s.moveRoomAlert a room .escalated
  | .clear => s
  | .escalated => s

/-- R39, R94: the action on a limit entry. -/
def limitAction (w : Due) (s : State) : State :=
  match w with
  | .loneLimit n => s.escalateAlert .lone n
  | .unescortedLimit n => s.escalateAlert .unescorted n
  | .pairing _ | .stayDeadline _ | .escalation _ => s

/-- LIMIT_DUE (R39). -/
def execLimitDue (s : State) : Host.Outcome State Fault Refusal :=
  whenGranted .limitDue s fun s => s.takeDue limitAction

/-! ### Permit selection (R56 to R58) -/

/-- R105: the provisional stay deadline of a permit tried now. -/
def State.provisional (s : State) (p : Permit) : Nat := stayDeadline p s.settings.weekdayOffset s.nowMinute

/-- R56: the failure of a permit tried for a room, as its rank and reason; `none` when it passes every check. -/
def State.failure (s : State) (room : Nat) (p : Permit) : Option (Nat × Reason) :=
  if !p.rooms.contains room then some (1, .roomNotPermitted)
  else if p.status = .suspended then some (2, .suspended)
  else if s.nowMinute < p.validFrom then some (3, .notYetValid)
  else if p.validUntil ≤ s.nowMinute then some (3, .expired)
  else if occurrence p.window s.settings.weekdayOffset s.nowMinute = .outside then some (4, .outsideHours)
  else if p.allowance = some 0 then some (5, .allowanceSpent)
  else if s.provisional p < s.nowMinute + (s.room room).minStay then some (6, .tooLate)
  else none

/-- R58: the failure of highest rank, of the lowest-numbered permit that has it, over permits in ascending number. -/
def worstFailure (fails : Permit → Option (Nat × Reason)) : List Permit → Option (Permit × Nat × Reason)
  | [] => none
  | p :: ps =>
    match fails p, worstFailure fails ps with
    | some (rank, reason), some (q, rank', reason') =>
      if rank < rank' then some (q, rank', reason') else some (p, rank, reason)
    | some (rank, reason), none => some (p, rank, reason)
    | none, worst => worst

/-! ### The entry decision (R45 to R64) -/

/-- R47 to R49, R63, R64: a decision concluded: the verdict placed, the last presentation written, the decision's trail
record handed and its DECISION notice offered. -/
def State.conclude (s : State) (p : Presentation) (outcome : VerdictOutcome) (reason : Reason) (permit : Nat)
    (record : TrailRecord) : State :=
  ((((s.placeVerdict p.station outcome reason).setLast p outcome reason).put record).offerDecision
    { station := p.station, side := p.side, credential := p.credential, taken := p.taken, decided := s.now
      outcome := outcome, reason := reason, permit := permit, room := (s.station p.station).room })

/-- R63: a refusal. -/
def State.refuse (s : State) (p : Presentation) (reason : Reason) (permit : Nat) (value : Nat) : State :=
  s.conclude p .deny reason permit
    { kind := .deny, station := p.station, room := (s.station p.station).room, credential := p.credential
      permit := permit, reason := reason, value := .number value }

/-- R46: a presentation whose station is SILENT: no verdict, and nothing else changes. -/
def State.decideSilent (s : State) (p : Presentation) : State :=
  ((s.setLast p .deny .stationSilent).put
    { kind := if p.side = .outside then .deny else .exitUnmatched, station := p.station
      room := (s.station p.station).room, credential := p.credential, reason := .stationSilent }).offerDecision
    { station := p.station, side := p.side, credential := p.credential, taken := p.taken, decided := s.now
      outcome := .deny, reason := .stationSilent, permit := 0, room := (s.station p.station).room }

/-- R61: a direct grant. -/
def State.grant (s : State) (p : Presentation) (permit : Permit) : State :=
  let room := (s.station p.station).room
  let s1 : State := { s with pool := s.pool ++ [newRecord s p.station room p.credential permit] }
  (s1.conclude p .release .granted permit.number
    { kind := .grant, station := p.station, room := room, credential := p.credential, permit := permit.number
      reason := .granted, value := .number (s.provisional permit) }).afterRemoval room

/-- R71: the presenter as a group member. -/
def State.newMember (s : State) (p : Presentation) (permit : Permit) : Member where
  credential := p.credential
  permit := permit.number
  role := permit.role
  needsEscort := countsAsNeedingEscort permit.role (s.room (s.station p.station).room).mode permit.needsEscort
  joined := s.now

/-- R62: the WAIT of a join or founding, with its WAIT record. -/
def State.concludeWait (s : State) (p : Presentation) (g : Group) (permit : Nat) : State :=
  s.conclude p .wait (waitReason (s.room g.room) (s.personsWith g)) permit
    { kind := .wait, station := p.station, room := (s.station p.station).room, credential := p.credential
      permit := permit, reason := waitReason (s.room g.room) (s.personsWith g), value := .number g.members.length }

/-- R72: a group founded. -/
def State.found (s : State) (p : Presentation) (permit : Permit) : State :=
  let room := (s.station p.station).room
  let g : Group :=
    { station := p.station, room := room, members := [s.newMember p permit]
      expiry := s.now + (s.room room).pairingWindow }
  (({ s with groups := insertGroup g s.groups } : State).schedule g.expiry (.pairing p.station)).concludeWait p g
    permit.number

/-- R73: a join of the group waiting at the station, completing it where its test passes. -/
def State.join (s : State) (p : Presentation) (g : Group) (permit : Permit) : State :=
  let g' : Group := { g with members := g.members ++ [s.newMember p permit] }
  let s1 := s.setMembers g.station g'.members
  if s1.passes g' then
    ((s1.completeGroup g' (some (p.credential, p.taken))).setLast p .release .groupComplete).retest g.room
  else s1.concludeWait p g' permit.number

/-- R61, R62: the presenter granted, or placed in a pairing group, or refused for want of a place in one. -/
def State.admitOrPair (s : State) (p : Presentation) (permit : Permit) : State :=
  let room := (s.station p.station).room
  match s.groupAt p.station with
  | some g => if Config.membersPerGroup ≤ g.members.length then s.refuse p .groupFull permit.number 0 else s.join p g permit
  | none =>
    if requirementTest (s.room room) ((s.occupants room).map Occupant.person ++ [(s.newMember p permit).person]) then
      s.grant p permit
    else if Config.groups ≤ s.groups.length then s.refuse p .pairingFull permit.number 0
    else s.found p permit

/-- R59, R60: the room checks with the chosen permit. -/
def State.roomChecks (s : State) (p : Presentation) (permit : Permit) : State :=
  let room := (s.station p.station).room
  if (s.room room).mode = .closed then s.refuse p .roomClosed permit.number 0
  else if (s.room room).strict && s.trail.full then s.refuse p .trailFull permit.number 0
  else if (s.room room).capacity < (s.occupants room).length + s.reserved room + 1 then
    s.refuse p .roomFull permit.number 0
  else if Config.poolRecords < s.pool.length + s.members.length + 1 then s.refuse p .occupancyFull permit.number 0
  else s.admitOrPair p permit

/-- R55 to R58: the permits tried in ascending number. -/
def State.tryPermits (s : State) (p : Presentation) : State :=
  let room := (s.station p.station).room
  match (s.permitsOf p.credential).find? (fun q => s.failure room q = none) with
  | some permit => s.roomChecks p permit
  | none =>
    match worstFailure (s.failure room) (s.permitsOf p.credential) with
    | some (q, _, reason) => s.refuse p reason q.number (if reason = .tooLate then s.provisional q else 0)
    | none => s.refuse p .noPermit 0 0

/-- R53: a repeat tap at the station of the presenter's ADMITTING record. -/
def State.repeatTap (s : State) (p : Presentation) (o : Occupant) : State :=
  s.conclude p .release .repeated o.permit
    { kind := .repeated, station := p.station, room := (s.station p.station).room, credential := p.credential
      permit := o.permit, reason := .repeated, value := .number VerdictOutcome.release.code }

/-- R54: a re-tap by a waiting member of the station's group. -/
def State.memberTap (s : State) (p : Presentation) (g : Group) (m : Member) : State :=
  s.conclude p .wait (waitReason (s.room g.room) (s.personsWith g)) m.permit
    { kind := .repeated, station := p.station, room := (s.station p.station).room, credential := p.credential
      permit := m.permit, reason := .repeated, value := .number VerdictOutcome.wait.code }

/-- R50 to R54: the part, station and credential checks, in their order; then the permits. -/
def State.decideEntry (s : State) (p : Presentation) : State :=
  if s.clock.unset then s.refuse p .clockUnset 0 0
  else if (s.station p.station).channel = .barred then s.refuse p .stationBarred 0 0
  else if s.revoked.contains p.credential then s.refuse p .revoked 0 0
  else
    match s.recordOf p.credential with
    | some o =>
      if o.presence = .admitting ∧ o.station = p.station then s.repeatTap p o else s.refuse p .passback o.permit 0
    | none =>
      match s.membershipOf p.credential with
      | some (g, m) => if g.station = p.station then s.memberTap p g m else s.refuse p .passback m.permit 0
      | none => s.tryPermits p

/-- R45: the head of the presentation queue taken and decided. -/
def State.takePresentation (s : State) (decide : State → Presentation → State) : State :=
  match s.presentations with
  | [] => s
  | p :: rest =>
    let s1 : State := { s with presentations := rest }
    if (s1.station p.station).link = .silent then s1.decideSilent p else decide s1 p

/-- ENTRY_DECISION (R45). -/
def execEntryDecision (s : State) : Host.Outcome State Fault Refusal :=
  whenGranted .entryDecision s fun s => s.takePresentation State.decideEntry

/-! ### The exit decision (R65 to R67) -/

/-- R65, R66: the DECISION notice of a released exit. -/
def State.offerExit (s : State) (p : Presentation) (permit : Nat) : State :=
  s.offerDecision
    { station := p.station, side := p.side, credential := p.credential, taken := p.taken, decided := s.now
      outcome := .release, reason := .exit, permit := permit, room := (s.station p.station).room }

/-- R65, R66: the matching record removed, debited when INSIDE. The notice stands between steps 2 and 3 of R33. -/
def State.exitRecord (s : State) (p : Presentation) (o : Occupant) : State :=
  let s1 := (s.placeVerdict p.station .release .exit).setLast p .release .exit
  let s2 :=
    match o.presence with
    | .inside _ _ =>
      (s1.debit o).put
        { kind := .exit, station := p.station, room := o.room, credential := o.credential, permit := o.permit
          reason := .exit, value := .number (s.reportedDebit o) }
    | .admitting =>
      s1.put
        { kind := .lapse, station := o.station, room := o.room, credential := o.credential, permit := o.permit
          reason := .earlyExit }
  ((s2.offerExit p o.permit).leave o).afterRemoval o.room

/-- R65 to R67: an exit is released; the matching record of the room, if any, is removed. -/
def State.decideExit (s : State) (p : Presentation) : State :=
  match (s.occupants (s.station p.station).room).find? (fun o => o.credential = p.credential) with
  | some o => s.exitRecord p o
  | none =>
    s.conclude p .release .exit 0
      { kind := .exitUnmatched, station := p.station, room := (s.station p.station).room, credential := p.credential
        reason := .exit }

/-- EXIT_DECISION (R65). -/
def execExitDecision (s : State) : Host.Outcome State Fault Refusal :=
  whenGranted .exitDecision s fun s => s.takePresentation State.decideExit

/-! ### The sweep (R124 to R126) -/

/-- R124: the slots step `k` visits that hold a permit to be retired, in ascending slot order. -/
def State.toRetire (s : State) (k : Nat) : List (Nat × Permit) :=
  s.permits.filter (fun e =>
    Config.sweepSteps * (k - 1) ≤ e.1 && e.1 < Config.sweepSteps * k && e.2.validUntil ≤ s.nowMinute
      && s.inUse e.2.number == 0)

/-- R125: one permit retired. -/
def State.retire (s : State) (e : Nat × Permit) : State :=
  ((s.dropPermit e.2.number).put
    { kind := .retire, credential := e.2.credential, permit := e.2.number, reason := .expired
      value := .number e.2.validUntil }).offer (.retired e.2.number e.2.credential e.1)

/-- R124, R126: the position after a step; after step 16 the pass completes and one owed sweep is discharged. -/
def Sweep.advance (w : Sweep) : Sweep :=
  if w.position < Config.sweepSteps then { w with position := w.position + 1 }
  else { w with position := 1, owed := w.owed - 1 }

/-- SWEEP_STEP (R124). -/
def execSweepStep (s : State) : Host.Outcome State Fault Refusal :=
  whenGranted .sweepStep s fun s =>
    let s1 := (s.toRetire s.sweep.position).foldl State.retire s
    { s1 with sweep := s1.sweep.advance }

end Sys2Proof.Machine
end

