-- ==== Sys2Proof/Machine/Startup.lean ====
section
/-! DEFINITION. Restarts and start-up (R176, R178), with the start-up work of each chapter (R44, R81, R97). -/
namespace Sys2Proof.Machine

/-- R176: the retention mark and check after what became of the backup supply. -/
def Supply.backedUp (p : Supply) : Backup → Supply
  | .kept => p
  | .decayed => { p with checkHolds := false }
  | .disconnected => { p with markPresent := false }

/-- R176: the kind of a restart, decided at the start of start-up, and its RETENTION_LOST flag. -/
def Supply.decideKind (p : Supply) (event : RestartKind) : RestartKind × Bool :=
  if p.markPresent then if p.checkHolds then (event, false) else (.powerOn, true) else (.powerOn, false)

/-- R160: the host rate code the straps give, 0 to 3 as R160's table, top to bottom. -/
def rateOfStraps (inputs : RestartInputs) : Nat := 2 * inputs.strap1.toNat + inputs.strap0.toNat

/-- R178 step 1: the unretained state. The stations keep what R129 keeps, and the host line its rate until the straps are
sampled again (R160). -/
def State.resetUnretained (s : State) : State :=
  { s with
    host := restartedHost s.host.rateCode
    presentations := []
    stations := s.stations.map warmStation
    deadlines := []
    sweep := restartedSweep
    lastDoor := restartedLastDoor
    supply :=
      { s.supply with stopPending := false, fromReserve := false, heldWake := none, restartRequested := none } }

/-- R176: the retained domain's defaults at POWER_ON and RESTART_CLEAN, the clock apart. -/
def State.defaultDomain (s : State) : State :=
  { s with
    settings := defaultSettings
    permits := []
    revoked := []
    rooms := List.replicate Config.rooms defaultRoom
    pool := []
    groups := []
    stations := List.replicate Config.stations defaultStation
    trail := defaultTrail }

/-- R176, R178 step 2: the retained domain as the kind calls for it. -/
def State.domainFor (s : State) (kind : RestartKind) : State :=
  match kind with
  | .powerOn => { s.defaultDomain with clock := unsetClock }
  | .restartClean => s.defaultDomain
  | .resetLine => s
  | .restartWarm => s

/-- R178 step 2: the retained domain set as the kind calls for, and the kind held as the last restart cause. -/
def State.takeKind (s : State) (kind : RestartKind) (lost : Bool) : State :=
  { s.domainFor kind with supply := { s.supply with lastKind := kind, retentionLost := lost } }

/-- R178 step 3: the straps sampled, and the mode the supply-good line gives, with the flag clear. -/
def State.takeMode (s : State) (rateCode : Nat) : State :=
  { s with
    host := { s.host with rateCode := rateCode }
    supply := { s.supply with mode := s.supply.modeOfLine, byRequest := false } }

/-- R178 step 4: the RESTART record. -/
def State.putRestart (s : State) (kind : RestartKind) (lost : Bool) : State :=
  s.put { kind := .restart, reason := .restarted kind, value := .number lost.toNat }

/-- R178 step 5: the READY notice enters the queue as its first notice, before a TRAIL-HALF that the RESTART record may
have offered (log entry 10). -/
def State.offerReady (s : State) (kind : RestartKind) (lost : Bool) : State :=
  { s with host := { s.host with notices := .ready kind lost :: s.host.notices } }

/-- The pool's records in the order of R97: rooms ascending, records in list order within each. -/
def State.byRoom (s : State) : List Occupant := (List.range' 1 Config.rooms).flatMap s.occupants

/-- R44 step 1: every ADMITTING record lapsed. -/
def State.lapseAll (s : State) : State :=
  (s.byRoom.filter (fun o => o.presence = .admitting)).foldl (State.lapse .restart) s

/-- R81: the DENY record of a member of a discarded group. -/
def State.denyAtRestart (g : Group) (s : State) (m : Member) : State :=
  s.put { kind := .deny, station := g.station, room := g.room, credential := m.credential, permit := m.permit,
          reason := .restart }

/-- R81: the groups discarded. -/
def State.discardGroups (s : State) : State :=
  { s.groups.foldl (fun s g => g.members.foldl (State.denyAtRestart g) s) s with groups := [] }

/-- R44 step 2, R97: the entry of a kept INSIDE record, by its overstay level. -/
def State.rebuildEntry (s : State) (o : Occupant) : State :=
  match o.presence, o.overstay with
  | .inside _ deadline, .clear => s.schedule (deadline * 60) (.stayDeadline o.credential)
  | .inside _ deadline, .raised => s.schedule ((deadline + (s.room o.room).grace) * 60) (.escalation o.credential)
  | .inside _ _, .escalated => s
  | .admitting, _ => s

/-- R44 step 3: one room alert at start-up. A standing alert keeps its level, with a new limit entry at level 1. -/
def State.rebuildAlert (s : State) (a : RoomAlert) (room : Nat) : State :=
  if a.level (s.room room) = .raised ∧ a.stands (s.room room) ((s.occupants room).map Occupant.person) then
    s.schedule (s.now + a.limit (s.room room)) (a.due room)
  else s.reevaluate a room

/-- R178 step 6: the engine work of a warm start-up. -/
def State.warmWork (s : State) : State :=
  let s1 := s.lapseAll.discardGroups
  let s2 := s1.byRoom.foldl State.rebuildEntry s1
  (List.range' 1 Config.rooms).foldl (fun s n => (s.rebuildAlert .lone n).rebuildAlert .unescorted n) s2

/-- R178 step 6, by the kind. After POWER_ON and RESTART_CLEAN there is nothing to act on. -/
def State.engineWork (s : State) : RestartKind → State
  | .resetLine | .restartWarm => s.warmWork
  | .powerOn | .restartClean => s

/-- R178 step 7: the retention mark and check written. -/
def State.writeMark (s : State) : State := { s with supply := { s.supply with markPresent := true, checkHolds := true } }

/-- One numbered step of start-up (R178). -/
def State.startUpStep (kind : RestartKind) (lost : Bool) (rateCode : Nat) (s : State) : StartUpStep → State
  | .unretained => s.resetUnretained
  | .kind => s.takeKind kind lost
  | .mode => s.takeMode rateCode
  | .record => s.putRestart kind lost
  | .ready => s.offerReady kind lost
  | .engine => s.engineWork kind
  | .mark => s.writeMark

/-- The numbered steps in the order of R178. -/
def startUpSteps : List StartUpStep := [.unretained, .kind, .mode, .record, .ready, .engine, .mark]

/-- The steps that a start-up carries out: all, or those up to the one it is cut short after (R178). -/
def stepsTaken : Option StartUpCut → List StartUpStep
  | none => startUpSteps
  | some c => startUpSteps.takeWhile (fun x => x ≠ c.after) ++ [c.after]

/-- R176: the part held in reset again, in the course of a start-up. What waited on the host line is lost (R171). -/
def State.holdAgain (s : State) (hold : ResetHold) : State :=
  { s with
    host := restartedHost s.host.rateCode
    supply :=
      match hold with
      | .resetLine => { s.supply with resetActive := true }
      | .mainSupply => { s.supply with mainLost := true } }

/-- R178: the mark while a start-up is under way: a POWER_ON leaves it absent until step 7. -/
def Supply.startingUp (p : Supply) (kind : RestartKind) : Supply :=
  if kind = .powerOn then { p with markPresent := false } else p

/-- R178: start-up, from the event that begins the restart. The kind is decided at its start (R176). Carried out whole, it
ends with step 8: the station line begins with a settle round and the transmitter looks at what waits (R165). A restart
that arrives during it abandons it: the part is in reset again, with the work of the steps taken (log entry 33). -/
def State.startUp (s : State) (event : RestartKind) (inputs : RestartInputs) : State :=
  let p := s.supply.backedUp inputs.backup
  let kind := (p.decideKind event).1
  let lost := (p.decideKind event).2
  let t := (stepsTaken inputs.cut).foldl (State.startUpStep kind lost (rateOfStraps inputs))
    { s with supply := p.startingUp kind }
  match inputs.cut with
  | none => t.restartLine.pump
  | some c => t.holdAgain c.hold

end Sys2Proof.Machine
end

