-- ==== Sys2Proof/Machine/HostLine.lean ====
section
/-! DEFINITION. The host line: frames in (R161 to R163) and out (R165), and IDENTIFY, STATUS, the settings and unknown
kinds (R164, R168 to R170). -/
namespace Sys2Proof.Machine

/-! ### Frames in -/

/-- R161, R162: the frame is discarded, the flag is set and the receiver hunts. -/
def State.discardFrame (s : State) : State :=
  { s with host := { s.host with receiving := false, frameDiscarded := true } }

/-- R163: an accepted frame becomes the outstanding request, joins the BUSY list, or is discarded when that is full. -/
def State.acceptFrame (s : State) (f : Frame) : State :=
  match s.host.outstanding with
  | none => { s with host := { s.host with receiving := false, outstanding := some ⟨f, false⟩ } }
  | some _ =>
    if s.host.busy.length < Config.busyEntries then
      { s with host := { s.host with receiving := false, busy := s.host.busy ++ [(f.kind, f.tag)] } }
    else s.discardFrame

/-- FRAME_RECEIVED (R162, R163). None completes in STANDBY after the stop, where the receiver hunts (R174) and a start
byte wakes the part (R175). -/
def execFrameReceived (bytes : List Byte) (s : State) : Host.Outcome State Fault Refusal :=
  if !isFrame bytes then .fault .notAFrame
  else if s.inReset || !s.host.receiving then .next s
  else if crcAgrees bytes then .next (s.acceptFrame (frameOf bytes)).pump
  else .next s.discardFrame

/-- RECEIVE_GAP (R161 case 1). -/
def execReceiveGap (s : State) : Host.Outcome State Fault Refusal :=
  if s.inReset || !s.host.receiving then .next s else .next s.discardFrame

/-- START_BYTE_RECEIVED (R161): the receiver begins a frame; in STANDBY it is a wake event (R175). -/
def execStartByteReceived (s : State) : Host.Outcome State Fault Refusal :=
  if s.inReset || s.host.receiving then .next s
  else .next (({ s with host := { s.host with receiving := true } } : State).wakeEvent .wakeHost).pump

/-- FRAMING_ERROR (R161 case 2). While hunting, a byte with a framing error is passed over. -/
def execFramingError (s : State) : Host.Outcome State Fault Refusal :=
  if s.inReset || !s.host.receiving then .next s else .next s.discardFrame

/-- LENGTH_OVER_1024 (R161 case 3). -/
def execLengthOver1024 (s : State) : Host.Outcome State Fault Refusal :=
  if s.inReset || !s.host.receiving then .next s else .next s.discardFrame

/-! ### Frames out -/

/-- R174: the round in progress is ended after the turn under way (R149). -/
def Line.stopped (l : Line) : Line :=
  match l.round with
  | some r => { l with round := if r.turn.isSome then some { r with toCall := [] } else none }
  | none => l

/-- R174: the wake event taken at the stop: the one held since the acceptance, or an attention line already active
(R175). -/
def Supply.wakeAtStop (p : Supply) : Option ModeCause :=
  match p.heldWake with
  | some c => some c
  | none => if p.attention then some .wakeAttention else none

/-- R171, R174: the receiver hunts in STANDBY. A frame still under way is given up, without the flag (log entry 32). -/
def HostLine.hunt (h : HostLine) : HostLine := { h with receiving := false }

/-- R174: the stop of the station line and of the sweep interval timer, whose count becomes 0 (R98), and the wake that follows at once where a wake event was held; the frame whose start byte was held is
then received as any other (R175). Without a wake the receiver hunts. -/
def State.stop (s : State) : State :=
  let s1 := { s with
    line := s.line.stopped
    sweep := { s.sweep with count := 0 }
    supply := { s.supply with stopPending := false, fromReserve := false, heldWake := none } }
  match s.supply.wakeAtStop with
  | some c => s1.wake c
  | none => { s1 with host := s1.host.hunt }

/-- R165, R174, R177: the last byte of the outstanding request's reply has been sent: the restart it asked for, or the
stop, or nothing more; the transmitter then looks at what waits. -/
def State.replySent (s : State) (inputs : RestartInputs) : State :=
  match s.supply.restartRequested with
  | some .warm => s.startUp .restartWarm inputs
  | some .clean => s.startUp .restartClean inputs
  | none => if s.supply.stopPending then s.stop.pump else s.pump

/-- FRAME_SENT (R165): the transmitter finishes a frame, and begins the next that waits. -/
def execFrameSent (inputs : RestartInputs) (s : State) : Host.Outcome State Fault Refusal :=
  if s.inReset then .next s
  else
    match s.host.sending with
    | none => .next s
    | some x =>
      match x.source with
      | .reply =>
        .next (({ s with host := { s.host with sending := none, outstanding := none } } : State).replySent inputs)
      | .busy => .next ({ s with host := { s.host with sending := none } } : State).pump
      | .notice => .next ({ s with host := { s.host with sending := none } } : State).pump

/-! ### Requests of this chapter -/

/-- IDENTIFY (R168). -/
def execIdentify (s : State) : Host.Outcome State Fault Refusal :=
  acceptedRequest .identify s fun body s => (readNothing body).map fun _ => (s, identityBlock s.host.rateCode)

/-- R169: the two line flags cleared by the service of a STATUS. -/
def State.clearLineFlags (s : State) : State :=
  { s with host := { s.host with frameDiscarded := false, noticesDropped := false } }

/-- STATUS (R169). -/
def execStatus (s : State) : Host.Outcome State Fault Refusal :=
  acceptedRequest .status s fun body s => (readNothing body).map fun _ => (s.clearLineFlags, statusBlock s)

/-- R170, R98 item 4: the settings written; a changed sweep interval sets the timer's count to 0. -/
def State.writeSettings (s : State) (x : Settings) : State :=
  { s with
    settings := x
    sweep := if x.sweepInterval = s.settings.sweepInterval then s.sweep else { s.sweep with count := 0 } }

/-- SETTINGS_WRITE (R170). -/
def execSettingsWrite (s : State) : Host.Outcome State Fault Refusal :=
  requestJob .settingsWrite s fun body s => (readSettings body).map fun x => (s.writeSettings x, settingsBlock x)

/-- SETTINGS_READ (R170). -/
def execSettingsRead (s : State) : Host.Outcome State Fault Refusal :=
  acceptedRequest .settingsRead s fun body s => (readNothing body).map fun _ => (s, settingsBlock s.settings)

/-- UNKNOWN_KIND (R164). -/
def execUnknownKind (s : State) : Host.Outcome State Fault Refusal :=
  acceptedRequest .unknownKind s fun _ _ => .error .unknownKind

end Sys2Proof.Machine
end

