-- ==== Sys2Proof/Machine/PermitRequests.lean ====
section
/-! DEFINITION. The permit table and the revocation set (chapter 1). -/
namespace Sys2Proof.Machine

/-! ### Adding, removing, reading, finding -/

/-- R8 step 5: no slot is free, or the credential holds 8 permits. -/
def State.tableFullFor (s : State) (credential : Nat) : Bool :=
  Config.permitSlots ≤ s.permits.length || Config.permitsPerCredential ≤ (s.permitsOf credential).length

/-- R1, R8: the permit placed in the lowest free slot. -/
def State.addPermit (s : State) (p : Permit) : State :=
  { s with permits := insertPermit (lowestFree 0 s.permits) p s.permits }

/-- R8: PERMIT-ADD served. -/
def servePermitAdd (body : List Byte) (s : State) : Except ReplyCode (State × List Byte) :=
  match readPermitBody body with
  | .error c => .error c
  | .ok p =>
    if s.clock.unset then .error .clockUnset
    else if (s.permit p.number).isSome then .error .existing
    else if s.tableFullFor p.credential then .error .tableFull
    else .ok (s.addPermit p, permitReport (lowestFree 0 s.permits) p (s.inUse p.number))

/-- PERMIT_ADD (R8). -/
def execPermitAdd (s : State) : Host.Outcome State Fault Refusal := requestJob .permitAdd s servePermitAdd

/-- R13: PERMIT-REMOVE served. -/
def servePermitRemove (body : List Byte) (s : State) : Except ReplyCode (State × List Byte) :=
  match readPermitNumber body with
  | .error c => .error c
  | .ok n =>
    if (s.permit n).isNone then .error .notFound
    else if s.inUse n ≠ 0 then .error .inUse
    else .ok (s.dropPermit n, [])

/-- PERMIT_REMOVE (R13). -/
def execPermitRemove (s : State) : Host.Outcome State Fault Refusal := requestJob .permitRemove s servePermitRemove

/-- R14: PERMIT-READ served. -/
def servePermitRead (body : List Byte) (s : State) : Except ReplyCode (State × List Byte) :=
  match readPermitNumber body with
  | .error c => .error c
  | .ok n =>
    match s.permit n with
    | none => .error .notFound
    | some (slot, p) => .ok (s, permitReport slot p (s.inUse n))

/-- PERMIT_READ (R14). -/
def execPermitRead (s : State) : Host.Outcome State Fault Refusal := requestJob .permitRead s servePermitRead

/-- R15: PERMIT-FIND served. -/
def servePermitFind (body : List Byte) (s : State) : Except ReplyCode (State × List Byte) :=
  match readCredential body with
  | .error c => .error c
  | .ok c =>
    .ok (s, leBytes 1 (s.permitsOf c).length ++ (s.permitsOf c).flatMap (fun p => leBytes 2 p.number))

/-- PERMIT_FIND (R15). -/
def execPermitFind (s : State) : Host.Outcome State Fault Refusal := requestJob .permitFind s servePermitFind

/-! ### Amending (R9 to R12, R108 to R111) -/

/-- R4 item 2, R10: the allowance after a change. -/
def AllowanceChange.apply (c : AllowanceChange) (a : Option Nat) : Option Nat :=
  match c with
  | .unchanged => a
  | .set n => some n
  | .topUp n => a.map (fun r => min Config.count16 (r + n))
  | .remove => none

/-- R10: the changes written into the record; needs escort is normalised against the stored role (R7). -/
def Permit.amended (p : Permit) (c : PermitAmend) : Permit :=
  { p with
    status := c.status.getD p.status
    validFrom := c.validFrom.getD p.validFrom
    validUntil := c.validUntil.getD p.validUntil
    window := c.window.getD p.window
    maxStay := c.maxStay.getD p.maxStay
    allowance := c.allowance.apply p.allowance
    rooms := c.rooms.getD p.rooms
    needsEscort := (c.needsEscort.map (takenNeedsEscort p.role)).getD p.needsEscort }

/-- R11 item 1: the holder's room, of his record or of the station his group waits at. -/
def State.holderRoom (s : State) (number : Nat) : Option Nat :=
  match s.pool.find? (fun o => o.permit = number) with
  | some o => some o.room
  | none => (s.groups.find? (fun g => g.members.any (fun m => m.permit = number))).map Group.room

/-- R11: the amendment conflicts with the holder's presence. -/
def State.amendConflicts (s : State) (p : Permit) (c : PermitAmend) : Bool :=
  (match c.rooms, s.holderRoom p.number with
    | some rooms, some r => !rooms.contains r
    | _, _ => false)
  || (p.amended c).needsEscort != p.needsEscort

/-- R12 item 3: the amendment carries a change to a bound of the stay deadline. -/
def PermitAmend.movesDeadline (c : PermitAmend) : Bool :=
  c.validUntil.isSome || c.window.isSome || c.maxStay.isSome || c.allowance != .unchanged

/-- R12 item 1: a member whose permit is suspended leaves its group. -/
def State.suspendMember (s : State) (number : Nat) : State :=
  match s.groups.find? (fun g => g.members.any (fun m => m.permit = number)) with
  | some g =>
    match g.members.find? (fun m => m.permit = number) with
    | some m => s.removeMember g m .suspended
    | none => s
  | none => s

/-- R110, R111 case 1: the record returned to level 0, with its ALERT record, its notice and a fresh entry. -/
def State.returnToClear (s : State) (o : Occupant) (deadline : Nat) : State :=
  (((s.updateRecord o.credential (fun x => { x with overstay := .clear })).put (o.record .overstay .clear)).offer
    (o.notice .overstay .clear)).schedule (deadline * 60) (.stayDeadline o.credential)

/-- R109 to R111: the level and the entry after a recompute, by the level before it. -/
def State.relevel (s : State) (o : Occupant) (deadline : Nat) : State :=
  match o.overstay with
  | .clear => s.schedule (deadline * 60) (.stayDeadline o.credential)
  | .raised =>
    if s.nowMinute < deadline then s.returnToClear o deadline
    else s.schedule ((deadline + (s.room o.room).grace) * 60) (.escalation o.credential)
  | .escalated => if s.nowMinute < deadline then s.returnToClear o deadline else s

/-- R108: the recompute of one INSIDE record under its permit as amended. -/
def State.recompute (s : State) (o : Occupant) (p : Permit) : State :=
  match o.presence with
  | .admitting => s
  | .inside entry _ =>
    let deadline := stayDeadline p s.settings.weekdayOffset (entry / 60)
    (((s.unscheduleRecord o.credential).updateRecord o.credential
        (fun x => { x with presence := .inside entry deadline })).put
      { kind := .recompute, station := o.station, room := o.room, credential := o.credential, permit := o.permit,
        value := .number deadline }).relevel o deadline

/-- R12: the effects on the holder of an accepted amendment. -/
def State.actOnHolder (s : State) (p : Permit) (c : PermitAmend) : State :=
  let s1 := if c.status = some .suspended then s.suspendMember p.number else s
  match s1.pool.find? (fun o => o.permit = p.number ∧ o.presence ≠ .admitting) with
  | some o => if c.movesDeadline then s1.recompute o p else s1
  | none => s1

/-- R9 to R12: PERMIT-AMEND served. -/
def servePermitAmend (body : List Byte) (s : State) : Except ReplyCode (State × List Byte) :=
  match readAmendBody body with
  | .error c => .error c
  | .ok c =>
    match s.permit c.number with
    | none => .error .notFound
    | some (slot, p) =>
      if (p.amended c).validUntil ≤ (p.amended c).validFrom then .error .range
      else if s.inUse c.number ≠ 0 ∧ s.amendConflicts p c then .error .inUse
      else
        let s1 := (s.updatePermit c.number (fun q => q.amended c)).actOnHolder (p.amended c) c
        .ok (s1, permitReport slot (p.amended c) (s1.inUse c.number))

/-- PERMIT_AMEND (R9). -/
def execPermitAmend (s : State) : Host.Outcome State Fault Refusal := requestJob .permitAmend s servePermitAmend

/-! ### The revocation set (R16 to R20) -/

/-- R42: REVOKED_INSIDE raised on a record, or cleared by UNREVOKE: the marker, the notice and the trail record. -/
def State.markRevoked (s : State) (o : Occupant) (marked : Bool) : State :=
  let l : Level := if marked then .raised else .clear
  ((s.updateRecord o.credential (fun x => { x with revokedInside := marked })).offer (o.notice .revokedInside l)).put
    (o.record .revokedInside l)

/-- R18: the effects of a new revocation on the credential's present position. -/
def State.actOnRevoked (s : State) (credential : Nat) : State :=
  match s.recordOf credential with
  | some o => s.markRevoked o true
  | none =>
    match s.membershipOf credential with
    | some (g, m) => s.removeMember g m .revoked
    | none => s

/-- R17: REVOKE served. -/
def serveRevoke (body : List Byte) (s : State) : Except ReplyCode (State × List Byte) :=
  match readCredential body with
  | .error c => .error c
  | .ok c =>
    if s.revoked.contains c then .ok (s, [])
    else if Config.revocations ≤ s.revoked.length then .error .tableFull
    else .ok (({ s with revoked := s.revoked ++ [c] } : State).actOnRevoked c, [])

/-- REVOKE (R17). -/
def execRevoke (s : State) : Host.Outcome State Fault Refusal := requestJob .revoke s serveRevoke

/-- R19: a set marker of the credential's record cleared. -/
def State.unmark (s : State) (credential : Nat) : State :=
  match s.recordOf credential with
  | some o => if o.revokedInside then s.markRevoked o false else s
  | none => s

/-- R19: UNREVOKE served. -/
def serveUnrevoke (body : List Byte) (s : State) : Except ReplyCode (State × List Byte) :=
  match readCredential body with
  | .error c => .error c
  | .ok c =>
    if s.revoked.contains c then
      .ok (({ s with revoked := s.revoked.filter (fun x => x ≠ c) } : State).unmark c, [])
    else .error .notFound

/-- UNREVOKE (R19). -/
def execUnrevoke (s : State) : Host.Outcome State Fault Refusal := requestJob .unrevoke s serveUnrevoke

/-- REVOKE_LIST (R20). -/
def execRevokeList (s : State) : Host.Outcome State Fault Refusal :=
  requestJob .revokeList s fun body s =>
    (readNothing body).map fun _ => (s, leBytes 1 s.revoked.length ++ s.revoked.flatMap (leBytes 4))

end Sys2Proof.Machine
end

