-- ==== Sys2Proof/Machine/RoomRequests.lean ====
section
/-! DEFINITION. Rooms and the host's release of an occupant (chapter 2). -/
namespace Sys2Proof.Machine

/-- R24: the stored room with the configuration written. -/
def Room.configured (r : Room) (c : RoomConfig) : Room :=
  { r with
    cls := c.cls, capacity := c.capacity, escortRatio := c.escortRatio, minStay := c.minStay, grace := c.grace
    pairingWindow := c.pairingWindow, loneLimit := c.loneLimit, unescortedLimit := c.unescortedLimit
    strict := c.strict }

/-- R24 steps 3 and 4: the change is refused OCCUPIED. -/
def State.roomSetOccupied (s : State) (c : RoomConfig) : Bool :=
  (c.cls != (s.room c.room).cls && !((s.occupants c.room).isEmpty && (s.groupsOf c.room).isEmpty))
    || decide (c.capacity < (s.occupants c.room).length + s.reserved c.room)

/-- R25: the values written; a changed escort ratio re-evaluates the alerts and re-tests the groups. -/
def State.configureRoom (s : State) (c : RoomConfig) : State :=
  let s1 := s.setRoom c.room ((s.room c.room).configured c)
  if c.escortRatio = (s.room c.room).escortRatio then s1 else (s1.reevaluateRoom c.room).retest c.room

/-- R24, R25: ROOM-SET served. -/
def serveRoomSet (body : List Byte) (s : State) : Except ReplyCode (State × List Byte) :=
  match readRoomConfig body with
  | .error c => .error c
  | .ok c =>
    if s.roomSetOccupied c then .error .occupied
    else .ok (s.configureRoom c, roomBlock c.room ((s.room c.room).configured c))

/-- ROOM_SET (R24). -/
def execRoomSet (s : State) : Host.Outcome State Fault Refusal := requestJob .roomSet s serveRoomSet

/-- R26 step 3: the counts-as-needing-escort value of a holder, from his permit and the room's mode. -/
def State.derivedNeeds (s : State) (role : Role) (permit : Nat) (room : Nat) : Bool :=
  countsAsNeedingEscort role (s.room room).mode
    (match s.permit permit with | some (_, p) => p.needsEscort | none => false)

/-- R26 step 3: the value derived afresh for the room's records and the members waiting at its stations. -/
def State.rederive (s : State) (room : Nat) : State :=
  { s with
    pool := s.pool.map (fun o =>
      if o.room = room then { o with needsEscort := s.derivedNeeds o.role o.permit room } else o)
    groups := s.groups.map (fun g =>
      if g.room = room then
        { g with members := g.members.map (fun m => { m with needsEscort := s.derivedNeeds m.role m.permit room }) }
      else g) }

/-- R26: a change of mode, steps 1 to 5. -/
def State.changeRoomMode (s : State) (room : Nat) (mode : RoomMode) : State :=
  ((((s.setRoom room { s.room room with mode := mode }).put
      { kind := .roomMode, room := room, value := .pair (s.room room).mode.code mode.code }).rederive room).reevaluateRoom
    room).retest room

/-- R26: ROOM-MODE served. -/
def serveRoomMode (body : List Byte) (s : State) : Except ReplyCode (State × List Byte) :=
  match readRoomMode body with
  | .error c => .error c
  | .ok (room, mode) => if (s.room room).mode = mode then .ok (s, []) else .ok (s.changeRoomMode room mode, [])

/-- ROOM_MODE (R26). -/
def execRoomMode (s : State) : Host.Outcome State Fault Refusal := requestJob .roomMode s serveRoomMode

/-- R27: ROOM-READ served. -/
def serveRoomRead (body : List Byte) (s : State) : Except ReplyCode (State × List Byte) :=
  match readRoomNumber body with
  | .error c => .error c
  | .ok n =>
    .ok (s, roomBlock n (s.room n) ++ leBytes 1 (s.room n).mode.code ++ leBytes 1 (s.room n).lone.code
      ++ leBytes 1 (s.room n).unescorted.code ++ leBytes 1 (s.reserved n) ++ leBytes 1 (s.occupants n).length
      ++ (s.occupants n).flatMap occupantEntry)

/-- ROOM_READ (R27). -/
def execRoomRead (s : State) : Host.Outcome State Fault Refusal := requestJob .roomRead s serveRoomRead

/-- R34: the record removed at the host's instruction (R33). -/
def State.operatorRelease (s : State) (o : Occupant) : State :=
  ((((s.debit o).put
    { kind := .operatorRelease, station := o.station, room := o.room, credential := o.credential, permit := o.permit,
      reason := .operator, value := .number (s.reportedDebit o) }).leave o).afterRemoval o.room)

/-- R34: OCCUPANT-RELEASE served. -/
def serveOccupantRelease (body : List Byte) (s : State) : Except ReplyCode (State × List Byte) :=
  match readRoomCredential body with
  | .error c => .error c
  | .ok (room, credential) =>
    if s.clock.unset then .error .clockUnset
    else
      match (s.occupants room).find? (fun o => o.credential = credential) with
      | none => .error .notFound
      | some o => .ok (s.operatorRelease o, leBytes 2 (s.reportedDebit o))

/-- OCCUPANT_RELEASE (R34). -/
def execOccupantRelease (s : State) : Host.Outcome State Fault Refusal :=
  requestJob .occupantRelease s serveOccupantRelease

end Sys2Proof.Machine
end

