-- ==== Sys2Proof/Machine/StationLine.lean ====
section
/-! DEFINITION. The station line (chapter 8): poll rounds, calls, answers, links and the door timers. -/
namespace Sys2Proof.Machine

/-! ### Rounds and calls (R134, R135) -/

/-- R134: the bound stations, in ascending address order. -/
def State.boundStations (s : State) : List Nat :=
  (List.range' 1 Config.stations).filter (fun n => (s.station n).room ≠ 0)

/-- R134, R136: a round started. A round with no bound station ends at once. -/
def State.startRound (s : State) : State :=
  { s with
    line :=
      { round := if s.boundStations.isEmpty then none else some ⟨s.boundStations, none, s.line.settleNext⟩
        settleNext := false, periodMs := s.pollPeriodMs, rate := s.settings.bitRate } }

/-- POLL_ROUND_START (R134). -/
def execPollRoundStart (s : State) : Host.Outcome State Fault Refusal :=
  if s.lineRuns && s.line.round.isNone then .next s.startRound else .next s

/-- R135: the pending verdict's sent marker set by a call that carries it. -/
def Station.called (st : Station) : Station := { st with verdict := st.verdict.map (fun v => { v with sent := true }) }

/-- R135: a station's turn begun with its call. -/
def State.beginTurn (s : State) (n : Nat) (rest : List Nat) (settle : Bool) : State :=
  { s.setStation n (s.station n).called with
    line := { s.line with round := some ⟨rest, some ⟨n, callChars n (s.station n)⟩, settle⟩ } }

/-- CALL (R135): the next station of the round is called. -/
def execCall (s : State) : Host.Outcome State Fault Refusal :=
  if !s.lineRuns then .next s
  else
    match s.line.round with
    | some ⟨n :: rest, none, settle⟩ => .next (s.beginTurn n rest settle)
    | some ⟨[], none, _⟩ => .next s
    | some ⟨_, some _, _⟩ => .next s
    | none => .next s

/-- R134: the turn under way ends, and with the last turn the round. -/
def State.endTurn (s : State) : State :=
  match s.line.round with
  | some r => { s with line := { s.line with round := if r.toCall = [] then none else some { r with turn := none } } }
  | none => s

/-- The turn under way, with whether its round is the settle round. None in reset (R176). -/
def State.turn (s : State) : Option (Turn × Bool) :=
  if s.inReset then none
  else
    match s.line.round with
    | some r => r.turn.map (fun t => (t, r.settle))
    | none => none

/-! ### Good answers (R137 to R145) -/

/-- R137 step 1, R143: the missed count becomes 0; a SILENT station becomes ONLINE with its LINK record and notice. -/
def State.linkStep (s : State) (n : Nat) : State :=
  let s1 := s.setStation n { s.station n with missed := 0, link := .online }
  if (s.station n).link = .silent then
    (s1.put { kind := .link, station := n, room := (s.station n).room, value := .number Link.online.code }).offer
      (.link n .online)
  else s1

/-- R141: the verdict removed from the slot and the verdict toggle changed. -/
def Station.delivered (st : Station) : Station := { st with verdict := none, verdictToggle := !st.verdictToggle }

/-- R137 step 2, R141: delivery of the pending verdict judged. -/
def State.verdictStep (s : State) (n : Nat) (seen : Toggle) : State :=
  match (s.station n).verdict with
  | none => s
  | some v =>
    if v.sent ∧ v.toggle = seen then
      let s1 := s.setStation n (s.station n).delivered
      if v.outcome = .release then s1.doorReleased n v.seconds else s1
    else s

/-- R137 step 3, R144: the contact events. -/
def State.contactStep (s : State) (n : Nat) (isOpen latch : Bool) : State :=
  if isOpen then s.doorOpened n else if latch then (s.doorOpened n).doorClosed n else s.doorClosed n

/-- R138: the report's toggle acknowledged. -/
def Station.acknowledged (st : Station) (t : Toggle) : Station := { st with acknowledge := t, expected := .toggle (!t) }

/-- R138: a new report held back; while the expected toggle is adopt it is kept unacknowledged. -/
def Station.heldBack (st : Station) (t : Toggle) : Station :=
  if st.expected = .adopt then { st with acknowledge := !t } else st

/-- R138: the report is new. -/
def Station.isNew (st : Station) (t : Toggle) : Bool := st.expected == .adopt || st.expected == .toggle t

/-- R139: a new report can be taken. -/
def State.canTake (s : State) (n : Nat) : Bool :=
  (s.station n).channel != .hold && decide (s.presentations.length < Config.presentations)
    && s.presentations.all (fun p => p.station != n) && (s.station n).verdict.isNone

/-- R137 step 4, R138, R139: the report taken, held back or set aside. A credential that is none is acknowledged without
an entry, with the corrupt answer flag set. -/
def State.reportStep (s : State) (n : Nat) (t : Toggle) (side : Side) (credential : Nat) : State :=
  if badCredential credential then s.setStation n { (s.station n).acknowledged t with corrupt := true }
  else if (s.station n).isNew t then
    if s.canTake n then
      { s.setStation n ((s.station n).acknowledged t) with
        presentations := s.presentations ++ [⟨n, side, credential, s.now⟩] }
    else s.setStation n ((s.station n).heldBack t)
  else s

/-- R137 steps 3 and 4: set aside while the mode is STANDBY (R174). -/
def State.contactAndReport (s : State) (n : Nat) (a : StationAnswer) : State :=
  if s.supply.mode = .standby then s
  else
    let s1 := s.contactStep n a.open? a.latch
    match a.report with
    | some (t, side, credential) => s1.reportStep n t side credential
    | none => s1

/-- R137: a good answer processed. An unbound station keeps its link and its door (R128, log entry 16). -/
def State.takeAnswer (s : State) (n : Nat) (a : StationAnswer) : State :=
  if (s.station n).room = 0 then s else ((s.linkStep n).verdictStep n a.seen).contactAndReport n a

/-- GOOD_ANSWER (R137). -/
def execGoodAnswer (chars : List StationChar) (s : State) : Host.Outcome State Fault Refusal :=
  if !isGoodAnswer chars then .fault .notAGoodAnswer
  else
    match s.turn with
    | some (t, _) => .next (s.takeAnswer t.station (answerOf chars)).endTurn.pump
    | none => .next s

/-! ### Misses (R135, R136, R142) -/

/-- R142 step 4: the door becomes UNKNOWN, a standing door alert being cleared. -/
def State.silenceDoor (s : State) (n : Nat) : State :=
  match (s.station n).door with
  | .forcedOpen => (s.setDoor n .unknown).doorAlert n .forced .clear
  | .heldOpen => (s.setDoor n .unknown).doorAlert n .held .clear
  | .unknown => s.setDoor n .unknown
  | .secure => s.setDoor n .unknown
  | .released _ => s.setDoor n .unknown
  | .opened _ => s.setDoor n .unknown

/-- R142: the station goes SILENT. -/
def State.silence (s : State) (n : Nat) : State :=
  let s1 := ((s.setStation n { s.station n with link := .silent }).put
    { kind := .link, station := n, room := (s.station n).room, reason := .stationSilent
      value := .number Link.silent.code }).offer (.link n .silent)
  let s2 := (s1.setStation n { s1.station n with verdict := none }).silenceDoor n
  let s3 := s2.setStation n { s2.station n with expected := .adopt }
  if s3.hasAdmitting n || (s3.groupAt n).isSome then s3.raiseLapseAt n true else s3

/-- R142: a miss raises the missed count, saturating at 15; an ONLINE station that reaches the silence threshold goes
SILENT. -/
def State.countMiss (s : State) (n : Nat) : State :=
  let missed := min Config.missedLimit ((s.station n).missed + 1)
  let s1 := s.setStation n { s.station n with missed := missed }
  if s.settings.silenceThreshold ≤ missed ∧ (s.station n).link = .online then s1.silence n else s1

/-- R135, R136: a miss; in the settle round the missed count does not change. An unbound station is left as it is
(log entry 16). -/
def State.miss (s : State) (n : Nat) (settle : Bool) : State :=
  if settle || (s.station n).room == 0 then s else s.countMiss n

/-- MISSING_ANSWER (R135). -/
def execMissingAnswer (s : State) : Host.Outcome State Fault Refusal :=
  match s.turn with
  | some (t, settle) => .next (s.miss t.station settle).endTurn.pump
  | none => .next s

/-- CORRUPT_ANSWER (R135): the corrupt answer flag is set, in the settle round too (R136), and the answer is a miss. -/
def execCorruptAnswer (chars : List StationChar) (s : State) : Host.Outcome State Fault Refusal :=
  if chars.isEmpty || isGoodAnswer chars then .fault .notACorruptAnswer
  else
    match s.turn with
    | some (t, settle) =>
      .next ((s.setStation t.station { s.station t.station with corrupt := true }).miss t.station settle).endTurn.pump
    | none => .next s

/-! ### The door timers (R146, R147) -/

/-- R128: the address of a station. -/
def isStation (n : Nat) : Bool := 1 ≤ n && n ≤ Config.stations

/-- R146: the release timer of a station runs out. -/
def State.releaseExpires (s : State) (n : Nat) : State :=
  match (s.station n).door with
  | .released _ =>
    let s1 := s.setDoor n .secure
    if s1.hasAdmitting n then s1.raiseLapseAt n false else s1
  | .unknown | .secure | .opened _ | .heldOpen | .forcedOpen => s

/-- RELEASE_TIMER_EXPIRY (R146, log entry 4). -/
def execReleaseTimerExpiry (n : Nat) (s : State) : Host.Outcome State Fault Refusal :=
  if !isStation n then .fault .noSuchStation
  else if s.inReset then .next s
  else .next (s.releaseExpires n)

/-- R147: the held timer of a station runs out: HELD_OPEN, and HELD raised. -/
def State.heldExpires (s : State) (n : Nat) : State :=
  match (s.station n).door with
  | .opened _ => ((s.setDoor n .heldOpen).doorAlert n .held .raised).pump
  | .unknown | .secure | .released _ | .heldOpen | .forcedOpen => s

/-- HELD_TIMER_EXPIRY (R147, log entry 4). -/
def execHeldTimerExpiry (n : Nat) (s : State) : Host.Outcome State Fault Refusal :=
  if !isStation n then .fault .noSuchStation
  else if s.inReset then .next s
  else .next (s.heldExpires n)

end Sys2Proof.Machine
end

