-- ==== Sys2Proof/Machine/StationRequests.lean ====
section
/-! DEFINITION. The station requests (R131 to R133). -/
namespace Sys2Proof.Machine

/-- R131 step 3: the station is in HOLD and nothing is under way at it. -/
def State.stationIdle (s : State) (n : Nat) : Bool :=
  (s.station n).channel == .hold && (s.groupAt n).isNone && !s.hasAdmitting n && (s.station n).verdict.isNone
    && s.presentations.all (fun p => p.station != n)
    && ((s.station n).door == .secure || (s.station n).door == .unknown) && (s.station n).events.isEmpty

/-- R131: the binding and timings written. Unbinding makes the link SILENT, the missed count 0, the expected toggle adopt
and the door UNKNOWN. -/
def Station.bound (st : Station) (room release held : Nat) : Station :=
  if st.room ≠ 0 ∧ room = 0 then
    { st with
      room := 0, releaseTime := release, heldLimit := held, link := .silent, missed := 0, expected := .adopt
      door := .unknown }
  else { st with room := room, releaseTime := release, heldLimit := held }

/-- R131: STATION-SET served. -/
def serveStationSet (body : List Byte) (s : State) : Except ReplyCode (State × List Byte) :=
  match readStationSet body with
  | .error c => .error c
  | .ok (n, room, release, held) =>
    if s.stationIdle n then
      .ok (s.setStation n ((s.station n).bound room release held),
        leBytes 1 n ++ leBytes 1 room ++ leBytes 1 release ++ leBytes 2 held)
    else .error .wrongState

/-- STATION_SET (R131). -/
def execStationSet (s : State) : Host.Outcome State Fault Refusal := requestJob .stationSet s serveStationSet

/-- R132: STATION-CHANNEL served. -/
def serveStationChannel (body : List Byte) (s : State) : Except ReplyCode (State × List Byte) :=
  match readStationChannel body with
  | .error c => .error c
  | .ok (n, channel) =>
    if (s.station n).room = 0 ∧ channel ≠ .hold then .error .wrongState
    else if (s.station n).channel = channel then .ok (s, [])
    else .ok (s.writeChannel n channel .operator, [])

/-- STATION_CHANNEL (R132). -/
def execStationChannel (s : State) : Host.Outcome State Fault Refusal := requestJob .stationChannel s serveStationChannel

/-- R133: STATION-READ served; the corrupt answer flag is reported as it stood, then cleared. -/
def serveStationRead (body : List Byte) (s : State) : Except ReplyCode (State × List Byte) :=
  match readStationNumber body with
  | .error c => .error c
  | .ok n => .ok (s.setStation n { s.station n with corrupt := false }, stationReport n (s.station n))

/-- STATION_READ (R133). -/
def execStationRead (s : State) : Host.Outcome State Fault Refusal := requestJob .stationRead s serveStationRead

end Sys2Proof.Machine
end

