-- ==== Sys2Proof/Machine/SupplyMode.lean ====
section
/-! DEFINITION. Supply modes, wake and the restart events (chapter 11). -/
namespace Sys2Proof.Machine

/-! ### MODE-REQUEST and RESTART (R173, R174, R177) -/

/-- R173, R180: the reply body of an accepted MODE-REQUEST. -/
def modeReply (s : State) : List Byte := leBytes 1 s.supply.mode.code ++ [boolByte s.supply.byRequest]

/-- R173 item 1. In STANDBY a RUN asked for changes nothing (log entry 12). -/
def State.requestRun (s : State) : State :=
  if s.supply.mode = .reserve then (s.changeMode .run false .request).settleSweep else s

/-- R173: MODE-REQUEST RUN served, and a MODE-REQUEST of a wrong length or an undefined mode refused. -/
def serveModeRun (body : List Byte) (s : State) : Except ReplyCode (State × List Byte) :=
  match readCode 2 body with
  | .error c => .error c
  | .ok _ => if s.supply.supplyGood then .ok (s.requestRun, modeReply s.requestRun) else .error .supply

/-- MODE_REQUEST_RUN (R173). -/
def execModeRequestRun (s : State) : Host.Outcome State Fault Refusal := requestJob .modeRequestRun s serveModeRun

/-- R173 item 2. In STANDBY a RESERVE asked for changes nothing (log entry 12). -/
def State.requestReserve (s : State) : State :=
  match s.supply.mode with
  | .run => s.changeMode .reserve true .request
  | .reserve => { s with supply := { s.supply with byRequest := true } }
  | .standby => s

/-- R173: MODE-REQUEST RESERVE served. -/
def serveModeReserve (body : List Byte) (s : State) : Except ReplyCode (State × List Byte) :=
  match readCode 2 body with
  | .error c => .error c
  | .ok _ => .ok (s.requestReserve, modeReply s.requestReserve)

/-- MODE_REQUEST_RESERVE (R173). -/
def execModeRequestReserve (s : State) : Host.Outcome State Fault Refusal :=
  requestJob .modeRequestReserve s serveModeReserve

/-- R174 step 2: something is under way at the presentation queue or at a station. -/
def State.lineBusy (s : State) : Bool :=
  !s.presentations.isEmpty || s.stations.any (fun st => st.verdict.isSome) || s.stations.any (fun st => !st.events.isEmpty)
    || s.stations.any (fun st => st.room != 0 && st.door != .secure && st.door != .unknown)

/-- R174: an accepted STANDBY; the stop of the station line and of the sweep interval timer is made when its reply has
been sent. Already in STANDBY nothing changes (log entry 12). -/
def State.requestStandby (s : State) : State :=
  if s.supply.mode = .standby then s
  else
    let s1 := s.changeMode .standby false .request
    { s1 with supply := { s1.supply with stopPending := true, fromReserve := s.supply.mode = .reserve } }

/-- R174: MODE-REQUEST STANDBY served. -/
def serveModeStandby (body : List Byte) (s : State) : Except ReplyCode (State × List Byte) :=
  match readCode 2 body with
  | .error c => .error c
  | .ok _ =>
    if !(s.pool.isEmpty && s.groups.isEmpty) then .error .occupied
    else if s.lineBusy then .error .wrongState
    else .ok (s.requestStandby, modeReply s.requestStandby)

/-- MODE_REQUEST_STANDBY (R174). -/
def execModeRequestStandby (s : State) : Host.Outcome State Fault Refusal :=
  requestJob .modeRequestStandby s serveModeStandby

/-- R177: a RESTART accepted; it is carried out when its reply has been sent. -/
def State.requestRestart (s : State) (r : RestartRequest) : State :=
  { s with supply := { s.supply with restartRequested := some r } }

/-- RESTART_WARM_REQUEST (R177); a RESTART of a wrong length or an undefined code is refused by this row. -/
def execRestartWarmRequest (s : State) : Host.Outcome State Fault Refusal :=
  requestJob .restartWarmRequest s fun body s => (readCode 1 body).map fun _ => (s.requestRestart .warm, [])

/-- RESTART_CLEAN_REQUEST (R177). -/
def execRestartCleanRequest (s : State) : Host.Outcome State Fault Refusal :=
  requestJob .restartCleanRequest s fun body s => (readCode 1 body).map fun _ => (s.requestRestart .clean, [])

/-! ### The lines (R172, R175) -/

/-- The supply-good line at a level. -/
def State.setSupplyGood (s : State) (level : Bool) : State := { s with supply := { s.supply with supplyGood := level } }

/-- R172: the fall of supply-good, by the mode. -/
def State.supplyFell (s : State) : State :=
  match s.supply.mode with
  | .run => s.changeMode .reserve false .supplyFall
  | .reserve => s
  | .standby => s.wakeEvent .wakeSupply

/-- SUPPLY_FALL (R172). In reset only the level is taken (log entry 31). -/
def execSupplyFall (s : State) : Host.Outcome State Fault Refusal :=
  if !s.supply.supplyGood then .next s
  else if s.inReset then .next (s.setSupplyGood false)
  else .next (s.setSupplyGood false).supplyFell.pump

/-- R172: the rise of supply-good, by the mode and the by-request flag. -/
def State.supplyRose (s : State) : State :=
  match s.supply.mode with
  | .run => s
  | .reserve => if s.supply.byRequest then s else (s.changeMode .run false .supplyRise).settleSweep
  | .standby => s.wakeEvent .wakeSupply

/-- SUPPLY_RISE (R172). In reset only the level is taken (log entry 31). -/
def execSupplyRise (s : State) : Host.Outcome State Fault Refusal :=
  if s.supply.supplyGood then .next s
  else if s.inReset then .next (s.setSupplyGood true)
  else .next (s.setSupplyGood true).supplyRose.pump

/-- The attention line at a level. -/
def State.setAttention (s : State) (level : Bool) : State := { s with supply := { s.supply with attention := level } }

/-- ATTENTION (R175): a wake event in STANDBY; in another mode without effect but for the line's level. -/
def execAttention (stays : Bool) (s : State) : Host.Outcome State Fault Refusal :=
  if s.inReset then .next (s.setAttention stays)
  else .next ((s.setAttention stays).wakeEvent .wakeAttention).pump

/-! ### Reset and the main supply (R176) -/

/-- RESET_LINE_ACTIVE (R176): the part is held in reset. -/
def execResetLineActive (s : State) : Host.Outcome State Fault Refusal :=
  .next { s with supply := { s.supply with resetActive := true } }

/-- MAIN_SUPPLY_LOSS (R176): the part is held in reset. -/
def execMainSupplyLoss (s : State) : Host.Outcome State Fault Refusal :=
  .next { s with supply := { s.supply with mainLost := true } }

/-- R176: a hold in reset ended: a restart begins, unless the other hold still stands (log entry 19). -/
def State.leaveReset (s : State) (inputs : RestartInputs) : State :=
  let s1 : State := { s with supply := s.supply.backedUp inputs.backup }
  if s1.inReset then s1 else s1.startUp .resetLine inputs

/-- RESET_LINE_RELEASED (R176): the line released after being held active. -/
def execResetLineReleased (inputs : RestartInputs) (s : State) : Host.Outcome State Fault Refusal :=
  if s.supply.resetActive then
    .next (({ s with supply := { s.supply with resetActive := false } } : State).leaveReset inputs)
  else .next s

/-- MAIN_SUPPLY_UP (R176): the main supply reaches its working level. -/
def execMainSupplyUp (inputs : RestartInputs) (s : State) : Host.Outcome State Fault Refusal :=
  if s.supply.mainLost then
    .next (({ s with supply := { s.supply with mainLost := false } } : State).leaveReset inputs)
  else .next s

end Sys2Proof.Machine
end

