-- ==== Sys2Proof/Machine/TrailRequests.lean ====
section
/-! DEFINITION. The trail requests (R155 to R157), served through the access trail. -/
namespace Sys2Proof.Machine

/-- R155: the records a TRAIL-READ returns. -/
def Trail.range (t : Trail) (h : HalfId) (first count : Nat) : List TrailRecord :=
  ((t.half h).records.drop first).take count

/-- R155: TRAIL-READ served. -/
def serveTrailRead (body : List Byte) (s : State) : Except ReplyCode (State × List Byte) :=
  match readTrailRange body with
  | .error c => .error c
  | .ok (h, first, count) =>
    .ok (s, trailBlock s.trail ++ leBytes 1 (s.trail.range h first count).length
      ++ (s.trail.range h first count).flatMap TrailRecord.bytes)

/-- TRAIL_READ (R155). -/
def execTrailRead (s : State) : Host.Outcome State Fault Refusal := acceptedRequest .trailRead s serveTrailRead

/-- R156: the FILLING half closed by request, with its TRAIL-HALF notice. -/
def State.closeTrail (s : State) (h : HalfId) : State :=
  ({ s with trail := s.trail.close h (s.trail.half h).records } : State).offer (.trailHalf h true false)

/-- R156, R180: TRAIL-CLOSE served. The reply names the half closed, 0 when no change was made. -/
def serveTrailClose (body : List Byte) (s : State) : Except ReplyCode (State × List Byte) :=
  match readNothing body with
  | .error c => .error c
  | .ok _ =>
    match s.trail.filling with
    | none => .error .wrongState
    | some h =>
      if (s.trail.half h).records = [] then .ok (s, leBytes 2 0 ++ trailBlock s.trail)
      else if (s.trail.half h.other).state ≠ .free then .error .wrongState
      else
        .ok (s.closeTrail h,
          leBytes 1 h.code ++ leBytes 1 (s.trail.half h).records.length ++ trailBlock (s.closeTrail h).trail)

/-- TRAIL_CLOSE (R156). -/
def execTrailClose (s : State) : Host.Outcome State Fault Refusal := acceptedRequest .trailClose s serveTrailClose

/-- R157: a CLOSED half freed. Out of FULL it fills at once, with the GAP record of the lost count at its index 0. -/
def State.freeHalf (s : State) (h : HalfId) : State :=
  if s.trail.full then
    { s with
      trail :=
        { s.trail.setHalf h ⟨.filling,
            if s.trail.lost = 0 then [] else [s.stamp { kind := .gap, value := .number s.trail.lost }]⟩ with
          lost := 0 } }
  else { s with trail := s.trail.setHalf h ⟨.free, []⟩ }

/-- R157: TRAIL-FREE served. -/
def serveTrailFree (body : List Byte) (s : State) : Except ReplyCode (State × List Byte) :=
  match readHalf body with
  | .error c => .error c
  | .ok h =>
    if (s.trail.half h).state = .closed then .ok (s.freeHalf h, trailBlock (s.freeHalf h).trail) else .error .wrongState

/-- TRAIL_FREE (R157). -/
def execTrailFree (s : State) : Host.Outcome State Fault Refusal := acceptedRequest .trailFree s serveTrailFree

end Sys2Proof.Machine
end

