-- ==== Sys2Proof/Machine/Dispatch.lean ====
section
/-! DEFINITION. One arm per command: its effect on everything but the queue of waiting commands. -/
namespace Sys2Proof.Machine

def exec (i : Instr) (s : State) : Host.Outcome State Fault Refusal :=
  match i with
  | .frameReceived bytes => Sys2Proof.Machine.execFrameReceived bytes s
  | .receiveGap => Sys2Proof.Machine.execReceiveGap s
  | .frameSent inputs => Sys2Proof.Machine.execFrameSent inputs s
  | .identify => Sys2Proof.Machine.execIdentify s
  | .status => Sys2Proof.Machine.execStatus s
  | .settingsWrite => Sys2Proof.Machine.execSettingsWrite s
  | .settingsRead => Sys2Proof.Machine.execSettingsRead s
  | .clockSet => Sys2Proof.Machine.execClockSet s
  | .clockRead => Sys2Proof.Machine.execClockRead s
  | .permitAdd => Sys2Proof.Machine.execPermitAdd s
  | .permitAmend => Sys2Proof.Machine.execPermitAmend s
  | .permitRemove => Sys2Proof.Machine.execPermitRemove s
  | .permitRead => Sys2Proof.Machine.execPermitRead s
  | .permitFind => Sys2Proof.Machine.execPermitFind s
  | .revoke => Sys2Proof.Machine.execRevoke s
  | .unrevoke => Sys2Proof.Machine.execUnrevoke s
  | .revokeList => Sys2Proof.Machine.execRevokeList s
  | .roomSet => Sys2Proof.Machine.execRoomSet s
  | .roomMode => Sys2Proof.Machine.execRoomMode s
  | .roomRead => Sys2Proof.Machine.execRoomRead s
  | .occupantRelease => Sys2Proof.Machine.execOccupantRelease s
  | .stationSet => Sys2Proof.Machine.execStationSet s
  | .stationChannel => Sys2Proof.Machine.execStationChannel s
  | .stationRead => Sys2Proof.Machine.execStationRead s
  | .trailRead => Sys2Proof.Machine.execTrailRead s
  | .trailClose => Sys2Proof.Machine.execTrailClose s
  | .trailFree => Sys2Proof.Machine.execTrailFree s
  | .modeRequestRun => Sys2Proof.Machine.execModeRequestRun s
  | .modeRequestReserve => Sys2Proof.Machine.execModeRequestReserve s
  | .modeRequestStandby => Sys2Proof.Machine.execModeRequestStandby s
  | .restartWarmRequest => Sys2Proof.Machine.execRestartWarmRequest s
  | .restartCleanRequest => Sys2Proof.Machine.execRestartCleanRequest s
  | .unknownKind => Sys2Proof.Machine.execUnknownKind s
  | .doorCommit => Sys2Proof.Machine.execDoorCommit s
  | .doorLapse => Sys2Proof.Machine.execDoorLapse s
  | .pairingExpiry => Sys2Proof.Machine.execPairingExpiry s
  | .stayDeadlineDue => Sys2Proof.Machine.execStayDeadlineDue s
  | .escalationDue => Sys2Proof.Machine.execEscalationDue s
  | .limitDue => Sys2Proof.Machine.execLimitDue s
  | .entryDecision => Sys2Proof.Machine.execEntryDecision s
  | .exitDecision => Sys2Proof.Machine.execExitDecision s
  | .sweepStep => Sys2Proof.Machine.execSweepStep s
  | .sweepIntervalExpiry => Sys2Proof.Machine.execSweepIntervalExpiry s
  | .clockEnd => Sys2Proof.Machine.execClockEnd s
  | .pollRoundStart => Sys2Proof.Machine.execPollRoundStart s
  | .call => Sys2Proof.Machine.execCall s
  | .goodAnswer chars => Sys2Proof.Machine.execGoodAnswer chars s
  | .missingAnswer => Sys2Proof.Machine.execMissingAnswer s
  | .corruptAnswer chars => Sys2Proof.Machine.execCorruptAnswer chars s
  | .releaseTimerExpiry station => Sys2Proof.Machine.execReleaseTimerExpiry station s
  | .heldTimerExpiry station => Sys2Proof.Machine.execHeldTimerExpiry station s
  | .supplyFall => Sys2Proof.Machine.execSupplyFall s
  | .supplyRise => Sys2Proof.Machine.execSupplyRise s
  | .attention stays => Sys2Proof.Machine.execAttention stays s
  | .resetLineActive => Sys2Proof.Machine.execResetLineActive s
  | .resetLineReleased inputs => Sys2Proof.Machine.execResetLineReleased inputs s
  | .mainSupplyLoss => Sys2Proof.Machine.execMainSupplyLoss s
  | .mainSupplyUp inputs => Sys2Proof.Machine.execMainSupplyUp inputs s
  | .startByteReceived => Sys2Proof.Machine.execStartByteReceived s
  | .framingError => Sys2Proof.Machine.execFramingError s
  | .lengthOver1024 => Sys2Proof.Machine.execLengthOver1024 s

end Sys2Proof.Machine
end

