-- ==== Sys2Proof/Machine/Own.lean ====
section
/-! DEFINITION. What the part does of itself when no command waits (log entry 2). -/
namespace Sys2Proof.Machine

/-- R164: the request to be served at acceptance. -/
def State.ownRequest (s : State) : Option Instr :=
  match s.unserved with
  | some f => if servedAtAcceptance f then some (requestRow f) else none
  | none => none

/-- R146, R147: the timer that has run out at a station, by its address. -/
def State.ownTimer (s : State) (n : Nat) : Option Instr :=
  match (s.station n).door with
  | .released 0 => some (.releaseTimerExpiry n)
  | .opened 0 => some (.heldTimerExpiry n)
  | .released (_ + 1) | .opened (_ + 1) | .unknown | .secure | .heldOpen | .forcedOpen => none

/-- R98: the running sweep interval timer has reached the effective interval. -/
def State.ownSweep (s : State) : Option Instr :=
  if s.sweepRuns && s.effectiveInterval ≤ s.sweep.count then some .sweepIntervalExpiry else none

/-- The next thing the part does of itself: a request served at acceptance, a timer that has run out, then the job the
arbiter grants; `none` when nothing but time can change anything. -/
def State.ownAction (s : State) : Option Instr :=
  if s.inReset then none
  else
    (((s.ownRequest).or ((List.range' 1 Config.stations).findSome? s.ownTimer)).or s.ownSweep).or s.granted

end Sys2Proof.Machine
end

