-- ==== Sys2Proof/Machine/Step.lean ====
section
/-! DEFINITION. One step: the command at the front of the queue, or what the part does of itself. -/
namespace Sys2Proof.Machine

/-- The command at the front of the queue is carried out with the queue's rest. On an empty queue the part does what it
does of itself (R119, R146, R147, R98), or one second passes (R84; log entry 2). -/
def step (s : State) : Host.Outcome State Fault Refusal :=
  match s.pending with
  | c :: rest => exec c { s with pending := rest }
  | [] =>
    match s.ownAction with
    | some c => exec c s
    | none => .next s.tick

/-- The command a word spells, put at the front of the queue; no word spells one (log entry 30). -/
def State.withFetchWord (s : State) (nbits w : Nat) : State :=
  match Sys2Proof.decodeTableWord nbits w with
  | some c => { s with pending := c :: s.pending }
  | none => s

end Sys2Proof.Machine
end

