-- ==== Sys2Proof/WellFormed.lean ====
section
/-! DEFINITION. Which commands name an event of the part. The checks read the operand alone, never the state. -/
namespace Sys2Proof

/-- R161, R135, R128: the frame is complete, the answer is of the kind the command says, the station exists. -/
def WellFormed : Instr → Bool
  | .frameReceived bytes => Machine.isFrame bytes
  | .goodAnswer chars => Machine.isGoodAnswer chars
  | .corruptAnswer chars => !chars.isEmpty && !Machine.isGoodAnswer chars
  | .releaseTimerExpiry st => 1 ≤ st && st ≤ Config.stations
  | .heldTimerExpiry st => 1 ≤ st && st ≤ Config.stations
  | .receiveGap | .frameSent _ | .identify | .status | .settingsWrite | .settingsRead | .clockSet | .clockRead
  | .permitAdd | .permitAmend | .permitRemove | .permitRead | .permitFind | .revoke | .unrevoke | .revokeList
  | .roomSet | .roomMode | .roomRead | .occupantRelease | .stationSet | .stationChannel | .stationRead
  | .trailRead | .trailClose | .trailFree | .modeRequestRun | .modeRequestReserve | .modeRequestStandby
  | .restartWarmRequest | .restartCleanRequest | .unknownKind | .doorCommit | .doorLapse | .pairingExpiry
  | .stayDeadlineDue | .escalationDue | .limitDue | .entryDecision | .exitDecision | .sweepStep
  | .sweepIntervalExpiry | .clockEnd | .pollRoundStart | .call | .missingAnswer | .supplyFall | .supplyRise
  | .attention _ | .resetLineActive | .resetLineReleased _ | .mainSupplyLoss | .mainSupplyUp _
  | .startByteReceived | .framingError | .lengthOver1024 => true

end Sys2Proof
end

