-- ==== Sys2Proof/Safety.lean ====
section
/-! DEFINITION. What counts as a safe run and a sound state, in the terms the statements use: the outcome of a command, how
a request is answered, and the bounds the manual says hold at all times. -/
namespace Sys2Proof.Machine

/-! ### Outcomes -/

/-- A safe step: it answers a next state. The part has no stop of its own, so an unsafe step is a command that names no
event of it. -/
def State.StepSafe (s : State) : Prop := ∃ t, step s = .next t

/-- The host line after a reply with a code and a body is handed for a request, the transmitter then looking at what waits
(R164, R165). -/
def HostLine.handed (h : HostLine) (f : Frame) (code : ReplyCode) (body : List Byte) : HostLine :=
  ({ h with outstanding := some ⟨f, true⟩, reply := some (replyFrame f code body) } : HostLine).begin

/-- The command serves the request `f`: it leaves the state `t`, with the reply of the code and the body handed. -/
def Answers (i : Instr) (s : State) (f : Frame) (code : ReplyCode) (body : List Byte) (t : State) : Prop :=
  exec i s = .next { t with host := t.host.handed f code body }

/-- The command refuses the request `f`: it changes no state, and hands a reply of the code alone (R164). -/
def Refuses (i : Instr) (s : State) (f : Frame) (code : ReplyCode) : Prop := Answers i s f code [] s

/-- The command carries out its effect, `t` being the state it leaves once the transmitter has looked at what waits
(R165). -/
def Leaves (i : Instr) (s t : State) : Prop := exec i s = .next { t with host := t.host.begin }

/-- `f` is the request the arbiter grants now as the REQUEST job of row `i` (R117, R119, R164). -/
def State.serving (s : State) (i : Instr) (f : Frame) : Prop := s.granted = some i ∧ s.unserved = some f

/-! ### The clock, the trail, the host line and the sweep -/

/-- R84, R86, R87: the values of the clock, and its two conditions. -/
def Clock.Sound (c : Clock) : Prop :=
  c.day ≤ 65535 ∧ c.second ≤ 86399 ∧ (c.unset = true → c.day = 0 ∧ c.second = 0)
    ∧ c.ended = decide (c.day = 65535 ∧ c.second = 86399)

/-- R150: the records of a half, by its state. -/
def Half.Sound (h : Half) : Prop :=
  match h.state with
  | .filling => h.records.length ≤ 63
  | .closed => 1 ≤ h.records.length ∧ h.records.length ≤ 64
  | .free => h.records = []

/-- R150: one half FILLING except while both are CLOSED; the lost count 0 whenever a half is FILLING; last closed names a
half once one has been closed. -/
def Trail.Sound (t : Trail) : Prop :=
  t.a.Sound ∧ t.b.Sound
    ∧ (t.a.state = .filling ∧ t.b.state ≠ .filling ∨ t.a.state ≠ .filling ∧ t.b.state = .filling
        ∨ t.a.state = .closed ∧ t.b.state = .closed)
    ∧ (t.a.state = .filling ∨ t.b.state = .filling → t.lost = 0) ∧ t.lost ≤ 65535
    ∧ (t.a.state = .closed ∨ t.b.state = .closed → t.lastClosed ≠ none)

/-- The frame being sent is the reply of the outstanding request. -/
def HostLine.sendingReply (h : HostLine) : Bool :=
  match h.sending with
  | some x => x.source == .reply
  | none => false

/-- R163 to R166: the bounds of the BUSY list and the notice queue; a transmitter that is free has nothing to send; a
request is outstanding unserved, or with its one reply waiting or being sent. -/
def HostLine.Sound (h : HostLine) : Prop :=
  h.busy.length ≤ 4 ∧ h.notices.length ≤ 16 ∧ h.rateCode ≤ 3
    ∧ (h.sending = none → h.reply = none ∧ h.busy = [] ∧ h.notices = [])
    ∧ (match h.outstanding with
        | none => h.reply = none ∧ h.sendingReply = false
        | some o =>
          if o.served then h.reply.isSome ≠ h.sendingReply else h.reply = none ∧ h.sendingReply = false)

/-- R99, R124: the owed-sweep count and the pass position; a pass in progress has a sweep owed for it. -/
def Sweep.Sound (w : Sweep) : Prop := w.owed ≤ 4 ∧ 1 ≤ w.position ∧ w.position ≤ 16 ∧ (w.position ≠ 1 → 1 ≤ w.owed)

/-- R92: the queue in ascending due second. -/
def State.DeadlinesSorted (s : State) : Prop := s.deadlines.Pairwise (fun e e' => e.due ≤ e'.due)

/-! ### The permit table and the revocation set -/

/-- R6: a card number. -/
def isCredential (c : Nat) : Prop := 1 ≤ c ∧ c ≤ 4294967294

/-- R2, R3, R4: the ranges of a permit's stored fields. -/
def Permit.Sound (p : Permit) : Prop :=
  1 ≤ p.number ∧ p.number ≤ 65535 ∧ isCredential p.credential
    ∧ p.rooms ≠ [] ∧ p.rooms.Pairwise (· < ·) ∧ (∀ r ∈ p.rooms, 1 ≤ r ∧ r ≤ 12)
    ∧ p.validFrom ≤ 94371839 ∧ 1 ≤ p.validUntil ∧ p.validUntil ≤ 94371840 ∧ p.validFrom < p.validUntil
    ∧ (∀ w ∈ p.window, w.fromMinute ≤ 1439 ∧ w.toMinute ≤ 1439)
    ∧ (p.role = .escort → p.needsEscort = false) ∧ 1 ≤ p.maxStay ∧ p.maxStay ≤ 1440
    ∧ (∀ a ∈ p.allowance, a ≤ 65535)

/-- R1: slots 0 to 255, each with one record, no permit number twice, at most 8 records of one credential, and every
record in its ranges. -/
def State.PermitsSound (s : State) : Prop :=
  s.permits.Pairwise (fun e e' => e.1 < e'.1) ∧ (∀ e ∈ s.permits, e.1 ≤ 255 ∧ e.2.Sound)
    ∧ s.permits.Pairwise (fun e e' => e.2.number ≠ e'.2.number)
    ∧ (∀ c, s.permits.countP (fun e => e.2.credential = c) ≤ 8)

/-- R16: up to 32 credentials, none twice. -/
def State.RevokedSound (s : State) : Prop :=
  s.revoked.length ≤ 32 ∧ s.revoked.Nodup ∧ ∀ c ∈ s.revoked, isCredential c

/-! ### Rooms, stations and the presentation queue -/

/-- R22: the ranges of a room's configuration. -/
def Room.Sound (r : Room) : Prop :=
  1 ≤ r.capacity ∧ r.capacity ≤ 8 ∧ 1 ≤ r.escortRatio ∧ r.escortRatio ≤ 4 ∧ r.minStay ≤ 60 ∧ r.grace ≤ 60
    ∧ 5 ≤ r.pairingWindow ∧ r.pairingWindow ≤ 120 ∧ r.loneLimit ≤ 600 ∧ r.unescortedLimit ≤ 600

/-- R22: twelve rooms, each in its ranges. -/
def State.RoomsSound (s : State) : Prop := s.rooms.length = 12 ∧ ∀ r ∈ s.rooms, r.Sound

/-- R170: the ranges of the settings. -/
def Settings.Sound (x : Settings) : Prop :=
  50 ≤ x.pollPeriod ∧ x.pollPeriod ≤ 1000 ∧ 2 ≤ x.reserveFactor ∧ x.reserveFactor ≤ 8 ∧ 3 ≤ x.silenceThreshold
    ∧ x.silenceThreshold ≤ 15 ∧ 1 ≤ x.sweepInterval ∧ x.sweepInterval ≤ 60 ∧ x.weekdayOffset ≤ 6

/-- R128: the ranges of a station record, and what an unbound station holds. -/
def Station.Sound (st : Station) : Prop :=
  st.room ≤ 12 ∧ 3 ≤ st.releaseTime ∧ st.releaseTime ≤ 30 ∧ 10 ≤ st.heldLimit ∧ st.heldLimit ≤ 300 ∧ st.missed ≤ 15
    ∧ (st.room = 0 → st.channel = .hold ∧ st.link = .silent ∧ st.door = .unknown)

/-- R128: sixteen stations, each sound. -/
def State.StationsSound (s : State) : Prop := s.stations.length = 16 ∧ ∀ st ∈ s.stations, st.Sound

/-- R139: at most 8 entries, at most one of each station, each of a station 1 to 16 and with a credential. -/
def State.PresentationsSound (s : State) : Prop :=
  s.presentations.length ≤ 8 ∧ (s.presentations.map Presentation.station).Nodup
    ∧ ∀ p ∈ s.presentations, 1 ≤ p.station ∧ p.station ≤ 16 ∧ isCredential p.credential

/-! ### Persons and room alerts -/

/-- R53: the credentials of all records and of all group members. -/
def State.credentials (s : State) : List Nat :=
  s.pool.map Occupant.credential ++ s.members.map Member.credential

/-- R53, R70, R71: a credential stands in one record or one membership at most; groups stand at distinct stations, each of
1 to 4 members; every ADMITTING record and every group names its station's bound room, one of the twelve. -/
def State.PersonsSound (s : State) : Prop :=
  s.credentials.Nodup ∧ s.groups.Pairwise (fun g g' => g.station < g'.station)
    ∧ (∀ g ∈ s.groups, g.members ≠ [] ∧ g.members.length ≤ 4 ∧ g.room = (s.station g.station).room
        ∧ 1 ≤ g.room ∧ g.room ≤ 12)
    ∧ (∀ o ∈ s.pool, 1 ≤ o.room ∧ o.room ≤ 12)
    ∧ (∀ o ∈ s.pool, o.presence = .admitting → o.room = (s.station o.station).room)

/-- R35, R37, R38: an alert's level is 0 exactly when its condition does not stand over the room's list. -/
def State.AlertAgrees (s : State) (a : RoomAlert) (n : Nat) : Prop :=
  a.level (s.room n) = .clear ↔ a.stands (s.room n) ((s.occupants n).map Occupant.person) = false

/-- R37, R38: both alerts of every room agree with its list. -/
def State.AlertsAgree (s : State) : Prop :=
  ∀ n, 1 ≤ n → n ≤ 12 → s.AlertAgrees .lone n ∧ s.AlertAgrees .unescorted n

/-- R28: in every room the records and the members waiting never exceed the capacity, and all records and members never
exceed 48. -/
def State.WithinCapacity (s : State) : Prop :=
  (∀ n, 1 ≤ n → n ≤ 12 → (s.occupants n).length + s.reserved n ≤ (s.room n).capacity)
    ∧ s.pool.length + s.members.length ≤ 48

/-! ### An entry on its way -/

/-- R50 to R56: the entry `p` passes the part, station and credential checks, and `q` is its chosen permit. -/
def State.EntryChooses (s : State) (p : Presentation) (q : Permit) : Prop :=
  (s.station p.station).link = .online ∧ s.clock.unset = false ∧ (s.station p.station).channel ≠ .barred
    ∧ p.credential ∉ s.revoked ∧ s.recordOf p.credential = none ∧ s.membershipOf p.credential = none
    ∧ (s.permitsOf p.credential).find? (fun x => s.failure (s.station p.station).room x = none) = some q

/-- R59, R60: the room checks of an entry for room `n` pass. -/
def State.RoomAdmits (s : State) (n : Nat) : Prop :=
  (s.room n).mode ≠ .closed ∧ ((s.room n).strict = true → s.trail.filling ≠ none)
    ∧ (s.occupants n).length + s.reserved n + 1 ≤ (s.room n).capacity ∧ s.pool.length + s.members.length + 1 ≤ 48

/-! ### What records, members and deadline entries name -/

/-- R92, R94: what a deadline entry names stands: a group at its station, an INSIDE record at level 0 of OVERSTAY or at
level 1, a room alert at level 1. -/
def State.Stands (s : State) : Due → Prop
  | .pairing n => ∃ g ∈ s.groups, g.station = n
  | .stayDeadline c => ∃ o ∈ s.pool, o.credential = c ∧ o.presence ≠ .admitting ∧ o.overstay = .clear
  | .escalation c => ∃ o ∈ s.pool, o.credential = c ∧ o.presence ≠ .admitting ∧ o.overstay = .raised
  | .loneLimit n => 1 ≤ n ∧ n ≤ 12 ∧ (s.room n).lone = .raised
  | .unescortedLimit n => 1 ≤ n ∧ n ≤ 12 ∧ (s.room n).unescorted = .raised

/-- R5, R28: a permit of the table has this number and names this credential. -/
def State.HoldsPermit (s : State) (number credential : Nat) : Prop :=
  ∃ e ∈ s.permits, e.2.number = number ∧ e.2.credential = credential

/-- R5: every record and every member names a permit of its own credential. R70: at most 8 groups. R92, R94: the deadline
queue names nothing twice and only what stands; an ADMITTING record is at level 0 of OVERSTAY (R29). R86: while the clock
is UNSET the pool, the groups and the deadline queue are empty. -/
def State.ReferencesSound (s : State) : Prop :=
  (∀ o ∈ s.pool, s.HoldsPermit o.permit o.credential) ∧ (∀ m ∈ s.members, s.HoldsPermit m.permit m.credential)
    ∧ (∀ o ∈ s.pool, o.presence = .admitting → o.overstay = .clear)
    ∧ (s.deadlines.map DeadlineEntry.what).Nodup ∧ (∀ e ∈ s.deadlines, s.Stands e.what) ∧ s.groups.length ≤ 8
    ∧ (s.clock.unset = true → s.pool = [] ∧ s.groups = [] ∧ s.deadlines = [])

/-- R48, R148: the station holds an undelivered RELEASE, its door is RELEASED, or a door event of it is pending. -/
def Station.AwaitsEntry (st : Station) : Prop :=
  (∃ v, st.verdict = some v ∧ v.outcome = .release) ∨ (∃ left, st.door = .released left) ∨ st.events ≠ []

/-- R148: each ADMITTING record's station awaits its entry, while the part is not in reset. -/
def State.AdmittingAwaited (s : State) : Prop :=
  s.inReset = false → ∀ o ∈ s.pool, o.presence = .admitting → (s.station o.station).AwaitsEntry

/-- R123, R174: in STANDBY there is nobody in the rooms, nothing in the presentation queue and no request to serve, and
from the stop on the receiver hunts and the sweep interval timer stands at 0 (R98). A stop is still to come only in
STANDBY, while the STANDBY request is outstanding (R163). -/
def State.StandbyEmpty (s : State) : Prop :=
  (s.supply.stopPending = true → s.supply.mode = .standby ∧ s.host.outstanding ≠ none)
    ∧ (s.supply.mode = .standby →
        s.pool = [] ∧ s.groups = [] ∧ s.presentations = [] ∧ s.unserved = none
          ∧ (s.supply.stopPending = false → s.host.receiving = false ∧ s.sweep.count = 0))

/-! ### The sound states -/

/-- The bounds of the clock, the trail, the host line and the sweep, and the order of the deadline queue. -/
def State.CountersSound (s : State) : Prop :=
  s.clock.Sound ∧ s.trail.Sound ∧ s.host.Sound ∧ s.sweep.Sound ∧ s.DeadlinesSorted

/-- The bounds of the tables that the host writes and of the presentation queue. -/
def State.TablesSound (s : State) : Prop :=
  s.PermitsSound ∧ s.RevokedSound ∧ s.RoomsSound ∧ s.settings.Sound ∧ s.PresentationsSound

end Sys2Proof.Machine
end

