-- ==== Sys2Proof/Certificates/Slice0/Obligations.lean ====
section
/-! DEFINITION. The statements for the provers, by chapter of the manual. In each, `f` is the request being served and `t`
the state left; a record update `s with …` is the frame, since every field not named keeps its value. -/

open Sys2Proof Sys2Proof.Machine

/-! ### The machine as a whole -/

/-- Each step carries out the command at the front of the queue. -/
def Obligations.StepRunsFrontCommand : Prop :=
  ∀ (c : Instr) (s : State) (rest : List Instr), s.pending = c :: rest → step s = exec c { s with pending := rest }

/-- On an empty queue the part does what it does of itself, or a second passes (the model's choice, log entry 2). -/
def Obligations.IdleStepActsOrTicks : Prop :=
  ∀ s : State, s.pending = [] →
    (∀ c, s.ownAction = some c → step s = exec c s) ∧ (s.ownAction = none → step s = .next s.tick)

/-- R128, R135, R161: a command completes exactly when it names an event of the part; an ill-formed one faults (the
model's choice, log entry 28), and no command is refused. -/
def Obligations.CompletesIffWellFormed : Prop :=
  ∀ (c : Instr) (s : State),
    (WellFormed c = true → ∃ t, exec c s = .next t) ∧ (WellFormed c = false → ∃ r, exec c s = .fault r)

/-- No command touches the queue of commands, which is the model's own. -/
def Obligations.ExecKeepsQueue : Prop :=
  ∀ (c : Instr) (s t : State), exec c s = .next t → t.pending = s.pending

/-! ### The host line (chapter 10) -/

/-- R161: a start byte begins a frame, in a mode other than STANDBY. R161 cases 1 to 3: the partial frame is discarded;
while hunting nothing happens. -/
def Obligations.ReceiverEvents : Prop :=
  (∀ s : State, s.inReset = false → s.supply.mode ≠ .standby →
     (s.host.receiving = false → Leaves .startByteReceived s { s with host := { s.host with receiving := true } })
     ∧ (s.host.receiving = true → exec .startByteReceived s = .next s))
  ∧ (∀ (c : Instr) (s : State), c ∈ [Instr.receiveGap, .framingError, .lengthOver1024] → s.inReset = false →
       (s.host.receiving = true →
         exec c s = .next { s with host := { s.host with receiving := false, frameDiscarded := true } })
       ∧ (s.host.receiving = false → exec c s = .next s))

/-- R161 case 4, R162, R163: a frame sent as R160 lays it out is accepted, and its values are read as they were sent. -/
def Obligations.FrameSentIsAccepted : Prop :=
  ∀ (f : Frame) (s : State), f.body.length ≤ 1024 → s.inReset = false → s.host.receiving = true →
    (s.host.outstanding = none →
      Leaves (.frameReceived f.wire.tail) s
        { s with host := { s.host with receiving := false, outstanding := some ⟨f, false⟩ } })
    ∧ (s.host.outstanding ≠ none → s.host.busy.length ≤ 3 →
      Leaves (.frameReceived f.wire.tail) s
        { s with host := { s.host with receiving := false, busy := s.host.busy ++ [(f.kind, f.tag)] } })
    ∧ (s.host.outstanding ≠ none → 4 ≤ s.host.busy.length →
      Leaves (.frameReceived f.wire.tail) s
        { s with host := { s.host with receiving := false, frameDiscarded := true } })

/-- R162: a frame with one byte of its kind, tag or body replaced on the line is discarded. -/
def Obligations.OneByteErrorIsDiscarded : Prop :=
  ∀ (f g : Frame) (before after : List Byte) (x y : Byte) (s : State), f.body.length ≤ 1024 →
    g.body.length = f.body.length → f.covered = before ++ x :: after → g.covered = before ++ y :: after → x ≠ y →
    s.inReset = false → s.host.receiving = true →
    exec (.frameReceived (g.covered ++ leBytes 2 (crc f.covered).toNat)) s
      = .next { s with host := { s.host with receiving := false, frameDiscarded := true } }

/-- R165: the transmitter finishes a BUSY reply or a notice and begins the first that waits of the reply handed, the
oldest BUSY reply and the head notice, a pending stop or restart being no hindrance. A finished reply, where neither a
stop nor a restart follows it, ends its request and does the same. R163: the BUSY reply. R167, R182: the kind, the tag 0
and the body of each notice, byte by byte, the codes being those of R185. -/
def Obligations.TransmitterTakesNextInOrder : Prop :=
  (∀ (inputs : RestartInputs) (s : State) (x : Sending), s.inReset = false → s.host.sending = some x →
     x.source ≠ .reply ∨ s.supply.restartRequested = none ∧ s.supply.stopPending = false →
     ∃ t, exec (.frameSent inputs) s = .next t ∧ { t with host := s.host } = s
       ∧ t.host.outstanding = (if x.source = .reply then none else s.host.outstanding)
       ∧ (∀ r, s.host.reply = some r → t.host.sending = some ⟨r, .reply⟩ ∧ t.host.reply = none
           ∧ t.host.busy = s.host.busy ∧ t.host.notices = s.host.notices)
       ∧ (∀ b bs, s.host.reply = none → s.host.busy = b :: bs →
           t.host.sending = some ⟨busyFrame b, .busy⟩ ∧ t.host.busy = bs ∧ t.host.notices = s.host.notices)
       ∧ (∀ n ns, s.host.reply = none → s.host.busy = [] → s.host.notices = n :: ns →
           t.host.sending = some ⟨n.frame, .notice⟩ ∧ t.host.notices = ns ∧ t.host.busy = [])
       ∧ (s.host.reply = none → s.host.busy = [] → s.host.notices = [] → t.host.sending = none))
  ∧ (∀ b : Byte × Byte, busyFrame b = ⟨replyKind b.1, b.2, [3]⟩)
  ∧ (∀ (kind : RestartKind) (lost : Bool),
       (Notice.ready kind lost).frame = ⟨0x40, 0, [BitVec.ofNat 8 kind.code, boolByte lost]⟩)
  ∧ (∀ d : DecisionNotice,
       let f := (Notice.decision d).frame
       f.kind = 0x41 ∧ f.tag = 0 ∧ f.body.length = 21 ∧ byteAt f.body 0 = d.station % 256
         ∧ byteAt f.body 1 = d.side.code ∧ valueAt f.body 2 4 = d.credential % 4294967296
         ∧ valueAt f.body 6 5 = d.taken % 1099511627776 ∧ valueAt f.body 11 5 = d.decided % 1099511627776
         ∧ byteAt f.body 16 = d.outcome.code ∧ byteAt f.body 17 = d.reason.code
         ∧ valueAt f.body 18 2 = d.permit % 65536 ∧ byteAt f.body 20 = d.room % 256)
  ∧ (∀ a : AlertNotice,
       let f := (Notice.alert a).frame
       f.kind = 0x42 ∧ f.tag = 0 ∧ f.body.length = 11 ∧ byteAt f.body 0 = a.kind.code ∧ byteAt f.body 1 = a.level.code
         ∧ byteAt f.body 2 = a.room % 256 ∧ byteAt f.body 3 = a.station % 256
         ∧ valueAt f.body 4 4 = a.credential % 4294967296 ∧ valueAt f.body 8 2 = a.permit % 65536
         ∧ byteAt f.body 10 = (match a.channel with | some c => c.code | none => 0))
  ∧ (∀ (n : Nat) (l : Link), (Notice.link n l).frame = ⟨0x43, 0, [BitVec.ofNat 8 n, BitVec.ofNat 8 l.code]⟩)
  ∧ (∀ (h : HalfId) (byRequest full : Bool),
       (Notice.trailHalf h byRequest full).frame
         = ⟨0x44, 0, [BitVec.ofNat 8 h.code, boolByte byRequest, boolByte full]⟩)
  ∧ (∀ permit credential slot : Nat,
       let f := (Notice.retired permit credential slot).frame
       f.kind = 0x45 ∧ f.tag = 0 ∧ f.body.length = 7 ∧ valueAt f.body 0 2 = permit % 65536
         ∧ valueAt f.body 2 4 = credential % 4294967296 ∧ byteAt f.body 6 = slot % 256)
  ∧ (∀ (old new : SupplyMode) (cause : ModeCause),
       (Notice.mode old new cause).frame
         = ⟨0x46, 0, [BitVec.ofNat 8 old.code, BitVec.ofNat 8 new.code, BitVec.ofNat 8 cause.code]⟩)

/-- R168: IDENTIFY. -/
def Obligations.IdentifyReportsPart : Prop :=
  ∀ (s : State) (f : Frame), s.inReset = false → s.unserved = some f → f.kind = 0x01 →
    (f.body = [] →
      Answers .identify s f .ok
        ([0x61, 0xE8, 0x17, 1] ++ leBytes 1 s.host.rateCode ++ [12, 16, 0, 1, 8, 32, 48, 8, 4, 8, 80, 2, 64, 16]) s)
    ∧ (f.body ≠ [] → Refuses .identify s f .malformed)

/-- R169: STATUS reports the part as a whole, and clears the two line flags. R164, R179: a kind that names no request is
answered UNKNOWN_KIND, the reply's kind having its top bit set. R164: a reply carries the request's kind and tag and the
code, and for OK alone its body. R185, R35: the code tables. -/
def Obligations.StatusAndUnknownKinds : Prop :=
  (∀ (s : State) (f : Frame), s.inReset = false → s.unserved = some f → f.kind = 0x02 →
     (f.body = [] →
       Answers .status s f .ok
         (leBytes 1 s.supply.mode.code ++ [boolByte s.supply.byRequest]
           ++ [BitVec.ofNat 8 (s.clock.unset.toNat + 2 * s.clock.ended.toNat)]
           ++ leBytes 1 s.trail.a.state.code ++ leBytes 1 s.trail.a.records.length
           ++ leBytes 1 s.trail.b.state.code ++ leBytes 1 s.trail.b.records.length
           ++ leBytes 2 s.trail.lost ++ leBytes 1 (halfCode s.trail.lastClosed)
           ++ leBytes 2 s.permits.length ++ leBytes 1 s.revoked.length ++ leBytes 1 s.pool.length
           ++ leBytes 1 s.groups.length ++ leBytes 1 s.deadlines.length ++ leBytes 1 s.presentations.length
           ++ leBytes 1 s.sweep.owed
           ++ [BitVec.ofNat 8 (s.host.frameDiscarded.toNat + 2 * s.host.noticesDropped.toNat)]
           ++ leBytes 1 s.supply.lastKind.code ++ [boolByte s.supply.retentionLost])
         { s with host := { s.host with frameDiscarded := false, noticesDropped := false } })
     ∧ (f.body ≠ [] → Refuses .status s f .malformed))
  ∧ (∀ (s : State) (f : Frame), s.inReset = false → s.unserved = some f → f.kind = 0x00 ∨ 0x1A < f.kind.toNat →
       Refuses .unknownKind s f .unknownKind
       ∧ replyKind f.kind = if f.kind.toNat < 0x80 then f.kind + 0x80 else 0xFF)
  ∧ (∀ (f : Frame) (code : ReplyCode) (body : List Byte),
       replyFrame f code body
         = ⟨replyKind f.kind, f.tag, BitVec.ofNat 8 code.code :: (if code = .ok then body else [])⟩)
  ∧ [ReplyCode.ok, .malformed, .unknownKind, .busy, .range, .notFound, .existing, .tableFull, .inUse, .wrongState
     , .occupied, .clockUnset, .supply].map ReplyCode.code = List.range 13
  ∧ [Reason.none, .granted, .repeated, .groupComplete, .exit, .awaitPartner, .awaitEscort, .clockUnset, .stationBarred
     , .revoked, .passback, .noPermit, .roomNotPermitted, .suspended, .notYetValid, .expired, .outsideHours
     , .allowanceSpent, .tooLate, .roomClosed, .trailFull, .stationSilent, .roomFull, .occupancyFull, .groupFull
     , .pairingFull, .pairingTimeout, .releaseExpired, .earlyExit, .restart, .operator, .forced].map Reason.code
      = List.range 32
  ∧ (∀ k : AlertKind, (Reason.alert k).code = 32 + k.code) ∧ (∀ c : ModeCause, (Reason.cause c).code = c.code)
  ∧ (∀ k : RestartKind, (Reason.restarted k).code = k.code)
  ∧ [ModeCause.supplyFall, .supplyRise, .request, .wakeHost, .wakeAttention, .wakeSupply].map ModeCause.code
      = List.range' 40 6
  ∧ [RestartKind.powerOn, .resetLine, .restartWarm, .restartClean].map RestartKind.code = List.range' 48 4
  ∧ [TrailKind.grant, .repeated, .wait, .groupGrant, .deny, .entry, .lapse, .exit, .exitUnmatched, .operatorRelease
     , .recompute, .alert, .roomMode, .channel, .link, .retire, .clockSet, .mode, .restart, .gap].map TrailKind.code
      = List.range' 1 20
  ∧ [AlertKind.lone, .unescorted, .overstay, .revokedInside, .forced, .held].map AlertKind.code = List.range' 1 6
  ∧ [VerdictOutcome.release, .deny, .wait].map VerdictOutcome.code = [0, 1, 2]
  ∧ [ReasonClass.proceed, .exit, .partner, .card, .room, .system].map ReasonClass.code = List.range 6
  ∧ [RoomClass.general, .twoPerson].map RoomClass.code = [0, 1]
  ∧ [RoomMode.service, .escortedOnly, .closed].map RoomMode.code = [0, 1, 2]
  ∧ [Channel.serve, .hold, .barred].map Channel.code = [0, 1, 2] ∧ [Link.silent, .online].map Link.code = [0, 1]
  ∧ (∀ k : Nat, [Door.unknown, .secure, .released k, .opened k, .heldOpen, .forcedOpen].map Door.code = List.range 6)
  ∧ [SupplyMode.run, .reserve, .standby].map SupplyMode.code = [0, 1, 2]
  ∧ [none, some HalfId.a, some HalfId.b].map halfCode = [0, 1, 2] ∧ [HalfId.a, .b].map HalfId.code = [1, 2]
  ∧ [HalfState.filling, .closed, .free].map HalfState.code = [0, 1, 2]
  ∧ [LineRate.r19200, .r38400, .r76800].map LineRate.code = [0, 1, 2]
  ∧ [Side.outside, .inside].map Side.code = [0, 1] ∧ [Level.clear, .raised, .escalated].map Level.code = [0, 1, 2]

/-- R170, R180: SETTINGS-WRITE clamps every value and replies with the values taken; a changed sweep interval sets the
timer's count to 0 (R98). SETTINGS-READ returns them. R180: the settings block, byte by byte. -/
def Obligations.SettingsWrittenAndRead : Prop :=
  (∀ (s : State) (f : Frame), s.serving .settingsWrite f →
    (f.body.length = 10 →
      ∃ x : Settings,
        Answers .settingsWrite s f .ok (settingsBlock x)
          { s with
            settings := x
            sweep := if x.sweepInterval = s.settings.sweepInterval then s.sweep else { s.sweep with count := 0 } }
        ∧ x.pollPeriod = max 50 (min 1000 (valueAt f.body 0 2)) ∧ x.reserveFactor = max 2 (min 8 (byteAt f.body 2))
        ∧ x.silenceThreshold = max 3 (min 15 (byteAt f.body 3)) ∧ x.bitRate.code = min 2 (byteAt f.body 4)
        ∧ x.sweepInterval = max 1 (min 60 (byteAt f.body 5)) ∧ (x.requestFirst = true ↔ byteAt f.body 6 ≠ 0)
        ∧ (x.sweepEarly = true ↔ byteAt f.body 7 ≠ 0) ∧ (x.decisionNotices = true ↔ byteAt f.body 8 ≠ 0)
        ∧ x.weekdayOffset = min 6 (byteAt f.body 9))
    ∧ (f.body.length ≠ 10 → Refuses .settingsWrite s f .malformed))
  ∧ (∀ (s : State) (f : Frame), s.inReset = false → s.unserved = some f → f.kind = 0x04 →
    (f.body = [] → Answers .settingsRead s f .ok (settingsBlock s.settings) s)
    ∧ (f.body ≠ [] → Refuses .settingsRead s f .malformed))
  ∧ (∀ x : Settings,
       let b := settingsBlock x
       b.length = 10 ∧ valueAt b 0 2 = x.pollPeriod % 65536 ∧ byteAt b 2 = x.reserveFactor % 256
         ∧ byteAt b 3 = x.silenceThreshold % 256 ∧ byteAt b 4 = x.bitRate.code ∧ byteAt b 5 = x.sweepInterval % 256
         ∧ byteAt b 6 = x.requestFirst.toNat ∧ byteAt b 7 = x.sweepEarly.toNat ∧ byteAt b 8 = x.decisionNotices.toNat
         ∧ byteAt b 9 = x.weekdayOffset % 256)

/-! ### Estate time (chapter 5) -/

/-- R89, R90: CLOCK-SET. The clock takes the new time, UNSET is cleared, CLOCK_END set at the last second alone, and a
CLOCK_SET record is written at the new time with the old estate second. Nothing else moves. R91: CLOCK-READ. -/
def Obligations.ClockRequestsServed : Prop :=
  (∀ (s : State) (f : Frame), s.serving .clockSet f →
     let day := valueAt f.body 0 2
     let second := valueAt f.body 2 4
     let new := day * 86400 + second
     (f.body.length ≠ 6 → Refuses .clockSet s f .malformed)
     ∧ (f.body.length = 6 → 86399 < second → Refuses .clockSet s f .range)
     ∧ (f.body.length = 6 → second ≤ 86399 →
         (s.clock.unset = true ∨ (new ≤ s.now + 300 ∧ s.now ≤ new + 300) ∨ s.pool = [] ∧ s.groups = [] →
           Answers .clockSet s f .ok
             (leBytes 2 s.clock.day ++ leBytes 4 s.clock.second ++ leBytes 2 day ++ leBytes 4 second)
             (({ s with clock := ⟨false, day, second, decide (day = 65535 ∧ second = 86399)⟩ } : State).put
               { kind := .clockSet, value := .number (if s.clock.unset then 0 else s.now) }))
         ∧ (s.clock.unset = false → s.now + 300 < new ∨ new + 300 < s.now → s.pool ≠ [] ∨ s.groups ≠ [] →
           Refuses .clockSet s f .occupied)))
  ∧ (∀ (s : State) (f : Frame), s.serving .clockRead f →
       (f.body = [] →
         Answers .clockRead s f .ok
           (leBytes 2 s.clock.day ++ leBytes 4 s.clock.second
             ++ leBytes 1 (if s.clock.unset then 0 else (s.clock.day + s.settings.weekdayOffset) % 7)
             ++ [BitVec.ofNat 8 (s.clock.unset.toNat + 2 * s.clock.ended.toNat)]
             ++ leBytes 1 s.settings.weekdayOffset) s)
       ∧ (f.body ≠ [] → Refuses .clockRead s f .malformed))

/-- R84, R87: each second a set clock advances by one, to the last second at most, where it holds with CLOCK_END. The
CLOCK_END command is its arrival there. That no timer counts the second the command moves is the model's choice (log
entry 34). -/
def Obligations.ClockAdvancesToItsEnd : Prop :=
  (∀ s : State, s.clock.Sound → s.clock.unset = false →
    s.tick.now = min 5662310399 (s.now + 1) ∧ s.tick.clock.Sound
      ∧ (s.tick.clock.ended = true ↔ s.tick.now = 5662310399))
  ∧ (∀ s : State, s.clock.Sound → s.clock.unset = true → s.tick.clock = s.clock)
  ∧ (∀ s : State, s.clock.unset = false → s.clock.ended = false → 5662310399 ≤ s.now + 1 →
    exec .clockEnd s = .next { s with clock := { s.clock with day := 65535, second := 86399, ended := true } })

/-! ### Permits and revocations (chapter 1) -/

/-- R181: the permit body of a sound permit is read back as that permit. -/
def Obligations.PermitBodyRoundTrip : Prop :=
 ∀ p : Permit, p.Sound → readPermitBody (permitBody p) = .ok p

/-- R181, R7, R8 steps 1 and 2: the permit body: MALFORMED for its length or shape, RANGE for a value, and otherwise the
permit it is taken as, field by field, normalised. R181, R9 steps 1 and 2: the amend body likewise, with the changes it
is taken as. -/
def Obligations.PermitBodyIsNormalised : Prop :=
  (∀ b : List Byte,
     let shaped : Prop := b.length = 41 ∧ byteAt b 9 ≤ 12 ∧ byteAt b 30 ≤ 1 ∧ byteAt b 38 ≤ 1
     let inRange : Prop :=
       1 ≤ valueAt b 0 2 ∧ isCredential (valueAt b 2 4) ∧ byteAt b 6 ≤ 1 ∧ byteAt b 7 ≤ 1 ∧ byteAt b 8 ≤ 1
         ∧ 1 ≤ byteAt b 9 ∧ (∀ i, i < byteAt b 9 → 1 ≤ byteAt b (10 + i) ∧ byteAt b (10 + i) ≤ 12)
         ∧ valueAt b 22 4 ≤ 94371839 ∧ valueAt b 26 4 ≤ 94371840 ∧ valueAt b 22 4 < valueAt b 26 4
         ∧ (byteAt b 30 = 1 → valueAt b 31 2 ≤ 1439 ∧ valueAt b 33 2 ≤ 1439 ∧ byteAt b 35 ≤ 127)
     (¬ shaped → readPermitBody b = .error .malformed)
     ∧ (shaped → ¬ inRange → readPermitBody b = .error .range)
     ∧ (shaped → inRange →
         ∃ p : Permit, readPermitBody b = .ok p ∧ p.Sound ∧ p.number = valueAt b 0 2 ∧ p.credential = valueAt b 2 4
           ∧ p.role = (if byteAt b 6 = 0 then .worker else .escort)
           ∧ p.status = (if byteAt b 7 = 0 then .active else .suspended)
           ∧ (p.needsEscort = true ↔ byteAt b 8 = 1 ∧ byteAt b 6 = 0)
           ∧ (∀ r, r ∈ p.rooms ↔ ∃ i, i < byteAt b 9 ∧ byteAt b (10 + i) = r)
           ∧ p.validFrom = valueAt b 22 4 ∧ p.validUntil = valueAt b 26 4
           ∧ p.window =
             (if byteAt b 30 = 1 then some ⟨valueAt b 31 2, valueAt b 33 2, BitVec.ofNat 7 (byteAt b 35)⟩ else none)
           ∧ p.maxStay = max 1 (min 1440 (valueAt b 36 2))
           ∧ p.allowance = (if byteAt b 38 = 1 then some (valueAt b 39 2) else none)))
  ∧ (∀ b : List Byte,
       let shaped : Prop :=
         b.length = 42 ∧ byteAt b 2 ≤ 1 ∧ byteAt b 4 ≤ 1 ∧ byteAt b 9 ≤ 1 ∧ byteAt b 14 ≤ 2 ∧ byteAt b 20 ≤ 1
           ∧ byteAt b 23 ≤ 3 ∧ byteAt b 26 ≤ 1 ∧ (byteAt b 26 = 1 → byteAt b 27 ≤ 12) ∧ byteAt b 40 ≤ 1
       let inRange : Prop :=
         1 ≤ valueAt b 0 2 ∧ (byteAt b 2 = 1 → byteAt b 3 ≤ 1) ∧ (byteAt b 4 = 1 → valueAt b 5 4 ≤ 94371839)
           ∧ (byteAt b 9 = 1 → 1 ≤ valueAt b 10 4 ∧ valueAt b 10 4 ≤ 94371840)
           ∧ (byteAt b 14 = 1 → valueAt b 15 2 ≤ 1439 ∧ valueAt b 17 2 ≤ 1439 ∧ byteAt b 19 ≤ 127)
           ∧ (byteAt b 23 = 2 → 1 ≤ valueAt b 24 2)
           ∧ (byteAt b 26 = 1 → 1 ≤ byteAt b 27
               ∧ ∀ i, i < byteAt b 27 → 1 ≤ byteAt b (28 + i) ∧ byteAt b (28 + i) ≤ 12)
           ∧ (byteAt b 40 = 1 → byteAt b 41 ≤ 1)
       (¬ shaped → readAmendBody b = .error .malformed)
       ∧ (shaped → ¬ inRange → readAmendBody b = .error .range)
       ∧ (shaped → inRange →
           ∃ c : PermitAmend, readAmendBody b = .ok c ∧ c.number = valueAt b 0 2
             ∧ c.status = (if byteAt b 2 = 1 then some (if byteAt b 3 = 0 then .active else .suspended) else none)
             ∧ c.validFrom = (if byteAt b 4 = 1 then some (valueAt b 5 4) else none)
             ∧ c.validUntil = (if byteAt b 9 = 1 then some (valueAt b 10 4) else none)
             ∧ c.window =
               (if byteAt b 14 = 0 then none
                else if byteAt b 14 = 1 then
                  some (some ⟨valueAt b 15 2, valueAt b 17 2, BitVec.ofNat 7 (byteAt b 19)⟩)
                else some none)
             ∧ c.maxStay = (if byteAt b 20 = 1 then some (max 1 (min 1440 (valueAt b 21 2))) else none)
             ∧ c.allowance =
               (if byteAt b 23 = 0 then .unchanged
                else if byteAt b 23 = 1 then .set (valueAt b 24 2)
                else if byteAt b 23 = 2 then .topUp (valueAt b 24 2)
                else .remove)
             ∧ (byteAt b 26 = 0 → c.rooms = none)
             ∧ (byteAt b 26 = 1 → ∃ rooms, c.rooms = some rooms ∧ rooms ≠ [] ∧ rooms.Pairwise (· < ·)
                 ∧ ∀ r, r ∈ rooms ↔ ∃ i, i < byteAt b 27 ∧ byteAt b (28 + i) = r)
             ∧ c.needsEscort = (if byteAt b 40 = 1 then some (decide (byteAt b 41 = 1)) else none)))

/-- R8, R1: PERMIT-ADD places the permit in the lowest free slot, or is refused by the first check that fails. R13:
PERMIT-REMOVE. -/
def Obligations.PermitAddAndRemove : Prop :=
  (∀ (s : State) (f : Frame), s.serving .permitAdd f →
     (∀ code, readPermitBody f.body = .error code → Refuses .permitAdd s f code)
     ∧ (∀ p, readPermitBody f.body = .ok p →
       (s.clock.unset = true → Refuses .permitAdd s f .clockUnset)
       ∧ (s.clock.unset = false → (∃ e ∈ s.permits, e.2.number = p.number) → Refuses .permitAdd s f .existing)
       ∧ (s.clock.unset = false → (∀ e ∈ s.permits, e.2.number ≠ p.number) →
           256 ≤ s.permits.length ∨ 8 ≤ s.permits.countP (fun e => e.2.credential = p.credential) →
           Refuses .permitAdd s f .tableFull)
       ∧ (s.PermitsSound → s.clock.unset = false → (∀ e ∈ s.permits, e.2.number ≠ p.number) →
           s.permits.length ≤ 255 → s.permits.countP (fun e => e.2.credential = p.credential) ≤ 7 →
           ∃ slot, slot ≤ 255 ∧ (∀ e ∈ s.permits, e.1 ≠ slot) ∧ (∀ k, k < slot → ∃ e ∈ s.permits, e.1 = k)
             ∧ Answers .permitAdd s f .ok (permitReport slot p (s.inUse p.number))
                 { s with permits := insertPermit slot p s.permits }
             ∧ (insertPermit slot p s.permits).Perm ((slot, p) :: s.permits))))
  ∧ (∀ (s : State) (f : Frame), s.serving .permitRemove f →
       let n := valueAt f.body 0 2
       (f.body.length ≠ 2 → Refuses .permitRemove s f .malformed)
       ∧ (f.body.length = 2 → n = 0 → Refuses .permitRemove s f .range)
       ∧ (f.body.length = 2 → n ≠ 0 → (∀ e ∈ s.permits, e.2.number ≠ n) → Refuses .permitRemove s f .notFound)
       ∧ (f.body.length = 2 → n ≠ 0 → (∃ e ∈ s.permits, e.2.number = n) → s.inUse n ≠ 0 →
           Refuses .permitRemove s f .inUse)
       ∧ (f.body.length = 2 → n ≠ 0 → (∃ e ∈ s.permits, e.2.number = n) → s.inUse n = 0 →
           Answers .permitRemove s f .ok [] { s with permits := s.permits.filter (fun e => e.2.number ≠ n) }))

/-- R14: PERMIT-READ. R15: PERMIT-FIND lists exactly the permits of the credential, in ascending number. -/
def Obligations.PermitReadAndFind : Prop :=
  (∀ (s : State) (f : Frame), s.serving .permitRead f → s.PermitsSound →
     let n := valueAt f.body 0 2
     (f.body.length ≠ 2 → Refuses .permitRead s f .malformed)
     ∧ (f.body.length = 2 → n = 0 → Refuses .permitRead s f .range)
     ∧ (f.body.length = 2 → n ≠ 0 → (∀ e ∈ s.permits, e.2.number ≠ n) → Refuses .permitRead s f .notFound)
     ∧ (∀ slot p, f.body.length = 2 → n ≠ 0 → (slot, p) ∈ s.permits → p.number = n →
         Answers .permitRead s f .ok (leBytes 1 slot ++ permitBody p ++ leBytes 1 (s.inUse n)) s))
  ∧ (∀ (s : State) (f : Frame), s.serving .permitFind f → s.PermitsSound →
       let c := valueAt f.body 0 4
       (f.body.length ≠ 4 → Refuses .permitFind s f .malformed)
       ∧ (f.body.length = 4 → c = 0 ∨ c = 4294967295 → Refuses .permitFind s f .range)
       ∧ (f.body.length = 4 → c ≠ 0 → c ≠ 4294967295 →
           ∃ l : List Nat, l.Pairwise (· < ·) ∧ l.length ≤ 8
             ∧ (∀ n, n ∈ l ↔ ∃ e ∈ s.permits, e.2.credential = c ∧ e.2.number = n)
             ∧ Answers .permitFind s f .ok (leBytes 1 l.length ++ l.flatMap (leBytes 2)) s))

/-- R9, R10: an amendment of a permit not in use writes its changes and nothing else; the refusals of R9 come in their
order. R11: an amendment of a permit in use is refused IN_USE when it drops the holder's room or changes needs escort.
R4, R7, R10: the permit as an amendment leaves it. R12: an accepted amendment of a permit in use that carries no
recompute and suspends no group member writes its changes alone: an occupant's record stays as it stands. R12 item 1,
R79: a suspension of a group member removes it with a DENY record, its notice and a DENY verdict; the group ends with
its last member, is completed where the rest pass the completion test, and goes on waiting otherwise. -/
def Obligations.AmendChecked : Prop :=
  (∀ (s : State) (f : Frame), s.serving .permitAmend f →
     (∀ code, readAmendBody f.body = .error code → Refuses .permitAmend s f code)
     ∧ (∀ c, readAmendBody f.body = .ok c → (∀ e ∈ s.permits, e.2.number ≠ c.number) →
         Refuses .permitAmend s f .notFound)
     ∧ (∀ c slot p, readAmendBody f.body = .ok c → s.permit c.number = some (slot, p) →
         c.validUntil.getD p.validUntil ≤ c.validFrom.getD p.validFrom → Refuses .permitAmend s f .range)
     ∧ (∀ c slot p, readAmendBody f.body = .ok c → s.permit c.number = some (slot, p) →
         c.validFrom.getD p.validFrom < c.validUntil.getD p.validUntil → s.inUse c.number = 0 →
         Answers .permitAmend s f .ok (permitReport slot (p.amended c) 0)
           { s with
             permits := s.permits.map (fun e => if e.2.number = c.number then (e.1, e.2.amended c) else e) }))
  ∧ (∀ (s : State) (f : Frame) (c : PermitAmend) (slot : Nat) (p : Permit), s.serving .permitAmend f →
       readAmendBody f.body = .ok c → s.permit c.number = some (slot, p) → p.number = c.number →
       c.validFrom.getD p.validFrom < c.validUntil.getD p.validUntil → s.inUse c.number ≠ 0 →
       ((∃ rooms o, c.rooms = some rooms ∧ s.pool.find? (fun o => o.permit = c.number) = some o ∧ o.room ∉ rooms)
         ∨ (∃ rooms g, c.rooms = some rooms ∧ s.pool.find? (fun o => o.permit = c.number) = none
             ∧ s.groups.find? (fun g => g.members.any (fun m => m.permit = c.number)) = some g ∧ g.room ∉ rooms)
         ∨ (∃ v, c.needsEscort = some v ∧ (p.role == .worker && v) ≠ p.needsEscort)) →
       Refuses .permitAmend s f .inUse)
  ∧ (∀ (p : Permit) (c : PermitAmend),
       p.amended c
         = { p with
             status := c.status.getD p.status
             validFrom := c.validFrom.getD p.validFrom
             validUntil := c.validUntil.getD p.validUntil
             window := c.window.getD p.window
             maxStay := c.maxStay.getD p.maxStay
             allowance :=
               (match c.allowance with
                 | .unchanged => p.allowance
                 | .set n => some n
                 | .topUp n => p.allowance.map (fun r => min 65535 (r + n))
                 | .remove => none)
             rooms := c.rooms.getD p.rooms
             needsEscort :=
               (match c.needsEscort with
                 | some v => p.role == .worker && v
                 | none => p.needsEscort) })
  ∧ (∀ (s : State) (f : Frame) (c : PermitAmend) (slot : Nat) (p : Permit), s.serving .permitAmend f →
       readAmendBody f.body = .ok c → s.permit c.number = some (slot, p) → p.number = c.number →
       c.validFrom.getD p.validFrom < c.validUntil.getD p.validUntil → s.PersonsSound → s.inUse c.number = 1 →
       (∀ rooms, c.rooms = some rooms →
         (∀ o ∈ s.pool, o.permit = c.number → o.room ∈ rooms)
         ∧ (∀ g ∈ s.groups, (∃ m ∈ g.members, m.permit = c.number) → g.room ∈ rooms)) →
       (∀ v, c.needsEscort = some v → (p.role == .worker && v) = p.needsEscort) →
       let written : State :=
         { s with permits := s.permits.map (fun e => if e.2.number = c.number then (e.1, e.2.amended c) else e) }
       (c.status ≠ some .suspended ∨ (∀ g ∈ s.groups, ∀ m ∈ g.members, m.permit ≠ c.number) →
         (∀ o ∈ s.pool, o.permit = c.number → o.presence = .admitting)
           ∨ c.validUntil = none ∧ c.window = none ∧ c.maxStay = none ∧ c.allowance = .unchanged →
         Answers .permitAmend s f .ok (permitReport slot (p.amended c) 1) written)
       ∧ (∀ g ∈ s.groups, ∀ m ∈ g.members, m.permit = c.number → c.status = some .suspended →
           let rest := g.members.filter (fun x => x.credential ≠ m.credential)
           let denied : State :=
             (((({ written with
                 groups := s.groups.map (fun x => if x.station = g.station then { x with members := rest } else x) } :
                 State).put
               { kind := .deny, station := g.station, room := g.room, credential := m.credential, permit := c.number
                 reason := .suspended }).offerDecision
               { station := g.station, side := .outside, credential := m.credential, taken := m.joined, decided := s.now
                 outcome := .deny, reason := .suspended, permit := c.number, room := g.room })).setStation g.station
               ((s.station g.station).place .deny .suspended)
           let test := requirementTest (s.room g.room)
             ((s.occupants g.room).map Occupant.person ++ rest.map Member.person)
           (rest = [] →
             Answers .permitAmend s f .ok (permitReport slot (p.amended c) 0)
               { denied with
                 deadlines := s.deadlines.filter (fun e => e.what ≠ .pairing g.station)
                 groups := s.groups.filter (fun x => x.station ≠ g.station) })
           ∧ (rest ≠ [] → test = false →
               Answers .permitAmend s f .ok (permitReport slot (p.amended c) 0) denied)
           ∧ (rest ≠ [] → test = true →
               Answers .permitAmend s f .ok (permitReport slot (p.amended c) 0)
                 ((denied.completeGroup { g with members := rest } none).retest g.room))))

/-- R108 to R111: a recompute of an INSIDE record, by the overstay level it stood at: the deadline from its own entry
minute and the permit as amended, its entry replaced, a RECOMPUTE record, and a return to level 0 where the new deadline
lies after now. R11, R12 item 2: so too where the amendment also carries a rooms change that keeps the holder's room, a
needs escort written with no change, or a suspension, which leaves the record in place. -/
def Obligations.AmendRecomputesDeadline : Prop :=
  ∀ (s : State) (f : Frame) (c : PermitAmend) (slot : Nat) (p : Permit) (o : Occupant) (entry old : Nat),
    s.serving .permitAmend f → readAmendBody f.body = .ok c → s.permit c.number = some (slot, p) →
    c.validFrom.getD p.validFrom < c.validUntil.getD p.validUntil →
    (∀ rooms, c.rooms = some rooms → ∀ x ∈ s.pool, x.permit = c.number → x.room ∈ rooms) →
    (∀ v, c.needsEscort = some v → (p.role == .worker && v) = p.needsEscort) →
    (c.status = some .suspended → ∀ g ∈ s.groups, ∀ m ∈ g.members, m.permit ≠ c.number) →
    (c.validUntil ≠ none ∨ c.window ≠ none ∨ c.maxStay ≠ none ∨ c.allowance ≠ .unchanged) →
    s.pool.find? (fun o => o.permit = c.number ∧ o.presence ≠ .admitting) = some o → o.presence = .inside entry old →
    let deadline := stayDeadline (p.amended c) s.settings.weekdayOffset (entry / 60)
    let written : State :=
      { s with
        permits := s.permits.map (fun e => if e.2.number = c.number then (e.1, e.2.amended c) else e)
        pool := s.pool.map (fun x => if x.credential = o.credential then { x with presence := .inside entry deadline } else x)
        deadlines :=
          (s.deadlines.filter (fun e => e.what ≠ .stayDeadline o.credential)).filter
            (fun e => e.what ≠ .escalation o.credential) }
    let recorded : State := written.put
      { kind := .recompute, station := o.station, room := o.room, credential := o.credential, permit := o.permit
        value := .number deadline }
    let cleared : State :=
      ((({ recorded with
          pool := recorded.pool.map (fun x => if x.credential = o.credential then { x with overstay := .clear } else x) } :
          State).put
        { kind := .alert, station := o.station, room := o.room, credential := o.credential, permit := o.permit
          reason := .alert .overstay, value := .number 0 }).offer
        (.alert { kind := .overstay, level := .clear, room := o.room, station := o.station, credential := o.credential
                  permit := o.permit })).schedule (deadline * 60) (.stayDeadline o.credential)
    (o.overstay = .clear →
      Answers .permitAmend s f .ok (permitReport slot (p.amended c) (s.inUse c.number))
        (recorded.schedule (deadline * 60) (.stayDeadline o.credential)))
    ∧ (o.overstay ≠ .clear → s.nowMinute < deadline →
      Answers .permitAmend s f .ok (permitReport slot (p.amended c) (s.inUse c.number)) cleared)
    ∧ (o.overstay = .raised → deadline ≤ s.nowMinute →
      Answers .permitAmend s f .ok (permitReport slot (p.amended c) (s.inUse c.number))
        (recorded.schedule ((deadline + (s.room o.room).grace) * 60) (.escalation o.credential)))
    ∧ (o.overstay = .escalated → deadline ≤ s.nowMinute →
      Answers .permitAmend s f .ok (permitReport slot (p.amended c) (s.inUse c.number)) recorded)

/-- R17, R18, R42: REVOKE of a credential new to the set, which no group member holds: appended, and the record it
stands in marked, with its ALERT notice and record. R79: a REVOKE removes a group member with a DENY record, its notice
and a DENY verdict; the group ends with its last member, is completed where the rest pass the completion test, and goes
on waiting otherwise. -/
def Obligations.RevokeActs : Prop :=
  (∀ (s : State) (f : Frame), s.serving .revoke f →
     let c := valueAt f.body 0 4
     let appended : State := { s with revoked := s.revoked ++ [c] }
     (f.body.length ≠ 4 → Refuses .revoke s f .malformed)
     ∧ (f.body.length = 4 → c = 0 ∨ c = 4294967295 → Refuses .revoke s f .range)
     ∧ (f.body.length = 4 → c ≠ 0 → c ≠ 4294967295 →
         (c ∈ s.revoked → Answers .revoke s f .ok [] s)
         ∧ (c ∉ s.revoked → 32 ≤ s.revoked.length → Refuses .revoke s f .tableFull)
         ∧ (c ∉ s.revoked → s.revoked.length ≤ 31 → s.recordOf c = none → s.membershipOf c = none →
             Answers .revoke s f .ok [] appended)
         ∧ (∀ o, c ∉ s.revoked → s.revoked.length ≤ 31 → s.recordOf c = some o →
             Answers .revoke s f .ok []
               ((({ appended with
                   pool := s.pool.map (fun x => if x.credential = c then { x with revokedInside := true } else x) } :
                   State).offer
                 (.alert { kind := .revokedInside, level := .raised, room := o.room, station := o.station
                           credential := c, permit := o.permit })).put
                 { kind := .alert, station := o.station, room := o.room, credential := c, permit := o.permit
                   reason := .alert .revokedInside, value := .number 1 }))))
  ∧ (∀ (s : State) (f : Frame) (g : Group) (m : Member), s.serving .revoke f → f.body.length = 4 →
       isCredential (valueAt f.body 0 4) → valueAt f.body 0 4 ∉ s.revoked → s.revoked.length ≤ 31 →
       s.recordOf (valueAt f.body 0 4) = none → s.membershipOf (valueAt f.body 0 4) = some (g, m) →
       let rest := g.members.filter (fun x => x.credential ≠ m.credential)
       let denied : State :=
         (((({ s with
             revoked := s.revoked ++ [valueAt f.body 0 4]
             groups := s.groups.map (fun x => if x.station = g.station then { x with members := rest } else x) } :
             State).put
           { kind := .deny, station := g.station, room := g.room, credential := m.credential, permit := m.permit
             reason := .revoked }).offerDecision
           { station := g.station, side := .outside, credential := m.credential, taken := m.joined, decided := s.now
             outcome := .deny, reason := .revoked, permit := m.permit, room := g.room })).setStation g.station
           ((s.station g.station).place .deny .revoked)
       let test := requirementTest (s.room g.room) ((s.occupants g.room).map Occupant.person ++ rest.map Member.person)
       (rest = [] →
         Answers .revoke s f .ok []
           { denied with
             deadlines := s.deadlines.filter (fun e => e.what ≠ .pairing g.station)
             groups := denied.groups.filter (fun x => x.station ≠ g.station) })
       ∧ (rest ≠ [] → s.groups.find? (fun x => x.station = g.station) = some g →
           (test = false → Answers .revoke s f .ok [] denied)
           ∧ (test = true →
               Answers .revoke s f .ok [] ((denied.completeGroup { g with members := rest } none).retest g.room))))

/-- R19: UNREVOKE removes the credential from the set, and clears a set marker of its record. R20: REVOKE-LIST. -/
def Obligations.UnrevokeAndRevokeList : Prop :=
  (∀ (s : State) (f : Frame), s.serving .unrevoke f →
     let c := valueAt f.body 0 4
     let removed : State := { s with revoked := s.revoked.filter (fun x => x ≠ c) }
     (f.body.length ≠ 4 → Refuses .unrevoke s f .malformed)
     ∧ (f.body.length = 4 → c = 0 ∨ c = 4294967295 → Refuses .unrevoke s f .range)
     ∧ (f.body.length = 4 → c ≠ 0 → c ≠ 4294967295 →
         (c ∉ s.revoked → Refuses .unrevoke s f .notFound)
         ∧ (c ∈ s.revoked → (∀ o, s.recordOf c = some o → o.revokedInside = false) →
             Answers .unrevoke s f .ok [] removed)
         ∧ (∀ o, c ∈ s.revoked → s.recordOf c = some o → o.revokedInside = true →
             Answers .unrevoke s f .ok []
               ((({ removed with
                   pool := s.pool.map (fun x => if x.credential = c then { x with revokedInside := false } else x) } :
                   State).offer
                 (.alert { kind := .revokedInside, level := .clear, room := o.room, station := o.station
                           credential := c, permit := o.permit })).put
                 { kind := .alert, station := o.station, room := o.room, credential := c, permit := o.permit
                   reason := .alert .revokedInside, value := .number 0 }))))
  ∧ (∀ (s : State) (f : Frame), s.serving .revokeList f →
       (f.body = [] → Answers .revokeList s f .ok (leBytes 1 s.revoked.length ++ s.revoked.flatMap (leBytes 4)) s)
       ∧ (f.body ≠ [] → Refuses .revokeList s f .malformed))

/-! ### Rooms and occupancy (chapter 2) -/

/-- R24, R26: a body of another length is MALFORMED. R24, R25, R180: ROOM-SET, its body written out byte by byte. R26:
ROOM-MODE writes the mode and its record, derives the counts afresh, re-evaluates the alerts and re-tests the groups; a
mode already stored changes nothing. -/
def Obligations.RoomConfigured : Prop :=
  (∀ (s : State) (f : Frame),
     (s.serving .roomSet f → f.body.length ≠ 12 → Refuses .roomSet s f .malformed)
     ∧ (s.serving .roomMode f → f.body.length ≠ 2 → Refuses .roomMode s f .malformed))
  ∧ (∀ (s : State) (f : Frame) (n cls cap ratio mins grace win lone0 lone1 une0 une1 strict : Byte),
       s.serving .roomSet f → f.body = [n, cls, cap, ratio, mins, grace, win, lone0, lone1, une0, une1, strict] →
       let old := s.room n.toNat
       let new : Room :=
         { old with
           cls := if cls = 0 then .general else .twoPerson
           capacity := cap.toNat, escortRatio := max 1 (min 4 ratio.toNat), minStay := min 60 mins.toNat
           grace := min 60 grace.toNat, pairingWindow := max 5 (min 120 win.toNat)
           loneLimit := min 600 (lone0.toNat + 256 * lone1.toNat)
           unescortedLimit := min 600 (une0.toNat + 256 * une1.toNat), strict := strict == 1 }
       (n.toNat = 0 ∨ 12 < n.toNat ∨ 1 < cls.toNat ∨ 1 < strict.toNat ∨ cap.toNat = 0 ∨ 8 < cap.toNat →
         Refuses .roomSet s f .range)
       ∧ (1 ≤ n.toNat → n.toNat ≤ 12 → cls.toNat ≤ 1 → strict.toNat ≤ 1 → 1 ≤ cap.toNat → cap.toNat ≤ 8 →
         (new.cls ≠ old.cls ∧ (s.occupants n.toNat ≠ [] ∨ s.groupsOf n.toNat ≠ [])
             ∨ cap.toNat < (s.occupants n.toNat).length + s.reserved n.toNat → Refuses .roomSet s f .occupied)
         ∧ (new.cls = old.cls ∨ s.occupants n.toNat = [] ∧ s.groupsOf n.toNat = [] →
             (s.occupants n.toNat).length + s.reserved n.toNat ≤ cap.toNat →
             Answers .roomSet s f .ok (roomBlock n.toNat new)
               (if new.escortRatio = old.escortRatio then s.setRoom n.toNat new
                else ((s.setRoom n.toNat new).reevaluateRoom n.toNat).retest n.toNat))))
  ∧ (∀ (s : State) (f : Frame) (n m : Byte), s.serving .roomMode f → f.body = [n, m] →
       let written : State :=
         (s.setRoom n.toNat { s.room n.toNat with mode := roomModeOf m.toNat }).put
           { kind := .roomMode, room := n.toNat, value := .pair (s.room n.toNat).mode.code m.toNat }
       let needs (role : Role) (permit : Nat) : Bool :=
         role == .worker && (m.toNat == 1 || (match s.permit permit with | some (_, p) => p.needsEscort | none => false))
       let derived : State :=
         { written with
           pool := s.pool.map (fun o => if o.room = n.toNat then { o with needsEscort := needs o.role o.permit } else o)
           groups := s.groups.map (fun g =>
             if g.room = n.toNat then
               { g with members := g.members.map (fun x => { x with needsEscort := needs x.role x.permit }) }
             else g) }
       (n.toNat = 0 ∨ 12 < n.toNat ∨ 2 < m.toNat → Refuses .roomMode s f .range)
       ∧ (1 ≤ n.toNat → n.toNat ≤ 12 → m.toNat ≤ 2 →
           ((s.room n.toNat).mode = roomModeOf m.toNat → Answers .roomMode s f .ok [] s)
           ∧ ((s.room n.toNat).mode ≠ roomModeOf m.toNat → s.rooms.length = 12 →
               Answers .roomMode s f .ok [] ((derived.reevaluateRoom n.toNat).retest n.toNat))))

/-- R27, R180: ROOM-READ. R133, R180: STATION-READ reports the record, and clears the corrupt answer flag after. That
the bytes of an absent verdict, an absent last presentation and an ADMITTING record's entry second and deadline are sent
as 0 is the model's reading of R180 (log entry 20). R180: the room configuration block, the occupant entry and the
station report, byte by byte, the codes being those of R185. -/
def Obligations.RoomAndStationRead : Prop :=
  (∀ (s : State) (f : Frame), s.serving .roomRead f →
     let n := byteAt f.body 0
     (f.body.length ≠ 1 → Refuses .roomRead s f .malformed)
     ∧ (f.body.length = 1 → n = 0 ∨ 12 < n → Refuses .roomRead s f .range)
     ∧ (f.body.length = 1 → 1 ≤ n → n ≤ 12 →
         Answers .roomRead s f .ok
           (roomBlock n (s.room n) ++ leBytes 1 (s.room n).mode.code ++ leBytes 1 (s.room n).lone.code
             ++ leBytes 1 (s.room n).unescorted.code
             ++ leBytes 1 ((s.groups.filter (fun g => g.room = n)).flatMap Group.members).length
             ++ leBytes 1 (s.pool.filter (fun o => o.room = n)).length
             ++ (s.pool.filter (fun o => o.room = n)).flatMap occupantEntry) s))
  ∧ (∀ (s : State) (f : Frame), s.serving .stationRead f →
       let n := byteAt f.body 0
       (f.body.length ≠ 1 → Refuses .stationRead s f .malformed)
       ∧ (f.body.length = 1 → n = 0 ∨ 16 < n → Refuses .stationRead s f .range)
       ∧ (f.body.length = 1 → 1 ≤ n → n ≤ 16 →
           Answers .stationRead s f .ok (stationReport n (s.station n))
             (s.setStation n { s.station n with corrupt := false })))
  ∧ (∀ (n : Nat) (r : Room),
       let b := roomBlock n r
       b.length = 12 ∧ byteAt b 0 = n % 256 ∧ byteAt b 1 = r.cls.code ∧ byteAt b 2 = r.capacity % 256
         ∧ byteAt b 3 = r.escortRatio % 256 ∧ byteAt b 4 = r.minStay % 256 ∧ byteAt b 5 = r.grace % 256
         ∧ byteAt b 6 = r.pairingWindow % 256 ∧ valueAt b 7 2 = r.loneLimit % 65536
         ∧ valueAt b 9 2 = r.unescortedLimit % 65536 ∧ byteAt b 11 = r.strict.toNat)
  ∧ (∀ o : Occupant,
       let b := occupantEntry o
       b.length = 21 ∧ valueAt b 0 4 = o.credential % 4294967296 ∧ valueAt b 4 2 = o.permit % 65536
         ∧ byteAt b 6 = (if o.role = .worker then 0 else 1) ∧ byteAt b 7 = o.needsEscort.toNat
         ∧ byteAt b 8 = o.station % 256
         ∧ (o.presence = .admitting → byteAt b 9 = 0 ∧ valueAt b 10 5 = 0 ∧ valueAt b 15 4 = 0)
         ∧ (∀ entry deadline, o.presence = .inside entry deadline →
             byteAt b 9 = 1 ∧ valueAt b 10 5 = entry % 1099511627776 ∧ valueAt b 15 4 = deadline % 4294967296)
         ∧ byteAt b 19 = o.overstay.code ∧ byteAt b 20 = o.revokedInside.toNat)
  ∧ (∀ (n : Nat) (st : Station),
       let b := stationReport n st
       b.length = 35 ∧ byteAt b 0 = n % 256 ∧ byteAt b 1 = st.room % 256 ∧ byteAt b 2 = st.releaseTime % 256
         ∧ valueAt b 3 2 = st.heldLimit % 65536 ∧ byteAt b 5 = st.channel.code ∧ byteAt b 6 = st.link.code
         ∧ byteAt b 7 = st.missed % 256
         ∧ byteAt b 8 = (match st.expected with | .toggle t => t.toNat | .adopt => 2)
         ∧ byteAt b 9 = st.acknowledge.toNat ∧ (st.verdict = none → valueAt b 10 6 = 0)
         ∧ (∀ v, st.verdict = some v →
             byteAt b 10 = 1 ∧ byteAt b 11 = v.outcome.code ∧ byteAt b 12 = v.reason.code
               ∧ byteAt b 13 = v.seconds % 256 ∧ byteAt b 14 = v.toggle.toNat ∧ byteAt b 15 = v.sent.toNat)
         ∧ byteAt b 16 = st.verdictToggle.toNat ∧ byteAt b 17 = st.door.code
         ∧ valueAt b 18 2 = (match st.door with | .released k | .opened k => k % 65536 | _ => 0)
         ∧ (∀ p ∈ [([], 0), ([DoorEvent.commit], 1), ([.lapse false], 2), ([.lapse true], 3), ([.commit, .lapse false], 4)
                  , ([.commit, .lapse true], 5), ([.lapse false, .commit], 6), ([.lapse true, .commit], 7)],
             st.events = p.1 → byteAt b 20 = p.2)
         ∧ (st.last = none → valueAt b 21 13 = 0)
         ∧ (∀ l, st.last = some l →
             byteAt b 21 = 1 ∧ byteAt b 22 = l.side.code ∧ valueAt b 23 4 = l.credential % 4294967296
               ∧ valueAt b 27 5 = l.taken % 1099511627776 ∧ byteAt b 32 = l.outcome.code ∧ byteAt b 33 = l.reason.code)
         ∧ byteAt b 34 = st.corrupt.toNat)

/-- R33: what the removal of a record leaves, once the debit and the record of the removal are done: its entries gone,
its alerts cleared with notices of level 0, OVERSTAY first, its place free. R34, R113, R114: OCCUPANT-RELEASE debits an
INSIDE record, writes its record with the minutes debited, and removes it. -/
def Obligations.OccupantReleaseRemoves : Prop :=
  (∀ (s : State) (o : Occupant),
     (s.leave o).pool = s.pool.filter (fun x => x.credential ≠ o.credential)
     ∧ (s.leave o).deadlines
         = s.deadlines.filter (fun e => e.what ≠ .stayDeadline o.credential ∧ e.what ≠ .escalation o.credential)
     ∧ (s.host.notices.length ≤ 14 →
         (s.leave o).host.notices = s.host.notices
           ++ (if o.overstay = .clear then [] else
                 [.alert { kind := .overstay, level := .clear, room := o.room, station := o.station
                           credential := o.credential, permit := o.permit }])
           ++ (if o.revokedInside then
                 [.alert { kind := .revokedInside, level := .clear, room := o.room, station := o.station
                           credential := o.credential, permit := o.permit }] else []))
     ∧ { s.leave o with pool := s.pool, deadlines := s.deadlines, host := s.host } = s
     ∧ { (s.leave o).host with notices := s.host.notices, noticesDropped := s.host.noticesDropped } = s.host)
  ∧ (∀ (s : State) (f : Frame), s.serving .occupantRelease f →
       let n := byteAt f.body 0
       let c := valueAt f.body 1 4
       (f.body.length ≠ 5 → Refuses .occupantRelease s f .malformed)
       ∧ (f.body.length = 5 → n = 0 ∨ 12 < n ∨ c = 0 ∨ c = 4294967295 → Refuses .occupantRelease s f .range)
       ∧ (f.body.length = 5 → 1 ≤ n → n ≤ 12 → c ≠ 0 → c ≠ 4294967295 →
           (s.clock.unset = true → Refuses .occupantRelease s f .clockUnset)
           ∧ (s.clock.unset = false → (∀ o ∈ s.pool, o.room = n → o.credential ≠ c) →
               Refuses .occupantRelease s f .notFound)
           ∧ (∀ o, s.clock.unset = false → (s.occupants n).find? (fun o => o.credential = c) = some o →
               let reported : Nat :=
                 match o.presence, s.permit o.permit with
                 | .inside entry _, some (_, p) => if p.allowance = none then 0 else min 65535 (debitMinutes entry s.now)
                 | _, _ => 0
               let debited : State :=
                 match o.presence with
                 | .inside entry _ =>
                   { s with
                     permits := s.permits.map (fun e =>
                       if e.2.number = o.permit then
                         (e.1, { e.2 with allowance := e.2.allowance.map (fun a => a - debitMinutes entry s.now) })
                       else e) }
                 | .admitting => s
               Answers .occupantRelease s f .ok (leBytes 2 reported)
                 ((((debited.put
                   { kind := .operatorRelease, station := o.station, room := n, credential := c, permit := o.permit
                     reason := .operator, value := .number reported }).leave o).reevaluateRoom n).retest n))))

/-- R35: what the re-evaluation of one room alert does, by its level and its condition. R36: a room's alerts are
re-evaluated LONE before UNESCORTED. R75: the re-test of a room's groups, in the order of the groups: where none passes
its completion test nothing changes; the first that passes is completed, and the re-test begins again. R37: LONE stands
when the class is TWO_PERSON and the list holds exactly one record. R38: UNESCORTED stands when W is greater than E
times the escort ratio over the list. R23, R74: the requirement test over any set of persons, and over a list with a
group's members. -/
def Obligations.AlertReevaluation : Prop :=
  (∀ (s : State) (a : RoomAlert) (n : Nat),
     let stands := a.stands (s.room n) ((s.occupants n).map Occupant.person)
     let moved (l : Level) : State :=
       ((s.setRoom n (a.setLevel (s.room n) l)).offer (.alert { kind := a.kind, level := l, room := n })).put
         { kind := .alert, room := n, reason := .alert a.kind, value := .number l.code }
     (a.level (s.room n) = .clear → stands = true →
       s.reevaluate a n = { moved .raised with
         deadlines := insertDeadline ⟨s.now + a.limit (s.room n), a.due n⟩ s.deadlines })
     ∧ (a.level (s.room n) = .clear → stands = false → s.reevaluate a n = s)
     ∧ (a.level (s.room n) ≠ .clear → stands = true → s.reevaluate a n = s)
     ∧ (a.level (s.room n) ≠ .clear → stands = false →
       s.reevaluate a n = { moved .clear with deadlines := s.deadlines.filter (fun e => e.what ≠ a.due n) }))
  ∧ (∀ (s : State) (n : Nat), s.reevaluateRoom n = (s.reevaluate .lone n).reevaluate .unescorted n)
  ∧ (∀ (s : State) (n : Nat),
       let passes (g : Group) : Bool :=
         requirementTest (s.room n) ((s.occupants n).map Occupant.person ++ g.members.map Member.person)
       ((∀ g ∈ s.groups, g.room = n → passes g = false) → s.retest n = s)
       ∧ (∀ g before after, s.groups = before ++ g :: after → g.room = n → passes g = true →
           (∀ x ∈ before, x.room = n → passes x = false) →
           s.retest n = (s.completeGroup g none).retest n))
  ∧ (∀ (s : State) (n : Nat),
       let list := s.pool.filter (fun o => o.room = n)
       let persons := (s.occupants n).map Occupant.person
       (RoomAlert.lone.stands (s.room n) persons = true ↔ (s.room n).cls = .twoPerson ∧ list.length = 1)
       ∧ (RoomAlert.unescorted.stands (s.room n) persons = true ↔
           list.countP (fun o => o.role = .escort) * (s.room n).escortRatio < list.countP (fun o => o.needsEscort)))
  ∧ (∀ (r : Room) (n : Nat) (l : Level),
       RoomAlert.lone.kind = .lone ∧ RoomAlert.lone.due n = .loneLimit n ∧ RoomAlert.lone.limit r = r.loneLimit
         ∧ RoomAlert.lone.level r = r.lone ∧ RoomAlert.lone.setLevel r l = { r with lone := l }
         ∧ RoomAlert.unescorted.kind = .unescorted ∧ RoomAlert.unescorted.due n = .unescortedLimit n
         ∧ RoomAlert.unescorted.limit r = r.unescortedLimit ∧ RoomAlert.unescorted.level r = r.unescorted
         ∧ RoomAlert.unescorted.setLevel r l = { r with unescorted := l })
  ∧ (∀ (r : Room) (persons : List Person),
       requirementTest r persons = true ↔
         (r.cls = .twoPerson → 2 ≤ persons.length)
           ∧ persons.countP (fun p => p.needsEscort) ≤ persons.countP (fun p => p.role = .escort) * r.escortRatio)
  ∧ (∀ (r : Room) (list : List Occupant) (members : List Member),
       requirementTest r (list.map Occupant.person ++ members.map Member.person) = true ↔
         (r.cls = .twoPerson → 2 ≤ list.length + members.length)
           ∧ list.countP (fun o => o.needsEscort) + members.countP (fun m => m.needsEscort)
             ≤ (list.countP (fun o => o.role = .escort) + members.countP (fun m => m.role = .escort)) * r.escortRatio)

/-! ### Door stations (chapter 8) -/

/-- R131, R132: a body of another length is MALFORMED. R131: STATION-SET, its body written out byte by byte. R132:
STATION-CHANNEL, its body written out byte by byte. -/
def Obligations.StationConfigured : Prop :=
  (∀ (s : State) (f : Frame),
     (s.serving .stationSet f → f.body.length ≠ 5 → Refuses .stationSet s f .malformed)
     ∧ (s.serving .stationChannel f → f.body.length ≠ 2 → Refuses .stationChannel s f .malformed))
  ∧ (∀ (s : State) (f : Frame) (n room rel held0 held1 : Byte), s.serving .stationSet f →
       f.body = [n, room, rel, held0, held1] →
       let st := s.station n.toNat
       let release := max 3 (min 30 rel.toNat)
       let held := max 10 (min 300 (held0.toNat + 256 * held1.toNat))
       let idle : Prop := st.channel = .hold ∧ (∀ g ∈ s.groups, g.station ≠ n.toNat)
         ∧ (∀ o ∈ s.pool, o.presence = .admitting → o.station ≠ n.toNat) ∧ st.verdict = none
         ∧ (∀ p ∈ s.presentations, p.station ≠ n.toNat) ∧ (st.door = .secure ∨ st.door = .unknown) ∧ st.events = []
       (n.toNat = 0 ∨ 16 < n.toNat ∨ 12 < room.toNat → Refuses .stationSet s f .range)
       ∧ (1 ≤ n.toNat → n.toNat ≤ 16 → room.toNat ≤ 12 →
         (¬ idle → Refuses .stationSet s f .wrongState)
         ∧ (idle → (st.room = 0 ∨ room ≠ 0) →
             Answers .stationSet s f .ok (leBytes 1 n.toNat ++ leBytes 1 room.toNat ++ leBytes 1 release ++ leBytes 2 held)
               (s.setStation n.toNat { st with room := room.toNat, releaseTime := release, heldLimit := held }))
         ∧ (idle → st.room ≠ 0 → room = 0 →
             Answers .stationSet s f .ok (leBytes 1 n.toNat ++ leBytes 1 0 ++ leBytes 1 release ++ leBytes 2 held)
               (s.setStation n.toNat
                 { st with
                   room := 0, releaseTime := release, heldLimit := held, link := .silent, missed := 0, expected := .adopt
                   door := .unknown }))))
  ∧ (∀ (s : State) (f : Frame) (n ch : Byte), s.serving .stationChannel f → f.body = [n, ch] →
       let st := s.station n.toNat
       (n.toNat = 0 ∨ 16 < n.toNat ∨ 2 < ch.toNat → Refuses .stationChannel s f .range)
       ∧ (1 ≤ n.toNat → n.toNat ≤ 16 → ch.toNat ≤ 2 →
         (st.room = 0 → ch ≠ 1 → Refuses .stationChannel s f .wrongState)
         ∧ ((st.room ≠ 0 ∨ ch = 1) → st.channel.code = ch.toNat → Answers .stationChannel s f .ok [] s)
         ∧ ((st.room ≠ 0 ∨ ch = 1) → st.channel.code ≠ ch.toNat →
             ∃ channel : Channel, channel.code = ch.toNat
               ∧ Answers .stationChannel s f .ok []
                   ((s.setStation n.toNat { st with channel := channel }).put
                     { kind := .channel, station := n.toNat, room := st.room, reason := .operator
                       value := .pair st.channel.code ch.toNat }))))

/-- R134, R136: a round takes the bound stations in ascending order. R135, R183: a call carries the acknowledge toggle
and the pending verdict, with its toggle, outcome, reason class and release seconds, marks that verdict sent, and sums
to 0 modulo 256. The line goes on calling in STANDBY until the stop (R174). -/
def Obligations.RoundsAndCalls : Prop :=
  (∀ s : State, s.inReset = false → s.supply.mode ≠ .standby ∨ s.supply.stopPending = true →
    (s.line.round = none →
      exec .pollRoundStart s = .next
        { s with
          line :=
            { round :=
                if (List.range' 1 16).filter (fun n => (s.station n).room ≠ 0) = [] then none
                else some ⟨(List.range' 1 16).filter (fun n => (s.station n).room ≠ 0), none, s.line.settleNext⟩
              settleNext := false
              periodMs :=
                if s.supply.mode = .reserve then s.settings.pollPeriod * s.settings.reserveFactor
                else s.settings.pollPeriod
              rate := s.settings.bitRate } })
    ∧ (∀ n rest settle, s.line.round = some ⟨n :: rest, none, settle⟩ →
        exec .call s = .next
          { s.setStation n
              { s.station n with verdict := (s.station n).verdict.map (fun v => { v with sent := true }) } with
            line := { s.line with round := some ⟨rest, some ⟨n, callChars n (s.station n)⟩, settle⟩ } }))
  ∧ (∀ (n : Nat) (st : Station), 1 ≤ n → n ≤ 16 →
      let plain (d : Byte) : StationChar := ⟨false, false, d⟩
      charSum (callChars n st) = 0
      ∧ (st.verdict = none →
          ∃ control check : Byte, callChars n st = [⟨true, false, BitVec.ofNat 8 n⟩, plain control, plain check]
            ∧ control.toNat = st.acknowledge.toNat + 4 * st.verdictToggle.toNat)
      ∧ (∀ v, st.verdict = some v →
          ∃ control decided check : Byte,
            callChars n st
              = [⟨true, false, BitVec.ofNat 8 n⟩, plain control, plain decided, plain (BitVec.ofNat 8 v.seconds), plain check]
            ∧ control.toNat = st.acknowledge.toNat + 2 + 4 * v.toggle.toNat
            ∧ decided.toNat = v.outcome.code + 16 * v.reason.cls.code))

/-- R137, R174: a good answer is processed for the link, the verdict, the contact and the report, in that order, and
ends the turn. While the mode is STANDBY the contact and the report are set aside; for a turn that ends after the stop
this is the model's reading of R149 and R174 (log entry 15). R183: the five values of a good answer, bit by bit. -/
def Obligations.GoodAnswerInFourSteps : Prop :=
  (∀ (chars : List StationChar) (s : State) (turn : Turn) (rest : List Nat) (settle : Bool), isGoodAnswer chars = true →
     s.inReset = false → s.line.round = some ⟨rest, some turn, settle⟩ → (s.station turn.station).room ≠ 0 →
     let n := turn.station
     let a := answerOf chars
     let judged := (s.linkStep n).verdictStep n a.seen
     let contacted := judged.contactStep n a.open? a.latch
     let reported := match a.report with
       | some (t, side, credential) => contacted.reportStep n t side credential
       | none => contacted
     Leaves (.goodAnswer chars) s
       { (if s.supply.mode = .standby then judged else reported) with
         line := { s.line with round := if rest = [] then none else some ⟨rest, none, settle⟩ } })
  ∧ (∀ chars, isGoodAnswer chars = true → chars.length = 2 ∨ chars.length = 7)
  ∧ (∀ status check : StationChar, isGoodAnswer [status, check] = true →
      status.data.getLsbD 0 = false
      ∧ answerOf [status, check]
        = { report := none, seen := status.data.getLsbD 2, open? := status.data.getLsbD 3, latch := status.data.getLsbD 4 })
  ∧ (∀ status side c0 c1 c2 c3 check : StationChar, isGoodAnswer [status, side, c0, c1, c2, c3, check] = true →
      status.data.getLsbD 0 = true
      ∧ answerOf [status, side, c0, c1, c2, c3, check]
        = { report := some (status.data.getLsbD 1, if side.data.getLsbD 0 = true then .inside else .outside,
              c0.data.toNat + 256 * c1.data.toNat + 65536 * c2.data.toNat + 16777216 * c3.data.toNat)
            seen := status.data.getLsbD 2, open? := status.data.getLsbD 3, latch := status.data.getLsbD 4 })

/-- R143, R137 step 1: a good answer makes a SILENT station ONLINE, with a LINK record and a LINK notice. R141, R145:
the pending verdict is delivered when it was sent and its toggle is seen; a delivered RELEASE acts on the door as R145's
table gives, clearing HELD, a commit being raised where an ADMITTING record names the station (R148). R144: the contact
events of the contact and the latch, and the door's next state at each. R147: a forced door: FORCED_OPEN, a SERVE
channel barred with its CHANNEL record, then the ALERT record and the ALERT notice; the same two when FORCED or HELD is
cleared. R138, R139: a report taken into the queue, held back, or set aside as a repeat; one whose number is no
credential is acknowledged with the corrupt answer flag set (for a repeat, the model's reading: log entry 17). -/
def Obligations.AnswerStepsTaken : Prop :=
  (∀ (s : State) (n : Nat),
     ((s.station n).link = .online → s.linkStep n = s.setStation n { s.station n with missed := 0 })
     ∧ ((s.station n).link = .silent →
         s.linkStep n
           = ((s.setStation n { s.station n with missed := 0, link := .online }).put
               { kind := .link, station := n, room := (s.station n).room, value := .number 1 }).offer (.link n .online)))
  ∧ (∀ (s : State) (n : Nat) (seen : Toggle), 1 ≤ n → n ≤ s.stations.length →
       let st := s.station n
       let empty : Station := { st with verdict := none, verdictToggle := !st.verdictToggle }
       let met : List DoorEvent := if s.hasAdmitting n then raiseCommit st.events else st.events
       (st.verdict = none → s.verdictStep n seen = s)
       ∧ (∀ v, st.verdict = some v → v.sent = false ∨ v.toggle ≠ seen → s.verdictStep n seen = s)
       ∧ (∀ v, st.verdict = some v → v.sent = true → v.toggle = seen →
           (v.outcome ≠ .release → s.verdictStep n seen = s.setStation n empty)
           ∧ (v.outcome = .release →
               s.verdictStep n seen =
                 (match st.door with
                   | .unknown | .secure | .released _ => s.setStation n { empty with door := .released v.seconds }
                   | .opened _ => s.setStation n { empty with door := .opened st.heldLimit, events := met }
                   | .heldOpen =>
                     ((s.setStation n { empty with door := .opened st.heldLimit, events := met }).put
                       { kind := .alert, station := n, room := st.room, reason := .alert .held
                         value := .number 0 }).offer
                       (.alert { kind := .held, level := .clear, room := st.room, station := n })
                   | .forcedOpen => s.setStation n { empty with events := met }))))
  ∧ (∀ (s : State) (n : Nat),
       (∀ latch, s.contactStep n true latch = s.doorOpened n) ∧ s.contactStep n false false = s.doorClosed n
       ∧ s.contactStep n false true = (s.doorOpened n).doorClosed n)
  ∧ (∀ (s : State) (n : Nat), 1 ≤ n → n ≤ s.stations.length →
       let st := s.station n
       let met : List DoorEvent := if s.hasAdmitting n then raiseCommit st.events else st.events
       let channelAfter : Channel := if st.channel = .serve then .barred else st.channel
       let forced : State := s.setStation n { st with door := .forcedOpen, channel := channelAfter }
       let recorded : State :=
         if st.channel = .serve then
           forced.put { kind := .channel, station := n, room := st.room, reason := .forced, value := .pair 0 2 }
         else forced
       let secured : State := s.setStation n { st with door := .secure }
       s.doorOpened n =
         (match st.door with
           | .unknown => s.setStation n { st with door := .opened st.heldLimit }
           | .secure =>
             (recorded.put { kind := .alert, station := n, room := st.room, reason := .alert .forced
                             value := .number 1 }).offer
               (.alert { kind := .forced, level := .raised, room := st.room, station := n, channel := some channelAfter })
           | .released _ => s.setStation n { st with door := .opened st.heldLimit, events := met }
           | .opened _ | .heldOpen | .forcedOpen => s)
       ∧ s.doorClosed n =
         (match st.door with
           | .unknown | .opened _ => secured
           | .secure | .released _ => s
           | .heldOpen =>
             (secured.put { kind := .alert, station := n, room := st.room, reason := .alert .held
                            value := .number 0 }).offer
               (.alert { kind := .held, level := .clear, room := st.room, station := n })
           | .forcedOpen =>
             (secured.put { kind := .alert, station := n, room := st.room, reason := .alert .forced
                            value := .number 0 }).offer
               (.alert { kind := .forced, level := .clear, room := st.room, station := n, channel := some st.channel })))
  ∧ (∀ (s : State) (n : Nat) (t : Toggle) (side : Side) (c : Nat),
       let st := s.station n
       let free := st.channel ≠ .hold ∧ s.presentations.length ≤ 7 ∧ (∀ p ∈ s.presentations, p.station ≠ n) ∧ st.verdict = none
       (c = 0 ∨ c = 4294967295 →
         s.reportStep n t side c = s.setStation n { st with acknowledge := t, expected := .toggle (!t), corrupt := true })
       ∧ (isCredential c →
         (st.expected = .toggle (!t) → s.reportStep n t side c = s)
         ∧ (st.expected ≠ .toggle (!t) → free →
             s.reportStep n t side c
               = { s.setStation n { st with acknowledge := t, expected := .toggle (!t) } with
                   presentations := s.presentations ++ [⟨n, side, c, s.now⟩] })
         ∧ (st.expected = .toggle t → ¬ free → s.reportStep n t side c = s.setStation n st)
         ∧ (st.expected = .adopt → ¬ free → s.reportStep n t side c = s.setStation n { st with acknowledge := !t })))

/-- R135, R136, R142: a miss raises the missed count, saturating at 15, outside the settle round; a corrupt answer sets
its flag as well. Below the silence threshold nothing else moves. The turn of a station unbound during its round ends
without effect on the station but for a corrupt answer's flag (the model's reading of R131 and R134, log entry 16). -/
def Obligations.MissesCounted : Prop :=
  (∀ (c : Instr) (s : State) (turn : Turn) (rest : List Nat) (settle : Bool),
     (c = .missingAnswer ∨ ∃ chars, chars ≠ [] ∧ isGoodAnswer chars = false ∧ c = .corruptAnswer chars) →
     s.inReset = false → s.line.round = some ⟨rest, some turn, settle⟩ → s.stations.length = 16 →
     1 ≤ turn.station → turn.station ≤ 16 → (s.station turn.station).room ≠ 0 →
     let st := s.station turn.station
     let missed := if settle then st.missed else min 15 (st.missed + 1)
     settle = true ∨ missed < s.settings.silenceThreshold ∨ st.link = .silent →
     Leaves c s
       { s.setStation turn.station
           { st with missed := missed, corrupt := if c = .missingAnswer then st.corrupt else true } with
         line := { s.line with round := if rest = [] then none else some ⟨rest, none, settle⟩ } })
  ∧ (∀ (s : State) (turn : Turn) (rest : List Nat) (settle : Bool), s.inReset = false →
       s.line.round = some ⟨rest, some turn, settle⟩ → (s.station turn.station).room = 0 →
       let ended : State := { s with line := { s.line with round := if rest = [] then none else some ⟨rest, none, settle⟩ } }
       (∀ chars, isGoodAnswer chars = true → Leaves (.goodAnswer chars) s ended)
       ∧ Leaves .missingAnswer s ended
       ∧ (∀ chars, chars ≠ [] → isGoodAnswer chars = false →
           Leaves (.corruptAnswer chars) s
             (ended.setStation turn.station { s.station turn.station with corrupt := true })))

/-- R142: the miss, of a missing or a corrupt answer, that reaches the silence threshold: the link SILENT with its
record and notice, the verdict discarded, the door UNKNOWN with the ALERT record and notice of a standing door alert
cleared (R147), the expected toggle adopt, a silence lapse where an ADMITTING record or a group is at the station
(R148), and the end of the turn. -/
def Obligations.SilenceAtThreshold : Prop :=
  ∀ (c : Instr) (s : State) (turn : Turn) (rest : List Nat),
    (c = .missingAnswer ∨ ∃ chars, chars ≠ [] ∧ isGoodAnswer chars = false ∧ c = .corruptAnswer chars) →
    s.inReset = false → s.line.round = some ⟨rest, some turn, false⟩ →
    s.stations.length = 16 → 1 ≤ turn.station → turn.station ≤ 16 →
    let n := turn.station
    let st := s.station n
    st.room ≠ 0 → st.link = .online → s.settings.silenceThreshold ≤ min 15 (st.missed + 1) →
    let linked : State :=
      (s.put { kind := .link, station := n, room := st.room, reason := .stationSilent, value := .number 0 }).offer
        (.link n .silent)
    let cleared (kind : AlertKind) (channel : Option Channel) : State :=
      (linked.put { kind := .alert, station := n, room := st.room, reason := .alert kind, value := .number 0 }).offer
        (.alert { kind := kind, level := .clear, room := st.room, station := n, channel := channel })
    let told : State :=
      match st.door with
      | .forcedOpen => cleared .forced (some st.channel)
      | .heldOpen => cleared .held none
      | .unknown | .secure | .released _ | .opened _ => linked
    Leaves c s
      { told.setStation n
          { st with
            missed := min 15 (st.missed + 1), link := .silent, verdict := none, door := .unknown, expected := .adopt
            corrupt := if c = .missingAnswer then st.corrupt else true
            events :=
              if s.hasAdmitting n ∨ (∃ g ∈ s.groups, g.station = n) then raiseLapse true st.events else st.events } with
        line := { s.line with round := if rest = [] then none else some ⟨rest, none, false⟩ } }

/-- R146: the release timer runs out in RELEASED: SECURE, with a lapse where an ADMITTING record names the station.
R147: the held timer runs out in OPEN: HELD_OPEN, with an ALERT record and an ALERT notice of HELD at level 1. The
command that names an expiry is taken at any count of its timer (the model's choice, log entry 4). R128, R146, R147:
each second a running timer counts down by one, outside reset; and the part's own act at count 0, and no sooner, is the
expiry, of the lowest such station after a request to be served at acceptance (the order is the model's choice, log
entry 2). -/
def Obligations.DoorTimersExpire : Prop :=
  (∀ (s : State) (n left : Nat), s.inReset = false → 1 ≤ n → n ≤ 16 → s.stations.length = 16 →
     (s.station n).door = .released left →
     exec (.releaseTimerExpiry n) s = .next (s.setStation n
       { s.station n with
         door := .secure
         events := if s.hasAdmitting n then raiseLapse false (s.station n).events else (s.station n).events }))
  ∧ (∀ (s : State) (n left : Nat), s.inReset = false → 1 ≤ n → n ≤ 16 → s.stations.length = 16 →
       (s.station n).door = .opened left →
       Leaves (.heldTimerExpiry n) s
         (((s.setStation n { s.station n with door := .heldOpen }).put
           { kind := .alert, station := n, room := (s.station n).room, reason := .alert .held, value := .number 1 }).offer
           (.alert { kind := .held, level := .raised, room := (s.station n).room, station := n })))
  ∧ (∀ s : State,
       (s.inReset = true → s.tick = { s with clock := s.tick.clock })
       ∧ (s.inReset = false →
           s.tick.stations = s.stations.map (fun st =>
             { st with door := (match st.door with
                | .released left => .released (left - 1)
                | .opened left => .opened (left - 1)
                | .unknown => .unknown | .secure => .secure | .heldOpen => .heldOpen | .forcedOpen => .forcedOpen) })))
  ∧ (∀ (s : State) (n : Nat),
       (s.ownAction = some (.releaseTimerExpiry n) → (s.station n).door = .released 0)
       ∧ (s.ownAction = some (.heldTimerExpiry n) → (s.station n).door = .opened 0)
       ∧ (1 ≤ n → n ≤ 16 → s.inReset = false →
           (∀ f, s.unserved = some f → servedAtAcceptance f = false) →
           (∀ m, 1 ≤ m → m < n → (s.station m).door ≠ .released 0 ∧ (s.station m).door ≠ .opened 0) →
           ((s.station n).door = .released 0 → s.ownAction = some (.releaseTimerExpiry n))
           ∧ ((s.station n).door = .opened 0 → s.ownAction = some (.heldTimerExpiry n))))

/-! ### The access trail (chapter 9) -/

/-- R153, R154: a record handed to the trail is appended to the FILLING half; the 64th closes the half, with its
TRAIL-HALF notice; while FULL it is lost and counted. -/
def Obligations.RecordWrittenOrLost : Prop :=
  ∀ (s : State) (r : TrailRecord),
    let stamped : TrailRecord :=
      { r with day := if s.clock.unset then 0 else s.clock.day, second := if s.clock.unset then 0 else s.clock.second }
    (∀ h, s.trail.filling = some h → (s.trail.half h).records.length ≤ 62 →
      s.put r = { s with trail := s.trail.setHalf h ⟨.filling, (s.trail.half h).records ++ [stamped]⟩ })
    ∧ (∀ h, s.trail.filling = some h → (s.trail.half h).records.length = 63 → (s.trail.half h.other).state = .free →
      s.put r
        = ({ s with
            trail :=
              { (s.trail.setHalf h ⟨.closed, (s.trail.half h).records ++ [stamped]⟩).setHalf h.other ⟨.filling, []⟩ with
                lastClosed := some h } } : State).offer (.trailHalf h false false))
    ∧ (∀ h, s.trail.filling = some h → (s.trail.half h).records.length = 63 → (s.trail.half h.other).state = .closed →
      s.put r
        = ({ s with
            trail :=
              { s.trail.setHalf h ⟨.closed, (s.trail.half h).records ++ [stamped]⟩ with lastClosed := some h } } :
            State).offer (.trailHalf h false true))
    ∧ (s.trail.filling = none → s.put r = { s with trail := { s.trail with lost := min 65535 (s.trail.lost + 1) } })

/-- R155: TRAIL-READ returns the records the half holds from the first index on, up to the count. R156: TRAIL-CLOSE.
R157: TRAIL-FREE; out of FULL the freed half fills at once, with the GAP record of the lost count. R180, R184: the trail
block and the trail record, byte by byte, the codes being those of R185. -/
def Obligations.TrailRequestsServed : Prop :=
  (∀ (s : State) (f : Frame), s.inReset = false → s.unserved = some f → f.kind = 0x16 →
     let first := byteAt f.body 1
     let count := byteAt f.body 2
     let half := if byteAt f.body 0 = 1 then s.trail.a else s.trail.b
     (f.body.length ≠ 3 → Refuses .trailRead s f .malformed)
     ∧ (f.body.length = 3 → byteAt f.body 0 = 0 ∨ 2 < byteAt f.body 0 ∨ 63 < first ∨ count = 0 ∨ 16 < count →
         Refuses .trailRead s f .range)
     ∧ (f.body.length = 3 → 1 ≤ byteAt f.body 0 → byteAt f.body 0 ≤ 2 → first ≤ 63 → 1 ≤ count → count ≤ 16 →
         ∃ records : List TrailRecord, records.length = min count (half.records.length - first)
           ∧ (∀ i, i < records.length → records[i]? = half.records[first + i]?)
           ∧ Answers .trailRead s f .ok
               (trailBlock s.trail ++ leBytes 1 records.length ++ records.flatMap TrailRecord.bytes) s))
  ∧ (∀ (s : State) (f : Frame), s.inReset = false → s.unserved = some f → f.kind = 0x17 →
       (f.body ≠ [] → Refuses .trailClose s f .malformed)
       ∧ (f.body = [] → s.trail.filling = none → Refuses .trailClose s f .wrongState)
       ∧ (∀ h, f.body = [] → s.trail.filling = some h →
           ((s.trail.half h).records = [] → Answers .trailClose s f .ok (leBytes 2 0 ++ trailBlock s.trail) s)
           ∧ ((s.trail.half h).records ≠ [] → (s.trail.half h.other).state ≠ .free → Refuses .trailClose s f .wrongState)
           ∧ ((s.trail.half h).records ≠ [] → (s.trail.half h.other).state = .free →
               let closed : Trail :=
                 { (s.trail.setHalf h ⟨.closed, (s.trail.half h).records⟩).setHalf h.other ⟨.filling, []⟩ with
                   lastClosed := some h }
               Answers .trailClose s f .ok
                 (leBytes 1 h.code ++ leBytes 1 (s.trail.half h).records.length ++ trailBlock closed)
                 (({ s with trail := closed } : State).offer (.trailHalf h true false)))))
  ∧ (∀ (s : State) (f : Frame), s.inReset = false → s.unserved = some f → f.kind = 0x18 →
       let h : HalfId := if byteAt f.body 0 = 1 then .a else .b
       let gap : TrailRecord :=
         { kind := .gap, day := if s.clock.unset then 0 else s.clock.day
           second := if s.clock.unset then 0 else s.clock.second, value := .number s.trail.lost }
       let refilled : Trail :=
         { s.trail.setHalf h ⟨.filling, if s.trail.lost = 0 then [] else [gap]⟩ with lost := 0 }
       (f.body.length ≠ 1 → Refuses .trailFree s f .malformed)
       ∧ (f.body.length = 1 → byteAt f.body 0 = 0 ∨ 2 < byteAt f.body 0 → Refuses .trailFree s f .range)
       ∧ (f.body.length = 1 → 1 ≤ byteAt f.body 0 → byteAt f.body 0 ≤ 2 →
           ((s.trail.half h).state ≠ .closed → Refuses .trailFree s f .wrongState)
           ∧ ((s.trail.half h).state = .closed → s.trail.filling ≠ none →
               Answers .trailFree s f .ok (trailBlock (s.trail.setHalf h ⟨.free, []⟩))
                 { s with trail := s.trail.setHalf h ⟨.free, []⟩ })
           ∧ ((s.trail.half h).state = .closed → s.trail.filling = none →
               Answers .trailFree s f .ok (trailBlock refilled) { s with trail := refilled })))
  ∧ (∀ t : Trail,
       let b := trailBlock t
       b.length = 7 ∧ byteAt b 0 = t.a.state.code ∧ byteAt b 1 = t.a.records.length % 256 ∧ byteAt b 2 = t.b.state.code
         ∧ byteAt b 3 = t.b.records.length % 256 ∧ valueAt b 4 2 = t.lost % 65536 ∧ byteAt b 6 = halfCode t.lastClosed)
  ∧ (∀ r : TrailRecord,
       let b := r.bytes
       b.length = 22 ∧ byteAt b 0 = r.kind.code ∧ valueAt b 1 2 = r.day % 65536 ∧ valueAt b 3 4 = r.second % 4294967296
         ∧ byteAt b 7 = r.station % 256 ∧ byteAt b 8 = r.room % 256 ∧ valueAt b 9 4 = r.credential % 4294967296
         ∧ valueAt b 13 2 = r.permit % 65536 ∧ byteAt b 15 = r.reason.code
         ∧ (∀ n, r.value = .number n → valueAt b 16 6 = n % 281474976710656)
         ∧ (∀ old new, r.value = .pair old new →
             byteAt b 16 = old % 256 ∧ byteAt b 17 = new % 256 ∧ valueAt b 18 4 = 0))

/-! ### Supply modes and restarts (chapter 11) -/

/-- R172, R173, R98: MODE-REQUEST RUN and RESERVE. R174: MODE-REQUEST STANDBY. Nothing stops before the stop (R174): the
sweep interval timer goes on from its count, toward the interval of the mode it was accepted in (the model's choice, log
entry 14). -/
def Obligations.ModeRequestsServed : Prop :=
  (∀ (s : State) (f : Frame),
     let changed (new : SupplyMode) (flag : Bool) : State :=
       (({ s with supply := { s.supply with mode := new, byRequest := flag } } : State).put
         { kind := .mode, reason := .cause .request, value := .pair s.supply.mode.code new.code }).offer
         (.mode s.supply.mode new .request)
     (s.serving .modeRequestRun f → f.body = [0] →
       (s.supply.supplyGood = false → Refuses .modeRequestRun s f .supply)
       ∧ (s.supply.supplyGood = true → s.supply.mode = .run →
           Answers .modeRequestRun s f .ok [0, boolByte s.supply.byRequest] s)
       ∧ (s.supply.supplyGood = true → s.supply.mode = .reserve →
           Answers .modeRequestRun s f .ok [0, 0]
             { changed .run false with
               sweep :=
                 if s.settings.sweepInterval * 60 ≤ s.sweep.count then
                   { s.sweep with count := 0, owed := min 4 (s.sweep.owed + 1) }
                 else s.sweep }))
     ∧ (s.serving .modeRequestReserve f → f.body = [1] →
       (s.supply.mode = .run → Answers .modeRequestReserve s f .ok [1, 1] (changed .reserve true))
       ∧ (s.supply.mode = .reserve →
           Answers .modeRequestReserve s f .ok [1, 1] { s with supply := { s.supply with byRequest := true } })))
  ∧ (∀ (s : State) (f : Frame), s.serving .modeRequestStandby f → f.body = [2] → s.supply.mode ≠ .standby →
       let busy : Prop := s.presentations ≠ [] ∨ (∃ st ∈ s.stations, st.verdict ≠ none) ∨ (∃ st ∈ s.stations, st.events ≠ [])
         ∨ (∃ st ∈ s.stations, st.room ≠ 0 ∧ st.door ≠ .secure ∧ st.door ≠ .unknown)
       (s.pool ≠ [] ∨ s.groups ≠ [] → Refuses .modeRequestStandby s f .occupied)
       ∧ (s.pool = [] → s.groups = [] → busy → Refuses .modeRequestStandby s f .wrongState)
       ∧ (s.pool = [] → s.groups = [] → ¬ busy →
           Answers .modeRequestStandby s f .ok [2, 0]
             ((({ s with
                 supply :=
                   { s.supply with
                     mode := .standby, byRequest := false, stopPending := true
                     fromReserve := s.supply.mode = .reserve } } : State).put
               { kind := .mode, reason := .cause .request, value := .pair s.supply.mode.code 2 }).offer
               (.mode s.supply.mode .standby .request))))

/-- R177: RESTART is accepted, and no job is granted afterwards. R173, R177: the bodies that MODE-REQUEST and RESTART
refuse, by the rows the model serves them with (log entry 13). -/
def Obligations.RestartRequestsServed : Prop :=
  (∀ (s : State) (f : Frame),
     (s.serving .restartWarmRequest f → f.body = [0] →
       Answers .restartWarmRequest s f .ok [] { s with supply := { s.supply with restartRequested := some .warm } })
     ∧ (s.serving .restartCleanRequest f → f.body = [1] →
       Answers .restartCleanRequest s f .ok [] { s with supply := { s.supply with restartRequested := some .clean } })
     ∧ (s.supply.restartRequested ≠ none → s.granted = none))
  ∧ (∀ (s : State) (f : Frame),
       (∀ i ∈ [Instr.modeRequestRun, .restartWarmRequest], s.serving i f → f.body.length ≠ 1 → Refuses i s f .malformed)
       ∧ (s.serving .modeRequestRun f → f.body.length = 1 → 2 < byteAt f.body 0 → Refuses .modeRequestRun s f .range)
       ∧ (s.serving .restartWarmRequest f → f.body.length = 1 → 1 < byteAt f.body 0 →
           Refuses .restartWarmRequest s f .range))

/-- R172, R98: changes of supply-good in RUN and RESERVE. -/
def Obligations.SupplyLineInRunAndReserve : Prop :=
  ∀ s : State, s.inReset = false →
    let fallen : State := { s with supply := { s.supply with supplyGood := false } }
    let risen : State := { s with supply := { s.supply with supplyGood := true } }
    (s.supply.supplyGood = true → s.supply.mode = .run →
      Leaves .supplyFall s
        ((({ fallen with supply := { fallen.supply with mode := .reserve, byRequest := false } } : State).put
          { kind := .mode, reason := .cause .supplyFall, value := .pair 0 1 }).offer (.mode .run .reserve .supplyFall)))
    ∧ (s.supply.supplyGood = true → s.supply.mode = .reserve → Leaves .supplyFall s fallen)
    ∧ (s.supply.supplyGood = false → s.supply.mode = .run → Leaves .supplyRise s risen)
    ∧ (s.supply.supplyGood = false → s.supply.mode = .reserve → s.supply.byRequest = true → Leaves .supplyRise s risen)
    ∧ (s.supply.supplyGood = false → s.supply.mode = .reserve → s.supply.byRequest = false →
        Leaves .supplyRise s
          { (({ risen with supply := { risen.supply with mode := .run } } : State).put
              { kind := .mode, reason := .cause .supplyRise, value := .pair 1 0 }).offer (.mode .reserve .run .supplyRise) with
            sweep :=
              if s.settings.sweepInterval * 60 ≤ s.sweep.count then
                { s.sweep with count := 0, owed := min 4 (s.sweep.owed + 1) }
              else s.sweep })
    ∧ (∀ stays, s.supply.mode ≠ .standby →
        Leaves (.attention stays) s { s with supply := { s.supply with attention := stays } })

/-- R174, R149, R98: the stop, when the reply of an accepted STANDBY has been sent. Without a held wake event it ends
the round after the turn under way and stops the sweep interval timer with its count 0, and the receiver hunts, giving
up a frame still under way (log entry 32). With a wake event held, or the attention line active, the wake follows at
once (R174, R175; that the held event gives the cause where both stand is the model's choice, log entry 18). R174:
between an accepted STANDBY and its stop a wake event is held, the first of several. R175, R149, R172: the first wake
event ends STANDBY: the mode by supply-good, every bound station UNKNOWN and SILENT with its expected toggle adopt, a
settle round first, the sweep timer from 0, and the MODE record and notice with the cause. A turn still under way at the
wake is abandoned (the model's choice, log entry 15). -/
def Obligations.StandbyAndWake : Prop :=
  (∀ (inputs : RestartInputs) (s : State) (frame : Frame), s.inReset = false →
     s.host.sending = some ⟨frame, .reply⟩ → s.supply.restartRequested = none → s.supply.stopPending = true →
     s.supply.heldWake = none → s.supply.attention = false →
     Leaves (.frameSent inputs) s
       { s with
         host := { s.host with sending := none, outstanding := none, receiving := false }
         line := { s.line with
           round := match s.line.round with
             | some r => if r.turn.isSome then some { r with toCall := [] } else none
             | none => none }
         sweep := { s.sweep with count := 0 }
         supply := { s.supply with stopPending := false, fromReserve := false } })
  ∧ (∀ (inputs : RestartInputs) (s : State) (frame : Frame) (cause : ModeCause), s.inReset = false →
       s.host.sending = some ⟨frame, .reply⟩ → s.supply.restartRequested = none → s.supply.mode = .standby →
       s.supply.stopPending = true →
       s.supply.heldWake = some cause ∨ s.supply.heldWake = none ∧ s.supply.attention = true ∧ cause = .wakeAttention →
       let new : SupplyMode := if s.supply.supplyGood then .run else .reserve
       let stopped : State :=
         { s with
           host := { s.host with sending := none, outstanding := none }
           sweep := { s.sweep with count := 0 } }
       Leaves (.frameSent inputs) s
         { (stopped.put { kind := .mode, reason := .cause cause, value := .pair 2 new.code }).offer
             (.mode .standby new cause) with
           supply :=
             { s.supply with
               stopPending := false, fromReserve := false, heldWake := none, mode := new, byRequest := false }
           stations := s.stations.map (fun st =>
             if st.room = 0 then st else { st with door := .unknown, link := .silent, missed := 0, expected := .adopt })
           line :=
             { round := none, settleNext := true
               periodMs :=
                 if new = .reserve then s.settings.pollPeriod * s.settings.reserveFactor else s.settings.pollPeriod
               rate := s.settings.bitRate } })
  ∧ (∀ s : State, s.inReset = false → s.supply.mode = .standby → s.supply.stopPending = true →
       (∀ stays, Leaves (.attention stays) s
         { s with supply :=
             { s.supply with attention := stays, heldWake := some (s.supply.heldWake.getD .wakeAttention) } })
       ∧ (s.host.receiving = false → Leaves .startByteReceived s
           { s with
             host := { s.host with receiving := true }
             supply := { s.supply with heldWake := some (s.supply.heldWake.getD .wakeHost) } })
       ∧ (s.supply.supplyGood = true → Leaves .supplyFall s
           { s with supply :=
               { s.supply with supplyGood := false, heldWake := some (s.supply.heldWake.getD .wakeSupply) } })
       ∧ (s.supply.supplyGood = false → Leaves .supplyRise s
           { s with supply :=
               { s.supply with supplyGood := true, heldWake := some (s.supply.heldWake.getD .wakeSupply) } }))
  ∧ (∀ (c : Instr) (s noticed : State) (cause : ModeCause), s.inReset = false → s.supply.mode = .standby →
       s.supply.stopPending = false →
       (c = .startByteReceived ∧ s.host.receiving = false ∧ cause = .wakeHost
           ∧ noticed = { s with host := { s.host with receiving := true } }
         ∨ (∃ stays, c = .attention stays ∧ cause = .wakeAttention
             ∧ noticed = { s with supply := { s.supply with attention := stays } })
         ∨ c = .supplyFall ∧ s.supply.supplyGood = true ∧ cause = .wakeSupply
           ∧ noticed = { s with supply := { s.supply with supplyGood := false } }
         ∨ c = .supplyRise ∧ s.supply.supplyGood = false ∧ cause = .wakeSupply
           ∧ noticed = { s with supply := { s.supply with supplyGood := true } }) →
       let new : SupplyMode := if noticed.supply.supplyGood then .run else .reserve
       Leaves c s
         { (noticed.put { kind := .mode, reason := .cause cause, value := .pair 2 new.code }).offer
             (.mode .standby new cause) with
           supply := { noticed.supply with mode := new, byRequest := false }
           stations := s.stations.map (fun st =>
             if st.room = 0 then st else { st with door := .unknown, link := .silent, missed := 0, expected := .adopt })
           sweep := { s.sweep with count := 0 }
           line :=
             { round := none, settleNext := true
               periodMs :=
                 if new = .reserve then s.settings.pollPeriod * s.settings.reserveFactor else s.settings.pollPeriod
               rate := s.settings.bitRate } })

/-- R176: the reset line active, and the main supply lost, hold the part in reset. R176, R178, R88, R159, R171: a
restart of any of the four events, RESTART WARM and RESTART CLEAN carried out among them, with the retention check
failing or the mark absent, is a POWER_ON: every table at its default, the clock UNSET, the RESTART record the first of
half A, READY the first notice. The frame is whole: every field is named. R176 item 2, R177, R88: RESTART CLEAN, carried
out when its reply has been sent, keeps the clock alone. R178: a start-up cut short by another restart leaves the part
in reset with the retained domain at its defaults from step 2 on, and until step 7 a POWER_ON leaves the retention mark
absent, so that the next restart is a POWER_ON again (log entry 33). -/
def Obligations.DefaultRestarts : Prop :=
  (∀ s : State,
     exec .resetLineActive s = .next { s with supply := { s.supply with resetActive := true } }
     ∧ exec .mainSupplyLoss s = .next { s with supply := { s.supply with mainLost := true } }
     ∧ (s.supply.resetActive = true ∨ s.supply.mainLost = true → s.granted = none ∧ s.ownAction = none))
  ∧ (∀ (c : Instr) (s : State) (inputs : RestartInputs),
       (c = .resetLineReleased inputs ∧ s.supply.resetActive = true ∧ s.supply.mainLost = false
         ∨ c = .mainSupplyUp inputs ∧ s.supply.mainLost = true ∧ s.supply.resetActive = false
         ∨ c = .frameSent inputs ∧ s.inReset = false ∧ s.supply.restartRequested ≠ none
           ∧ ∃ frame, s.host.sending = some ⟨frame, .reply⟩) →
       (inputs.backup = .disconnected ∨ inputs.backup = .decayed ∨ s.supply.markPresent = false
         ∨ s.supply.checkHolds = false) →
       let lost : Bool := s.supply.markPresent && inputs.backup != .disconnected
       let rate := 2 * inputs.strap1.toNat + inputs.strap0.toNat
       (inputs.cut = none → exec c s = .next
         { clock := ⟨true, 0, 0, false⟩
           settings := defaultSettings, permits := [], revoked := []
           rooms := List.replicate 12 defaultRoom, pool := [], groups := [], deadlines := [], presentations := []
           stations := List.replicate 16 defaultStation
           line := { round := none, settleNext := true, rate := .r38400
                     periodMs := if s.supply.supplyGood then 200 else 800 }
           trail :=
             { a := ⟨.filling, [{ kind := .restart, reason := .restarted .powerOn, value := .number lost.toNat }]⟩
               b := ⟨.free, []⟩, lost := 0, lastClosed := none }
           host :=
             { receiving := false, outstanding := none, reply := none, busy := [], notices := [], frameDiscarded := false
               noticesDropped := false, rateCode := rate
               sending := some ⟨⟨0x40, 0, [48, boolByte lost]⟩, .notice⟩ }
           sweep := ⟨0, 0, 1⟩
           supply :=
             { s.supply with
               mode := if s.supply.supplyGood then .run else .reserve
               byRequest := false, stopPending := false, fromReserve := false, heldWake := none, restartRequested := none
               resetActive := false, mainLost := false, markPresent := true, checkHolds := true
               lastKind := .powerOn, retentionLost := lost }
           lastDoor := 16, pending := s.pending })
       ∧ (∀ cut, inputs.cut = some cut →
           ∃ t, exec c s = .next t ∧ t.supply.resetActive = decide (cut.hold = .resetLine)
             ∧ t.supply.mainLost = decide (cut.hold = .mainSupply) ∧ t.supply.markPresent = decide (cut.after = .mark)
             ∧ (cut.after ≠ .unretained →
                 t.clock = ⟨true, 0, 0, false⟩ ∧ t.settings = defaultSettings ∧ t.permits = [] ∧ t.revoked = []
                   ∧ t.rooms = List.replicate 12 defaultRoom ∧ t.pool = [] ∧ t.groups = []
                   ∧ t.stations = List.replicate 16 defaultStation)))
  ∧ (∀ (inputs : RestartInputs) (s : State) (frame : Frame), s.inReset = false →
       s.host.sending = some ⟨frame, .reply⟩ → s.supply.restartRequested = some .clean → inputs.backup = .kept →
       s.supply.markPresent = true → s.supply.checkHolds = true →
       ∃ t, exec (.frameSent inputs) s = .next t ∧ t.clock = s.clock
         ∧ (∀ cut, inputs.cut = some cut →
             t.supply.resetActive = decide (cut.hold = .resetLine) ∧ t.supply.mainLost = decide (cut.hold = .mainSupply)
               ∧ (cut.after ≠ .unretained → t.permits = [] ∧ t.pool = [] ∧ t.groups = []))
         ∧ (inputs.cut = none →
             t.settings = defaultSettings ∧ t.permits = []
               ∧ t.revoked = [] ∧ t.rooms = List.replicate 12 defaultRoom ∧ t.pool = [] ∧ t.groups = [] ∧ t.deadlines = []
               ∧ t.presentations = [] ∧ t.stations = List.replicate 16 defaultStation
               ∧ t.trail.a.records.map TrailRecord.reason = [.restarted .restartClean] ∧ t.trail.b = ⟨.free, []⟩
               ∧ t.sweep = ⟨0, 0, 1⟩ ∧ t.lastDoor = 16 ∧ t.host.outstanding = none ∧ t.host.notices = []
               ∧ t.host.sending = some ⟨⟨0x40, 0, [51, 0]⟩, .notice⟩ ∧ t.supply.lastKind = .restartClean))

/-- R176 item 3, R178: a RESET_LINE and a RESTART_WARM. The trail is kept, with the RESTART record, a LAPSE record for
each ADMITTING record (R44 step 1), a DENY record for each group member (R81) and an ALERT record for each room alert
that changes (R44 step 3), in this order (the order of the LAPSE records by room is the model's reading, log entry 25).
R44, R178 step 6, R166: behind READY the queue holds, in the order of the steps, the level 0 notices of the lapsed
markers (log entry 29) and the ALERT notices of the changed room alerts, with the TRAIL-HALF notice of a half that one
of these records closes (the place of one that the RESTART record closes: log entry 10); a notice that finds 16 there is
dropped and sets the notices-dropped flag. INSIDE records stay, and the deadline queue holds their entries and those of
the alerts that stand at level 1, and nothing else (R97). The stations keep what R129 keeps; the host line stands as
R171 gives, with READY being sent. Cut short by another restart, a start-up leaves the part in reset with the work of
the steps it took, step 6 being taken whole or not at all (log entry 33). -/
def Obligations.WarmRestartKeepsInside : Prop :=
  ∀ (c : Instr) (s : State) (inputs : RestartInputs) (kind : RestartKind),
    (c = .resetLineReleased inputs ∧ s.supply.resetActive = true ∧ s.supply.mainLost = false ∧ kind = .resetLine
      ∨ c = .mainSupplyUp inputs ∧ s.supply.mainLost = true ∧ s.supply.resetActive = false ∧ kind = .resetLine
      ∨ c = .frameSent inputs ∧ s.inReset = false ∧ s.supply.restartRequested = some .warm ∧ kind = .restartWarm
        ∧ ∃ frame, s.host.sending = some ⟨frame, .reply⟩) →
    inputs.backup = .kept → s.supply.markPresent = true → s.supply.checkHolds = true → s.PersonsSound →
    s.rooms.length = 12 →
    let kept := s.pool.filter (fun o => o.presence ≠ .admitting)
    let byRooms (l : List Occupant) : List Occupant :=
      (List.range' 1 12).flatMap (fun n => l.filter (fun o => o.room = n))
    let level (a : RoomAlert) (n : Nat) : Level :=
      if a.stands (s.room n) ((kept.filter (fun o => o.room = n)).map Occupant.person) then
        if a.level (s.room n) = .clear then .raised else a.level (s.room n)
      else .clear
    let ofAlerts {α : Type} (f : Nat → RoomAlert → List α) : List α :=
      (List.range' 1 12).flatMap (fun n => f n .lone ++ f n .unescorted)
    let restart : TrailRecord := { kind := .restart, reason := .restarted kind }
    let told : List (TrailRecord ⊕ Notice) :=
      .inl restart :: (byRooms (s.pool.filter (fun o => o.presence = .admitting))).flatMap (fun o =>
          .inl { kind := .lapse, station := o.station, room := o.room, credential := o.credential, permit := o.permit
                 reason := .restart }
            :: ((if o.overstay = .clear then [] else
                  [.inr (.alert { kind := .overstay, level := .clear, room := o.room, station := o.station
                                  credential := o.credential, permit := o.permit })])
              ++ (if o.revokedInside then
                  [.inr (.alert { kind := .revokedInside, level := .clear, room := o.room, station := o.station
                                  credential := o.credential, permit := o.permit })] else [])))
        ++ s.groups.flatMap (fun g => g.members.map (fun m =>
          .inl { kind := .deny, station := g.station, room := g.room, credential := m.credential, permit := m.permit
                 reason := .restart }))
        ++ ofAlerts (fun n a =>
          if level a n = a.level (s.room n) then []
          else [.inr (.alert { kind := a.kind, level := level a n, room := n })
               , .inl { kind := .alert, room := n, reason := .alert a.kind, value := .number (level a n).code }])
    let records : List TrailRecord := told.filterMap Sum.getLeft?
    let notices : List Notice :=
      (told.foldl (fun (w : Trail × List Notice) x =>
        match x with
        | .inl r => ((w.1.put (s.stamp r)).1, w.2 ++ (w.1.put (s.stamp r)).2.toList)
        | .inr n => (w.1, w.2 ++ [n])) (s.trail, [])).2
    let trailWith (l : List TrailRecord) : Trail := (l.map s.stamp).foldl (fun tr r => (tr.put r).1) s.trail
    let entries : List DeadlineEntry :=
      (byRooms kept).flatMap (fun o =>
        match o.presence, o.overstay with
        | .inside _ deadline, .clear => [⟨deadline * 60, .stayDeadline o.credential⟩]
        | .inside _ deadline, .raised => [⟨(deadline + (s.room o.room).grace) * 60, .escalation o.credential⟩]
        | _, _ => [])
      ++ ofAlerts (fun n a => if level a n = .raised then [⟨s.now + a.limit (s.room n), a.due n⟩] else [])
    let started : Supply :=
      { s.supply with
        mode := if s.supply.supplyGood then .run else .reserve
        byRequest := false, stopPending := false, fromReserve := false, heldWake := none, restartRequested := none
        resetActive := false, mainLost := false, lastKind := kind, retentionLost := false }
    (inputs.cut = none →
      ∃ t, exec c s = .next t
        ∧ t.pool = kept ∧ t.groups = [] ∧ t.presentations = [] ∧ t.clock = s.clock ∧ t.settings = s.settings
        ∧ t.permits = s.permits ∧ t.revoked = s.revoked
        ∧ t.stations = s.stations.map (fun st =>
            { defaultStation with
              room := st.room, releaseTime := st.releaseTime, heldLimit := st.heldLimit, channel := st.channel
              last := st.last })
        ∧ t.rooms = (List.range' 1 12).map (fun n =>
            { s.room n with lone := level .lone n, unescorted := level .unescorted n })
        ∧ t.sweep = ⟨0, 0, 1⟩ ∧ t.lastDoor = 16 ∧ t.pending = s.pending ∧ t.supply = started
        ∧ t.trail = trailWith records ∧ t.deadlines = entries.foldl (fun l e => insertDeadline e l) []
        ∧ t.line.round = none ∧ t.line.settleNext = true
        ∧ t.host.sending = some ⟨⟨0x40, 0, [BitVec.ofNat 8 kind.code, 0]⟩, .notice⟩
        ∧ t.host.notices = notices.take 15 ∧ t.host.noticesDropped = decide (15 < notices.length)
        ∧ t.host.receiving = false
        ∧ t.host.outstanding = none ∧ t.host.reply = none ∧ t.host.busy = [] ∧ t.host.frameDiscarded = false
        ∧ t.host.rateCode = 2 * inputs.strap1.toNat + inputs.strap0.toNat)
    ∧ (∀ cut, inputs.cut = some cut →
        ∃ t, exec c s = .next t
          ∧ t.supply.resetActive = decide (cut.hold = .resetLine) ∧ t.supply.mainLost = decide (cut.hold = .mainSupply)
          ∧ t.supply.markPresent = true ∧ t.supply.checkHolds = true
          ∧ t.clock = s.clock ∧ t.settings = s.settings ∧ t.permits = s.permits ∧ t.revoked = s.revoked
          ∧ t.host.notices = [] ∧ t.host.sending = none ∧ t.host.outstanding = none ∧ t.host.noticesDropped = false
          ∧ (cut.after ∈ [StartUpStep.unretained, .kind, .mode] →
              t.pool = s.pool ∧ t.groups = s.groups ∧ t.rooms = s.rooms ∧ t.trail = s.trail)
          ∧ (cut.after ∈ [StartUpStep.record, .ready] →
              t.pool = s.pool ∧ t.groups = s.groups ∧ t.rooms = s.rooms ∧ t.trail = trailWith [restart])
          ∧ (cut.after ∈ [StartUpStep.engine, .mark] →
              t.pool = kept ∧ t.groups = [] ∧ t.trail = trailWith records))

/-! ### The engine: arbitration, jobs and the sweep (chapter 7) -/

/-- R119, R120: the arbiter grants the waiting class that stands highest in the order the two settings give, SWEEP first
while four sweeps are owed. R121 item 1: the DOOR round. The station served is the first with a pending event after the
last DOOR station, going up and wrapping from 16 to 1, so that none waits behind more than fifteen others. R117, R94,
R121: when each class waits, and the work its job takes: DOOR while a station holds a pending door event, its older
event; TIMER while the head of the deadline queue is due, which a sound state allows with a set clock alone (R86);
PRESENT the oldest presentation, by its side; REQUEST the outstanding request not yet served whose kind goes to the
engine (R164, R180); SWEEP while a sweep is owed. -/
def Obligations.ArbiterGrantsInOrder : Prop :=
  (∀ s : State, s.inReset = false → s.supply.restartRequested = none →
     let settled : List JobClass :=
       if s.settings.requestFirst then
         if s.settings.sweepEarly then [.door, .timer, .request, .sweep, .present]
         else [.door, .timer, .request, .present, .sweep]
       else if s.settings.sweepEarly then [.door, .timer, .present, .sweep, .request]
       else [.door, .timer, .present, .request, .sweep]
     let order : List JobClass :=
       if s.sweep.owed = 4 then .sweep :: settled.filter (fun c => c ≠ .sweep) else settled
     (∀ before c after i, order = before ++ c :: after → (∀ x ∈ before, s.work x = none) → s.work c = some i →
       s.granted = some i)
     ∧ ((∀ c, s.work c = none) → s.granted = none))
  ∧ (∀ s : State, 1 ≤ s.lastDoor → s.lastDoor ≤ 16 →
       (∀ n, s.doorStation = some n →
         1 ≤ n ∧ n ≤ 16 ∧ (s.station n).events ≠ []
           ∧ ∀ m, 1 ≤ m → m ≤ 16 → (s.station m).events ≠ [] → (n + 15 - s.lastDoor) % 16 ≤ (m + 15 - s.lastDoor) % 16)
       ∧ (s.doorStation = none → ∀ m, 1 ≤ m → m ≤ 16 → (s.station m).events = []))
  ∧ (∀ (s : State) (i : Instr),
       (s.work .door = some i ↔
         ∃ n e later, s.doorStation = some n ∧ (s.station n).events = e :: later
           ∧ i = (match e with | .commit => .doorCommit | .lapse _ => .doorLapse))
       ∧ (s.work .timer = some i ↔
           ∃ e rest, s.deadlines = e :: rest ∧ e.due ≤ s.now
             ∧ i = (match e.what with
                | .pairing _ => .pairingExpiry | .stayDeadline _ => .stayDeadlineDue | .escalation _ => .escalationDue
                | .loneLimit _ => .limitDue | .unescortedLimit _ => .limitDue))
       ∧ (s.work .present = some i ↔
           ∃ p rest, s.presentations = p :: rest ∧ i = (if p.side = .outside then .entryDecision else .exitDecision))
       ∧ (s.work .request = some i ↔
           ∃ f, s.host.outstanding = some ⟨f, false⟩ ∧ f.kind.toNat ∉ [0x00, 0x01, 0x02, 0x04, 0x16, 0x17, 0x18]
             ∧ f.kind.toNat ≤ 0x1A ∧ i = requestRow f)
       ∧ (s.work .sweep = some i ↔ 0 < s.sweep.owed ∧ i = .sweepStep))
  ∧ (∀ s : State,
       (s.work .door ≠ none ↔ ∃ n, 1 ≤ n ∧ n ≤ 16 ∧ (s.station n).events ≠ [])
       ∧ (s.ReferencesSound → s.work .timer ≠ none → s.clock.unset = false))
  ∧ (∀ p ∈ [(0x03, Instr.settingsWrite), (0x05, .clockSet), (0x06, .clockRead), (0x07, .permitAdd), (0x08, .permitAmend)
           , (0x09, .permitRemove), (0x0A, .permitRead), (0x0B, .permitFind), (0x0C, .revoke), (0x0D, .unrevoke)
           , (0x0E, .revokeList), (0x0F, .roomSet), (0x10, .roomMode), (0x11, .roomRead), (0x12, .occupantRelease)
           , (0x13, .stationSet), (0x14, .stationChannel), (0x15, .stationRead)],
       ∀ f : Frame, f.kind.toNat = p.1 → requestRow f = p.2)
  ∧ (∀ tag : Byte,
       requestRow ⟨0x19, tag, [0]⟩ = .modeRequestRun ∧ requestRow ⟨0x19, tag, [1]⟩ = .modeRequestReserve
         ∧ requestRow ⟨0x19, tag, [2]⟩ = .modeRequestStandby ∧ requestRow ⟨0x1A, tag, [0]⟩ = .restartWarmRequest
         ∧ requestRow ⟨0x1A, tag, [1]⟩ = .restartCleanRequest)

/-- R118, R31, R106: a DOOR commit takes the older event and commits each ADMITTING record of the station in list order:
INSIDE at the now of the job, with the deadline of the permit as it stands, its entry and its ENTRY record. R118, R32,
R80: a DOOR lapse removes each ADMITTING record of the station in list order, without debit; with cause silence it
cancels the group that waits there as well. -/
def Obligations.DoorJobs : Prop :=
  ((∀ (s : State) (n : Nat) (later : List DoorEvent), s.granted = some .doorCommit → s.doorStation = some n →
     (s.station n).events = .commit :: later →
     let took : State := { s.setStation n { s.station n with events := later } with lastDoor := n }
     let room := (s.station n).room
     ((∀ o ∈ s.pool, o.station = n → o.presence ≠ .admitting) → Leaves .doorCommit s took)
     ∧ ((∃ o ∈ s.pool, o.station = n ∧ o.presence = .admitting) →
         Leaves .doorCommit s
           ((((s.pool.filter (fun o => o.station = n ∧ o.presence = .admitting)).foldl State.commitRecord took).reevaluateRoom
             room).retest room)))
   ∧ (∀ (s : State) (o : Occupant) (slot : Nat) (p : Permit), s.permit o.permit = some (slot, p) →
       let deadline := stayDeadline p s.settings.weekdayOffset (s.now / 60)
       s.commitRecord o
         = ({ s with
             pool := s.pool.map (fun x =>
               if x.credential = o.credential then { x with presence := .inside s.now deadline } else x)
             deadlines := insertDeadline ⟨deadline * 60, .stayDeadline o.credential⟩ s.deadlines } : State).put
             { kind := .entry, station := o.station, room := o.room, credential := o.credential, permit := o.permit
               value := .number deadline }))
  ∧ (∀ (s : State) (n : Nat) (silence : Bool) (later : List DoorEvent), s.granted = some .doorLapse →
       s.doorStation = some n → (s.station n).events = .lapse silence :: later →
       let took : State := { s.setStation n { s.station n with events := later } with lastDoor := n }
       let room := (s.station n).room
       let lapsed : State :=
         (s.pool.filter (fun o => o.station = n ∧ o.presence = .admitting)).foldl
           (fun s o => (s.put
             { kind := .lapse, station := o.station, room := o.room, credential := o.credential, permit := o.permit
               reason := if silence then .stationSilent else .releaseExpired }).leave o) took
       let ended : State :=
         match silence, s.groups.find? (fun g => g.station = n) with
         | true, some g =>
           let denied := g.members.foldl (State.denyMember g .stationSilent) lapsed
           { denied with
             deadlines := denied.deadlines.filter (fun e => e.what ≠ .pairing n)
             groups := denied.groups.filter (fun x => x.station ≠ n) }
         | true, none => lapsed
         | false, _ => lapsed
       ((∀ o ∈ s.pool, o.station = n → o.presence ≠ .admitting) → Leaves .doorLapse s ended)
       ∧ ((∃ o ∈ s.pool, o.station = n ∧ o.presence = .admitting) →
           Leaves .doorLapse s ((ended.reevaluateRoom room).retest room)))

/-- R94, R78: a due PAIRING entry ends its group: each member denied in order, the group gone, one DENY placed. R94,
R40: a due STAY_DEADLINE entry raises OVERSTAY and inserts the ESCALATION entry. R94, R41: a due ESCALATION entry raises
the record's overstay level to 2. R94, R39: a due limit entry escalates its room alert from level 1; at another level
nothing but the entry goes. -/
def Obligations.TimerJobs : Prop :=
  (∀ (s : State) (due n : Nat) (rest : List DeadlineEntry) (g : Group), s.granted = some .pairingExpiry →
     s.deadlines = ⟨due, .pairing n⟩ :: rest → s.groups.find? (fun g => g.station = n) = some g →
     let denied := g.members.foldl
       (fun s m => (s.put
         { kind := .deny, station := g.station, room := g.room, credential := m.credential, permit := m.permit
           reason := .pairingTimeout }).offerDecision
         { station := g.station, side := .outside, credential := m.credential, taken := m.joined, decided := s.now
           outcome := .deny, reason := .pairingTimeout, permit := m.permit, room := g.room })
       { s with deadlines := rest }
     Leaves .pairingExpiry s
       (({ denied with groups := s.groups.filter (fun x => x.station ≠ n) } : State).setStation n
         ((s.station n).place .deny .pairingTimeout)))
  ∧ (∀ (s : State) (due c entry deadline : Nat) (rest : List DeadlineEntry) (o : Occupant),
       s.granted = some .stayDeadlineDue → s.deadlines = ⟨due, .stayDeadline c⟩ :: rest → s.recordOf c = some o →
       o.presence = .inside entry deadline →
       Leaves .stayDeadlineDue s
         (((({ s with
             pool := s.pool.map (fun x => if x.credential = c then { x with overstay := .raised } else x)
             deadlines := rest } : State).offer
           (.alert { kind := .overstay, level := .raised, room := o.room, station := o.station, credential := c
                     permit := o.permit })).put
           { kind := .alert, station := o.station, room := o.room, credential := c, permit := o.permit
             reason := .alert .overstay, value := .number 1 }).schedule
           ((deadline + (s.room o.room).grace) * 60) (.escalation c)))
  ∧ (∀ (s : State) (due c : Nat) (rest : List DeadlineEntry) (o : Occupant), s.granted = some .escalationDue →
       s.deadlines = ⟨due, .escalation c⟩ :: rest → s.recordOf c = some o →
       Leaves .escalationDue s
         ((({ s with
             pool := s.pool.map (fun x => if x.credential = c then { x with overstay := .escalated } else x)
             deadlines := rest } : State).offer
           (.alert { kind := .overstay, level := .escalated, room := o.room, station := o.station, credential := c
                     permit := o.permit })).put
           { kind := .alert, station := o.station, room := o.room, credential := c, permit := o.permit
             reason := .alert .overstay, value := .number 2 }))
  ∧ (∀ (s : State) (due n : Nat) (a : RoomAlert) (rest : List DeadlineEntry), s.granted = some .limitDue →
       s.deadlines = ⟨due, a.due n⟩ :: rest →
       (a.level (s.room n) = .raised →
         Leaves .limitDue s
           (((({ s with deadlines := rest } : State).setRoom n (a.setLevel (s.room n) .escalated)).offer
             (.alert { kind := a.kind, level := .escalated, room := n })).put
             { kind := .alert, room := n, reason := .alert a.kind, value := .number 2 }))
       ∧ (a.level (s.room n) ≠ .raised → Leaves .limitDue s { s with deadlines := rest }))

/-- R98: the sweep interval timer counts and expires in RUN toward the interval times 60 and in RESERVE times 120. R174:
after an accepted STANDBY it goes on until the stop, toward the interval of the mode it was accepted in (that interval
is the model's choice: log entry 14); after the stop it neither counts nor expires. R98, R99, R126: an expiry raises the
owed count, saturating at 4. R124 to R126: a SWEEP job retires, in ascending slot order, the expired permits of its
sixteen slots that are not in use, each with its RETIRE record and RETIRED notice; after step 16 the pass completes.
R124: the sixteen steps of a pass visit every slot once. -/
def Obligations.SweepRetiresExpired : Prop :=
  (∀ s : State, s.inReset = false →
     (s.supply.mode ≠ .standby ∨ s.supply.stopPending = true →
       exec .sweepIntervalExpiry s
         = .next
           { s with sweep := { s.sweep with count := 0, owed := if s.sweep.owed < 4 then s.sweep.owed + 1 else 4 } }
       ∧ s.tick.sweep = { s.sweep with count := s.sweep.count + 1 })
     ∧ (s.supply.mode = .standby → s.supply.stopPending = false →
         exec .sweepIntervalExpiry s = .next s ∧ s.tick.sweep = s.sweep)
     ∧ (s.ownSweep = some .sweepIntervalExpiry ↔
         s.supply.mode = .run ∧ s.settings.sweepInterval * 60 ≤ s.sweep.count
           ∨ s.supply.mode = .reserve ∧ s.settings.sweepInterval * 120 ≤ s.sweep.count
           ∨ s.supply.mode = .standby ∧ s.supply.stopPending = true
               ∧ (if s.supply.fromReserve then s.settings.sweepInterval * 120 else s.settings.sweepInterval * 60)
                   ≤ s.sweep.count))
  ∧ (∀ s : State, s.granted = some .sweepStep → s.PermitsSound →
       let k := s.sweep.position
       let retires (e : Nat × Permit) : Bool :=
         decide (16 * (k - 1) ≤ e.1 ∧ e.1 < 16 * k ∧ e.2.validUntil ≤ s.nowMinute ∧ s.inUse e.2.number = 0)
       let told := (s.permits.filter retires).foldl
         (fun s e => (s.put
           { kind := .retire, credential := e.2.credential, permit := e.2.number, reason := .expired
             value := .number e.2.validUntil }).offer (.retired e.2.number e.2.credential e.1)) s
       Leaves .sweepStep s
         { told with
           permits := s.permits.filter (fun e => !retires e)
           sweep :=
             if k < 16 then { s.sweep with position := k + 1 }
             else { s.sweep with position := 1, owed := s.sweep.owed - 1 } })
  ∧ (∀ (s : State) (e : Nat × Permit), s.PermitsSound → e ∈ s.permits → e.2.validUntil ≤ s.nowMinute →
       s.inUse e.2.number = 0 →
       ∃ k, 1 ≤ k ∧ k ≤ 16 ∧ e ∈ s.toRetire k ∧ ∀ j, 1 ≤ j → e ∈ s.toRetire j → j = k)

/-! ### The entry and exit decisions (chapters 3 and 4) -/

/-- R48, R140: the placement of a verdict in a station's slot, with its toggle. R45, R49, R63, R64: what every decision
with a verdict leaves: the verdict placed, the last presentation written, its record handed, then its DECISION notice
while that setting is on. R47: the class of each reason. -/
def Obligations.VerdictsPlaced : Prop :=
  (∀ (st : Station) (outcome : VerdictOutcome) (reason : Reason),
     let seconds := if outcome = .release then st.releaseTime else 0
     (st.verdict = none →
       st.place outcome reason = { st with verdict := some ⟨outcome, reason, seconds, st.verdictToggle, false⟩ })
     ∧ (∀ old, st.verdict = some old → old.outcome = .release → outcome ≠ .release → st.place outcome reason = st)
     ∧ (∀ old, st.verdict = some old → (old.outcome ≠ .release ∨ outcome = .release) → old.sent = false →
         st.place outcome reason = { st with verdict := some ⟨outcome, reason, seconds, old.toggle, false⟩ })
     ∧ (∀ old, st.verdict = some old → (old.outcome ≠ .release ∨ outcome = .release) → old.sent = true →
         st.place outcome reason
           = { st with
               verdictToggle := !st.verdictToggle
               verdict := some ⟨outcome, reason, seconds, !st.verdictToggle, false⟩ }))
  ∧ (∀ (s : State) (p : Presentation) (outcome : VerdictOutcome) (reason : Reason) (permit : Nat) (record : TrailRecord),
       1 ≤ p.station → p.station ≤ s.stations.length →
       let st := s.station p.station
       let recorded := (s.setStation p.station
         { st.place outcome reason with last := some ⟨p.side, p.credential, p.taken, outcome, reason⟩ }).put record
       s.conclude p outcome reason permit record
         = if s.settings.decisionNotices then
             recorded.offer (.decision
               { station := p.station, side := p.side, credential := p.credential, taken := p.taken, decided := s.now
                 outcome := outcome, reason := reason, permit := permit, room := st.room })
           else recorded)
  ∧ (∀ p ∈ [([Reason.granted, .repeated, .groupComplete], ReasonClass.proceed), ([.exit], .exit)
           , ([.awaitPartner, .awaitEscort, .groupFull, .pairingFull, .pairingTimeout], .partner)
           , ([.clockUnset, .stationBarred, .stationSilent, .trailFull], .system)
           , ([.revoked, .passback, .noPermit, .roomNotPermitted, .suspended, .notYetValid, .expired, .outsideHours
               , .allowanceSpent, .tooLate], .card)
           , ([.roomClosed, .roomFull, .occupancyFull], .room)],
       ∀ r ∈ p.1, r.cls = p.2)

/-- R56: the checks of one permit in rank order. R46, R50 to R58: the refusals before the room checks, each with its
reason and the permit it names, in their order; of the permit failures the highest rank, of the lowest-numbered permit
that has it. -/
def Obligations.EntryRefusedBeforeRoom : Prop :=
  (∀ (s : State) (n : Nat) (p : Permit),
     let late := stayDeadline p s.settings.weekdayOffset s.nowMinute < s.nowMinute + (s.room n).minStay
     let out := occurrence p.window s.settings.weekdayOffset s.nowMinute = .outside
     s.failure n p =
       if n ∉ p.rooms then some (1, .roomNotPermitted)
       else if p.status = .suspended then some (2, .suspended)
       else if s.nowMinute < p.validFrom then some (3, .notYetValid)
       else if p.validUntil ≤ s.nowMinute then some (3, .expired)
       else if out then some (4, .outsideHours)
       else if p.allowance = some 0 then some (5, .allowanceSpent)
       else if late then some (6, .tooLate)
       else none)
  ∧ (∀ (s : State) (p : Presentation) (rest : List Presentation), s.granted = some .entryDecision →
       s.presentations = p :: rest →
       let st := s.station p.station
       let popped : State := { s with presentations := rest }
       let denied (reason : Reason) (permit value : Nat) : Prop :=
         Leaves .entryDecision s
           (popped.conclude p .deny reason permit
             { kind := .deny, station := p.station, room := st.room, credential := p.credential, permit := permit
               reason := reason, value := .number value })
       (st.link = .silent →
         Leaves .entryDecision s
           (((popped.setStation p.station
               { st with last := some ⟨p.side, p.credential, p.taken, .deny, .stationSilent⟩ }).put
             { kind := .deny, station := p.station, room := st.room, credential := p.credential
               reason := .stationSilent }).offerDecision
             { station := p.station, side := .outside, credential := p.credential, taken := p.taken, decided := s.now
               outcome := .deny, reason := .stationSilent, permit := 0, room := st.room }))
       ∧ (st.link = .online → s.clock.unset = true → denied .clockUnset 0 0)
       ∧ (st.link = .online → s.clock.unset = false → st.channel = .barred → denied .stationBarred 0 0)
       ∧ (st.link = .online → s.clock.unset = false → st.channel ≠ .barred → p.credential ∈ s.revoked →
           denied .revoked 0 0)
       ∧ (st.link = .online → s.clock.unset = false → st.channel ≠ .barred → p.credential ∉ s.revoked →
           (∀ o, s.recordOf p.credential = some o → o.presence ≠ .admitting ∨ o.station ≠ p.station →
             denied .passback o.permit 0)
           ∧ (∀ g m, s.recordOf p.credential = none → s.membershipOf p.credential = some (g, m) → g.station ≠ p.station →
               denied .passback m.permit 0)
           ∧ (s.recordOf p.credential = none → s.membershipOf p.credential = none →
               ((∀ e ∈ s.permits, e.2.credential ≠ p.credential) → denied .noPermit 0 0)
               ∧ ((∃ e ∈ s.permits, e.2.credential = p.credential) →
                   (∀ e ∈ s.permits, e.2.credential = p.credential → s.failure st.room e.2 ≠ none) →
                   ∃ e ∈ s.permits, ∃ rank reason, e.2.credential = p.credential
                     ∧ s.failure st.room e.2 = some (rank, reason)
                     ∧ (∀ x ∈ s.permits, x.2.credential = p.credential → ∃ rank' reason',
                         s.failure st.room x.2 = some (rank', reason') ∧ rank' ≤ rank
                           ∧ (rank' = rank → e.2.number ≤ x.2.number))
                     ∧ denied reason e.2.number
                         (if reason = .tooLate then stayDeadline e.2 s.settings.weekdayOffset s.nowMinute else 0)))))

/-- R59, R60, R62: the refusals of the room checks and of the group checks, with the chosen permit. -/
def Obligations.EntryRefusedByRoom : Prop :=
  ∀ (s : State) (p : Presentation) (rest : List Presentation) (q : Permit), s.granted = some .entryDecision →
    s.presentations = p :: rest → s.EntryChooses p q →
    let n := (s.station p.station).room
    let denied (reason : Reason) : Prop :=
      Leaves .entryDecision s
        (({ s with presentations := rest } : State).conclude p .deny reason q.number
          { kind := .deny, station := p.station, room := n, credential := p.credential, permit := q.number
            reason := reason })
    let alone := requirementTest (s.room n) ((s.occupants n).map Occupant.person
      ++ [⟨q.role, q.role == .worker && ((s.room n).mode == .escortedOnly || q.needsEscort)⟩])
    ((s.room n).mode = .closed → denied .roomClosed)
    ∧ ((s.room n).mode ≠ .closed → (s.room n).strict = true → s.trail.filling = none → denied .trailFull)
    ∧ ((s.room n).mode ≠ .closed → ((s.room n).strict = true → s.trail.filling ≠ none) →
        ((s.room n).capacity < (s.occupants n).length + s.reserved n + 1 → denied .roomFull)
        ∧ ((s.occupants n).length + s.reserved n + 1 ≤ (s.room n).capacity →
            48 < s.pool.length + s.members.length + 1 → denied .occupancyFull))
    ∧ (s.RoomAdmits n →
        (∀ g, s.groupAt p.station = some g → 4 ≤ g.members.length → denied .groupFull)
        ∧ (s.groupAt p.station = none → alone = false → 8 ≤ s.groups.length → denied .pairingFull))

/-- R61, R30, R53, R54: a direct grant creates the ADMITTING record at the end of the list; a repeat tap and a member's
re-tap change no table. -/
def Obligations.EntryGrantedOrRepeated : Prop :=
  ∀ (s : State) (p : Presentation) (rest : List Presentation), s.granted = some .entryDecision →
    s.presentations = p :: rest →
    let n := (s.station p.station).room
    let popped : State := { s with presentations := rest }
    (∀ q, s.EntryChooses p q → s.RoomAdmits n → s.groupAt p.station = none →
      let needs := q.role == .worker && ((s.room n).mode == .escortedOnly || q.needsEscort)
      requirementTest (s.room n) ((s.occupants n).map Occupant.person ++ [⟨q.role, needs⟩]) = true →
      Leaves .entryDecision s
        (((({ popped with
            pool := s.pool ++
              [{ credential := p.credential, permit := q.number, role := q.role, needsEscort := needs, room := n
                 station := p.station, presence := .admitting, overstay := .clear, revokedInside := false }] } :
            State).conclude p .release .granted q.number
          { kind := .grant, station := p.station, room := n, credential := p.credential, permit := q.number
            reason := .granted
            value := .number (stayDeadline q s.settings.weekdayOffset s.nowMinute) }).reevaluateRoom n).retest n))
    ∧ ((s.station p.station).link = .online → s.clock.unset = false → (s.station p.station).channel ≠ .barred →
        p.credential ∉ s.revoked →
        (∀ o, s.recordOf p.credential = some o → o.presence = .admitting → o.station = p.station →
          Leaves .entryDecision s
            (popped.conclude p .release .repeated o.permit
              { kind := .repeated, station := p.station, room := n, credential := p.credential, permit := o.permit
                reason := .repeated, value := .number 0 }))
        ∧ (∀ g m, s.recordOf p.credential = none → s.membershipOf p.credential = some (g, m) →
            g.station = p.station →
            Leaves .entryDecision s
              (popped.conclude p .wait
                (if (s.room g.room).cls = .twoPerson ∧ (s.occupants g.room).length + g.members.length ≤ 1
                  then .awaitPartner else .awaitEscort) m.permit
                { kind := .repeated, station := p.station, room := n, credential := p.credential, permit := m.permit
                  reason := .repeated, value := .number 2 })))

/-- R62, R72 to R77: a presenter who must wait founds a group or joins the one at his station; a join that passes the
completion test completes it. R76, R77: a completion: the PAIRING entry and the group gone, one ADMITTING record for
each member in order at the end of the list, one RELEASE placed; then for each member in order its GROUP_GRANT record,
with the number of members as value, and its DECISION notice while that setting is on; then the room's alerts
re-evaluated. Every entry of the deadline queue but the PAIRING entry and the room's own limit entries stays. -/
def Obligations.EntryFoundsOrJoins : Prop :=
  (∀ (s : State) (p : Presentation) (rest : List Presentation) (q : Permit), s.granted = some .entryDecision →
     s.presentations = p :: rest → s.EntryChooses p q → s.RoomAdmits (s.station p.station).room →
     let n := (s.station p.station).room
     let popped : State := { s with presentations := rest }
     let member : Member :=
       { credential := p.credential, permit := q.number, role := q.role, joined := s.now
         needsEscort := q.role == .worker && ((s.room n).mode == .escortedOnly || q.needsEscort) }
     let waits (s' : State) (room : Nat) (members : List Member) : Prop :=
       let reason : Reason :=
         if (s.room room).cls = .twoPerson ∧ (s.occupants room).length + members.length ≤ 1 then .awaitPartner
         else .awaitEscort
       Leaves .entryDecision s
         (s'.conclude p .wait reason q.number
           { kind := .wait, station := p.station, room := n, credential := p.credential, permit := q.number
             reason := reason, value := .number members.length })
     (s.groupAt p.station = none →
       requirementTest (s.room n) ((s.occupants n).map Occupant.person ++ [member.person]) = false →
       s.groups.length ≤ 7 →
       waits
         { popped with
           groups := insertGroup ⟨p.station, n, [member], s.now + (s.room n).pairingWindow⟩ s.groups
           deadlines := insertDeadline ⟨s.now + (s.room n).pairingWindow, .pairing p.station⟩ s.deadlines }
         n [member])
     ∧ (∀ g, s.groupAt p.station = some g → g.members.length ≤ 3 →
         let joined : Group := { g with members := g.members ++ [member] }
         let grown : State :=
           { popped with
             groups := s.groups.map (fun x => if x.station = p.station then { x with members := joined.members } else x) }
         let test := requirementTest (s.room g.room)
           ((s.occupants g.room).map Occupant.person ++ joined.members.map Member.person)
         (test = false → waits grown g.room joined.members)
         ∧ (test = true →
             Leaves .entryDecision s
               (((grown.completeGroup joined (some (p.credential, p.taken))).setLast p .release .groupComplete).retest
                 g.room))))
  ∧ (∀ (s : State) (g : Group) (tap : Option (Nat × Nat)),
       let t := s.completeGroup g tap
       let admitted : State :=
         { s with
           pool := s.pool ++ g.members.map (fun m =>
             { credential := m.credential, permit := m.permit, role := m.role, needsEscort := m.needsEscort
               room := g.room, station := g.station, presence := .admitting, overstay := .clear
               revokedInside := false })
           groups := s.groups.filter (fun x => x.station ≠ g.station)
           deadlines := s.deadlines.filter (fun e => e.what ≠ .pairing g.station) }
       let told (s' : State) (m : Member) : State :=
         (s'.put
           { kind := .groupGrant, station := g.station, room := g.room, credential := m.credential, permit := m.permit
             reason := .groupComplete, value := .number g.members.length }).offerDecision
           { station := g.station, side := .outside, credential := m.credential, decided := s.now, outcome := .release
             taken := (match tap with
               | some (presenter, taken) => if presenter = m.credential then taken else m.joined
               | none => m.joined)
             reason := .groupComplete, permit := m.permit, room := g.room }
       t = (g.members.foldl told
             (admitted.setStation g.station ((s.station g.station).place .release .groupComplete))).reevaluateRoom g.room
       ∧ t.pool = admitted.pool ∧ t.groups = admitted.groups ∧ t.permits = s.permits
       ∧ (1 ≤ g.station → g.station ≤ s.stations.length →
           t.station g.station = (s.station g.station).place .release .groupComplete)
       ∧ (∀ e : DeadlineEntry, e.what ≠ .loneLimit g.room → e.what ≠ .unescortedLimit g.room →
           (e ∈ t.deadlines ↔ e ∈ s.deadlines ∧ e.what ≠ .pairing g.station)))

/-- R46, R65 to R67: an exit is released whatever the channel, clock and trail; the matching record of the room is
removed, debited when INSIDE; a SILENT station gets no verdict. -/
def Obligations.ExitReleasesAndRemoves : Prop :=
  ∀ (s : State) (p : Presentation) (rest : List Presentation), s.granted = some .exitDecision →
    s.presentations = p :: rest →
    let st := s.station p.station
    let popped : State := { s with presentations := rest }
    let notice (outcome : VerdictOutcome) (reason : Reason) (permit : Nat) : DecisionNotice :=
      { station := p.station, side := .inside, credential := p.credential, taken := p.taken, decided := s.now
        outcome := outcome, reason := reason, permit := permit, room := st.room }
    let unmatched (reason : Reason) : TrailRecord :=
      { kind := .exitUnmatched, station := p.station, room := st.room, credential := p.credential, reason := reason }
    let released : State := popped.setStation p.station
      { st.place .release .exit with last := some ⟨p.side, p.credential, p.taken, .release, .exit⟩ }
    (st.link = .silent →
      Leaves .exitDecision s
        (((popped.setStation p.station
            { st with last := some ⟨p.side, p.credential, p.taken, .deny, .stationSilent⟩ }).put
          (unmatched .stationSilent)).offerDecision (notice .deny .stationSilent 0)))
    ∧ (st.link = .online → 1 ≤ p.station → p.station ≤ s.stations.length →
        ((∀ o ∈ s.pool, o.room = st.room → o.credential ≠ p.credential) →
          Leaves .exitDecision s ((released.put (unmatched .exit)).offerDecision (notice .release .exit 0)))
        ∧ (∀ o entry deadline, (s.occupants st.room).find? (fun o => o.credential = p.credential) = some o →
            o.presence = .inside entry deadline →
            let reported : Nat :=
              match s.permit o.permit with
              | some (_, q) => if q.allowance = none then 0 else min 65535 (debitMinutes entry s.now)
              | none => 0
            let debited : State :=
              { released with
                permits := s.permits.map (fun e =>
                  if e.2.number = o.permit then
                    (e.1, { e.2 with allowance := e.2.allowance.map (fun a => a - debitMinutes entry s.now) })
                  else e) }
            Leaves .exitDecision s
              (((((debited.put
                { kind := .exit, station := p.station, room := st.room, credential := p.credential, permit := o.permit
                  reason := .exit, value := .number reported }).offerDecision
                (notice .release .exit o.permit)).leave o).reevaluateRoom st.room).retest st.room))
        ∧ (∀ o, (s.occupants st.room).find? (fun o => o.credential = p.credential) = some o →
            o.presence = .admitting →
            Leaves .exitDecision s
              (((((released.put
                { kind := .lapse, station := o.station, room := st.room, credential := p.credential, permit := o.permit
                  reason := .earlyExit }).offerDecision
                (notice .release .exit o.permit)).leave o).reevaluateRoom st.room).retest st.room)))

/-! ### Stay accounting (chapter 6) -/

/-- R101. R102. R103. -/
def Obligations.OccurrenceTestCases : Prop :=
  (∀ (w : Window) (offset minute : Nat), w.fromMinute < w.toMinute →
     let d := minute / 1440
     let m := minute % 1440
     occurrence (some w) offset minute =
       if w.fromMinute ≤ m ∧ m < w.toMinute ∧ w.mask.getLsbD ((d + offset) % 7) = true then
         .inside (some (d * 1440 + w.toMinute))
       else .outside)
  ∧ (∀ (w : Window) (offset minute : Nat), w.toMinute < w.fromMinute →
       let d := minute / 1440
       let m := minute % 1440
       occurrence (some w) offset minute =
         if w.fromMinute ≤ m ∧ w.mask.getLsbD ((d + offset) % 7) = true then
           .inside (some ((d + 1) * 1440 + w.toMinute))
         else if m < w.toMinute ∧ 1 ≤ d ∧ w.mask.getLsbD ((d - 1 + offset) % 7) = true then
           .inside (some (d * 1440 + w.toMinute))
         else .outside)
  ∧ (∀ (w : Window) (offset minute : Nat), w.fromMinute = w.toMinute →
       let d := minute / 1440
       let named (day : Nat) : Prop := w.mask.getLsbD ((day + offset) % 7) = true
       (¬ named d → occurrence (some w) offset minute = .outside)
       ∧ ((∀ i, i < 7 → w.mask.getLsbD i = true) → occurrence (some w) offset minute = .inside none)
       ∧ (named d → (∃ i, i < 7 ∧ w.mask.getLsbD i = false) →
           ∃ k, 1 ≤ k ∧ k ≤ 6 ∧ ¬ named (d + k) ∧ (∀ j, 1 ≤ j → j < k → named (d + j))
             ∧ occurrence (some w) offset minute = .inside (some ((d + k) * 1440))))

/-- R100 to R103: the end of an occurrence is where its run of inside minutes ends: every minute from the tested one up
to the end is inside with the same end, and the end itself is outside. -/
def Obligations.OccurrenceEndEndsRun : Prop :=
  ∀ (w : Window) (offset minute fin : Nat), w.fromMinute ≤ 1439 → w.toMinute ≤ 1439 →
    occurrence (some w) offset minute = .inside (some fin) →
    minute < fin ∧ (∀ later, minute ≤ later → later < fin → occurrence (some w) offset later = .inside (some fin))
      ∧ occurrence (some w) offset fin = .outside

/-- R104: the stay deadline is the least of its bounds, capped at the last estate minute. R57: the provisional deadline
of a permit that passes ranks 1 to 5 is not before the now minute, so that a room with min stay 0 fails no permit at
rank 6. R113, R114: the debit of a stay: at least one minute, and every started minute after the first. -/
def Obligations.StayDeadlineAndDebit : Prop :=
  (∀ (p : Permit) (offset e : Nat),
     let bounds : List Nat := [94371839, e + p.maxStay, p.validUntil]
       ++ (match occurrence p.window offset e with | .inside (some fin) => [fin] | .inside none => [] | .outside => [])
       ++ (match p.allowance with | some a => [e + a] | none => [])
     stayDeadline p offset e ∈ bounds ∧ ∀ b ∈ bounds, stayDeadline p offset e ≤ b)
  ∧ (∀ (s : State) (n : Nat) (p : Permit), s.clock.Sound → p.Sound →
       (s.failure n p = none ∨ s.failure n p = some (6, .tooLate)) →
       s.nowMinute ≤ stayDeadline p s.settings.weekdayOffset s.nowMinute
         ∧ ((s.room n).minStay = 0 → s.failure n p = none))
  ∧ (∀ entry now : Nat,
       1 ≤ debitMinutes entry now ∧ (now ≤ entry + 60 → debitMinutes entry now = 1)
         ∧ (entry + 60 < now →
             now ≤ entry + 60 * debitMinutes entry now ∧ entry + 60 * (debitMinutes entry now - 1) < now))

/-! ### What holds at all times -/

/-- The state after reset is sound. -/
def Obligations.ResetIsSound : Prop :=
  State.reset.CountersSound ∧ State.reset.TablesSound ∧ State.reset.StationsSound ∧ State.reset.PersonsSound
    ∧ State.reset.AlertsAgree ∧ State.reset.WithinCapacity ∧ State.reset.ReferencesSound
    ∧ State.reset.AdmittingAwaited ∧ State.reset.StandbyEmpty

/-- R84, R87, R92, R99, R124, R150, R154, R163 to R166: every step keeps the bounds of the clock, the trail, the host
line and the sweep, and the ascending order of the deadline queue. -/
def Obligations.StepKeepsCountersSound : Prop :=
  ∀ s t : State, s.CountersSound → step s = .next t → t.CountersSound

/-- R1 to R4, R16, R22, R128, R139, R170: every step keeps the bounds of the tables, the stations and the presentation
queue. -/
def Obligations.StepKeepsTablesSound : Prop :=
  ∀ s t : State, s.TablesSound → s.StationsSound → step s = .next t → t.TablesSound ∧ t.StationsSound

/-- R28, R53, R70: every step keeps each credential in one place at most, each group and ADMITTING record at its
station's room, and the capacities. -/
def Obligations.StepKeepsPersonsSound : Prop :=
  ∀ s t : State, s.TablesSound → s.StationsSound → s.PersonsSound → s.WithinCapacity → step s = .next t →
    t.PersonsSound ∧ t.WithinCapacity

/-- R37, R38: every step keeps both alerts of every room in agreement with its list. -/
def Obligations.StepKeepsAlertsAgreeing : Prop :=
  ∀ s t : State, s.TablesSound → s.StationsSound → s.PersonsSound → s.AlertsAgree → step s = .next t → t.AlertsAgree

/-- R5, R70, R86, R92, R94: every step keeps each record and member at a permit of its credential, at most 8 groups, and
a deadline queue in which nothing is named twice and each entry names a record, a group or an alert that stands; and
while the clock is UNSET it keeps pool, groups and queue empty. So the in-use count of a permit is 0 or 1, and the queue
holds at most 80 entries. -/
def Obligations.StepKeepsReferencesSound : Prop :=
  ∀ s t : State, s.TablesSound → s.StationsSound → s.PersonsSound → s.WithinCapacity → s.ReferencesSound →
    step s = .next t → t.ReferencesSound ∧ (∀ n, t.inUse n ≤ 1) ∧ t.deadlines.length ≤ 80

/-- R48, R148: every step keeps the station of each ADMITTING record, while the part is not held in reset, with an
undelivered RELEASE, the door RELEASED, or a pending door event. R123, R171, R174: and in STANDBY keeps the pool, the
groups and the presentation queue empty and no request to serve, and from the stop on (R98) the receiver hunting and the
sweep interval timer at 0; a stop is still to come only in STANDBY. -/
def Obligations.StepKeepsAdmittingAwaited : Prop :=
  ∀ s t : State, s.TablesSound → s.StationsSound → s.PersonsSound → s.AdmittingAwaited → s.StandbyEmpty →
    step s = .next t → t.AdmittingAwaited ∧ t.StandbyEmpty
end

