-- ==== Sys2Proof/Laws/State.lean ====
section
/-! SUPPORT. The fields each named update leaves: one lemma per field per plain update, true by `rfl`, and one frame per
operation built of them. Proofs cite these in place of unfolding a record update. -/
namespace Sys2Proof.Machine
variable (s : State)

/-! #### setRoom -/

@[simp] theorem State.setRoom_clock (n : Nat) (r : Room) : (s.setRoom n r).clock = s.clock := rfl
@[simp] theorem State.setRoom_settings (n : Nat) (r : Room) : (s.setRoom n r).settings = s.settings := rfl
@[simp] theorem State.setRoom_permits (n : Nat) (r : Room) : (s.setRoom n r).permits = s.permits := rfl
@[simp] theorem State.setRoom_revoked (n : Nat) (r : Room) : (s.setRoom n r).revoked = s.revoked := rfl
@[simp] theorem State.setRoom_rooms (n : Nat) (r : Room) : (s.setRoom n r).rooms = setNth s.rooms n r := rfl
@[simp] theorem State.setRoom_pool (n : Nat) (r : Room) : (s.setRoom n r).pool = s.pool := rfl
@[simp] theorem State.setRoom_groups (n : Nat) (r : Room) : (s.setRoom n r).groups = s.groups := rfl
@[simp] theorem State.setRoom_deadlines (n : Nat) (r : Room) : (s.setRoom n r).deadlines = s.deadlines := rfl
@[simp] theorem State.setRoom_presentations (n : Nat) (r : Room) :
    (s.setRoom n r).presentations = s.presentations := rfl
@[simp] theorem State.setRoom_stations (n : Nat) (r : Room) : (s.setRoom n r).stations = s.stations := rfl
@[simp] theorem State.setRoom_line (n : Nat) (r : Room) : (s.setRoom n r).line = s.line := rfl
@[simp] theorem State.setRoom_trail (n : Nat) (r : Room) : (s.setRoom n r).trail = s.trail := rfl
@[simp] theorem State.setRoom_host (n : Nat) (r : Room) : (s.setRoom n r).host = s.host := rfl
@[simp] theorem State.setRoom_sweep (n : Nat) (r : Room) : (s.setRoom n r).sweep = s.sweep := rfl
@[simp] theorem State.setRoom_supply (n : Nat) (r : Room) : (s.setRoom n r).supply = s.supply := rfl
@[simp] theorem State.setRoom_lastDoor (n : Nat) (r : Room) : (s.setRoom n r).lastDoor = s.lastDoor := rfl
@[simp] theorem State.setRoom_pending (n : Nat) (r : Room) : (s.setRoom n r).pending = s.pending := rfl

/-! #### setStation -/

@[simp] theorem State.setStation_clock (n : Nat) (st : Station) : (s.setStation n st).clock = s.clock := rfl
@[simp] theorem State.setStation_settings (n : Nat) (st : Station) : (s.setStation n st).settings = s.settings := rfl
@[simp] theorem State.setStation_permits (n : Nat) (st : Station) : (s.setStation n st).permits = s.permits := rfl
@[simp] theorem State.setStation_revoked (n : Nat) (st : Station) : (s.setStation n st).revoked = s.revoked := rfl
@[simp] theorem State.setStation_rooms (n : Nat) (st : Station) : (s.setStation n st).rooms = s.rooms := rfl
@[simp] theorem State.setStation_pool (n : Nat) (st : Station) : (s.setStation n st).pool = s.pool := rfl
@[simp] theorem State.setStation_groups (n : Nat) (st : Station) : (s.setStation n st).groups = s.groups := rfl
@[simp] theorem State.setStation_deadlines (n : Nat) (st : Station) : (s.setStation n st).deadlines = s.deadlines := rfl
@[simp] theorem State.setStation_presentations (n : Nat) (st : Station) :
    (s.setStation n st).presentations = s.presentations := rfl
@[simp] theorem State.setStation_stations (n : Nat) (st : Station) :
    (s.setStation n st).stations = setNth s.stations n st := rfl
@[simp] theorem State.setStation_line (n : Nat) (st : Station) : (s.setStation n st).line = s.line := rfl
@[simp] theorem State.setStation_trail (n : Nat) (st : Station) : (s.setStation n st).trail = s.trail := rfl
@[simp] theorem State.setStation_host (n : Nat) (st : Station) : (s.setStation n st).host = s.host := rfl
@[simp] theorem State.setStation_sweep (n : Nat) (st : Station) : (s.setStation n st).sweep = s.sweep := rfl
@[simp] theorem State.setStation_supply (n : Nat) (st : Station) : (s.setStation n st).supply = s.supply := rfl
@[simp] theorem State.setStation_lastDoor (n : Nat) (st : Station) : (s.setStation n st).lastDoor = s.lastDoor := rfl
@[simp] theorem State.setStation_pending (n : Nat) (st : Station) : (s.setStation n st).pending = s.pending := rfl

/-! #### schedule -/

@[simp] theorem State.schedule_clock (due : Nat) (what : Due) : (s.schedule due what).clock = s.clock := rfl
@[simp] theorem State.schedule_settings (due : Nat) (what : Due) : (s.schedule due what).settings = s.settings := rfl
@[simp] theorem State.schedule_permits (due : Nat) (what : Due) : (s.schedule due what).permits = s.permits := rfl
@[simp] theorem State.schedule_revoked (due : Nat) (what : Due) : (s.schedule due what).revoked = s.revoked := rfl
@[simp] theorem State.schedule_rooms (due : Nat) (what : Due) : (s.schedule due what).rooms = s.rooms := rfl
@[simp] theorem State.schedule_pool (due : Nat) (what : Due) : (s.schedule due what).pool = s.pool := rfl
@[simp] theorem State.schedule_groups (due : Nat) (what : Due) : (s.schedule due what).groups = s.groups := rfl
@[simp] theorem State.schedule_deadlines (due : Nat) (what : Due) :
    (s.schedule due what).deadlines = insertDeadline ⟨due, what⟩ s.deadlines := rfl
@[simp] theorem State.schedule_presentations (due : Nat) (what : Due) :
    (s.schedule due what).presentations = s.presentations := rfl
@[simp] theorem State.schedule_stations (due : Nat) (what : Due) : (s.schedule due what).stations = s.stations := rfl
@[simp] theorem State.schedule_line (due : Nat) (what : Due) : (s.schedule due what).line = s.line := rfl
@[simp] theorem State.schedule_trail (due : Nat) (what : Due) : (s.schedule due what).trail = s.trail := rfl
@[simp] theorem State.schedule_host (due : Nat) (what : Due) : (s.schedule due what).host = s.host := rfl
@[simp] theorem State.schedule_sweep (due : Nat) (what : Due) : (s.schedule due what).sweep = s.sweep := rfl
@[simp] theorem State.schedule_supply (due : Nat) (what : Due) : (s.schedule due what).supply = s.supply := rfl
@[simp] theorem State.schedule_lastDoor (due : Nat) (what : Due) : (s.schedule due what).lastDoor = s.lastDoor := rfl
@[simp] theorem State.schedule_pending (due : Nat) (what : Due) : (s.schedule due what).pending = s.pending := rfl

/-! #### unschedule -/

@[simp] theorem State.unschedule_clock (what : Due) : (s.unschedule what).clock = s.clock := rfl
@[simp] theorem State.unschedule_settings (what : Due) : (s.unschedule what).settings = s.settings := rfl
@[simp] theorem State.unschedule_permits (what : Due) : (s.unschedule what).permits = s.permits := rfl
@[simp] theorem State.unschedule_revoked (what : Due) : (s.unschedule what).revoked = s.revoked := rfl
@[simp] theorem State.unschedule_rooms (what : Due) : (s.unschedule what).rooms = s.rooms := rfl
@[simp] theorem State.unschedule_pool (what : Due) : (s.unschedule what).pool = s.pool := rfl
@[simp] theorem State.unschedule_groups (what : Due) : (s.unschedule what).groups = s.groups := rfl
@[simp] theorem State.unschedule_deadlines (what : Due) :
    (s.unschedule what).deadlines = s.deadlines.filter (fun e => e.what ≠ what) := rfl
@[simp] theorem State.unschedule_presentations (what : Due) : (s.unschedule what).presentations = s.presentations := rfl
@[simp] theorem State.unschedule_stations (what : Due) : (s.unschedule what).stations = s.stations := rfl
@[simp] theorem State.unschedule_line (what : Due) : (s.unschedule what).line = s.line := rfl
@[simp] theorem State.unschedule_trail (what : Due) : (s.unschedule what).trail = s.trail := rfl
@[simp] theorem State.unschedule_host (what : Due) : (s.unschedule what).host = s.host := rfl
@[simp] theorem State.unschedule_sweep (what : Due) : (s.unschedule what).sweep = s.sweep := rfl
@[simp] theorem State.unschedule_supply (what : Due) : (s.unschedule what).supply = s.supply := rfl
@[simp] theorem State.unschedule_lastDoor (what : Due) : (s.unschedule what).lastDoor = s.lastDoor := rfl
@[simp] theorem State.unschedule_pending (what : Due) : (s.unschedule what).pending = s.pending := rfl

/-! #### updateRecord -/

@[simp] theorem State.updateRecord_clock (c : Nat) (f : Occupant → Occupant) :
    (s.updateRecord c f).clock = s.clock := rfl
@[simp] theorem State.updateRecord_settings (c : Nat) (f : Occupant → Occupant) :
    (s.updateRecord c f).settings = s.settings := rfl
@[simp] theorem State.updateRecord_permits (c : Nat) (f : Occupant → Occupant) :
    (s.updateRecord c f).permits = s.permits := rfl
@[simp] theorem State.updateRecord_revoked (c : Nat) (f : Occupant → Occupant) :
    (s.updateRecord c f).revoked = s.revoked := rfl
@[simp] theorem State.updateRecord_rooms (c : Nat) (f : Occupant → Occupant) :
    (s.updateRecord c f).rooms = s.rooms := rfl
@[simp] theorem State.updateRecord_pool (c : Nat) (f : Occupant → Occupant) :
    (s.updateRecord c f).pool = s.pool.map (fun o => if o.credential = c then f o else o) := rfl
@[simp] theorem State.updateRecord_groups (c : Nat) (f : Occupant → Occupant) :
    (s.updateRecord c f).groups = s.groups := rfl
@[simp] theorem State.updateRecord_deadlines (c : Nat) (f : Occupant → Occupant) :
    (s.updateRecord c f).deadlines = s.deadlines := rfl
@[simp] theorem State.updateRecord_presentations (c : Nat) (f : Occupant → Occupant) :
    (s.updateRecord c f).presentations = s.presentations := rfl
@[simp] theorem State.updateRecord_stations (c : Nat) (f : Occupant → Occupant) :
    (s.updateRecord c f).stations = s.stations := rfl
@[simp] theorem State.updateRecord_line (c : Nat) (f : Occupant → Occupant) : (s.updateRecord c f).line = s.line := rfl
@[simp] theorem State.updateRecord_trail (c : Nat) (f : Occupant → Occupant) :
    (s.updateRecord c f).trail = s.trail := rfl
@[simp] theorem State.updateRecord_host (c : Nat) (f : Occupant → Occupant) : (s.updateRecord c f).host = s.host := rfl
@[simp] theorem State.updateRecord_sweep (c : Nat) (f : Occupant → Occupant) :
    (s.updateRecord c f).sweep = s.sweep := rfl
@[simp] theorem State.updateRecord_supply (c : Nat) (f : Occupant → Occupant) :
    (s.updateRecord c f).supply = s.supply := rfl
@[simp] theorem State.updateRecord_lastDoor (c : Nat) (f : Occupant → Occupant) :
    (s.updateRecord c f).lastDoor = s.lastDoor := rfl
@[simp] theorem State.updateRecord_pending (c : Nat) (f : Occupant → Occupant) :
    (s.updateRecord c f).pending = s.pending := rfl

/-! #### updatePermit -/

@[simp] theorem State.updatePermit_clock (n : Nat) (f : Permit → Permit) : (s.updatePermit n f).clock = s.clock := rfl
@[simp] theorem State.updatePermit_settings (n : Nat) (f : Permit → Permit) :
    (s.updatePermit n f).settings = s.settings := rfl
@[simp] theorem State.updatePermit_permits (n : Nat) (f : Permit → Permit) :
    (s.updatePermit n f).permits = s.permits.map (fun e => if e.2.number = n then (e.1, f e.2) else e) := rfl
@[simp] theorem State.updatePermit_revoked (n : Nat) (f : Permit → Permit) :
    (s.updatePermit n f).revoked = s.revoked := rfl
@[simp] theorem State.updatePermit_rooms (n : Nat) (f : Permit → Permit) : (s.updatePermit n f).rooms = s.rooms := rfl
@[simp] theorem State.updatePermit_pool (n : Nat) (f : Permit → Permit) : (s.updatePermit n f).pool = s.pool := rfl
@[simp] theorem State.updatePermit_groups (n : Nat) (f : Permit → Permit) :
    (s.updatePermit n f).groups = s.groups := rfl
@[simp] theorem State.updatePermit_deadlines (n : Nat) (f : Permit → Permit) :
    (s.updatePermit n f).deadlines = s.deadlines := rfl
@[simp] theorem State.updatePermit_presentations (n : Nat) (f : Permit → Permit) :
    (s.updatePermit n f).presentations = s.presentations := rfl
@[simp] theorem State.updatePermit_stations (n : Nat) (f : Permit → Permit) :
    (s.updatePermit n f).stations = s.stations := rfl
@[simp] theorem State.updatePermit_line (n : Nat) (f : Permit → Permit) : (s.updatePermit n f).line = s.line := rfl
@[simp] theorem State.updatePermit_trail (n : Nat) (f : Permit → Permit) : (s.updatePermit n f).trail = s.trail := rfl
@[simp] theorem State.updatePermit_host (n : Nat) (f : Permit → Permit) : (s.updatePermit n f).host = s.host := rfl
@[simp] theorem State.updatePermit_sweep (n : Nat) (f : Permit → Permit) : (s.updatePermit n f).sweep = s.sweep := rfl
@[simp] theorem State.updatePermit_supply (n : Nat) (f : Permit → Permit) :
    (s.updatePermit n f).supply = s.supply := rfl
@[simp] theorem State.updatePermit_lastDoor (n : Nat) (f : Permit → Permit) :
    (s.updatePermit n f).lastDoor = s.lastDoor := rfl
@[simp] theorem State.updatePermit_pending (n : Nat) (f : Permit → Permit) :
    (s.updatePermit n f).pending = s.pending := rfl

/-! #### dropPermit -/

@[simp] theorem State.dropPermit_clock (n : Nat) : (s.dropPermit n).clock = s.clock := rfl
@[simp] theorem State.dropPermit_settings (n : Nat) : (s.dropPermit n).settings = s.settings := rfl
@[simp] theorem State.dropPermit_permits (n : Nat) :
    (s.dropPermit n).permits = s.permits.filter (fun e => e.2.number ≠ n) := rfl
@[simp] theorem State.dropPermit_revoked (n : Nat) : (s.dropPermit n).revoked = s.revoked := rfl
@[simp] theorem State.dropPermit_rooms (n : Nat) : (s.dropPermit n).rooms = s.rooms := rfl
@[simp] theorem State.dropPermit_pool (n : Nat) : (s.dropPermit n).pool = s.pool := rfl
@[simp] theorem State.dropPermit_groups (n : Nat) : (s.dropPermit n).groups = s.groups := rfl
@[simp] theorem State.dropPermit_deadlines (n : Nat) : (s.dropPermit n).deadlines = s.deadlines := rfl
@[simp] theorem State.dropPermit_presentations (n : Nat) : (s.dropPermit n).presentations = s.presentations := rfl
@[simp] theorem State.dropPermit_stations (n : Nat) : (s.dropPermit n).stations = s.stations := rfl
@[simp] theorem State.dropPermit_line (n : Nat) : (s.dropPermit n).line = s.line := rfl
@[simp] theorem State.dropPermit_trail (n : Nat) : (s.dropPermit n).trail = s.trail := rfl
@[simp] theorem State.dropPermit_host (n : Nat) : (s.dropPermit n).host = s.host := rfl
@[simp] theorem State.dropPermit_sweep (n : Nat) : (s.dropPermit n).sweep = s.sweep := rfl
@[simp] theorem State.dropPermit_supply (n : Nat) : (s.dropPermit n).supply = s.supply := rfl
@[simp] theorem State.dropPermit_lastDoor (n : Nat) : (s.dropPermit n).lastDoor = s.lastDoor := rfl
@[simp] theorem State.dropPermit_pending (n : Nat) : (s.dropPermit n).pending = s.pending := rfl

/-! #### addPermit -/

@[simp] theorem State.addPermit_clock (p : Permit) : (s.addPermit p).clock = s.clock := rfl
@[simp] theorem State.addPermit_settings (p : Permit) : (s.addPermit p).settings = s.settings := rfl
@[simp] theorem State.addPermit_permits (p : Permit) :
    (s.addPermit p).permits = insertPermit (lowestFree 0 s.permits) p s.permits := rfl
@[simp] theorem State.addPermit_revoked (p : Permit) : (s.addPermit p).revoked = s.revoked := rfl
@[simp] theorem State.addPermit_rooms (p : Permit) : (s.addPermit p).rooms = s.rooms := rfl
@[simp] theorem State.addPermit_pool (p : Permit) : (s.addPermit p).pool = s.pool := rfl
@[simp] theorem State.addPermit_groups (p : Permit) : (s.addPermit p).groups = s.groups := rfl
@[simp] theorem State.addPermit_deadlines (p : Permit) : (s.addPermit p).deadlines = s.deadlines := rfl
@[simp] theorem State.addPermit_presentations (p : Permit) : (s.addPermit p).presentations = s.presentations := rfl
@[simp] theorem State.addPermit_stations (p : Permit) : (s.addPermit p).stations = s.stations := rfl
@[simp] theorem State.addPermit_line (p : Permit) : (s.addPermit p).line = s.line := rfl
@[simp] theorem State.addPermit_trail (p : Permit) : (s.addPermit p).trail = s.trail := rfl
@[simp] theorem State.addPermit_host (p : Permit) : (s.addPermit p).host = s.host := rfl
@[simp] theorem State.addPermit_sweep (p : Permit) : (s.addPermit p).sweep = s.sweep := rfl
@[simp] theorem State.addPermit_supply (p : Permit) : (s.addPermit p).supply = s.supply := rfl
@[simp] theorem State.addPermit_lastDoor (p : Permit) : (s.addPermit p).lastDoor = s.lastDoor := rfl
@[simp] theorem State.addPermit_pending (p : Permit) : (s.addPermit p).pending = s.pending := rfl

/-! #### dropGroup -/

@[simp] theorem State.dropGroup_clock (n : Nat) : (s.dropGroup n).clock = s.clock := rfl
@[simp] theorem State.dropGroup_settings (n : Nat) : (s.dropGroup n).settings = s.settings := rfl
@[simp] theorem State.dropGroup_permits (n : Nat) : (s.dropGroup n).permits = s.permits := rfl
@[simp] theorem State.dropGroup_revoked (n : Nat) : (s.dropGroup n).revoked = s.revoked := rfl
@[simp] theorem State.dropGroup_rooms (n : Nat) : (s.dropGroup n).rooms = s.rooms := rfl
@[simp] theorem State.dropGroup_pool (n : Nat) : (s.dropGroup n).pool = s.pool := rfl
@[simp] theorem State.dropGroup_groups (n : Nat) :
    (s.dropGroup n).groups = s.groups.filter (fun g => g.station ≠ n) := rfl
@[simp] theorem State.dropGroup_deadlines (n : Nat) : (s.dropGroup n).deadlines = s.deadlines := rfl
@[simp] theorem State.dropGroup_presentations (n : Nat) : (s.dropGroup n).presentations = s.presentations := rfl
@[simp] theorem State.dropGroup_stations (n : Nat) : (s.dropGroup n).stations = s.stations := rfl
@[simp] theorem State.dropGroup_line (n : Nat) : (s.dropGroup n).line = s.line := rfl
@[simp] theorem State.dropGroup_trail (n : Nat) : (s.dropGroup n).trail = s.trail := rfl
@[simp] theorem State.dropGroup_host (n : Nat) : (s.dropGroup n).host = s.host := rfl
@[simp] theorem State.dropGroup_sweep (n : Nat) : (s.dropGroup n).sweep = s.sweep := rfl
@[simp] theorem State.dropGroup_supply (n : Nat) : (s.dropGroup n).supply = s.supply := rfl
@[simp] theorem State.dropGroup_lastDoor (n : Nat) : (s.dropGroup n).lastDoor = s.lastDoor := rfl
@[simp] theorem State.dropGroup_pending (n : Nat) : (s.dropGroup n).pending = s.pending := rfl

/-! #### setMembers -/

@[simp] theorem State.setMembers_clock (n : Nat) (ms : List Member) : (s.setMembers n ms).clock = s.clock := rfl
@[simp] theorem State.setMembers_settings (n : Nat) (ms : List Member) :
    (s.setMembers n ms).settings = s.settings := rfl
@[simp] theorem State.setMembers_permits (n : Nat) (ms : List Member) : (s.setMembers n ms).permits = s.permits := rfl
@[simp] theorem State.setMembers_revoked (n : Nat) (ms : List Member) : (s.setMembers n ms).revoked = s.revoked := rfl
@[simp] theorem State.setMembers_rooms (n : Nat) (ms : List Member) : (s.setMembers n ms).rooms = s.rooms := rfl
@[simp] theorem State.setMembers_pool (n : Nat) (ms : List Member) : (s.setMembers n ms).pool = s.pool := rfl
@[simp] theorem State.setMembers_groups (n : Nat) (ms : List Member) :
    (s.setMembers n ms).groups = s.groups.map (fun g => if g.station = n then { g with members := ms } else g) := rfl
@[simp] theorem State.setMembers_deadlines (n : Nat) (ms : List Member) :
    (s.setMembers n ms).deadlines = s.deadlines := rfl
@[simp] theorem State.setMembers_presentations (n : Nat) (ms : List Member) :
    (s.setMembers n ms).presentations = s.presentations := rfl
@[simp] theorem State.setMembers_stations (n : Nat) (ms : List Member) :
    (s.setMembers n ms).stations = s.stations := rfl
@[simp] theorem State.setMembers_line (n : Nat) (ms : List Member) : (s.setMembers n ms).line = s.line := rfl
@[simp] theorem State.setMembers_trail (n : Nat) (ms : List Member) : (s.setMembers n ms).trail = s.trail := rfl
@[simp] theorem State.setMembers_host (n : Nat) (ms : List Member) : (s.setMembers n ms).host = s.host := rfl
@[simp] theorem State.setMembers_sweep (n : Nat) (ms : List Member) : (s.setMembers n ms).sweep = s.sweep := rfl
@[simp] theorem State.setMembers_supply (n : Nat) (ms : List Member) : (s.setMembers n ms).supply = s.supply := rfl
@[simp] theorem State.setMembers_lastDoor (n : Nat) (ms : List Member) :
    (s.setMembers n ms).lastDoor = s.lastDoor := rfl
@[simp] theorem State.setMembers_pending (n : Nat) (ms : List Member) : (s.setMembers n ms).pending = s.pending := rfl

/-! #### pump -/

@[simp] theorem State.pump_clock : (s.pump).clock = s.clock := rfl
@[simp] theorem State.pump_settings : (s.pump).settings = s.settings := rfl
@[simp] theorem State.pump_permits : (s.pump).permits = s.permits := rfl
@[simp] theorem State.pump_revoked : (s.pump).revoked = s.revoked := rfl
@[simp] theorem State.pump_rooms : (s.pump).rooms = s.rooms := rfl
@[simp] theorem State.pump_pool : (s.pump).pool = s.pool := rfl
@[simp] theorem State.pump_groups : (s.pump).groups = s.groups := rfl
@[simp] theorem State.pump_deadlines : (s.pump).deadlines = s.deadlines := rfl
@[simp] theorem State.pump_presentations : (s.pump).presentations = s.presentations := rfl
@[simp] theorem State.pump_stations : (s.pump).stations = s.stations := rfl
@[simp] theorem State.pump_line : (s.pump).line = s.line := rfl
@[simp] theorem State.pump_trail : (s.pump).trail = s.trail := rfl
@[simp] theorem State.pump_host : (s.pump).host = s.host.begin := rfl
@[simp] theorem State.pump_sweep : (s.pump).sweep = s.sweep := rfl
@[simp] theorem State.pump_supply : (s.pump).supply = s.supply := rfl
@[simp] theorem State.pump_lastDoor : (s.pump).lastDoor = s.lastDoor := rfl
@[simp] theorem State.pump_pending : (s.pump).pending = s.pending := rfl

/-! #### hand -/

@[simp] theorem State.hand_clock (f : Frame) (code : ReplyCode) (body : List Byte) :
    (s.hand f code body).clock = s.clock := rfl
@[simp] theorem State.hand_settings (f : Frame) (code : ReplyCode) (body : List Byte) :
    (s.hand f code body).settings = s.settings := rfl
@[simp] theorem State.hand_permits (f : Frame) (code : ReplyCode) (body : List Byte) :
    (s.hand f code body).permits = s.permits := rfl
@[simp] theorem State.hand_revoked (f : Frame) (code : ReplyCode) (body : List Byte) :
    (s.hand f code body).revoked = s.revoked := rfl
@[simp] theorem State.hand_rooms (f : Frame) (code : ReplyCode) (body : List Byte) :
    (s.hand f code body).rooms = s.rooms := rfl
@[simp] theorem State.hand_pool (f : Frame) (code : ReplyCode) (body : List Byte) :
    (s.hand f code body).pool = s.pool := rfl
@[simp] theorem State.hand_groups (f : Frame) (code : ReplyCode) (body : List Byte) :
    (s.hand f code body).groups = s.groups := rfl
@[simp] theorem State.hand_deadlines (f : Frame) (code : ReplyCode) (body : List Byte) :
    (s.hand f code body).deadlines = s.deadlines := rfl
@[simp] theorem State.hand_presentations (f : Frame) (code : ReplyCode) (body : List Byte) :
    (s.hand f code body).presentations = s.presentations := rfl
@[simp] theorem State.hand_stations (f : Frame) (code : ReplyCode) (body : List Byte) :
    (s.hand f code body).stations = s.stations := rfl
@[simp] theorem State.hand_line (f : Frame) (code : ReplyCode) (body : List Byte) :
    (s.hand f code body).line = s.line := rfl
@[simp] theorem State.hand_trail (f : Frame) (code : ReplyCode) (body : List Byte) :
    (s.hand f code body).trail = s.trail := rfl
@[simp] theorem State.hand_host (f : Frame) (code : ReplyCode) (body : List Byte) :
    (s.hand f code body).host = { s.host with outstanding := some ⟨f, true⟩, reply := some (replyFrame f code body) } := rfl
@[simp] theorem State.hand_sweep (f : Frame) (code : ReplyCode) (body : List Byte) :
    (s.hand f code body).sweep = s.sweep := rfl
@[simp] theorem State.hand_supply (f : Frame) (code : ReplyCode) (body : List Byte) :
    (s.hand f code body).supply = s.supply := rfl
@[simp] theorem State.hand_lastDoor (f : Frame) (code : ReplyCode) (body : List Byte) :
    (s.hand f code body).lastDoor = s.lastDoor := rfl
@[simp] theorem State.hand_pending (f : Frame) (code : ReplyCode) (body : List Byte) :
    (s.hand f code body).pending = s.pending := rfl

/-! #### dropHead -/

@[simp] theorem State.dropHead_clock : (s.dropHead).clock = s.clock := rfl
@[simp] theorem State.dropHead_settings : (s.dropHead).settings = s.settings := rfl
@[simp] theorem State.dropHead_permits : (s.dropHead).permits = s.permits := rfl
@[simp] theorem State.dropHead_revoked : (s.dropHead).revoked = s.revoked := rfl
@[simp] theorem State.dropHead_rooms : (s.dropHead).rooms = s.rooms := rfl
@[simp] theorem State.dropHead_pool : (s.dropHead).pool = s.pool := rfl
@[simp] theorem State.dropHead_groups : (s.dropHead).groups = s.groups := rfl
@[simp] theorem State.dropHead_deadlines : (s.dropHead).deadlines = s.deadlines.tail := rfl
@[simp] theorem State.dropHead_presentations : (s.dropHead).presentations = s.presentations := rfl
@[simp] theorem State.dropHead_stations : (s.dropHead).stations = s.stations := rfl
@[simp] theorem State.dropHead_line : (s.dropHead).line = s.line := rfl
@[simp] theorem State.dropHead_trail : (s.dropHead).trail = s.trail := rfl
@[simp] theorem State.dropHead_host : (s.dropHead).host = s.host := rfl
@[simp] theorem State.dropHead_sweep : (s.dropHead).sweep = s.sweep := rfl
@[simp] theorem State.dropHead_supply : (s.dropHead).supply = s.supply := rfl
@[simp] theorem State.dropHead_lastDoor : (s.dropHead).lastDoor = s.lastDoor := rfl
@[simp] theorem State.dropHead_pending : (s.dropHead).pending = s.pending := rfl

/-! #### setSupplyGood -/

@[simp] theorem State.setSupplyGood_clock (b : Bool) : (s.setSupplyGood b).clock = s.clock := rfl
@[simp] theorem State.setSupplyGood_settings (b : Bool) : (s.setSupplyGood b).settings = s.settings := rfl
@[simp] theorem State.setSupplyGood_permits (b : Bool) : (s.setSupplyGood b).permits = s.permits := rfl
@[simp] theorem State.setSupplyGood_revoked (b : Bool) : (s.setSupplyGood b).revoked = s.revoked := rfl
@[simp] theorem State.setSupplyGood_rooms (b : Bool) : (s.setSupplyGood b).rooms = s.rooms := rfl
@[simp] theorem State.setSupplyGood_pool (b : Bool) : (s.setSupplyGood b).pool = s.pool := rfl
@[simp] theorem State.setSupplyGood_groups (b : Bool) : (s.setSupplyGood b).groups = s.groups := rfl
@[simp] theorem State.setSupplyGood_deadlines (b : Bool) : (s.setSupplyGood b).deadlines = s.deadlines := rfl
@[simp] theorem State.setSupplyGood_presentations (b : Bool) :
    (s.setSupplyGood b).presentations = s.presentations := rfl
@[simp] theorem State.setSupplyGood_stations (b : Bool) : (s.setSupplyGood b).stations = s.stations := rfl
@[simp] theorem State.setSupplyGood_line (b : Bool) : (s.setSupplyGood b).line = s.line := rfl
@[simp] theorem State.setSupplyGood_trail (b : Bool) : (s.setSupplyGood b).trail = s.trail := rfl
@[simp] theorem State.setSupplyGood_host (b : Bool) : (s.setSupplyGood b).host = s.host := rfl
@[simp] theorem State.setSupplyGood_sweep (b : Bool) : (s.setSupplyGood b).sweep = s.sweep := rfl
@[simp] theorem State.setSupplyGood_supply (b : Bool) :
    (s.setSupplyGood b).supply = { s.supply with supplyGood := b } := rfl
@[simp] theorem State.setSupplyGood_lastDoor (b : Bool) : (s.setSupplyGood b).lastDoor = s.lastDoor := rfl
@[simp] theorem State.setSupplyGood_pending (b : Bool) : (s.setSupplyGood b).pending = s.pending := rfl

/-! #### setAttention -/

@[simp] theorem State.setAttention_clock (b : Bool) : (s.setAttention b).clock = s.clock := rfl
@[simp] theorem State.setAttention_settings (b : Bool) : (s.setAttention b).settings = s.settings := rfl
@[simp] theorem State.setAttention_permits (b : Bool) : (s.setAttention b).permits = s.permits := rfl
@[simp] theorem State.setAttention_revoked (b : Bool) : (s.setAttention b).revoked = s.revoked := rfl
@[simp] theorem State.setAttention_rooms (b : Bool) : (s.setAttention b).rooms = s.rooms := rfl
@[simp] theorem State.setAttention_pool (b : Bool) : (s.setAttention b).pool = s.pool := rfl
@[simp] theorem State.setAttention_groups (b : Bool) : (s.setAttention b).groups = s.groups := rfl
@[simp] theorem State.setAttention_deadlines (b : Bool) : (s.setAttention b).deadlines = s.deadlines := rfl
@[simp] theorem State.setAttention_presentations (b : Bool) : (s.setAttention b).presentations = s.presentations := rfl
@[simp] theorem State.setAttention_stations (b : Bool) : (s.setAttention b).stations = s.stations := rfl
@[simp] theorem State.setAttention_line (b : Bool) : (s.setAttention b).line = s.line := rfl
@[simp] theorem State.setAttention_trail (b : Bool) : (s.setAttention b).trail = s.trail := rfl
@[simp] theorem State.setAttention_host (b : Bool) : (s.setAttention b).host = s.host := rfl
@[simp] theorem State.setAttention_sweep (b : Bool) : (s.setAttention b).sweep = s.sweep := rfl
@[simp] theorem State.setAttention_supply (b : Bool) :
    (s.setAttention b).supply = { s.supply with attention := b } := rfl
@[simp] theorem State.setAttention_lastDoor (b : Bool) : (s.setAttention b).lastDoor = s.lastDoor := rfl
@[simp] theorem State.setAttention_pending (b : Bool) : (s.setAttention b).pending = s.pending := rfl

/-! #### discardFrame -/

@[simp] theorem State.discardFrame_clock : (s.discardFrame).clock = s.clock := rfl
@[simp] theorem State.discardFrame_settings : (s.discardFrame).settings = s.settings := rfl
@[simp] theorem State.discardFrame_permits : (s.discardFrame).permits = s.permits := rfl
@[simp] theorem State.discardFrame_revoked : (s.discardFrame).revoked = s.revoked := rfl
@[simp] theorem State.discardFrame_rooms : (s.discardFrame).rooms = s.rooms := rfl
@[simp] theorem State.discardFrame_pool : (s.discardFrame).pool = s.pool := rfl
@[simp] theorem State.discardFrame_groups : (s.discardFrame).groups = s.groups := rfl
@[simp] theorem State.discardFrame_deadlines : (s.discardFrame).deadlines = s.deadlines := rfl
@[simp] theorem State.discardFrame_presentations : (s.discardFrame).presentations = s.presentations := rfl
@[simp] theorem State.discardFrame_stations : (s.discardFrame).stations = s.stations := rfl
@[simp] theorem State.discardFrame_line : (s.discardFrame).line = s.line := rfl
@[simp] theorem State.discardFrame_trail : (s.discardFrame).trail = s.trail := rfl
@[simp] theorem State.discardFrame_host :
    (s.discardFrame).host = { s.host with receiving := false, frameDiscarded := true } := rfl
@[simp] theorem State.discardFrame_sweep : (s.discardFrame).sweep = s.sweep := rfl
@[simp] theorem State.discardFrame_supply : (s.discardFrame).supply = s.supply := rfl
@[simp] theorem State.discardFrame_lastDoor : (s.discardFrame).lastDoor = s.lastDoor := rfl
@[simp] theorem State.discardFrame_pending : (s.discardFrame).pending = s.pending := rfl

/-! #### Operations built of them -/

@[simp] theorem State.offer_frame (n : Notice) :
    (s.offer n).clock = s.clock ∧ (s.offer n).settings = s.settings ∧ (s.offer n).permits = s.permits
      ∧ (s.offer n).revoked = s.revoked ∧ (s.offer n).rooms = s.rooms ∧ (s.offer n).pool = s.pool
      ∧ (s.offer n).groups = s.groups ∧ (s.offer n).deadlines = s.deadlines
      ∧ (s.offer n).presentations = s.presentations ∧ (s.offer n).stations = s.stations ∧ (s.offer n).line = s.line
      ∧ (s.offer n).trail = s.trail ∧ (s.offer n).sweep = s.sweep ∧ (s.offer n).supply = s.supply
      ∧ (s.offer n).lastDoor = s.lastDoor ∧ (s.offer n).pending = s.pending := by
  unfold State.offer; split <;> simp

@[simp] theorem State.offerSome_frame (n : Option Notice) :
    (s.offerSome n).clock = s.clock ∧ (s.offerSome n).settings = s.settings ∧ (s.offerSome n).permits = s.permits
      ∧ (s.offerSome n).revoked = s.revoked ∧ (s.offerSome n).rooms = s.rooms ∧ (s.offerSome n).pool = s.pool
      ∧ (s.offerSome n).groups = s.groups ∧ (s.offerSome n).deadlines = s.deadlines
      ∧ (s.offerSome n).presentations = s.presentations ∧ (s.offerSome n).stations = s.stations
      ∧ (s.offerSome n).line = s.line ∧ (s.offerSome n).trail = s.trail ∧ (s.offerSome n).sweep = s.sweep
      ∧ (s.offerSome n).supply = s.supply ∧ (s.offerSome n).lastDoor = s.lastDoor
      ∧ (s.offerSome n).pending = s.pending := by
  cases n <;> simp [State.offerSome]

@[simp] theorem State.put_frame (r : TrailRecord) :
    (s.put r).clock = s.clock ∧ (s.put r).settings = s.settings ∧ (s.put r).permits = s.permits
      ∧ (s.put r).revoked = s.revoked ∧ (s.put r).rooms = s.rooms ∧ (s.put r).pool = s.pool
      ∧ (s.put r).groups = s.groups ∧ (s.put r).deadlines = s.deadlines ∧ (s.put r).presentations = s.presentations
      ∧ (s.put r).stations = s.stations ∧ (s.put r).line = s.line ∧ (s.put r).sweep = s.sweep
      ∧ (s.put r).supply = s.supply ∧ (s.put r).lastDoor = s.lastDoor ∧ (s.put r).pending = s.pending := by
  simp [State.put]

@[simp] theorem State.offerDecision_frame (d : DecisionNotice) :
    (s.offerDecision d).clock = s.clock ∧ (s.offerDecision d).settings = s.settings
      ∧ (s.offerDecision d).permits = s.permits ∧ (s.offerDecision d).revoked = s.revoked
      ∧ (s.offerDecision d).rooms = s.rooms ∧ (s.offerDecision d).pool = s.pool
      ∧ (s.offerDecision d).groups = s.groups ∧ (s.offerDecision d).deadlines = s.deadlines
      ∧ (s.offerDecision d).presentations = s.presentations ∧ (s.offerDecision d).stations = s.stations
      ∧ (s.offerDecision d).line = s.line ∧ (s.offerDecision d).trail = s.trail ∧ (s.offerDecision d).sweep = s.sweep
      ∧ (s.offerDecision d).supply = s.supply ∧ (s.offerDecision d).lastDoor = s.lastDoor
      ∧ (s.offerDecision d).pending = s.pending := by
  unfold State.offerDecision; split <;> simp

@[simp] theorem State.placeVerdict_frame (n : Nat) (o : VerdictOutcome) (r : Reason) :
    (s.placeVerdict n o r).clock = s.clock ∧ (s.placeVerdict n o r).settings = s.settings
      ∧ (s.placeVerdict n o r).permits = s.permits ∧ (s.placeVerdict n o r).revoked = s.revoked
      ∧ (s.placeVerdict n o r).rooms = s.rooms ∧ (s.placeVerdict n o r).pool = s.pool
      ∧ (s.placeVerdict n o r).groups = s.groups ∧ (s.placeVerdict n o r).deadlines = s.deadlines
      ∧ (s.placeVerdict n o r).presentations = s.presentations ∧ (s.placeVerdict n o r).line = s.line
      ∧ (s.placeVerdict n o r).trail = s.trail ∧ (s.placeVerdict n o r).host = s.host
      ∧ (s.placeVerdict n o r).sweep = s.sweep ∧ (s.placeVerdict n o r).supply = s.supply
      ∧ (s.placeVerdict n o r).lastDoor = s.lastDoor ∧ (s.placeVerdict n o r).pending = s.pending := by
  simp [State.placeVerdict]

@[simp] theorem State.setLast_frame (p : Presentation) (o : VerdictOutcome) (r : Reason) :
    (s.setLast p o r).clock = s.clock ∧ (s.setLast p o r).settings = s.settings
      ∧ (s.setLast p o r).permits = s.permits ∧ (s.setLast p o r).revoked = s.revoked
      ∧ (s.setLast p o r).rooms = s.rooms ∧ (s.setLast p o r).pool = s.pool ∧ (s.setLast p o r).groups = s.groups
      ∧ (s.setLast p o r).deadlines = s.deadlines ∧ (s.setLast p o r).presentations = s.presentations
      ∧ (s.setLast p o r).line = s.line ∧ (s.setLast p o r).trail = s.trail ∧ (s.setLast p o r).host = s.host
      ∧ (s.setLast p o r).sweep = s.sweep ∧ (s.setLast p o r).supply = s.supply
      ∧ (s.setLast p o r).lastDoor = s.lastDoor ∧ (s.setLast p o r).pending = s.pending := by
  simp [State.setLast]

@[simp] theorem State.setDoor_frame (n : Nat) (d : Door) :
    (s.setDoor n d).clock = s.clock ∧ (s.setDoor n d).settings = s.settings ∧ (s.setDoor n d).permits = s.permits
      ∧ (s.setDoor n d).revoked = s.revoked ∧ (s.setDoor n d).rooms = s.rooms ∧ (s.setDoor n d).pool = s.pool
      ∧ (s.setDoor n d).groups = s.groups ∧ (s.setDoor n d).deadlines = s.deadlines
      ∧ (s.setDoor n d).presentations = s.presentations ∧ (s.setDoor n d).line = s.line
      ∧ (s.setDoor n d).trail = s.trail ∧ (s.setDoor n d).host = s.host ∧ (s.setDoor n d).sweep = s.sweep
      ∧ (s.setDoor n d).supply = s.supply ∧ (s.setDoor n d).lastDoor = s.lastDoor
      ∧ (s.setDoor n d).pending = s.pending := by
  simp [State.setDoor]

@[simp] theorem State.moveRoomAlert_frame (a : RoomAlert) (n : Nat) (l : Level) :
    (s.moveRoomAlert a n l).clock = s.clock ∧ (s.moveRoomAlert a n l).settings = s.settings
      ∧ (s.moveRoomAlert a n l).permits = s.permits ∧ (s.moveRoomAlert a n l).revoked = s.revoked
      ∧ (s.moveRoomAlert a n l).pool = s.pool ∧ (s.moveRoomAlert a n l).groups = s.groups
      ∧ (s.moveRoomAlert a n l).deadlines = s.deadlines ∧ (s.moveRoomAlert a n l).presentations = s.presentations
      ∧ (s.moveRoomAlert a n l).stations = s.stations ∧ (s.moveRoomAlert a n l).line = s.line
      ∧ (s.moveRoomAlert a n l).sweep = s.sweep ∧ (s.moveRoomAlert a n l).supply = s.supply
      ∧ (s.moveRoomAlert a n l).lastDoor = s.lastDoor ∧ (s.moveRoomAlert a n l).pending = s.pending := by
  simp [State.moveRoomAlert]

@[simp] theorem State.reevaluate_frame (a : RoomAlert) (n : Nat) :
    (s.reevaluate a n).clock = s.clock ∧ (s.reevaluate a n).settings = s.settings
      ∧ (s.reevaluate a n).permits = s.permits ∧ (s.reevaluate a n).revoked = s.revoked
      ∧ (s.reevaluate a n).pool = s.pool ∧ (s.reevaluate a n).groups = s.groups
      ∧ (s.reevaluate a n).presentations = s.presentations ∧ (s.reevaluate a n).stations = s.stations
      ∧ (s.reevaluate a n).line = s.line ∧ (s.reevaluate a n).sweep = s.sweep ∧ (s.reevaluate a n).supply = s.supply
      ∧ (s.reevaluate a n).lastDoor = s.lastDoor ∧ (s.reevaluate a n).pending = s.pending := by
  unfold State.reevaluate; split <;> simp

@[simp] theorem State.reevaluateRoom_frame (n : Nat) :
    (s.reevaluateRoom n).clock = s.clock ∧ (s.reevaluateRoom n).settings = s.settings
      ∧ (s.reevaluateRoom n).permits = s.permits ∧ (s.reevaluateRoom n).revoked = s.revoked
      ∧ (s.reevaluateRoom n).pool = s.pool ∧ (s.reevaluateRoom n).groups = s.groups
      ∧ (s.reevaluateRoom n).presentations = s.presentations ∧ (s.reevaluateRoom n).stations = s.stations
      ∧ (s.reevaluateRoom n).line = s.line ∧ (s.reevaluateRoom n).sweep = s.sweep
      ∧ (s.reevaluateRoom n).supply = s.supply ∧ (s.reevaluateRoom n).lastDoor = s.lastDoor
      ∧ (s.reevaluateRoom n).pending = s.pending := by
  simp [State.reevaluateRoom]

@[simp] theorem State.debit_frame (o : Occupant) :
    (s.debit o).clock = s.clock ∧ (s.debit o).settings = s.settings ∧ (s.debit o).revoked = s.revoked
      ∧ (s.debit o).rooms = s.rooms ∧ (s.debit o).pool = s.pool ∧ (s.debit o).groups = s.groups
      ∧ (s.debit o).deadlines = s.deadlines ∧ (s.debit o).presentations = s.presentations
      ∧ (s.debit o).stations = s.stations ∧ (s.debit o).line = s.line ∧ (s.debit o).trail = s.trail
      ∧ (s.debit o).host = s.host ∧ (s.debit o).sweep = s.sweep ∧ (s.debit o).supply = s.supply
      ∧ (s.debit o).lastDoor = s.lastDoor ∧ (s.debit o).pending = s.pending := by
  unfold State.debit; split <;> simp

@[simp] theorem State.unscheduleRecord_frame (c : Nat) :
    (s.unscheduleRecord c).clock = s.clock ∧ (s.unscheduleRecord c).settings = s.settings
      ∧ (s.unscheduleRecord c).permits = s.permits ∧ (s.unscheduleRecord c).revoked = s.revoked
      ∧ (s.unscheduleRecord c).rooms = s.rooms ∧ (s.unscheduleRecord c).pool = s.pool
      ∧ (s.unscheduleRecord c).groups = s.groups ∧ (s.unscheduleRecord c).presentations = s.presentations
      ∧ (s.unscheduleRecord c).stations = s.stations ∧ (s.unscheduleRecord c).line = s.line
      ∧ (s.unscheduleRecord c).trail = s.trail ∧ (s.unscheduleRecord c).host = s.host
      ∧ (s.unscheduleRecord c).sweep = s.sweep ∧ (s.unscheduleRecord c).supply = s.supply
      ∧ (s.unscheduleRecord c).lastDoor = s.lastDoor ∧ (s.unscheduleRecord c).pending = s.pending := by
  simp [State.unscheduleRecord]

@[simp] theorem State.clearOverstay_frame (o : Occupant) :
    (s.clearOverstay o).clock = s.clock ∧ (s.clearOverstay o).settings = s.settings
      ∧ (s.clearOverstay o).permits = s.permits ∧ (s.clearOverstay o).revoked = s.revoked
      ∧ (s.clearOverstay o).rooms = s.rooms ∧ (s.clearOverstay o).pool = s.pool
      ∧ (s.clearOverstay o).groups = s.groups ∧ (s.clearOverstay o).deadlines = s.deadlines
      ∧ (s.clearOverstay o).presentations = s.presentations ∧ (s.clearOverstay o).stations = s.stations
      ∧ (s.clearOverstay o).line = s.line ∧ (s.clearOverstay o).trail = s.trail ∧ (s.clearOverstay o).sweep = s.sweep
      ∧ (s.clearOverstay o).supply = s.supply ∧ (s.clearOverstay o).lastDoor = s.lastDoor
      ∧ (s.clearOverstay o).pending = s.pending := by
  unfold State.clearOverstay; split <;> simp

@[simp] theorem State.clearRevoked_frame (o : Occupant) :
    (s.clearRevoked o).clock = s.clock ∧ (s.clearRevoked o).settings = s.settings
      ∧ (s.clearRevoked o).permits = s.permits ∧ (s.clearRevoked o).revoked = s.revoked
      ∧ (s.clearRevoked o).rooms = s.rooms ∧ (s.clearRevoked o).pool = s.pool ∧ (s.clearRevoked o).groups = s.groups
      ∧ (s.clearRevoked o).deadlines = s.deadlines ∧ (s.clearRevoked o).presentations = s.presentations
      ∧ (s.clearRevoked o).stations = s.stations ∧ (s.clearRevoked o).line = s.line
      ∧ (s.clearRevoked o).trail = s.trail ∧ (s.clearRevoked o).sweep = s.sweep
      ∧ (s.clearRevoked o).supply = s.supply ∧ (s.clearRevoked o).lastDoor = s.lastDoor
      ∧ (s.clearRevoked o).pending = s.pending := by
  unfold State.clearRevoked; split <;> simp

@[simp] theorem State.leave_frame (o : Occupant) :
    (s.leave o).clock = s.clock ∧ (s.leave o).settings = s.settings ∧ (s.leave o).permits = s.permits
      ∧ (s.leave o).revoked = s.revoked ∧ (s.leave o).rooms = s.rooms ∧ (s.leave o).groups = s.groups
      ∧ (s.leave o).presentations = s.presentations ∧ (s.leave o).stations = s.stations ∧ (s.leave o).line = s.line
      ∧ (s.leave o).trail = s.trail ∧ (s.leave o).sweep = s.sweep ∧ (s.leave o).supply = s.supply
      ∧ (s.leave o).lastDoor = s.lastDoor ∧ (s.leave o).pending = s.pending := by
  simp [State.leave]

@[simp] theorem State.doorAlert_frame (n : Nat) (k : AlertKind) (l : Level) :
    (s.doorAlert n k l).clock = s.clock ∧ (s.doorAlert n k l).settings = s.settings
      ∧ (s.doorAlert n k l).permits = s.permits ∧ (s.doorAlert n k l).revoked = s.revoked
      ∧ (s.doorAlert n k l).rooms = s.rooms ∧ (s.doorAlert n k l).pool = s.pool
      ∧ (s.doorAlert n k l).groups = s.groups ∧ (s.doorAlert n k l).deadlines = s.deadlines
      ∧ (s.doorAlert n k l).presentations = s.presentations ∧ (s.doorAlert n k l).stations = s.stations
      ∧ (s.doorAlert n k l).line = s.line ∧ (s.doorAlert n k l).sweep = s.sweep
      ∧ (s.doorAlert n k l).supply = s.supply ∧ (s.doorAlert n k l).lastDoor = s.lastDoor
      ∧ (s.doorAlert n k l).pending = s.pending := by
  simp [State.doorAlert]

@[simp] theorem State.writeChannel_frame (n : Nat) (c : Channel) (r : Reason) :
    (s.writeChannel n c r).clock = s.clock ∧ (s.writeChannel n c r).settings = s.settings
      ∧ (s.writeChannel n c r).permits = s.permits ∧ (s.writeChannel n c r).revoked = s.revoked
      ∧ (s.writeChannel n c r).rooms = s.rooms ∧ (s.writeChannel n c r).pool = s.pool
      ∧ (s.writeChannel n c r).groups = s.groups ∧ (s.writeChannel n c r).deadlines = s.deadlines
      ∧ (s.writeChannel n c r).presentations = s.presentations ∧ (s.writeChannel n c r).line = s.line
      ∧ (s.writeChannel n c r).sweep = s.sweep ∧ (s.writeChannel n c r).supply = s.supply
      ∧ (s.writeChannel n c r).lastDoor = s.lastDoor ∧ (s.writeChannel n c r).pending = s.pending := by
  simp [State.writeChannel]

@[simp] theorem State.commitIfAdmitting_frame (n : Nat) :
    (s.commitIfAdmitting n).clock = s.clock ∧ (s.commitIfAdmitting n).settings = s.settings
      ∧ (s.commitIfAdmitting n).permits = s.permits ∧ (s.commitIfAdmitting n).revoked = s.revoked
      ∧ (s.commitIfAdmitting n).rooms = s.rooms ∧ (s.commitIfAdmitting n).pool = s.pool
      ∧ (s.commitIfAdmitting n).groups = s.groups ∧ (s.commitIfAdmitting n).deadlines = s.deadlines
      ∧ (s.commitIfAdmitting n).presentations = s.presentations ∧ (s.commitIfAdmitting n).line = s.line
      ∧ (s.commitIfAdmitting n).trail = s.trail ∧ (s.commitIfAdmitting n).host = s.host
      ∧ (s.commitIfAdmitting n).sweep = s.sweep ∧ (s.commitIfAdmitting n).supply = s.supply
      ∧ (s.commitIfAdmitting n).lastDoor = s.lastDoor ∧ (s.commitIfAdmitting n).pending = s.pending := by
  unfold State.commitIfAdmitting; split <;> simp

@[simp] theorem State.raiseLapseAt_frame (n : Nat) (b : Bool) :
    (s.raiseLapseAt n b).clock = s.clock ∧ (s.raiseLapseAt n b).settings = s.settings
      ∧ (s.raiseLapseAt n b).permits = s.permits ∧ (s.raiseLapseAt n b).revoked = s.revoked
      ∧ (s.raiseLapseAt n b).rooms = s.rooms ∧ (s.raiseLapseAt n b).pool = s.pool
      ∧ (s.raiseLapseAt n b).groups = s.groups ∧ (s.raiseLapseAt n b).deadlines = s.deadlines
      ∧ (s.raiseLapseAt n b).presentations = s.presentations ∧ (s.raiseLapseAt n b).line = s.line
      ∧ (s.raiseLapseAt n b).trail = s.trail ∧ (s.raiseLapseAt n b).host = s.host
      ∧ (s.raiseLapseAt n b).sweep = s.sweep ∧ (s.raiseLapseAt n b).supply = s.supply
      ∧ (s.raiseLapseAt n b).lastDoor = s.lastDoor ∧ (s.raiseLapseAt n b).pending = s.pending := by
  simp [State.raiseLapseAt]

@[simp] theorem State.raiseForced_frame (n : Nat) :
    (s.raiseForced n).clock = s.clock ∧ (s.raiseForced n).settings = s.settings
      ∧ (s.raiseForced n).permits = s.permits ∧ (s.raiseForced n).revoked = s.revoked
      ∧ (s.raiseForced n).rooms = s.rooms ∧ (s.raiseForced n).pool = s.pool ∧ (s.raiseForced n).groups = s.groups
      ∧ (s.raiseForced n).deadlines = s.deadlines ∧ (s.raiseForced n).presentations = s.presentations
      ∧ (s.raiseForced n).line = s.line ∧ (s.raiseForced n).sweep = s.sweep ∧ (s.raiseForced n).supply = s.supply
      ∧ (s.raiseForced n).lastDoor = s.lastDoor ∧ (s.raiseForced n).pending = s.pending := by
  unfold State.raiseForced; split <;> simp

@[simp] theorem State.doorOpened_frame (n : Nat) :
    (s.doorOpened n).clock = s.clock ∧ (s.doorOpened n).settings = s.settings ∧ (s.doorOpened n).permits = s.permits
      ∧ (s.doorOpened n).revoked = s.revoked ∧ (s.doorOpened n).rooms = s.rooms ∧ (s.doorOpened n).pool = s.pool
      ∧ (s.doorOpened n).groups = s.groups ∧ (s.doorOpened n).deadlines = s.deadlines
      ∧ (s.doorOpened n).presentations = s.presentations ∧ (s.doorOpened n).line = s.line
      ∧ (s.doorOpened n).sweep = s.sweep ∧ (s.doorOpened n).supply = s.supply
      ∧ (s.doorOpened n).lastDoor = s.lastDoor ∧ (s.doorOpened n).pending = s.pending := by
  unfold State.doorOpened; split <;> simp

@[simp] theorem State.doorClosed_frame (n : Nat) :
    (s.doorClosed n).clock = s.clock ∧ (s.doorClosed n).settings = s.settings ∧ (s.doorClosed n).permits = s.permits
      ∧ (s.doorClosed n).revoked = s.revoked ∧ (s.doorClosed n).rooms = s.rooms ∧ (s.doorClosed n).pool = s.pool
      ∧ (s.doorClosed n).groups = s.groups ∧ (s.doorClosed n).deadlines = s.deadlines
      ∧ (s.doorClosed n).presentations = s.presentations ∧ (s.doorClosed n).line = s.line
      ∧ (s.doorClosed n).sweep = s.sweep ∧ (s.doorClosed n).supply = s.supply
      ∧ (s.doorClosed n).lastDoor = s.lastDoor ∧ (s.doorClosed n).pending = s.pending := by
  unfold State.doorClosed; split <;> simp

@[simp] theorem State.doorReleased_frame (n k : Nat) :
    (s.doorReleased n k).clock = s.clock ∧ (s.doorReleased n k).settings = s.settings
      ∧ (s.doorReleased n k).permits = s.permits ∧ (s.doorReleased n k).revoked = s.revoked
      ∧ (s.doorReleased n k).rooms = s.rooms ∧ (s.doorReleased n k).pool = s.pool
      ∧ (s.doorReleased n k).groups = s.groups ∧ (s.doorReleased n k).deadlines = s.deadlines
      ∧ (s.doorReleased n k).presentations = s.presentations ∧ (s.doorReleased n k).line = s.line
      ∧ (s.doorReleased n k).sweep = s.sweep ∧ (s.doorReleased n k).supply = s.supply
      ∧ (s.doorReleased n k).lastDoor = s.lastDoor ∧ (s.doorReleased n k).pending = s.pending := by
  unfold State.doorReleased; split <;> simp

@[simp] theorem State.settleSweep_frame :
    (s.settleSweep).clock = s.clock ∧ (s.settleSweep).settings = s.settings ∧ (s.settleSweep).permits = s.permits
      ∧ (s.settleSweep).revoked = s.revoked ∧ (s.settleSweep).rooms = s.rooms ∧ (s.settleSweep).pool = s.pool
      ∧ (s.settleSweep).groups = s.groups ∧ (s.settleSweep).deadlines = s.deadlines
      ∧ (s.settleSweep).presentations = s.presentations ∧ (s.settleSweep).stations = s.stations
      ∧ (s.settleSweep).line = s.line ∧ (s.settleSweep).trail = s.trail ∧ (s.settleSweep).host = s.host
      ∧ (s.settleSweep).supply = s.supply ∧ (s.settleSweep).lastDoor = s.lastDoor
      ∧ (s.settleSweep).pending = s.pending := by
  unfold State.settleSweep; split <;> simp

@[simp] theorem State.changeMode_frame (m : SupplyMode) (b : Bool) (c : ModeCause) :
    (s.changeMode m b c).clock = s.clock ∧ (s.changeMode m b c).settings = s.settings
      ∧ (s.changeMode m b c).permits = s.permits ∧ (s.changeMode m b c).revoked = s.revoked
      ∧ (s.changeMode m b c).rooms = s.rooms ∧ (s.changeMode m b c).pool = s.pool
      ∧ (s.changeMode m b c).groups = s.groups ∧ (s.changeMode m b c).deadlines = s.deadlines
      ∧ (s.changeMode m b c).presentations = s.presentations ∧ (s.changeMode m b c).stations = s.stations
      ∧ (s.changeMode m b c).line = s.line ∧ (s.changeMode m b c).sweep = s.sweep
      ∧ (s.changeMode m b c).lastDoor = s.lastDoor ∧ (s.changeMode m b c).pending = s.pending := by
  simp [State.changeMode]

@[simp] theorem State.conclude_frame (p : Presentation) (o : VerdictOutcome) (r : Reason) (n : Nat) (t : TrailRecord) :
    (s.conclude p o r n t).clock = s.clock ∧ (s.conclude p o r n t).settings = s.settings
      ∧ (s.conclude p o r n t).permits = s.permits ∧ (s.conclude p o r n t).revoked = s.revoked
      ∧ (s.conclude p o r n t).rooms = s.rooms ∧ (s.conclude p o r n t).pool = s.pool
      ∧ (s.conclude p o r n t).groups = s.groups ∧ (s.conclude p o r n t).deadlines = s.deadlines
      ∧ (s.conclude p o r n t).presentations = s.presentations ∧ (s.conclude p o r n t).line = s.line
      ∧ (s.conclude p o r n t).sweep = s.sweep ∧ (s.conclude p o r n t).supply = s.supply
      ∧ (s.conclude p o r n t).lastDoor = s.lastDoor ∧ (s.conclude p o r n t).pending = s.pending := by
  simp [State.conclude]

@[simp] theorem State.refuse_frame (p : Presentation) (r : Reason) (n v : Nat) :
    (s.refuse p r n v).clock = s.clock ∧ (s.refuse p r n v).settings = s.settings
      ∧ (s.refuse p r n v).permits = s.permits ∧ (s.refuse p r n v).revoked = s.revoked
      ∧ (s.refuse p r n v).rooms = s.rooms ∧ (s.refuse p r n v).pool = s.pool ∧ (s.refuse p r n v).groups = s.groups
      ∧ (s.refuse p r n v).deadlines = s.deadlines ∧ (s.refuse p r n v).presentations = s.presentations
      ∧ (s.refuse p r n v).line = s.line ∧ (s.refuse p r n v).sweep = s.sweep ∧ (s.refuse p r n v).supply = s.supply
      ∧ (s.refuse p r n v).lastDoor = s.lastDoor ∧ (s.refuse p r n v).pending = s.pending := by
  simp [State.refuse]

@[simp] theorem State.linkStep_frame (n : Nat) :
    (s.linkStep n).clock = s.clock ∧ (s.linkStep n).settings = s.settings ∧ (s.linkStep n).permits = s.permits
      ∧ (s.linkStep n).revoked = s.revoked ∧ (s.linkStep n).rooms = s.rooms ∧ (s.linkStep n).pool = s.pool
      ∧ (s.linkStep n).groups = s.groups ∧ (s.linkStep n).deadlines = s.deadlines
      ∧ (s.linkStep n).presentations = s.presentations ∧ (s.linkStep n).line = s.line
      ∧ (s.linkStep n).sweep = s.sweep ∧ (s.linkStep n).supply = s.supply ∧ (s.linkStep n).lastDoor = s.lastDoor
      ∧ (s.linkStep n).pending = s.pending := by
  unfold State.linkStep; split <;> simp

@[simp] theorem State.verdictStep_frame (n : Nat) (t : Toggle) :
    (s.verdictStep n t).clock = s.clock ∧ (s.verdictStep n t).settings = s.settings
      ∧ (s.verdictStep n t).permits = s.permits ∧ (s.verdictStep n t).revoked = s.revoked
      ∧ (s.verdictStep n t).rooms = s.rooms ∧ (s.verdictStep n t).pool = s.pool
      ∧ (s.verdictStep n t).groups = s.groups ∧ (s.verdictStep n t).deadlines = s.deadlines
      ∧ (s.verdictStep n t).presentations = s.presentations ∧ (s.verdictStep n t).line = s.line
      ∧ (s.verdictStep n t).sweep = s.sweep ∧ (s.verdictStep n t).supply = s.supply
      ∧ (s.verdictStep n t).lastDoor = s.lastDoor ∧ (s.verdictStep n t).pending = s.pending := by
  unfold State.verdictStep; (repeat' split) <;> simp

@[simp] theorem State.contactStep_frame (n : Nat) (o l : Bool) :
    (s.contactStep n o l).clock = s.clock ∧ (s.contactStep n o l).settings = s.settings
      ∧ (s.contactStep n o l).permits = s.permits ∧ (s.contactStep n o l).revoked = s.revoked
      ∧ (s.contactStep n o l).rooms = s.rooms ∧ (s.contactStep n o l).pool = s.pool
      ∧ (s.contactStep n o l).groups = s.groups ∧ (s.contactStep n o l).deadlines = s.deadlines
      ∧ (s.contactStep n o l).presentations = s.presentations ∧ (s.contactStep n o l).line = s.line
      ∧ (s.contactStep n o l).sweep = s.sweep ∧ (s.contactStep n o l).supply = s.supply
      ∧ (s.contactStep n o l).lastDoor = s.lastDoor ∧ (s.contactStep n o l).pending = s.pending := by
  unfold State.contactStep; (repeat' split) <;> simp

@[simp] theorem State.reportStep_frame (n : Nat) (t : Toggle) (d : Side) (c : Nat) :
    (s.reportStep n t d c).clock = s.clock ∧ (s.reportStep n t d c).settings = s.settings
      ∧ (s.reportStep n t d c).permits = s.permits ∧ (s.reportStep n t d c).revoked = s.revoked
      ∧ (s.reportStep n t d c).rooms = s.rooms ∧ (s.reportStep n t d c).pool = s.pool
      ∧ (s.reportStep n t d c).groups = s.groups ∧ (s.reportStep n t d c).deadlines = s.deadlines
      ∧ (s.reportStep n t d c).line = s.line ∧ (s.reportStep n t d c).trail = s.trail
      ∧ (s.reportStep n t d c).host = s.host ∧ (s.reportStep n t d c).sweep = s.sweep
      ∧ (s.reportStep n t d c).supply = s.supply ∧ (s.reportStep n t d c).lastDoor = s.lastDoor
      ∧ (s.reportStep n t d c).pending = s.pending := by
  unfold State.reportStep; (repeat' split) <;> simp

end Sys2Proof.Machine
end

