-- ==== Sys2Proof/Laws/Operations.lean ====
section
/-! SUPPORT. What each shared operation can do, said once: table lookups, records handed to the trail, notices, the
transmitter, verdicts, the deadline queue, removals and pairing groups. -/
namespace Sys2Proof.Machine

/-! ### Lookups -/

theorem nth_setNth_self {α : Type} (l : List α) (n : Nat) (x d : α) (h : 1 ≤ n) (h' : n ≤ l.length) :
    nth (setNth l n x) n d = x := by
  cases n with
  | zero => omega
  | succ k => simp [nth, setNth, List.getD, show k < l.length by omega]

theorem nth_setNth_ne {α : Type} (l : List α) (n k : Nat) (x d : α) (h : k ≠ n) : nth (setNth l n x) k d = nth l k d := by
  cases n with
  | zero => rfl
  | succ m =>
    cases k with
    | zero => rfl
    | succ j => simp [nth, setNth, List.getD, show ¬ m = j by omega]

@[simp] theorem setNth_length {α : Type} (l : List α) (n : Nat) (x : α) : (setNth l n x).length = l.length := by
  cases n <;> simp [setNth]

/-- A station written is read back; every other reads as before (R128). -/
theorem station_setStation_self {s : State} {n : Nat} {st : Station} (h : 1 ≤ n) (h' : n ≤ s.stations.length) :
    (s.setStation n st).station n = st := nth_setNth_self _ _ _ _ h h'

theorem station_setStation_ne {s : State} {n k : Nat} {st : Station} (h : k ≠ n) :
    (s.setStation n st).station k = s.station k := nth_setNth_ne _ _ _ _ _ h

/-- A room written is read back; every other reads as before (R22). -/
theorem room_setRoom_self {s : State} {n : Nat} {r : Room} (h : 1 ≤ n) (h' : n ≤ s.rooms.length) :
    (s.setRoom n r).room n = r := nth_setNth_self _ _ _ _ h h'

theorem room_setRoom_ne {s : State} {n k : Nat} {r : Room} (h : k ≠ n) : (s.setRoom n r).room k = s.room k :=
  nth_setNth_ne _ _ _ _ _ h

theorem station_congr {s t : State} (h : t.stations = s.stations) (n : Nat) : t.station n = s.station n := by
  simp [State.station, h]

theorem room_congr {s t : State} (h : t.rooms = s.rooms) (n : Nat) : t.room n = s.room n := by simp [State.room, h]

theorem now_congr {s t : State} (h : t.clock = s.clock) : t.now = s.now := by simp [State.now, h]

theorem occupants_congr {s t : State} (h : t.pool = s.pool) (n : Nat) : t.occupants n = s.occupants n := by
  simp [State.occupants, h]

/-- A field that each step of a fold keeps is kept by the fold. -/
theorem foldl_keeps {α β : Type} (g : State → β) (f : State → α → State) (h : ∀ s x, g (f s x) = g s) (l : List α) :
    ∀ s, g (l.foldl f s) = g s := by
  induction l with
  | nil => intro s; rfl
  | cons x xs ih => intro s; rw [List.foldl_cons, ih, h]

/-! ### The trail, notices and the transmitter -/

/-- R153, R154: all that handing a record to the trail can do. -/
theorem Trail.put_spec (t : Trail) (r : TrailRecord) :
    (t.filling = none ∧ t.put r = ({ t with lost := min 65535 (t.lost + 1) }, none))
    ∨ (∃ h, t.filling = some h ∧ (t.half h).records.length ≤ 62
        ∧ t.put r = (t.setHalf h ⟨.filling, (t.half h).records ++ [r]⟩, none))
    ∨ (∃ h, t.filling = some h ∧ 63 ≤ (t.half h).records.length
        ∧ t.put r = (t.close h ((t.half h).records ++ [r]),
            some (.trailHalf h false (t.close h ((t.half h).records ++ [r])).full))) := by
  unfold Trail.put
  cases hf : t.filling with
  | none => exact .inl ⟨rfl, rfl⟩
  | some h =>
    by_cases hl : (t.half h).records.length + 1 < Config.recordsPerHalf
    · exact .inr (.inl ⟨h, rfl, by simp [Config.recordsPerHalf] at hl; omega, by simp [hl]⟩)
    · exact .inr (.inr ⟨h, rfl, by simp [Config.recordsPerHalf] at hl; omega, by simp [hl]⟩)

/-- R166: a notice offered is the last of the queue, or is dropped when sixteen wait. -/
theorem State.offer_spec (s : State) (n : Notice) :
    (s.host.notices.length ≤ 15 ∧ (s.offer n).host = { s.host with notices := s.host.notices ++ [n] })
    ∨ (16 ≤ s.host.notices.length ∧ (s.offer n).host = { s.host with noticesDropped := true }) := by
  unfold State.offer
  by_cases h : s.host.notices.length < Config.notices
  · exact .inl ⟨by simp [Config.notices] at h; omega, by simp [h]⟩
  · exact .inr ⟨by simp [Config.notices] at h; omega, by simp [h]⟩

/-- Offering a notice, handing a record and all that is built of them keep every field of the host line but the notice
queue and its flag. -/
theorem State.offer_host (s : State) (n : Notice) :
    { (s.offer n).host with notices := s.host.notices, noticesDropped := s.host.noticesDropped } = s.host := by
  unfold State.offer; split <;> rfl

theorem State.put_host (s : State) (r : TrailRecord) :
    { (s.put r).host with notices := s.host.notices, noticesDropped := s.host.noticesDropped } = s.host := by
  unfold State.put State.offerSome; split
  · rfl
  · exact State.offer_host _ _

theorem State.put_trail (s : State) (r : TrailRecord) : (s.put r).trail = (s.trail.put (s.stamp r)).1 := by
  unfold State.put State.offerSome; split <;> simp

/-- R165: a transmitter that is sending is left alone. -/
theorem HostLine.begin_sending (h : HostLine) (x : Sending) (hs : h.sending = some x) : h.begin = h := by
  simp [HostLine.begin, hs]

/-- R165: the transmitter takes of what waits and changes nothing else of the host line. -/
theorem HostLine.begin_keeps (h : HostLine) :
    h.begin.receiving = h.receiving ∧ h.begin.outstanding = h.outstanding ∧ h.begin.frameDiscarded = h.frameDiscarded
      ∧ h.begin.noticesDropped = h.noticesDropped ∧ h.begin.rateCode = h.rateCode := by
  unfold HostLine.begin; (repeat' split) <;> simp

/-! ### The deadline queue (R92, R93) -/

theorem mem_insertDeadline (e x : DeadlineEntry) (l : List DeadlineEntry) :
    x ∈ insertDeadline e l ↔ x = e ∨ x ∈ l := by
  induction l with
  | nil => simp [insertDeadline]
  | cons y ys ih => simp only [insertDeadline]; split <;> simp [ih]; tauto

/-- R93: an entry inserted into a queue in ascending due second keeps it so. -/
theorem insertDeadline_sorted (e : DeadlineEntry) (l : List DeadlineEntry)
    (h : l.Pairwise (fun x y => x.due ≤ y.due)) : (insertDeadline e l).Pairwise (fun x y => x.due ≤ y.due) := by
  induction l with
  | nil => simp [insertDeadline]
  | cons y ys ih =>
    simp only [List.pairwise_cons] at h
    simp only [insertDeadline]
    split
    · rename_i hy
      refine List.pairwise_cons.2 ⟨fun x hx => ?_, ih h.2⟩
      rcases (mem_insertDeadline e x ys).1 hx with rfl | hx
      · exact hy
      · exact h.1 x hx
    · rename_i hy
      refine List.pairwise_cons.2 ⟨fun x hx => ?_, List.pairwise_cons.2 h⟩
      rcases List.mem_cons.1 hx with rfl | hx
      · omega
      · have := h.1 x hx; omega

/-! ### Verdicts (R48, R140) -/

/-- R48: the placement of a verdict touches the slot and its toggle alone. -/
theorem Station.place_keeps (st : Station) (o : VerdictOutcome) (r : Reason) :
    { st.place o r with verdict := st.verdict, verdictToggle := st.verdictToggle } = st := by
  unfold Station.place; (repeat' split) <;> rfl

/-! ### Removals and pairing groups -/

@[simp] theorem State.lapse_frame (r : Reason) (s : State) (o : Occupant) :
    (State.lapse r s o).clock = s.clock ∧ (State.lapse r s o).settings = s.settings
      ∧ (State.lapse r s o).permits = s.permits ∧ (State.lapse r s o).revoked = s.revoked
      ∧ (State.lapse r s o).rooms = s.rooms ∧ (State.lapse r s o).groups = s.groups
      ∧ (State.lapse r s o).presentations = s.presentations ∧ (State.lapse r s o).stations = s.stations
      ∧ (State.lapse r s o).line = s.line ∧ (State.lapse r s o).sweep = s.sweep
      ∧ (State.lapse r s o).supply = s.supply ∧ (State.lapse r s o).lastDoor = s.lastDoor
      ∧ (State.lapse r s o).pending = s.pending := by
  simp [State.lapse]

@[simp] theorem State.denyMember_frame (g : Group) (r : Reason) (s : State) (m : Member) :
    (State.denyMember g r s m).clock = s.clock ∧ (State.denyMember g r s m).settings = s.settings
      ∧ (State.denyMember g r s m).permits = s.permits ∧ (State.denyMember g r s m).revoked = s.revoked
      ∧ (State.denyMember g r s m).rooms = s.rooms ∧ (State.denyMember g r s m).pool = s.pool
      ∧ (State.denyMember g r s m).groups = s.groups ∧ (State.denyMember g r s m).deadlines = s.deadlines
      ∧ (State.denyMember g r s m).presentations = s.presentations ∧ (State.denyMember g r s m).stations = s.stations
      ∧ (State.denyMember g r s m).line = s.line ∧ (State.denyMember g r s m).sweep = s.sweep
      ∧ (State.denyMember g r s m).supply = s.supply ∧ (State.denyMember g r s m).lastDoor = s.lastDoor
      ∧ (State.denyMember g r s m).pending = s.pending := by
  simp [State.denyMember]

@[simp] theorem State.grantMember_frame (g : Group) (t : Option (Nat × Nat)) (s : State) (m : Member) :
    (State.grantMember g t s m).clock = s.clock ∧ (State.grantMember g t s m).settings = s.settings
      ∧ (State.grantMember g t s m).permits = s.permits ∧ (State.grantMember g t s m).revoked = s.revoked
      ∧ (State.grantMember g t s m).rooms = s.rooms ∧ (State.grantMember g t s m).pool = s.pool
      ∧ (State.grantMember g t s m).groups = s.groups ∧ (State.grantMember g t s m).deadlines = s.deadlines
      ∧ (State.grantMember g t s m).presentations = s.presentations
      ∧ (State.grantMember g t s m).stations = s.stations ∧ (State.grantMember g t s m).line = s.line
      ∧ (State.grantMember g t s m).sweep = s.sweep ∧ (State.grantMember g t s m).supply = s.supply
      ∧ (State.grantMember g t s m).lastDoor = s.lastDoor ∧ (State.grantMember g t s m).pending = s.pending := by
  simp [State.grantMember]

@[simp] theorem foldl_denyMember_frame (g : Group) (r : Reason) (l : List Member) (s : State) :
    (l.foldl (State.denyMember g r) s).clock = s.clock ∧ (l.foldl (State.denyMember g r) s).settings = s.settings
      ∧ (l.foldl (State.denyMember g r) s).permits = s.permits
      ∧ (l.foldl (State.denyMember g r) s).revoked = s.revoked ∧ (l.foldl (State.denyMember g r) s).rooms = s.rooms
      ∧ (l.foldl (State.denyMember g r) s).pool = s.pool ∧ (l.foldl (State.denyMember g r) s).groups = s.groups
      ∧ (l.foldl (State.denyMember g r) s).deadlines = s.deadlines
      ∧ (l.foldl (State.denyMember g r) s).presentations = s.presentations
      ∧ (l.foldl (State.denyMember g r) s).stations = s.stations ∧ (l.foldl (State.denyMember g r) s).line = s.line
      ∧ (l.foldl (State.denyMember g r) s).sweep = s.sweep ∧ (l.foldl (State.denyMember g r) s).supply = s.supply
      ∧ (l.foldl (State.denyMember g r) s).lastDoor = s.lastDoor
      ∧ (l.foldl (State.denyMember g r) s).pending = s.pending := by
  refine ⟨?_, ?_, ?_, ?_, ?_, ?_, ?_, ?_, ?_, ?_, ?_, ?_, ?_, ?_, ?_⟩ <;>
  · refine foldl_keeps _ _ (fun s m => ?_) l s
    simp

@[simp] theorem foldl_grantMember_frame (g : Group) (t : Option (Nat × Nat)) (l : List Member) (s : State) :
    (l.foldl (State.grantMember g t) s).clock = s.clock ∧ (l.foldl (State.grantMember g t) s).settings = s.settings
      ∧ (l.foldl (State.grantMember g t) s).permits = s.permits
      ∧ (l.foldl (State.grantMember g t) s).revoked = s.revoked ∧ (l.foldl (State.grantMember g t) s).rooms = s.rooms
      ∧ (l.foldl (State.grantMember g t) s).pool = s.pool ∧ (l.foldl (State.grantMember g t) s).groups = s.groups
      ∧ (l.foldl (State.grantMember g t) s).deadlines = s.deadlines
      ∧ (l.foldl (State.grantMember g t) s).presentations = s.presentations
      ∧ (l.foldl (State.grantMember g t) s).stations = s.stations ∧ (l.foldl (State.grantMember g t) s).line = s.line
      ∧ (l.foldl (State.grantMember g t) s).sweep = s.sweep ∧ (l.foldl (State.grantMember g t) s).supply = s.supply
      ∧ (l.foldl (State.grantMember g t) s).lastDoor = s.lastDoor
      ∧ (l.foldl (State.grantMember g t) s).pending = s.pending := by
  refine ⟨?_, ?_, ?_, ?_, ?_, ?_, ?_, ?_, ?_, ?_, ?_, ?_, ?_, ?_, ?_⟩ <;>
  · refine foldl_keeps _ _ (fun s m => ?_) l s
    simp

@[simp] theorem foldl_lapse_frame (r : Reason) (l : List Occupant) (s : State) :
    (l.foldl (State.lapse r) s).clock = s.clock ∧ (l.foldl (State.lapse r) s).settings = s.settings
      ∧ (l.foldl (State.lapse r) s).permits = s.permits ∧ (l.foldl (State.lapse r) s).revoked = s.revoked
      ∧ (l.foldl (State.lapse r) s).rooms = s.rooms ∧ (l.foldl (State.lapse r) s).groups = s.groups
      ∧ (l.foldl (State.lapse r) s).presentations = s.presentations
      ∧ (l.foldl (State.lapse r) s).stations = s.stations ∧ (l.foldl (State.lapse r) s).line = s.line
      ∧ (l.foldl (State.lapse r) s).sweep = s.sweep ∧ (l.foldl (State.lapse r) s).supply = s.supply
      ∧ (l.foldl (State.lapse r) s).lastDoor = s.lastDoor ∧ (l.foldl (State.lapse r) s).pending = s.pending := by
  refine ⟨?_, ?_, ?_, ?_, ?_, ?_, ?_, ?_, ?_, ?_, ?_, ?_, ?_⟩ <;>
  · refine foldl_keeps _ _ (fun s o => ?_) l s
    simp

/-- R76: what a completion leaves alone. -/
@[simp] theorem State.completeGroup_frame (s : State) (g : Group) (t : Option (Nat × Nat)) :
    (s.completeGroup g t).clock = s.clock ∧ (s.completeGroup g t).settings = s.settings
      ∧ (s.completeGroup g t).permits = s.permits ∧ (s.completeGroup g t).revoked = s.revoked
      ∧ (s.completeGroup g t).presentations = s.presentations ∧ (s.completeGroup g t).line = s.line
      ∧ (s.completeGroup g t).sweep = s.sweep ∧ (s.completeGroup g t).supply = s.supply
      ∧ (s.completeGroup g t).lastDoor = s.lastDoor ∧ (s.completeGroup g t).pending = s.pending := by
  simp [State.completeGroup]

@[simp] theorem State.retestFor_frame (room : Nat) (k : Nat) : ∀ s : State,
    (State.retestFor k room s).clock = s.clock ∧ (State.retestFor k room s).settings = s.settings
      ∧ (State.retestFor k room s).permits = s.permits ∧ (State.retestFor k room s).revoked = s.revoked
      ∧ (State.retestFor k room s).presentations = s.presentations ∧ (State.retestFor k room s).line = s.line
      ∧ (State.retestFor k room s).sweep = s.sweep ∧ (State.retestFor k room s).supply = s.supply
      ∧ (State.retestFor k room s).lastDoor = s.lastDoor ∧ (State.retestFor k room s).pending = s.pending := by
  induction k with
  | zero => intro s; simp [State.retestFor]
  | succ k ih =>
    intro s
    unfold State.retestFor
    split <;> simp [ih]

/-- R75: what a re-test of a room leaves alone. -/
@[simp] theorem State.retest_frame (s : State) (room : Nat) :
    (s.retest room).clock = s.clock ∧ (s.retest room).settings = s.settings ∧ (s.retest room).permits = s.permits
      ∧ (s.retest room).revoked = s.revoked ∧ (s.retest room).presentations = s.presentations
      ∧ (s.retest room).line = s.line ∧ (s.retest room).sweep = s.sweep ∧ (s.retest room).supply = s.supply
      ∧ (s.retest room).lastDoor = s.lastDoor ∧ (s.retest room).pending = s.pending := by
  simp [State.retest]

@[simp] theorem State.afterRemoval_frame (s : State) (room : Nat) :
    (s.afterRemoval room).clock = s.clock ∧ (s.afterRemoval room).settings = s.settings
      ∧ (s.afterRemoval room).permits = s.permits ∧ (s.afterRemoval room).revoked = s.revoked
      ∧ (s.afterRemoval room).presentations = s.presentations ∧ (s.afterRemoval room).line = s.line
      ∧ (s.afterRemoval room).sweep = s.sweep ∧ (s.afterRemoval room).supply = s.supply
      ∧ (s.afterRemoval room).lastDoor = s.lastDoor ∧ (s.afterRemoval room).pending = s.pending := by
  simp [State.afterRemoval]

/-- R76: the records a completion creates stand at the end of the list, the members in order. -/
theorem State.completeGroup_pool (s : State) (g : Group) (t : Option (Nat × Nat)) :
    (s.completeGroup g t).pool = s.pool ++ g.members.map (Member.toRecord g) := by
  simp [State.completeGroup]

theorem State.completeGroup_groups (s : State) (g : Group) (t : Option (Nat × Nat)) :
    (s.completeGroup g t).groups = s.groups.filter (fun x => x.station ≠ g.station) := by
  simp [State.completeGroup]

theorem State.completeGroup_stations (s : State) (g : Group) (t : Option (Nat × Nat)) :
    (s.completeGroup g t).stations = (s.placeVerdict g.station .release .groupComplete).stations := by
  simp [State.completeGroup, State.placeVerdict, State.station]

end Sys2Proof.Machine
end

