-- ==== Sys2Proof/Laws/Requests.lean ====
section
/-! SUPPORT. What serving a request and carrying out a job can do: one lemma each, cited in place of unfolding the
arbiter's wrappers. -/
namespace Sys2Proof.Machine

theorem requestJob_answers {i : Instr} {s t : State} {f : Frame} {body : List Byte}
    {serve : List Byte → State → Except ReplyCode (State × List Byte)} (h : s.serving i f)
    (hs : serve f.body s = .ok (t, body)) :
    requestJob i s serve = .next { t with host := t.host.handed f .ok body } := by
  simp [requestJob, h.1, h.2, hs, State.answer, State.hand, State.pump, HostLine.handed]

theorem requestJob_refuses {i : Instr} {s : State} {f : Frame} {code : ReplyCode}
    {serve : List Byte → State → Except ReplyCode (State × List Byte)} (h : s.serving i f)
    (hs : serve f.body s = .error code) :
    requestJob i s serve = .next { s with host := s.host.handed f code [] } := by
  simp [requestJob, h.1, h.2, hs, State.answer, State.hand, State.pump, HostLine.handed]

/-- A job not granted takes no place. -/
theorem requestJob_idle {i : Instr} {s : State} {serve : List Byte → State → Except ReplyCode (State × List Byte)}
    (h : s.granted ≠ some i) : requestJob i s serve = .next s := by
  simp [requestJob, h]

theorem acceptedRequest_answers {i : Instr} {s t : State} {f : Frame} {body : List Byte}
    {serve : List Byte → State → Except ReplyCode (State × List Byte)} (h : s.acceptedFor i = some f)
    (hs : serve f.body s = .ok (t, body)) :
    acceptedRequest i s serve = .next { t with host := t.host.handed f .ok body } := by
  simp [acceptedRequest, h, hs, State.answer, State.hand, State.pump, HostLine.handed]

theorem acceptedRequest_refuses {i : Instr} {s : State} {f : Frame} {code : ReplyCode}
    {serve : List Byte → State → Except ReplyCode (State × List Byte)} (h : s.acceptedFor i = some f)
    (hs : serve f.body s = .error code) :
    acceptedRequest i s serve = .next { s with host := s.host.handed f code [] } := by
  simp [acceptedRequest, h, hs, State.answer, State.hand, State.pump, HostLine.handed]

theorem acceptedFor_eq {i : Instr} {s : State} {f : Frame} (hr : s.inReset = false) (hu : s.unserved = some f)
    (ha : servedAtAcceptance f = true) (hi : requestRow f = i) : s.acceptedFor i = some f := by
  simp [State.acceptedFor, hr, hu, ha, hi]

/-- The request a row serves at acceptance is the outstanding one, not yet served. -/
theorem acceptedFor_spec {i : Instr} {s : State} {f : Frame} (h : s.acceptedFor i = some f) :
    s.inReset = false ∧ s.unserved = some f ∧ servedAtAcceptance f = true ∧ requestRow f = i := by
  unfold State.acceptedFor at h
  split at h
  · cases h
  · split at h
    · split at h
      · cases h; simp_all
      · cases h
    · cases h

theorem whenGranted_leaves {i : Instr} {s : State} {job : State → State} (h : s.granted = some i) :
    whenGranted i s job = .next { job s with host := (job s).host.begin } := by
  simp [whenGranted, h, State.pump]

theorem whenGranted_idle {i : Instr} {s : State} {job : State → State} (h : s.granted ≠ some i) :
    whenGranted i s job = .next s := by
  simp [whenGranted, h]

/-- The request unserved is the outstanding one. -/
theorem unserved_spec {s : State} {f : Frame} (h : s.unserved = some f) : s.host.outstanding = some ⟨f, false⟩ := by
  unfold State.unserved at h
  split at h
  · rename_i o ho
    split at h
    · cases h
    · cases h; cases o; simp_all
  · cases h

end Sys2Proof.Machine
end

