-- ==== Sys2Proof/Laws/Standby.lean ====
section
/-! SUPPORT. What an accepted STANDBY, its stop and the wake can do (R98, R149, R172, R174, R175). -/
namespace Sys2Proof.Machine

@[simp] theorem HostLine.hunt_receiving (h : HostLine) : h.hunt.receiving = false := rfl
@[simp] theorem HostLine.hunt_outstanding (h : HostLine) : h.hunt.outstanding = h.outstanding := rfl
@[simp] theorem HostLine.hunt_busy (h : HostLine) : h.hunt.busy = h.busy := rfl
@[simp] theorem HostLine.hunt_reply (h : HostLine) : h.hunt.reply = h.reply := rfl
@[simp] theorem HostLine.hunt_notices (h : HostLine) : h.hunt.notices = h.notices := rfl
@[simp] theorem HostLine.hunt_sending (h : HostLine) : h.hunt.sending = h.sending := rfl
@[simp] theorem HostLine.hunt_frameDiscarded (h : HostLine) : h.hunt.frameDiscarded = h.frameDiscarded := rfl
@[simp] theorem HostLine.hunt_noticesDropped (h : HostLine) : h.hunt.noticesDropped = h.noticesDropped := rfl

/-- R172, R175: after a wake the mode is the one the supply-good line gives, with the flag clear, and the rest of the
supply state is as it was. -/
theorem State.wake_supply (s : State) (c : ModeCause) :
    (s.wake c).supply = { s.supply with mode := s.supply.modeOfLine, byRequest := false } := by
  simp [State.wake, State.changeMode, State.restartLine]

/-- R175: the sweep interval timer starts from 0 at a wake. -/
theorem State.wake_sweep (s : State) (c : ModeCause) : (s.wake c).sweep = { s.sweep with count := 0 } := by
  simp [State.wake, State.changeMode, State.restartLine]

theorem Supply.modeOfLine_ne_standby (p : Supply) : p.modeOfLine ≠ .standby := by
  unfold Supply.modeOfLine; split <;> simp

/-- R174: without a wake the stop ends the round after the turn under way, stops the sweep interval timer with its count
0, and has the receiver hunt; nothing else moves. -/
theorem State.stop_spec (s : State) (h : s.supply.wakeAtStop = none) :
    s.stop = { s with
      host := s.host.hunt
      line := s.line.stopped
      sweep := { s.sweep with count := 0 }
      supply := { s.supply with stopPending := false, fromReserve := false, heldWake := none } } := by
  simp [State.stop, h]

/-- R174, R98: an accepted STANDBY leaves the sweep interval timer running, with its count and toward the interval it was
counting toward (log entry 14). -/
theorem State.requestStandby_sweep (s : State) (h : s.inReset = false) (hm : s.supply.mode ≠ .standby) :
    s.requestStandby.sweep = s.sweep ∧ s.requestStandby.sweepRuns = true
      ∧ s.requestStandby.effectiveInterval = s.effectiveInterval := by
  cases hs : s.supply.mode <;>
    simp_all [State.requestStandby, State.changeMode, State.sweepRuns, State.lineRuns, State.effectiveInterval,
      State.inReset]

/-- R174, R175: with a wake at once the part is in RUN or RESERVE after the stop. -/
theorem State.stop_wakes (s : State) (c : ModeCause) (h : s.supply.wakeAtStop = some c) :
    s.stop.supply.mode = s.supply.modeOfLine := by
  simp only [State.stop, h, State.wake_supply]
  rfl

/-- R174, R98: the stop is made once; no wake event is held after it, and the timer's count is 0. -/
theorem State.stop_done (s : State) :
    s.stop.supply.stopPending = false ∧ s.stop.supply.heldWake = none ∧ s.stop.sweep.count = 0 := by
  cases h : s.supply.wakeAtStop with
  | none => simp [State.stop_spec s h]
  | some c => simp [State.stop, h, State.wake_supply, State.wake_sweep]

end Sys2Proof.Machine
end

