-- ==== Sys2Proof/Laws/Startup.lean ====
section
/-! SUPPORT. What a start-up can do, whole and cut short (R176, R178), and when the sweep interval timer runs (R98). -/
namespace Sys2Proof.Machine

/-- R98, R174: the timer runs outside reset, in RUN and RESERVE and in STANDBY until the stop. -/
theorem State.sweepRuns_iff (s : State) :
    s.sweepRuns = true ↔ s.inReset = false ∧ (s.supply.mode ≠ .standby ∨ s.supply.stopPending = true) := by
  simp [State.sweepRuns, State.lineRuns]

theorem State.effectiveInterval_run (s : State) (h : s.supply.mode = .run) :
    s.effectiveInterval = s.settings.sweepInterval * 60 := by simp [State.effectiveInterval, h]

theorem State.effectiveInterval_reserve (s : State) (h : s.supply.mode = .reserve) :
    s.effectiveInterval = s.settings.sweepInterval * 120 := by simp [State.effectiveInterval, h]

@[simp] theorem stepsTaken_none : stepsTaken none = startUpSteps := rfl

/-- R178: a start-up cut after a step carries out that step, the steps before it, and no other. -/
theorem mem_stepsTaken_some (c : StartUpCut) (x : StartUpStep) :
    x ∈ stepsTaken (some c) ↔ startUpSteps.idxOf x ≤ startUpSteps.idxOf c.after := by
  obtain ⟨after, hold⟩ := c
  cases after <;> cases x <;> simp [stepsTaken, startUpSteps]

/-! ### What each step keeps -/

@[simp] theorem State.resetUnretained_clock (s : State) : s.resetUnretained.clock = s.clock := rfl
@[simp] theorem State.resetUnretained_permits (s : State) : s.resetUnretained.permits = s.permits := rfl
@[simp] theorem State.resetUnretained_rooms (s : State) : s.resetUnretained.rooms = s.rooms := rfl
@[simp] theorem State.resetUnretained_pool (s : State) : s.resetUnretained.pool = s.pool := rfl
@[simp] theorem State.resetUnretained_groups (s : State) : s.resetUnretained.groups = s.groups := rfl
@[simp] theorem State.resetUnretained_trail (s : State) : s.resetUnretained.trail = s.trail := rfl
@[simp] theorem State.resetUnretained_deadlines (s : State) : s.resetUnretained.deadlines = [] := rfl
@[simp] theorem State.resetUnretained_presentations (s : State) : s.resetUnretained.presentations = [] := rfl
@[simp] theorem State.takeMode_permits (s : State) (r : Nat) : (s.takeMode r).permits = s.permits := rfl
@[simp] theorem State.takeMode_rooms (s : State) (r : Nat) : (s.takeMode r).rooms = s.rooms := rfl
@[simp] theorem State.takeMode_pool (s : State) (r : Nat) : (s.takeMode r).pool = s.pool := rfl
@[simp] theorem State.takeMode_groups (s : State) (r : Nat) : (s.takeMode r).groups = s.groups := rfl
@[simp] theorem State.takeMode_trail (s : State) (r : Nat) : (s.takeMode r).trail = s.trail := rfl
@[simp] theorem State.writeMark_pool (s : State) : s.writeMark.pool = s.pool := rfl
@[simp] theorem State.writeMark_groups (s : State) : s.writeMark.groups = s.groups := rfl
@[simp] theorem State.writeMark_trail (s : State) : s.writeMark.trail = s.trail := rfl
@[simp] theorem State.writeMark_deadlines (s : State) : s.writeMark.deadlines = s.deadlines := rfl

/-- R178 step 5: only the notice queue moves. -/
theorem State.offerReady_keeps (s : State) (k : RestartKind) (lost : Bool) :
    { s.offerReady k lost with host := s.host } = s := rfl

/-- R176: held again, the part is in reset, and only its host line and the hold have moved. -/
theorem State.holdAgain_spec (s : State) (h : ResetHold) :
    (s.holdAgain h).inReset = true ∧ { s.holdAgain h with host := s.host, supply := s.supply } = s := by
  cases h <;> simp [State.holdAgain, State.inReset]

/-- R178: a start-up cut short leaves the part in reset. -/
theorem State.startUp_cut_inReset (s : State) (event : RestartKind) (inputs : RestartInputs) (c : StartUpCut)
    (h : inputs.cut = some c) : (s.startUp event inputs).inReset = true := by
  simp only [State.startUp, h]
  exact (State.holdAgain_spec _ _).1

end Sys2Proof.Machine
end

