-- ==== Sys2Proof/Tests/Slice0.lean ====
section
/-! SUPPORT. Tests: the well-formedness smoke tests, worked values of the manual, and for each statement with hypotheses a
witness, one conjunct for each clause, that they can be met together. -/
namespace Sys2Proof.Tests
open Sys2Proof Sys2Proof.Machine
-- One theorem at a time: each kernel evaluation waits for the one before it, and a waiting theorem holds a thread.
set_option Elab.async false

/-! ### Small states -/

/-- Day 100, 08:20:00, nothing being sent. -/
def base : State :=
  { State.reset with clock := ⟨false, 100, 30000, false⟩, host := { State.reset.host with sending := none } }
/-- A general worker's permit for rooms 1 and 2, valid until minute 200000. -/
def permit (number credential : Nat) : Permit :=
  { number := number, credential := credential, role := .worker, rooms := [1, 2], validFrom := 0, validUntil := 200000
    window := none, needsEscort := false, maxStay := 60, allowance := none, status := .active }
/-- A station of room 1 in SERVE, ONLINE, SECURE. -/
def door1 : Station := { defaultStation with room := 1, channel := .serve, link := .online, door := .secure }
def occ (credential : Nat) (presence : Presence) : Occupant :=
  { credential := credential, permit := credential, role := .worker, needsEscort := false, room := 1, station := 1
    presence := presence, overstay := .clear, revokedInside := false }
def mem (credential : Nat) : Member := ⟨credential, credential, .worker, false, 8669990⟩
def pair (credential : Nat) : Group := ⟨1, 1, [mem credential], 8670020⟩
/-- Room 1 two-person in SERVICE, station 1 at it, permits 11 to 13 of credentials 11 to 13. -/
def site : State :=
  { base with
    rooms := { defaultRoom with cls := .twoPerson, mode := .service } :: List.replicate 11 defaultRoom
    stations := door1 :: List.replicate 15 defaultStation
    permits := [(0, permit 11 11), (1, permit 12 12), (2, permit 13 13)] }
/-- Room 1 a general room. -/
def hall : State := { site with rooms := { defaultRoom with mode := .service } :: List.replicate 11 defaultRoom }
def req (kind : Byte) (body : List Byte) : Frame := ⟨kind, 7, body⟩
/-- The state with a request outstanding. -/
def asked (s : State) (kind : Byte) (body : List Byte) : State :=
  { s with host := { s.host with outstanding := some ⟨req kind body, false⟩ } }
/-- A presentation of station 1 at the head of the queue. -/
def tapped (s : State) (side : Side) (credential : Nat) : State :=
  { s with presentations := [⟨1, side, credential, 8669999⟩] }
def inputs : RestartInputs := ⟨false, false, .kept, none⟩
def turnOf (s : State) (settle : Bool) : State := { s with line := { s.line with round := some ⟨[], some ⟨1, []⟩, settle⟩ } }

/-! ### Well-formedness, and values of the manual -/

theorem test_wf_frame_too_short : WellFormed (.frameReceived [1, 0, 1, 7, 0]) = false := by decide
theorem test_wf_frame_wrong_length : WellFormed (.frameReceived [1, 0, 1, 7, 0, 0]) = false := by decide
theorem test_wf_good_answer_empty : WellFormed (.goodAnswer []) = false := by decide
theorem test_wf_good_answer_sum : WellFormed (.goodAnswer [plainChar 4, plainChar 251]) = false := by decide
theorem test_wf_good_answer_mark : WellFormed (.goodAnswer [⟨true, false, 4⟩, plainChar 252]) = false := by decide
theorem test_wf_corrupt_answer_good : WellFormed (.corruptAnswer [plainChar 4, plainChar 252]) = false := by decide
theorem test_wf_corrupt_answer_empty : WellFormed (.corruptAnswer []) = false := by decide
theorem test_wf_release_timer_station : WellFormed (.releaseTimerExpiry 17) = false := by decide
theorem test_wf_held_timer_station : WellFormed (.heldTimerExpiry 0) = false := by decide
/-- The check value of the CRC of R160 over the characters 1 to 9: 0x29B1. -/
theorem test_crc_check_value : crc [0x31, 0x32, 0x33, 0x34, 0x35, 0x36, 0x37, 0x38, 0x39] = 0x29B1 := by decide +kernel
/-- Start-up on a part that never ran before gives the state after reset (R178). -/
theorem test_start_up_is_reset :
    ({ State.reset with supply := { State.reset.supply with markPresent := false } } : State).startUp .resetLine inputs
      = State.reset := by decide +kernel

/-- The worked call of section 12.4: station 3, RELEASE of 8 s with toggle 0, acknowledge toggle 1; check 242. -/
theorem test_call_of_section_12_4 :
    (callChars 3 { defaultStation with room := 1, verdict := some ⟨.release, .granted, 8, false, false⟩ }).map StationChar.data
      = [3, 3, 0, 8, 242] := by decide
/-- The worked occurrences of section 6.1, weekday offset 3 (the mask's bit 0 is Monday). -/
theorem test_occurrences_of_section_6_1 :
    let day := some (⟨420, 1140, 31⟩ : Window)
    let night := some (⟨1320, 360, 63⟩ : Window)
    let whole := some (⟨480, 480, 31⟩ : Window)
    occurrence day 3 147480 = .inside (some 148020) ∧ occurrence day 3 146040 = .outside
      ∧ occurrence day 3 148020 = .outside ∧ occurrence night 3 145650 = .inside (some 145800)
      ∧ occurrence night 3 146820 = .outside ∧ occurrence night 3 147180 = .outside
      ∧ occurrence night 3 148260 = .inside (some 148680) ∧ occurrence night 3 180 = .outside
      ∧ occurrence whole 3 143460 = .inside (some 144000) ∧ occurrence whole 3 146340 = .outside
      ∧ occurrence whole 3 147780 = .inside (some 154080)
      ∧ occurrence (some ⟨480, 480, 127⟩) 3 147780 = .inside none ∧ occurrence (some ⟨0, 60, 0⟩) 3 147780 = .outside := by
  decide +kernel
/-- R113: the debits of 0 s, 60 s, 61 s and of a clock set back. -/
theorem test_debits : debitMinutes 100 100 = 1 ∧ debitMinutes 100 160 = 1 ∧ debitMinutes 100 161 = 2
    ∧ debitMinutes 100 40 = 1 := by decide

/-! ### The machine, the host line and estate time -/

theorem witness_StepRunsFrontCommand :
    ({ base with pending := [.identify, .status] } : State).pending = .identify :: [.status] := rfl
theorem witness_IdleStepActsOrTicks :
    (asked base 0x01 []).pending = [] ∧ (asked base 0x01 []).ownAction = some .identify
      ∧ base.pending = [] ∧ base.ownAction = none := by decide +kernel
theorem witness_CompletesIffWellFormed :
    WellFormed (.releaseTimerExpiry 16) = true ∧ WellFormed (.releaseTimerExpiry 17) = false := by decide
theorem witness_ExecKeepsQueue :
    ∃ t, exec .identify ({ asked base 0x01 [] with pending := [.status] } : State) = .next t := ⟨_, rfl⟩
theorem witness_ReceiverEvents :
    base.inReset = false ∧ base.supply.mode ≠ .standby ∧ base.host.receiving = false
      ∧ Instr.framingError ∈ [Instr.receiveGap, .framingError, .lengthOver1024]
      ∧ ({ base with host := { base.host with receiving := true } } : State).host.receiving = true := by decide
theorem witness_FrameSentIsAccepted :
    (req 0x01 (List.replicate 1024 0)).body.length ≤ 1024
      ∧ (∀ busy ∈ [[], [(1, 1), (1, 2), (1, 3)], [(1, 1), (1, 2), (1, 3), (1, 4)]],
          let s : State := { asked base 0x02 [] with host := { (asked base 0x02 []).host with receiving := true, busy := busy } }
          s.inReset = false ∧ s.host.receiving = true ∧ s.host.outstanding ≠ none ∧ s.host.busy.length ≤ 4)
      ∧ base.host.outstanding = none := by decide +kernel
theorem witness_OneByteErrorIsDiscarded :
    (req 0x0C [1, 0, 0, 0]).covered = [4, 0, 0x0C, 7] ++ 1 :: [0, 0, 0]
      ∧ (req 0x0C [2, 0, 0, 0]).covered = [4, 0, 0x0C, 7] ++ 2 :: [0, 0, 0] ∧ (1 : Byte) ≠ 2 := by decide
theorem witness_TransmitterTakesNextInOrder :
    let h := State.reset.host
    State.reset.inReset = false ∧ h.sending = some ⟨⟨0x40, 0, [48, 0]⟩, .notice⟩
      ∧ State.reset.supply.restartRequested = none ∧ State.reset.supply.stopPending = false
      ∧ h.reply = none ∧ h.busy = [] ∧ h.notices = []
      ∧ ({ h with reply := some (req 0x81 [0]) } : HostLine).reply = some (req 0x81 [0])
      ∧ ({ h with busy := [(1, 2)] } : HostLine).busy = (1, 2) :: []
      ∧ ({ h with notices := [.link 1 .online] } : HostLine).notices = .link 1 .online :: [] := by decide +kernel
/-- O8: a BUSY reply and a notice finish while a stop, or a restart, is pending. -/
theorem witness_TransmitterTakesNextInOrder_pending :
    ∀ source ∈ [SendSource.busy, .notice], ∀ p ∈ [(true, none), (false, some RestartRequest.warm)],
      let s : State := { site with
        host := { site.host with sending := some ⟨busyFrame (1, 2), source⟩ }
        supply := { site.supply with stopPending := p.1, restartRequested := p.2 } }
      s.inReset = false ∧ s.host.sending = some ⟨busyFrame (1, 2), source⟩ ∧ source ≠ .reply
        ∧ (s.supply.stopPending = true ∨ s.supply.restartRequested ≠ none) := by decide +kernel
theorem witness_IdentifyReportsPart :
    (∀ body ∈ [[], [0]], (asked base 0x01 body).inReset = false ∧ (asked base 0x01 body).unserved = some (req 0x01 body))
      ∧ (req 0x01 []).body = [] ∧ (req 0x01 [0]).body ≠ [] := by decide +kernel
theorem witness_StatusAndUnknownKinds :
    (∀ k ∈ [0x00, 0x02, 0x1B, 0xFF], (asked base k []).inReset = false ∧ (asked base k []).unserved = some (req k []))
      ∧ 0x1A < (req 0x1B []).kind.toNat := by decide +kernel
theorem witness_SettingsWrittenAndRead :
    (∀ body ∈ [List.replicate 10 0xFF, [1]], (asked base 0x03 body).serving .settingsWrite (req 0x03 body))
      ∧ (asked base 0x04 []).unserved = some (req 0x04 []) := by
  unfold State.serving; decide +kernel
/-- The step of 300 s, one of 301 s in an empty and in an occupied building, and the seconds 86399 and 86400. -/
theorem witness_ClockRequestsServed :
    (∀ body ∈ [leBytes 2 100 ++ leBytes 4 30300, leBytes 2 100 ++ leBytes 4 30301, leBytes 2 0 ++ leBytes 4 86399,
        leBytes 2 0 ++ leBytes 4 86400, [0]], (asked base 0x05 body).serving .clockSet (req 0x05 body))
      ∧ (let body := leBytes 2 100 ++ leBytes 4 30301
         let s : State := { asked base 0x05 body with pool := [occ 11 .admitting] }
         s.serving .clockSet (req 0x05 body) ∧ s.clock.unset = false ∧ s.now + 300 < 100 * 86400 + 30301 ∧ s.pool ≠ [])
      ∧ valueAt (leBytes 2 100 ++ leBytes 4 30300) 0 2 * 86400 + valueAt (leBytes 2 100 ++ leBytes 4 30300) 2 4 = base.now + 300
      ∧ (asked State.reset 0x05 (leBytes 2 1 ++ leBytes 4 0)).clock.unset = true
      ∧ (asked base 0x06 []).serving .clockRead (req 0x06 []) ∧ (asked base 0x06 [1]).serving .clockRead (req 0x06 [1]) := by
  unfold State.serving; decide +kernel
theorem witness_ClockAdvancesToItsEnd :
    base.clock.Sound ∧ base.clock.unset = false ∧ State.reset.clock.Sound ∧ State.reset.clock.unset = true
      ∧ (let s : State := { base with clock := ⟨false, 65535, 86398, false⟩ }
         s.clock.Sound ∧ s.clock.unset = false ∧ s.clock.ended = false ∧ 5662310399 ≤ s.now + 1) := by
  unfold Clock.Sound; decide +kernel

/-! ### Permits and revocations -/

/-- A permit at the ends of its ranges. -/
def edgePermit : Permit :=
  { number := 65535, credential := 4294967294, role := .escort, rooms := [1, 12], validFrom := 94371839
    validUntil := 94371840, window := some ⟨1439, 0, 127⟩, needsEscort := false, maxStay := 1440, allowance := some 65535
    status := .suspended }
theorem witness_PermitBodyRoundTrip : edgePermit.Sound ∧ (permit 1 1).Sound := by
  unfold Permit.Sound isCredential; decide +kernel
/-- Each reader of O15 on a body of each kind: misshaped, out of range (a room 13; a credential of all ones), accepted. -/
theorem witness_PermitBodyIsNormalised :
    readPermitBody (permitBody edgePermit) = .ok edgePermit
      ∧ readPermitBody (permitBody edgePermit).tail = .error .malformed
      ∧ readPermitBody (permitBody { edgePermit with rooms := [1, 13] }) = .error .range
      ∧ readPermitBody (permitBody { edgePermit with credential := 4294967295 }) = .error .range
      ∧ readAmendBody [] = .error .malformed
      ∧ readAmendBody ([11, 0] ++ List.replicate 24 0 ++ [1, 13] ++ List.replicate 14 0) = .error .malformed
      ∧ readAmendBody ([11, 0] ++ List.replicate 24 0 ++ [1, 1, 13] ++ List.replicate 13 0) = .error .range
      ∧ readAmendBody ([11, 0] ++ List.replicate 24 0 ++ [1, 3, 12, 1, 12] ++ List.replicate 11 0)
          = .ok ⟨11, none, none, none, none, none, .unchanged, some [1, 12], none⟩ := by decide +kernel
theorem few_of_one_credential {s : State} (h : s.permits.length ≤ 8) (c : Nat) :
    s.permits.countP (fun e => e.2.credential = c) ≤ 8 := Nat.le_trans List.countP_le_length h
theorem site_permits_sound : site.PermitsSound :=
  ⟨by decide +kernel, by unfold Permit.Sound isCredential; decide +kernel, by decide +kernel,
    fun c => few_of_one_credential (by decide) c⟩
/-- Eight permits of credential 9. -/
def eight : List (Nat × Permit) := (List.range 8).map (fun k => (k, permit (k + 21) 9))
theorem witness_PermitAddAndRemove :
    (let b := permitBody (permit 14 9)
     (asked site 0x07 b).serving .permitAdd (req 0x07 b) ∧ readPermitBody b = .ok (permit 14 9)
       ∧ (asked State.reset 0x07 b).serving .permitAdd (req 0x07 b) ∧ State.reset.clock.unset = true
       ∧ site.clock.unset = false ∧ (∀ e ∈ site.permits, e.2.number ≠ 14) ∧ site.permits.length ≤ 255
       ∧ site.permits.countP (fun e => e.2.credential = 9) ≤ 7
       ∧ (asked { site with permits := eight } 0x07 b).serving .permitAdd (req 0x07 b)
       ∧ 8 ≤ eight.countP (fun e => e.2.credential = 9)
       ∧ (asked { site with permits := eight.tail } 0x07 b).serving .permitAdd (req 0x07 b)
       ∧ eight.tail.countP (fun e => e.2.credential = 9) = 7)
    ∧ (let b := permitBody (permit 11 9)
       (asked site 0x07 b).serving .permitAdd (req 0x07 b) ∧ ∃ e ∈ site.permits, e.2.number = 11)
    ∧ readPermitBody [] = .error .malformed ∧ (asked site 0x07 []).serving .permitAdd (req 0x07 [])
    ∧ (∀ b ∈ [[0], [0, 0], [99, 0], [11, 0]], (asked site 0x09 b).serving .permitRemove (req 0x09 b)
        ∧ (asked { site with pool := [occ 11 .admitting] } 0x09 b).serving .permitRemove (req 0x09 b))
    ∧ site.inUse 11 = 0 ∧ ({ site with pool := [occ 11 .admitting] } : State).inUse 11 ≠ 0 := by
  unfold State.serving; decide +kernel
theorem witness_PermitReadAndFind :
    (∀ b ∈ [[0], [0, 0], [99, 0], [11, 0]], (asked site 0x0A b).serving .permitRead (req 0x0A b))
      ∧ (0, permit 11 11) ∈ site.permits ∧ (permit 11 11).number = valueAt [11, 0] 0 2
      ∧ (∀ b ∈ [[0], leBytes 4 0, leBytes 4 4294967295, leBytes 4 1, leBytes 4 4294967294],
          (asked site 0x0B b).serving .permitFind (req 0x0B b)) := by
  unfold State.serving; decide +kernel
theorem witness_PermitReadAndFind_sound : (asked site 0x0A [11, 0]).PermitsSound := site_permits_sound
/-- An amendment of permit `n`: maximum stay 1 minute (`stay`), rooms to the list, needs escort yes. -/
def amend (n : Byte) (stay : Bool) (rooms : List Byte) (escort : Bool) : List Byte :=
  [n, 0] ++ List.replicate 18 0 ++ [BitVec.ofBool stay |>.zeroExtend 8, 1, 0] ++ [0, 0, 0]
    ++ (if rooms = [] then List.replicate 14 0 else 1 :: BitVec.ofNat 8 rooms.length :: rooms ++ List.replicate (12 - rooms.length) 0)
    ++ [if escort then 1 else 0, if escort then 1 else 0]
def amendment (n : Nat) (stay : Option Nat) (rooms : Option (List Nat)) (escort : Option Bool) : PermitAmend :=
  ⟨n, none, none, none, none, stay, .unchanged, rooms, escort⟩
theorem witness_AmendChecked :
    (∀ b ∈ [[], amend 99 true [] false, amend 11 true [] false], (asked site 0x08 b).serving .permitAmend (req 0x08 b))
      ∧ readAmendBody [] = .error .malformed
      ∧ readAmendBody (amend 99 true [] false) = .ok (amendment 99 (some 1) none none)
      ∧ readAmendBody (amend 11 true [] false) = .ok (amendment 11 (some 1) none none)
      ∧ site.permit 11 = some (0, permit 11 11) ∧ site.inUse 11 = 0
      ∧ (let b := [11, 0, 0, 0, 0, 0, 0, 0, 0, 1, 0, 0, 0, 1] ++ List.replicate 28 0
         readAmendBody b = .ok ⟨11, none, none, some 16777216, none, none, .unchanged, none, none⟩)
      ∧ (let b := [11, 0, 0, 0, 1, 0x40, 0x0D, 3, 0] ++ List.replicate 33 0
         (asked site 0x08 b).serving .permitAmend (req 0x08 b)
           ∧ readAmendBody b = .ok ⟨11, none, some 200000, none, none, none, .unchanged, none, none⟩)
      ∧ (let b := amend 11 false [2] false
         let s : State := asked { site with pool := [occ 11 .admitting] } 0x08 b
         s.serving .permitAmend (req 0x08 b) ∧ readAmendBody b = .ok (amendment 11 none (some [2]) none)
           ∧ s.pool.find? (fun o => o.permit = 11) = some (occ 11 .admitting) ∧ (occ 11 .admitting).room ∉ [2]
           ∧ s.inUse 11 ≠ 0)
      ∧ (let b := amend 11 false [2] false
         let s : State := asked { site with groups := [pair 11] } 0x08 b
         s.serving .permitAmend (req 0x08 b) ∧ s.pool.find? (fun o => o.permit = 11) = none
           ∧ s.groups.find? (fun g => g.members.any (fun m => m.permit = 11)) = some (pair 11) ∧ (pair 11).room ∉ [2])
      ∧ readAmendBody (amend 11 false [] true) = .ok (amendment 11 none none (some true))
      ∧ (let b := amend 11 true [2, 1] false
         let s : State := asked { site with pool := [occ 11 .admitting] } 0x08 b
         s.serving .permitAmend (req 0x08 b) ∧ readAmendBody b = .ok (amendment 11 (some 1) (some [1, 2]) none)
           ∧ s.inUse 11 = 1 ∧ (occ 11 .admitting).room ∈ [1, 2]) := by
  unfold State.serving; decide +kernel
/-- A suspension of permit 11. -/
def suspension : List Byte := [11, 0, 1, 1] ++ List.replicate 38 0
/-- The suspended member alone, with another who goes on waiting, and with two who pass. -/
theorem witness_AmendChecked_suspension :
    (readAmendBody suspension = .ok ⟨11, some .suspended, none, none, none, none, .unchanged, none, none⟩
      ∧ ∀ members ∈ [[mem 11], [mem 11, mem 12], [mem 11, mem 12, mem 13]],
        let s : State := asked { site with groups := [{ pair 11 with members := members }] } 0x08 suspension
        s.serving .permitAmend (req 0x08 suspension) ∧ s.inUse 11 = 1 ∧ s.PersonsSound)
    ∧ requirementTest (site.room 1) [(mem 12).person] = false
    ∧ requirementTest (site.room 1) [(mem 12).person, (mem 13).person] = true := by
  unfold State.serving State.PersonsSound; decide +kernel
/-- R4: a top-up saturates at 65,535 minutes. -/
theorem test_top_up_saturates : (edgePermit.amended { amendment 65535 none none none with allowance := .topUp 1 }).allowance
    = some 65535 := by decide +kernel
/-- The holder at each overstay level; with his new deadline, minute 144441, past or, at entry minute 144500, to come. -/
theorem witness_AmendRecomputesDeadline :
    let b := amend 11 true [] false
    (∀ l ∈ [Level.clear, .raised, .escalated], ∀ entry ∈ [8666400, 8670000],
        let o : Occupant := { occ 11 (.inside entry 144460) with overstay := l }
        let s : State := asked { site with pool := [o] } 0x08 b
        s.serving .permitAmend (req 0x08 b)
          ∧ s.pool.find? (fun o => o.permit = 11 ∧ o.presence ≠ .admitting) = some o)
      ∧ readAmendBody b = .ok (amendment 11 (some 1) none none) ∧ site.permit 11 = some (0, permit 11 11)
      ∧ stayDeadline ((permit 11 11).amended (amendment 11 (some 1) none none)) 0 (8666400 / 60) ≤ site.nowMinute
      ∧ site.nowMinute < stayDeadline ((permit 11 11).amended (amendment 11 (some 1) none none)) 0 (8670000 / 60) := by
  unfold State.serving; decide +kernel
/-- With the bound change a rooms change that keeps room 1, a needs escort written as it stands, a suspension. -/
theorem witness_AmendRecomputesDeadline_others :
    let o : Occupant := occ 11 (.inside 8666400 144460)
    let withEscort (b : List Byte) : List Byte := b.take 40 ++ [1, 0]
    (∀ b ∈ [amend 11 true [2, 1] false, withEscort (amend 11 true [] false)],
        (asked { site with pool := [o] } 0x08 b).serving .permitAmend (req 0x08 b))
      ∧ readAmendBody (amend 11 true [2, 1] false) = .ok (amendment 11 (some 1) (some [1, 2]) none)
      ∧ (∀ x ∈ ({ site with pool := [o] } : State).pool, x.permit = 11 → x.room ∈ [1, 2])
      ∧ readAmendBody (withEscort (amend 11 true [] false)) = .ok (amendment 11 (some 1) none (some false))
      ∧ ((permit 11 11).role == .worker && false) = (permit 11 11).needsEscort
      ∧ (let b := [11, 0, 1, 1] ++ List.replicate 16 0 ++ [1, 1, 0] ++ List.replicate 19 0
         (asked { site with pool := [o], groups := [pair 12] } 0x08 b).serving .permitAmend (req 0x08 b)
           ∧ readAmendBody b = .ok { amendment 11 (some 1) none none with status := some .suspended })
      ∧ (∀ g ∈ [pair 12], ∀ m ∈ g.members, m.permit ≠ 11)
      ∧ site.pool = [] ∧ o.presence = .inside 8666400 144460 := by
  unfold State.serving; decide +kernel
theorem witness_RevokeActs :
    (∀ b ∈ [[1], leBytes 4 0, leBytes 4 4294967295, leBytes 4 11],
        (asked site 0x0C b).serving .revoke (req 0x0C b)
          ∧ (asked { site with revoked := List.range' 1 32 } 0x0C b).serving .revoke (req 0x0C b)
          ∧ (asked { site with pool := [occ 11 .admitting] } 0x0C b).serving .revoke (req 0x0C b)
          ∧ (asked { site with groups := [pair 11] } 0x0C b).serving .revoke (req 0x0C b))
      ∧ 11 ∈ List.range' 1 32 ∧ 33 ∉ List.range' 1 32 ∧ (List.range' 1 32).length = 32
      ∧ (asked { site with revoked := List.range' 1 32 } 0x0C (leBytes 4 33)).serving .revoke (req 0x0C (leBytes 4 33))
      ∧ ({ site with pool := [occ 11 .admitting] } : State).recordOf 11 = some (occ 11 .admitting)
      ∧ ({ site with groups := [pair 11] } : State).membershipOf 11 = some (pair 11, mem 11)
      ∧ (let g : Group := { pair 11 with members := [mem 11, mem 12] }
         let s : State := asked { site with groups := [g] } 0x0C (leBytes 4 11)
         s.serving .revoke (req 0x0C (leBytes 4 11)) ∧ s.membershipOf 11 = some (g, mem 11)
           ∧ s.groups.find? (fun x => x.station = g.station) = some g
           ∧ requirementTest (s.room 1) ((s.occupants 1).map Occupant.person ++ [mem 12].map Member.person) = false)
      ∧ (let g : Group := { pair 11 with members := [mem 11, mem 12, mem 13] }
         let s : State := asked { site with groups := [g] } 0x0C (leBytes 4 11)
         s.serving .revoke (req 0x0C (leBytes 4 11)) ∧ s.membershipOf 11 = some (g, mem 11)
           ∧ s.groups.find? (fun x => x.station = g.station) = some g
           ∧ requirementTest (s.room 1) ((s.occupants 1).map Occupant.person ++ [mem 12, mem 13].map Member.person)
               = true) := by
  unfold State.serving; decide +kernel
theorem witness_UnrevokeAndRevokeList :
    (∀ marked ∈ [true, false], ∀ b ∈ [[1], leBytes 4 0, leBytes 4 11, leBytes 4 12],
        let o : Occupant := { occ 11 .admitting with revokedInside := marked }
        let s : State := asked { site with revoked := [11], pool := [o] } 0x0D b
        s.serving .unrevoke (req 0x0D b) ∧ s.recordOf 11 = some o ∧ 11 ∈ s.revoked ∧ 12 ∉ s.revoked)
      ∧ (∀ b ∈ [[], [1]], (asked site 0x0E b).serving .revokeList (req 0x0E b)) := by
  unfold State.serving; decide +kernel

/-! ### Rooms and stations -/

/-- A ROOM-SET body of room 1: class, capacity, ratio, all else 0. -/
def roomBody (room cls cap ratio : Byte) : List Byte := [room, cls, cap, ratio, 0, 0, 0, 0, 0, 0, 0, 0]
theorem witness_RoomConfigured :
    (∀ b ∈ [[], roomBody 0 1 4 2, roomBody 13 1 4 2, roomBody 1 2 4 2, roomBody 1 1 0 2, roomBody 1 1 9 2, roomBody 1 0 4 2,
        roomBody 1 1 1 2, roomBody 1 1 8 2, roomBody 12 1 8 255],
        (asked { site with pool := [occ 11 .admitting, occ 12 .admitting] } 0x0F b).serving .roomSet (req 0x0F b))
      ∧ (let s : State := { site with pool := [occ 11 .admitting, occ 12 .admitting] }
         s.occupants 1 ≠ [] ∧ (s.room 1).cls ≠ .general ∧ (1 : Byte).toNat < (s.occupants 1).length + s.reserved 1
           ∧ (s.room 1).escortRatio = max 1 (min 4 2) ∧ (s.room 12).escortRatio ≠ max 1 (min 4 255)
           ∧ s.occupants 12 = [] ∧ s.groupsOf 12 = [])
      ∧ (∀ b ∈ [[], [0, 0], [13, 0], [1, 3], [1, 0], [1, 1], [12, 2]],
          (asked site 0x10 b).serving .roomMode (req 0x10 b))
      ∧ (site.room 1).mode = roomModeOf 0 ∧ (site.room 1).mode ≠ roomModeOf 1 ∧ site.rooms.length = 12 := by
  unfold State.serving; decide +kernel
theorem witness_RoomAndStationRead :
    (∀ b ∈ [[], [0], [1], [12], [13]], (asked site 0x11 b).serving .roomRead (req 0x11 b))
      ∧ (∀ b ∈ [[], [0], [1], [16], [17]], (asked site 0x15 b).serving .stationRead (req 0x15 b))
      ∧ (occ 11 .admitting).presence = .admitting ∧ (occ 11 (.inside 1 2)).presence = .inside 1 2
      ∧ defaultStation.verdict = none ∧ defaultStation.last = none
      ∧ (let st : Station := { door1 with
           verdict := some ⟨.wait, .awaitEscort, 0, true, true⟩, last := some ⟨.inside, 4294967294, 8669999, .wait, .awaitEscort⟩
           events := [.lapse true, .commit] }
         st.verdict ≠ none ∧ st.last ≠ none ∧ st.events = [.lapse true, .commit]) := by
  unfold State.serving; decide +kernel
theorem witness_OccupantReleaseRemoves :
    (∀ b ∈ [[], 0 :: leBytes 4 11, 13 :: leBytes 4 11, 1 :: leBytes 4 0, 1 :: leBytes 4 12, 1 :: leBytes 4 11],
        ∀ p ∈ [Presence.admitting, .inside 8669000 144460],
          let s : State := asked { site with pool := [occ 11 p] } 0x12 b
          s.serving .occupantRelease (req 0x12 b) ∧ s.clock.unset = false
            ∧ (s.occupants 1).find? (fun o => o.credential = 11) = some (occ 11 p)
            ∧ (∀ o ∈ s.pool, o.room = 1 → o.credential ≠ 12))
      ∧ (asked State.reset 0x12 (1 :: leBytes 4 11)).serving .occupantRelease (req 0x12 (1 :: leBytes 4 11))
      ∧ State.reset.clock.unset = true ∧ site.host.notices.length ≤ 14 := by
  unfold State.serving; decide +kernel
/-- Both levels, with the condition standing and not. -/
theorem witness_AlertReevaluation :
    let alone : State := { site with pool := [occ 11 .admitting] }
    let raised : State := alone.setRoom 1 { alone.room 1 with lone := .raised }
    RoomAlert.lone.level (alone.room 1) = .clear
      ∧ RoomAlert.lone.stands (alone.room 1) ((alone.occupants 1).map Occupant.person) = true
      ∧ RoomAlert.lone.level (raised.room 1) ≠ .clear
      ∧ RoomAlert.lone.stands (raised.room 1) ((raised.occupants 1).map Occupant.person) = true
      ∧ RoomAlert.lone.stands (site.room 1) ((site.occupants 1).map Occupant.person) = false
      ∧ ({ raised with pool := [] } : State).occupants 1 = []
      ∧ (∀ g ∈ ({ site with groups := [pair 11] } : State).groups, site.passes g = false)
      ∧ hall.passes (pair 11) = true := by decide +kernel
/-- Station 1 in HOLD. -/
def held (s : State) : State := s.setStation 1 { s.station 1 with channel := .hold }
theorem witness_StationConfigured :
    (∀ b ∈ [[], [0, 1, 8, 45, 0], [17, 1, 8, 45, 0], [1, 13, 8, 45, 0], [1, 1, 8, 45, 0], [1, 0, 8, 45, 0], [16, 12, 0, 0, 0],
        [16, 0, 255, 255, 255]],
        (asked site 0x13 b).serving .stationSet (req 0x13 b) ∧ (asked (held site) 0x13 b).serving .stationSet (req 0x13 b))
      ∧ (let st := (held site).station 1
         st.channel = .hold ∧ (∀ g ∈ (held site).groups, g.station ≠ 1)
           ∧ (∀ o ∈ (held site).pool, o.presence = .admitting → o.station ≠ 1) ∧ st.verdict = none
           ∧ (∀ p ∈ (held site).presentations, p.station ≠ 1) ∧ (st.door = .secure ∨ st.door = .unknown) ∧ st.events = []
           ∧ st.room ≠ 0)
      ∧ (site.station 1).channel ≠ .hold ∧ (site.station 16).room = 0 ∧ (site.station 16).channel = .hold
      ∧ (site.station 16).door = .unknown
      ∧ (∀ b ∈ [[], [0, 0], [17, 0], [1, 3], [1, 0], [1, 2], [16, 0], [16, 1]],
          (asked site 0x14 b).serving .stationChannel (req 0x14 b))
      ∧ (site.station 1).channel.code = (0 : Byte).toNat ∧ (site.station 1).channel.code ≠ (2 : Byte).toNat := by
  unfold State.serving; decide +kernel
theorem witness_RoundsAndCalls :
    site.inReset = false ∧ site.supply.mode ≠ .standby ∧ site.line.round = none
      ∧ (∀ n ∈ [1, 16], (({ site with line := { site.line with round := some ⟨[n], none, true⟩ } } : State).line.round)
          = some ⟨n :: [], none, true⟩)
      ∧ base.line.round = none
      ∧ (∀ v ∈ [none, some ⟨.wait, .awaitEscort, 0, true, false⟩],
          ({ door1 with verdict := v } : Station).verdict = v) := by decide +kernel
/-- An answer with no report; one with a report of card 11 at the outside. -/
def quiet : List StationChar := [plainChar 4, plainChar 252]
def report : List StationChar := [1, 0, 11, 0, 0, 0, 244].map plainChar
theorem witness_GoodAnswerInFourSteps :
    isGoodAnswer quiet = true ∧ isGoodAnswer report = true ∧ (turnOf site true).inReset = false
      ∧ (turnOf site true).line.round = some ⟨[], some ⟨1, []⟩, true⟩ ∧ ((turnOf site true).station 1).room ≠ 0
      ∧ quiet = [plainChar 4, plainChar 252] ∧ report.length = 7 := by
  decide +kernel
/-- A RELEASE sent with toggle 0, at each door state. -/
def releasing (door : Door) : State :=
  site.setStation 1 { door1 with verdict := some ⟨.release, .granted, 8, false, true⟩, door := door }
theorem witness_AnswerStepsTaken :
    ((site.station 1).link = .online ∧ (site.station 16).link = .silent)
      ∧ (∀ d ∈ [Door.unknown, .secure, .released 3, .opened 3, .heldOpen, .forcedOpen],
          ((releasing d).station 1).verdict = some ⟨.release, .granted, 8, false, true⟩ ∧ ((releasing d).station 1).door = d)
      ∧ ((site.setStation 1 { door1 with verdict := some ⟨.deny, .noPermit, 0, false, true⟩ }).station 1).verdict
          = some ⟨.deny, .noPermit, 0, false, true⟩
      ∧ isCredential 1 ∧ isCredential 4294967294 ∧ 1 ≤ site.stations.length
      ∧ ((site.station 1).channel ≠ .hold ∧ site.presentations.length ≤ 7 ∧ (∀ p ∈ site.presentations, p.station ≠ 1)
          ∧ (site.station 1).verdict = none ∧ (site.station 1).expected = .adopt)
      ∧ ((held site).station 1).channel = .hold
      ∧ (∀ t : Toggle, (((held site).setStation 1 { (held site).station 1 with expected := .toggle t }).station 1).expected
          = .toggle t) := by unfold isCredential; decide +kernel
/-- R147: a forced door of a SERVE station: the channel BARRED, CHANNEL before ALERT. -/
theorem test_forced_records :
    ((site.doorOpened 1).station 1).channel = .barred
      ∧ (site.doorOpened 1).trail.a.records.tail.map TrailRecord.kind = [.channel, .alert] := by decide +kernel
theorem witness_MissesCounted :
    (∀ settle ∈ [true, false], (turnOf site settle).inReset = false
        ∧ (turnOf site settle).line.round = some ⟨[], some ⟨1, []⟩, settle⟩)
      ∧ site.stations.length = 16 ∧ (site.station 1).room ≠ 0
      ∧ min 15 ((site.station 1).missed + 1) < site.settings.silenceThreshold
      ∧ (∀ bad ∈ [[plainChar 4], [plainChar 4, plainChar 251]], bad ≠ [] ∧ isGoodAnswer bad = false)
      ∧ (let s : State := { site with line := { site.line with round := some ⟨[], some ⟨2, []⟩, false⟩ } }
         s.line.round = some ⟨[], some ⟨2, []⟩, false⟩ ∧ (s.station 2).room = 0)
      ∧ isGoodAnswer quiet = true := by decide +kernel
theorem witness_SilenceAtThreshold :
    (∀ d ∈ [Door.unknown, .secure, .released 3, .opened 3, .heldOpen, .forcedOpen],
      let s : State := turnOf (site.setStation 1 { door1 with missed := 4, door := d }) false
      s.inReset = false ∧ s.line.round = some ⟨[], some ⟨1, []⟩, false⟩ ∧ s.stations.length = 16 ∧ (s.station 1).room ≠ 0
        ∧ (s.station 1).link = .online ∧ s.settings.silenceThreshold ≤ min 15 ((s.station 1).missed + 1)
        ∧ (s.station 1).door = d)
      ∧ [plainChar 4] ≠ [] ∧ isGoodAnswer [plainChar 4] = false := by decide +kernel
/-- Held in reset by the line. -/
def holdLine : State := { site with supply := { site.supply with resetActive := true } }
theorem witness_DoorTimersExpire :
    (∀ n ∈ [1, 16], ∀ d ∈ [Door.released 0, .opened 0],
        let s : State := site.setStation n { site.station n with door := d }
        s.inReset = false ∧ s.stations.length = 16 ∧ (s.station n).door = d
          ∧ s.unserved = none ∧ (∀ m ∈ List.range' 1 (n - 1), (s.station m).door ≠ .released 0 ∧ (s.station m).door ≠ .opened 0))
      ∧ holdLine.inReset = true := by decide +kernel
/-- R128, R146: a second counts a running timer down, and at 0 its expiry is the part's own act. -/
theorem test_release_timer_runs_out :
    let s : State := base.setStation 2 { base.station 2 with room := 1, door := .released 1 }
    (s.tick.station 2).door = .released 0 ∧ s.ownAction = none ∧ s.tick.ownAction = some (.releaseTimerExpiry 2) := by
  decide +kernel

/-! ### The trail, the supply and restarts -/

def someRecord : TrailRecord := { kind := .link }
/-- Half A filling with the records given, half B in the state given. -/
def trailed (n : Nat) (b : HalfState) : State :=
  { base with trail := { a := ⟨.filling, List.replicate n someRecord⟩, b := ⟨b, []⟩, lost := 0, lastClosed := none } }
/-- Both halves closed. -/
def fullTrail (lost : Nat) : State :=
  { base with
    trail := { a := ⟨.closed, [someRecord]⟩, b := ⟨.closed, [someRecord]⟩, lost := lost, lastClosed := some .b } }
theorem witness_RecordWrittenOrLost :
    (trailed 62 .free).trail.filling = some .a ∧ ((trailed 62 .free).trail.half .a).records.length ≤ 62
      ∧ ((trailed 63 .free).trail.half .a).records.length = 63 ∧ ((trailed 63 .free).trail.half (HalfId.a).other).state = .free
      ∧ ((trailed 63 .closed).trail.half (HalfId.a).other).state = .closed ∧ (fullTrail 0).trail.filling = none := by
  decide +kernel
theorem witness_TrailRequestsServed :
    (∀ s ∈ [trailed 0 .free, trailed 5 .free, trailed 5 .closed, fullTrail 0, fullTrail 7],
        (∀ b ∈ [[], [0, 0, 1], [1, 64, 1], [1, 0, 0], [1, 0, 17], [2, 63, 16]],
          (asked s 0x16 b).inReset = false ∧ (asked s 0x16 b).unserved = some (req 0x16 b))
        ∧ (∀ b ∈ [[], [1]], (asked s 0x17 b).unserved = some (req 0x17 b))
        ∧ (∀ b ∈ [[], [0], [3], [1], [2]], (asked s 0x18 b).unserved = some (req 0x18 b)))
      ∧ (fullTrail 7).trail.filling = none ∧ ((fullTrail 7).trail.half .a).state = .closed
      ∧ (trailed 5 .closed).trail.filling = some .a ∧ ((trailed 5 .closed).trail.half .b).state = .closed
      ∧ ((trailed 0 .free).trail.half .a).records = [] ∧ ((trailed 5 .free).trail.half .a).records ≠ []
      ∧ ((trailed 5 .free).trail.half .b).state = .free
      ∧ ({ kind := .recompute, value := .number 144460 } : TrailRecord).value = .number 144460
      ∧ ({ kind := .mode, value := .pair 2 0 } : TrailRecord).value = .pair 2 0 := by decide +kernel
/-- The site in a supply mode. -/
def inMode (m : SupplyMode) (flag good : Bool) : State :=
  { site with supply := { site.supply with mode := m, byRequest := flag, supplyGood := good } }
theorem witness_ModeRequestsServed :
    (∀ m ∈ [SupplyMode.run, .reserve], ∀ good ∈ [true, false],
        (asked (inMode m false good) 0x19 [0]).serving .modeRequestRun (req 0x19 [0])
          ∧ (asked (inMode m false good) 0x19 [1]).serving .modeRequestReserve (req 0x19 [1])
          ∧ (asked (inMode m false good) 0x19 [2]).serving .modeRequestStandby (req 0x19 [2]))
      ∧ (asked { site with pool := [occ 11 .admitting] } 0x19 [2]).serving .modeRequestStandby (req 0x19 [2])
      ∧ (let s : State := site.setStation 1 { door1 with door := .heldOpen }
         (asked s 0x19 [2]).serving .modeRequestStandby (req 0x19 [2])
           ∧ ∃ st ∈ s.stations, st.room ≠ 0 ∧ st.door ≠ .secure ∧ st.door ≠ .unknown)
      ∧ site.presentations = [] ∧ (∀ st ∈ site.stations, st.verdict = none ∧ st.events = []
          ∧ (st.room = 0 ∨ st.door = .secure)) := by
  unfold State.serving; decide +kernel
theorem witness_RestartRequestsServed :
    (∀ b ∈ [[], [3]], (asked site 0x19 b).serving .modeRequestRun (req 0x19 b))
      ∧ (∀ b ∈ [[], [0], [2]], (asked site 0x1A b).serving .restartWarmRequest (req 0x1A b))
      ∧ (asked site 0x1A [1]).serving .restartCleanRequest (req 0x1A [1])
      ∧ ({ site with supply := { site.supply with restartRequested := some .warm } } : State).supply.restartRequested ≠ none := by
  unfold State.serving; decide +kernel
theorem witness_SupplyLineInRunAndReserve :
    ∀ m ∈ [SupplyMode.run, .reserve], ∀ flag ∈ [true, false], ∀ good ∈ [true, false],
      (inMode m flag good).inReset = false ∧ (inMode m flag good).supply.mode = m ∧ (inMode m flag good).supply.byRequest = flag
        ∧ (inMode m flag good).supply.supplyGood = good := by decide +kernel
/-- In STANDBY, with its stop still to come (`soon`), sending the reply that ends the interval. -/
def asleep (good soon : Bool) : State :=
  { inMode .standby false good with
    host := { site.host with sending := some ⟨req 0x99 [0, 2, 0], .reply⟩ }
    supply := { (inMode .standby false good).supply with stopPending := soon } }
theorem witness_StandbyAndWake :
    (∀ good ∈ [true, false], ∀ soon ∈ [true, false],
        (asleep good soon).inReset = false ∧ (asleep good soon).supply.mode = .standby
          ∧ (asleep good soon).supply.stopPending = soon ∧ (asleep good soon).supply.supplyGood = good
          ∧ (asleep good soon).host.receiving = false)
      ∧ (asleep true true).host.sending = some ⟨req 0x99 [0, 2, 0], .reply⟩
      ∧ (asleep true true).supply.restartRequested = none ∧ (asleep true true).supply.heldWake = none
      ∧ (asleep true true).supply.attention = false
      ∧ (∀ cause ∈ [ModeCause.wakeHost, .wakeSupply],
          let p : Supply := { (asleep true true).supply with heldWake := some cause }
          p.heldWake = some cause ∧ p.mode = .standby ∧ p.stopPending = true ∧ p.restartRequested = none)
      ∧ (let p : Supply := { (asleep true true).supply with attention := true }
         p.heldWake = none ∧ p.attention = true ∧ p.mode = .standby ∧ p.stopPending = true) := by decide +kernel
/-- A frame still under way at the stop: without a wake it is given up, with a wake held it goes on. -/
theorem test_stop_hunts :
    let s : State := { asleep true true with host := { (asleep true true).host with receiving := true } }
    s.stop.host.receiving = false ∧ s.stop.host.frameDiscarded = s.host.frameDiscarded
      ∧ ({ s with supply := { s.supply with heldWake := some .wakeHost } } : State).stop.host.receiving = true := by
  decide +kernel
/-- A start-up carried out whole, and one cut short after each of its steps. -/
def cuts : List (Option StartUpCut) := none :: startUpSteps.map (fun x => some ⟨x, .mainSupply⟩)
/-- Held in reset by the loss of the main supply. -/
def holdMain : State := { site with supply := { site.supply with mainLost := true } }
/-- The reply of a RESTART being sent. -/
def restarting (r : RestartRequest) : State :=
  { site with
    supply := { site.supply with restartRequested := some r }
    host := { site.host with sending := some ⟨req 0x9A [0], .reply⟩ } }
theorem witness_DefaultRestarts :
    holdLine.supply.resetActive = true ∧ holdLine.supply.mainLost = false
      ∧ holdMain.supply.mainLost = true ∧ holdMain.supply.resetActive = false
      ∧ (∀ cut ∈ cuts, (⟨true, true, .decayed, cut⟩ : RestartInputs).backup = .decayed
          ∧ (⟨true, true, .decayed, cut⟩ : RestartInputs).cut = cut)
      ∧ (∀ r ∈ [RestartRequest.warm, .clean], ∀ p ∈ [(false, true), (true, false)],
          let s : State := { restarting r with
            supply := { (restarting r).supply with markPresent := p.1, checkHolds := p.2 } }
          s.inReset = false ∧ s.supply.restartRequested ≠ none ∧ s.host.sending = some ⟨req 0x9A [0], .reply⟩
            ∧ (s.supply.markPresent = false ∨ s.supply.checkHolds = false))
      ∧ (restarting .clean).inReset = false ∧ (restarting .clean).host.sending = some ⟨req 0x9A [0], .reply⟩
      ∧ (restarting .clean).supply.restartRequested = some .clean ∧ inputs.backup = .kept
      ∧ (restarting .clean).supply.markPresent = true ∧ (restarting .clean).supply.checkHolds = true := by decide +kernel
/-- An ADMITTING record, two INSIDE records and a group, at a restart. -/
def crowd (s : State) : State :=
  { s with
    pool := [occ 11 .admitting, occ 12 (.inside 8669000 144460), { occ 13 (.inside 8669000 144460) with overstay := .raised }]
    groups := [pair 14] }
theorem witness_WarmRestartKeepsInside :
    (∀ s ∈ [crowd holdLine, crowd holdMain, crowd (restarting .warm)],
        s.supply.markPresent = true ∧ s.supply.checkHolds = true ∧ s.PersonsSound)
      ∧ holdLine.supply.resetActive = true ∧ holdLine.supply.mainLost = false
      ∧ holdMain.supply.mainLost = true ∧ holdMain.supply.resetActive = false
      ∧ (restarting .warm).inReset = false ∧ (restarting .warm).supply.restartRequested = some .warm
      ∧ (restarting .warm).host.sending = some ⟨req 0x9A [0], .reply⟩ ∧ site.rooms.length = 12
      ∧ (∀ cut ∈ cuts, ({ inputs with cut := cut } : RestartInputs).backup = .kept
          ∧ ({ inputs with cut := cut } : RestartInputs).cut = cut) := by
  unfold State.PersonsSound; decide +kernel
/-- R178 step 6, R166: behind READY the notices of the lapsed marker and of the room alert the lapse leaves standing. -/
theorem test_notices_after_ready :
    let lapsing : Occupant := { occ 11 .admitting with revokedInside := true }
    let s : State := { restarting .warm with pool := [lapsing, occ 12 (.inside 8669000 144460)] }
    (match exec (.frameSent inputs) s with
      | .next t => t.host.notices.map Notice.body
          == [[4, 0, 1, 1, 11, 0, 0, 0, 11, 0, 0], [1, 1, 1, 0, 0, 0, 0, 0, 0, 0, 0]] && !t.host.noticesDropped
      | .fault _ | .refused _ => false) = true := by decide +kernel
/-- R178: a POWER_ON cut short before step 7 is a POWER_ON again at the next restart, and writes the mark when whole. -/
theorem test_power_on_cut_short :
    ∀ x ∈ startUpSteps,
      (match exec (.resetLineReleased ⟨true, true, .decayed, some ⟨x, .resetLine⟩⟩) (crowd holdLine) with
        | .next t =>
          t.supply.resetActive && (t.supply.decideKind .resetLine).1 == (if x = .mark then .resetLine else .powerOn)
        | .fault _ | .refused _ => false) = true := by decide +kernel

/-! ### The engine -/

def rich : State :=
  { tapped (site.setStation 1 { door1 with events := [.commit] }) .outside 11 with
    deadlines := [⟨8670000, .pairing 1⟩], sweep := ⟨0, 4, 1⟩ }
theorem witness_ArbiterGrantsInOrder :
    rich.inReset = false ∧ rich.supply.restartRequested = none
      ∧ (∀ c ∈ [JobClass.door, .timer, .present, .sweep], (rich.work c).isSome) ∧ rich.work .request = none
      ∧ (∀ c ∈ [JobClass.door, .timer, .present, .sweep, .request], site.work c = none)
      ∧ (∀ last ∈ [1, 16], let s : State := { rich with lastDoor := last }
          1 ≤ s.lastDoor ∧ s.lastDoor ≤ 16 ∧ s.doorStation = some 1)
      ∧ site.doorStation = none := by decide +kernel
/-- Station 1 with a door event pending, and the records given. -/
def pendingDoor (e : DoorEvent) (pool : List Occupant) (groups : List Group) : State :=
  { site.setStation 1 { door1 with events := [e] } with pool := pool, groups := groups }
theorem witness_DoorJobs :
    (∀ pool ∈ [[], [occ 11 .admitting]],
        let s := pendingDoor .commit pool []
        s.granted = some .doorCommit ∧ s.doorStation = some 1 ∧ (s.station 1).events = .commit :: [])
      ∧ site.permit 11 = some (0, permit 11 11)
      ∧ (∀ silence ∈ [true, false], ∀ pool ∈ [[], [occ 11 .admitting]], ∀ groups ∈ [[], [pair 12]],
          let s := pendingDoor (.lapse silence) pool groups
          s.granted = some .doorLapse ∧ s.doorStation = some 1 ∧ (s.station 1).events = .lapse silence :: [])
      ∧ (∃ o ∈ [occ 11 .admitting], o.station = 1 ∧ o.presence = .admitting) := by decide +kernel
/-- One entry due. -/
def dueNow (s : State) (what : Due) : State := { s with deadlines := [⟨8670000, what⟩] }
theorem witness_TimerJobs :
    (let s := dueNow { site with groups := [pair 11] } (.pairing 1)
     s.granted = some .pairingExpiry ∧ s.deadlines = ⟨8670000, .pairing 1⟩ :: []
       ∧ s.groups.find? (fun g => g.station = 1) = some (pair 11))
    ∧ (let s := dueNow { site with pool := [occ 11 (.inside 8666400 144500)] } (.stayDeadline 11)
       s.granted = some .stayDeadlineDue ∧ s.recordOf 11 = some (occ 11 (.inside 8666400 144500)))
    ∧ (let s := dueNow { site with pool := [occ 11 (.inside 8666400 144485)] } (.escalation 11)
       s.granted = some .escalationDue ∧ s.recordOf 11 = some (occ 11 (.inside 8666400 144485)))
    ∧ (∀ a ∈ [RoomAlert.lone, .unescorted], ∀ l ∈ [Level.clear, .raised, .escalated],
        let s := dueNow (site.setRoom 1 (a.setLevel (site.room 1) l)) (a.due 1)
        s.granted = some .limitDue ∧ s.deadlines = ⟨8670000, a.due 1⟩ :: [] ∧ a.level (s.room 1) = l) := by decide +kernel
/-- An expired permit in slot 0, one not expired in slot 255, the sweep at a step. -/
def swept (k : Nat) : State :=
  { site with permits := [(0, { permit 11 11 with validUntil := 144500 }), (255, permit 12 12)], sweep := ⟨0, 1, k⟩ }
theorem swept_permits_sound (k : Nat) : (swept k).PermitsSound :=
  ⟨by simp only [swept]; decide +kernel, by simp only [swept]; unfold Permit.Sound isCredential; decide +kernel,
    by simp only [swept]; decide +kernel, fun c => few_of_one_credential (by simp [swept]) c⟩
theorem witness_SweepRetiresExpired :
    (∀ k ∈ [1, 16], (swept k).granted = some .sweepStep)
      ∧ (0, { permit 11 11 with validUntil := 144500 }) ∈ (swept 1).permits ∧ 144500 ≤ (swept 1).nowMinute
      ∧ (swept 1).inUse 11 = 0
      ∧ site.inReset = false ∧ site.supply.mode ≠ .standby
      ∧ (∀ soon ∈ [true, false], (asleep true soon).inReset = false ∧ (asleep true soon).supply.mode = .standby
          ∧ (asleep true soon).supply.stopPending = soon) := by decide +kernel
/-- R174, R98: STANDBY accepted in a mode with the timer at a count, and the interval of 5 min. -/
def dozing (m : SupplyMode) (count : Nat) : State :=
  ({ inMode m false true with sweep := ⟨count, 0, 1⟩ } : State).requestStandby
/-- R174, R98: until the stop the timer counts on, to the 600 s of RESERVE or the 300 s of RUN; the stop leaves it at 0. -/
theorem test_sweep_timer_to_the_stop :
    (dozing .reserve 400).ownSweep = none ∧ (dozing .reserve 400).tick.sweep = ⟨401, 0, 1⟩
      ∧ (dozing .reserve 600).ownSweep = some .sweepIntervalExpiry ∧ (dozing .run 299).ownSweep = none
      ∧ (dozing .run 300).ownSweep = some .sweepIntervalExpiry ∧ (dozing .run 299).stop.tick.sweep = ⟨0, 0, 1⟩ := by
  decide +kernel

/-! ### Decisions -/

theorem witness_VerdictsPlaced :
    (site.station 1).verdict = none
      ∧ (∀ o ∈ [VerdictOutcome.release, .deny, .wait], ∀ sent ∈ [true, false],
          ({ door1 with verdict := some ⟨o, .granted, 0, false, sent⟩ } : Station).verdict = some ⟨o, .granted, 0, false, sent⟩)
      ∧ 1 ≤ 16 ∧ 16 ≤ site.stations.length := by decide +kernel
/-- Each refusal before the room checks: SILENT, UNSET, BARRED, revoked, passed back by a record and by a membership, with no
permit, and with two failing permits. -/
theorem witness_EntryRefusedBeforeRoom :
    (∀ s ∈ [tapped (site.setStation 1 { door1 with link := .silent }) .outside 11,
        tapped { site with clock := unsetClock } .outside 11, tapped (site.setStation 1 { door1 with channel := .barred }) .outside 11,
        tapped { site with revoked := [11] } .outside 11, tapped { site with pool := [occ 11 (.inside 8669000 144460)] } .outside 11,
        tapped { site with groups := [{ pair 11 with station := 2 }] } .outside 11,
        tapped { site with permits := [] } .outside 11,
        tapped { site with permits := [(0, { permit 8 11 with rooms := [2] }), (1, { permit 9 11 with status := .suspended })] }
          .outside 11],
        s.granted = some .entryDecision ∧ s.presentations = ⟨1, .outside, 11, 8669999⟩ :: [])
      ∧ (site.station 1).link = .online ∧ site.clock.unset = false ∧ (site.station 1).channel ≠ .barred
      ∧ ({ site with pool := [occ 11 (.inside 8669000 144460)] } : State).recordOf 11 = some (occ 11 (.inside 8669000 144460))
      ∧ ({ site with groups := [{ pair 11 with station := 2 }] } : State).membershipOf 11
          = some ({ pair 11 with station := 2 }, mem 11)
      ∧ site.failure 1 { permit 8 11 with rooms := [2] } = some (1, .roomNotPermitted)
      ∧ site.failure 1 { permit 9 11 with status := .suspended } = some (2, .suspended) := by decide +kernel
theorem witness_EntryRefusedByRoom :
    let p : Presentation := ⟨1, .outside, 11, 8669999⟩
    (∀ s ∈ [tapped (site.setRoom 1 { site.room 1 with mode := .closed }) .outside 11,
        tapped ({ site with trail := (fullTrail 0).trail }.setRoom 1 { site.room 1 with strict := true }) .outside 11,
        tapped ({ site with pool := [occ 12 .admitting] }.setRoom 1 { site.room 1 with capacity := 1 }) .outside 11,
        tapped { site with pool := List.replicate 48 { occ 12 .admitting with room := 2 } } .outside 11,
        tapped ({ site with groups := [{ pair 20 with members := [mem 20, mem 21, mem 22, mem 23] }] }.setRoom 1
          { site.room 1 with capacity := 5 }) .outside 11,
        tapped { site with groups := (List.range' 2 8).map (fun n => ⟨n, 2, [mem (n + 20)], 8670020⟩) } .outside 11],
        s.granted = some .entryDecision ∧ s.presentations = p :: [] ∧ s.EntryChooses p (permit 11 11))
      ∧ ({ site with groups := (List.range' 2 8).map (fun n => ⟨n, 2, [mem (n + 20)], 8670020⟩) } : State).RoomAdmits 1
      ∧ ({ site with groups := [{ pair 20 with members := [mem 20, mem 21, mem 22, mem 23] }] }.setRoom 1
          { site.room 1 with capacity := 5 } : State).RoomAdmits 1 := by
  unfold State.EntryChooses State.RoomAdmits; decide +kernel
theorem witness_EntryGrantedOrRepeated :
    let p : Presentation := ⟨1, .outside, 11, 8669999⟩
    (let s := tapped hall .outside 11
     s.granted = some .entryDecision ∧ s.presentations = p :: [] ∧ s.EntryChooses p (permit 11 11) ∧ s.RoomAdmits 1
       ∧ s.groupAt 1 = none
       ∧ requirementTest (s.room 1) ((s.occupants 1).map Occupant.person ++ [⟨.worker, false⟩]) = true)
    ∧ (let s := tapped { site with pool := [occ 11 .admitting] } .outside 11
       s.granted = some .entryDecision ∧ s.recordOf 11 = some (occ 11 .admitting) ∧ (occ 11 .admitting).station = 1)
    ∧ (let s := tapped { site with groups := [pair 11] } .outside 11
       s.granted = some .entryDecision ∧ s.recordOf 11 = none ∧ s.membershipOf 11 = some (pair 11, mem 11)) := by
  unfold State.EntryChooses State.RoomAdmits; decide +kernel
theorem witness_EntryFoundsOrJoins :
    let p : Presentation := ⟨1, .outside, 11, 8669999⟩
    (let s := tapped site .outside 11
     s.granted = some .entryDecision ∧ s.EntryChooses p (permit 11 11) ∧ s.RoomAdmits 1 ∧ s.groupAt 1 = none
       ∧ s.groups.length ≤ 7
       ∧ requirementTest (s.room 1) ((s.occupants 1).map Occupant.person ++ [⟨.worker, false⟩]) = false)
    ∧ (∀ s ∈ [tapped { site with groups := [pair 12] } .outside 11,
          tapped { site with groups := [pair 12], permits := [(0, { permit 11 11 with needsEscort := true })] } .outside 11],
        s.granted = some .entryDecision ∧ s.RoomAdmits 1 ∧ s.groupAt 1 = some (pair 12))
    ∧ 1 ≤ (pair 12).station ∧ (pair 12).station ≤ site.stations.length
    ∧ (⟨8670180, .stayDeadline 11⟩ : DeadlineEntry).what ≠ .loneLimit 1
    ∧ (⟨8670180, .stayDeadline 11⟩ : DeadlineEntry).what ≠ .unescortedLimit 1 := by
  unfold State.EntryChooses State.RoomAdmits; decide +kernel
theorem witness_ExitReleasesAndRemoves :
    (∀ pool ∈ [[], [occ 11 .admitting], [occ 11 (.inside 8669000 144460)]], ∀ link ∈ [Link.online, .silent],
        let s := tapped ({ site with pool := pool }.setStation 1 { door1 with link := link }) .inside 11
        s.granted = some .exitDecision ∧ s.presentations = ⟨1, .inside, 11, 8669999⟩ :: [] ∧ (s.station 1).link = link
          ∧ 1 ≤ s.stations.length ∧ (s.occupants 1).find? (fun o => o.credential = 11) = pool.head?) := by decide +kernel

/-! ### Stay accounting -/

/-- Worked cases of R101 to R103: a window of a day, one across midnight on day 0, and a whole-day window. -/
theorem witness_OccurrenceTestCases :
    (480 < 1020 ∧ occurrence (some ⟨480, 1020, 127⟩) 3 (99 * 1440 + 480) = .inside (some (99 * 1440 + 1020)))
      ∧ (360 < 1320 ∧ occurrence (some ⟨1320, 360, 127⟩) 0 359 = .outside
          ∧ occurrence (some ⟨1320, 360, 127⟩) 0 (1440 + 359) = .inside (some (1440 + 360)))
      ∧ ((∀ i, i < 7 → (127 : BitVec 7).getLsbD i = true) ∧ occurrence (some ⟨480, 480, 127⟩) 3 0 = .inside none)
      ∧ ((31 : BitVec 7).getLsbD ((99 + 3) % 7) = true ∧ (∃ i, i < 7 ∧ (31 : BitVec 7).getLsbD i = false)) := by decide
theorem witness_OccurrenceEndEndsRun :
    occurrence (some ⟨1439, 0, 127⟩) 0 (1440 + 1439) = .inside (some 2880) := by decide
theorem witness_StayDeadlineAndDebit :
    site.clock.Sound ∧ (permit 11 11).Sound ∧ site.failure 1 (permit 11 11) = none
      ∧ site.failure 1 { permit 11 11 with maxStay := 1 } = some (6, .tooLate)
      ∧ ({ permit 11 11 with maxStay := 1 } : Permit).Sound
      ∧ (site.setRoom 1 { site.room 1 with minStay := 0 }).failure 1 { permit 11 11 with maxStay := 1 } = none := by
  unfold Clock.Sound Permit.Sound isCredential; decide +kernel

/-! ### What holds at all times -/

/-- A busy sound state: a request outstanding, a record and a group, their queue entries and the deadlines in order. -/
def busy : State :=
  { asked site 0x06 [] with
    pool := [{ occ 11 (.inside 8669000 144503) with room := 2 }], groups := [pair 12]
    deadlines := [⟨8670020, .pairing 1⟩, ⟨8670180, .stayDeadline 11⟩] }
theorem busy_counters_sound : busy.CountersSound :=
  ⟨by unfold Clock.Sound; decide +kernel,
    ⟨by show (1 : Nat) ≤ 63; decide, by show ([] : List TrailRecord) = []; rfl, by decide +kernel, by decide +kernel,
      by decide +kernel, by decide +kernel⟩,
    ⟨by decide +kernel, by decide +kernel, by decide +kernel, by decide +kernel, ⟨rfl, rfl⟩⟩,
    by unfold Sweep.Sound; decide +kernel, by unfold State.DeadlinesSorted; decide +kernel⟩
theorem busy_tables_sound : busy.TablesSound :=
  ⟨site_permits_sound, by unfold State.RevokedSound isCredential; decide +kernel, by unfold State.RoomsSound Room.Sound; decide +kernel,
    by unfold Settings.Sound; decide +kernel, by unfold State.PresentationsSound isCredential; decide +kernel⟩
theorem busy_stations_sound : busy.StationsSound := by unfold State.StationsSound Station.Sound; decide +kernel
theorem busy_persons_sound : busy.PersonsSound ∧ busy.WithinCapacity := by
  refine ⟨by unfold State.PersonsSound; decide +kernel, fun n h h' => ?_, by decide +kernel⟩
  have : n ∈ List.range' 1 12 := by simp; omega
  revert n; decide +kernel
theorem busy_alerts_agree : busy.AlertsAgree := by
  intro n h h'
  have : n ∈ List.range' 1 12 := by simp; omega
  revert n; unfold State.AlertAgrees; decide +kernel
theorem witness_StepKeepsSound : ∃ t, step busy = .next t := ⟨_, rfl⟩
theorem busy_references_sound : busy.ReferencesSound := by
  refine ⟨by unfold State.HoldsPermit; decide +kernel, by unfold State.HoldsPermit; decide +kernel, by decide +kernel,
    by decide +kernel, fun e he => ?_, by decide +kernel⟩
  rcases List.mem_cons.mp he with rfl | he
  · exact ⟨pair 12, by decide +kernel, rfl⟩
  · cases List.mem_singleton.mp he
    exact ⟨{ occ 11 (.inside 8669000 144503) with room := 2 }, by decide +kernel, rfl, by decide, rfl⟩
/-- The busy state at the second its head entry is due. -/
def busyDue : State := { busy with clock := ⟨false, 100, 30020, false⟩ }
theorem witness_ArbiterGrantsInOrder_due : busyDue.ReferencesSound ∧ busyDue.work .timer = some .pairingExpiry :=
  ⟨busy_references_sound, by decide +kernel⟩
/-- An ADMITTING record of station 1, whose slot holds the RELEASE. -/
def entering : State :=
  ({ busy with pool := [occ 11 .admitting], groups := [], deadlines := [] } : State).setStation 1
    { door1 with verdict := some ⟨.release, .granted, 8, false, false⟩ }
theorem entering_awaited : entering.AdmittingAwaited ∧ entering.StandbyEmpty := by
  refine ⟨fun _ o ho _ => ?_, by unfold State.StandbyEmpty; decide +kernel⟩
  cases List.mem_singleton.mp ho
  exact .inl ⟨⟨.release, .granted, 8, false, false⟩, by decide +kernel, rfl⟩
/-- STANDBY accepted and its reply being sent: the state the stop clause of StandbyEmpty is about. -/
def accepted : State :=
  { asleep true true with host := { (asleep true true).host with outstanding := some ⟨req 0x19 [2], true⟩ } }
theorem accepted_standby_empty : accepted.StandbyEmpty ∧ accepted.stop.supply.mode = .standby := by
  unfold State.StandbyEmpty; decide +kernel
theorem entering_sound : entering.StationsSound ∧ entering.PersonsSound := by
  exact ⟨by unfold State.StationsSound Station.Sound; decide +kernel, by unfold State.PersonsSound; decide +kernel⟩
theorem entering_tables_sound : entering.TablesSound :=
  ⟨site_permits_sound, by unfold State.RevokedSound isCredential; decide +kernel, by unfold State.RoomsSound Room.Sound; decide +kernel,
    by unfold Settings.Sound; decide +kernel, by unfold State.PresentationsSound isCredential; decide +kernel⟩
theorem witness_StepKeepsAdmittingAwaited : (∃ t, step entering = .next t) ∧ entering.inReset = false := ⟨⟨_, rfl⟩, rfl⟩

end Sys2Proof.Tests
end

