-- ==== Sys2Proof/Proofs/Effects.lean ====
section
/-! What a step can do to the part's records: every command, and every act of the part of itself, is one of the effects
below, up to the fields (line, trail, host line, sweep, supply, last DOOR station, waiting commands) that the bounds of
the tables and the references between the records do not speak of. Each invariant of the records is a case split over
`State.Effect`. -/
namespace Sys2Proof.Machine

/-- Two states agree in the clock, the settings, the tables, the persons, the deadline queue and the stations. -/
def State.SameRecords (s t : State) : Prop :=
  t.clock = s.clock ∧ t.settings = s.settings ∧ t.permits = s.permits ∧ t.revoked = s.revoked ∧ t.rooms = s.rooms
    ∧ t.pool = s.pool ∧ t.groups = s.groups ∧ t.deadlines = s.deadlines ∧ t.presentations = s.presentations
    ∧ t.stations = s.stations

theorem State.SameRecords.refl (s : State) : s.SameRecords s := by simp [State.SameRecords]

theorem State.SameRecords.trans {s t u : State} (h : s.SameRecords t) (h' : t.SameRecords u) : s.SameRecords u := by
  unfold State.SameRecords at *; simp_all

/-- The effects of a step on the records, each with the checks it has passed. -/
inductive State.Effect (s : State) : State → Prop
  /-- No record changes. -/
  | same : Effect s s
  /-- R84, R98, R128: a second passes. -/
  | tick : Effect s s.tick
  /-- R87: the clock reaches its end. -/
  | clockEnd : s.clock.unset = false → Effect s { s with clock := s.clock.atEnd }
  /-- R90: a CLOCK-SET accepted. -/
  | setClock (day second : Nat) : Effect s (s.setClock day second)
  /-- R170: the settings written. -/
  | writeSettings (b : List Byte) (x : Settings) : readSettings b = .ok x → Effect s (s.writeSettings x)
  /-- R8: a permit added. -/
  | addPermit (b : List Byte) (p : Permit) : readPermitBody b = .ok p → s.permit p.number = none →
      s.tableFullFor p.credential = false → Effect s (s.addPermit p)
  /-- R13: a permit removed. -/
  | dropPermit (n : Nat) : s.inUse n = 0 → Effect s (s.dropPermit n)
  /-- R9 to R12: a permit amended, with the effects on its holder. -/
  | amend (b : List Byte) (c : PermitAmend) (e : Nat × Permit) : readAmendBody b = .ok c → s.permit c.number = some e →
      (e.2.amended c).validFrom < (e.2.amended c).validUntil →
      Effect s ((s.updatePermit c.number (fun q => q.amended c)).actOnHolder (e.2.amended c) c)
  /-- R17, R18: a credential revoked. -/
  | revoke (b : List Byte) (c : Nat) : readCredential b = .ok c → c ∉ s.revoked → s.revoked.length < 32 →
      Effect s (({ s with revoked := s.revoked ++ [c] } : State).actOnRevoked c)
  /-- R19: a revocation taken back. -/
  | unrevoke (c : Nat) : Effect s (({ s with revoked := s.revoked.filter (fun x => x ≠ c) } : State).unmark c)
  /-- R24, R25: a room configured. -/
  | roomSet (b : List Byte) (c : RoomConfig) : readRoomConfig b = .ok c → Effect s (s.configureRoom c)
  /-- R26: a room's mode changed. -/
  | roomMode (b : List Byte) (n : Nat) (m : RoomMode) : readRoomMode b = .ok (n, m) → Effect s (s.changeRoomMode n m)
  /-- R34: an occupant released by the host. -/
  | operatorRelease (o : Occupant) : o ∈ s.pool → Effect s (s.operatorRelease o)
  /-- R131: a station bound. -/
  | stationSet (b : List Byte) (n room release held : Nat) : readStationSet b = .ok (n, room, release, held) →
      s.stationIdle n = true → Effect s (s.setStation n ((s.station n).bound room release held))
  /-- R132: a station's channel written. -/
  | stationChannel (n : Nat) (c : Channel) : ((s.station n).room = 0 → c = .hold) →
      Effect s (s.writeChannel n c .operator)
  /-- R133, R135: a station's corrupt answer flag written. -/
  | flag (n : Nat) (v : Bool) : Effect s (s.setStation n { s.station n with corrupt := v })
  /-- R31: a commit of a station. -/
  | commit (n : Nat) : Effect s ((s.takeDoorEvent n).commitStation n)
  /-- R32: a lapse of a station. -/
  | lapse (n : Nat) (silence : Bool) : Effect s ((s.takeDoorEvent n).lapseStation n silence)
  /-- R94: the due head of the deadline queue acted on. -/
  | due (act : Due → State → State) (e : DeadlineEntry) :
      act ∈ [pairingAction, stayDeadlineAction, escalationAction, limitAction] → s.dueHead = some e →
      Effect s (act e.what s.dropHead)
  /-- R45, R65: a presentation decided. -/
  | decide (act : State → Presentation → State) : act ∈ [State.decideEntry, State.decideExit] →
      Effect s (s.takePresentation act)
  /-- R124: a sweep step. -/
  | sweep (k : Nat) : Effect s ((s.toRetire k).foldl State.retire s)
  /-- R135: a station called. -/
  | call (n : Nat) : Effect s (s.setStation n (s.station n).called)
  /-- R137: a good answer. -/
  | answer (n : Nat) (chars : List StationChar) : isGoodAnswer chars = true → Effect s (s.takeAnswer n (answerOf chars))
  /-- R135: a missing answer. -/
  | miss (n : Nat) (settle : Bool) : Effect s (s.miss n settle)
  /-- R135: a corrupt answer. -/
  | corrupt (n : Nat) (settle : Bool) :
      Effect s ((s.setStation n { s.station n with corrupt := true }).miss n settle)
  /-- R146: a release timer run out. -/
  | releaseExpires (n : Nat) : Effect s (s.releaseExpires n)
  /-- R147: a held timer run out. -/
  | heldExpires (n : Nat) : Effect s (s.heldExpires n)
  /-- R175: a wake. -/
  | wake (c : ModeCause) : Effect s (s.wake c)
  /-- R176 to R178: a start-up, of a part whose supply and host line alone have moved. -/
  | startUp (t : State) (k : RestartKind) (inputs : RestartInputs) : s.SameRecords t → Effect s (t.startUp k inputs)

/-- The step from `s` to `t` is one of the effects, up to the fields that hold no records. -/
def State.Reaches (s t : State) : Prop := ∃ u, s.Effect u ∧ u.SameRecords t

theorem State.Effect.reaches {s u : State} (h : s.Effect u) : s.Reaches u := ⟨u, h, .refl u⟩

theorem State.Reaches.same {s t : State} (h : s.SameRecords t) : s.Reaches t := ⟨s, .same, h⟩

theorem State.Reaches.trans_same {s t u : State} (h : s.Reaches t) (h' : t.SameRecords u) : s.Reaches u := by
  obtain ⟨v, hv, ht⟩ := h
  exact ⟨v, hv, ht.trans h'⟩

/-! ### Operations that touch no record -/

theorem State.pump_same (s : State) : s.SameRecords s.pump := by simp [State.SameRecords]

theorem State.restartLine_same (s : State) : s.SameRecords s.restartLine := by
  simp [State.SameRecords, State.restartLine]

theorem State.beginTurn_same (s : State) (n : Nat) (rest : List Nat) (settle : Bool) :
    (s.setStation n (s.station n).called).SameRecords (s.beginTurn n rest settle) := by
  simp [State.SameRecords, State.beginTurn]

theorem State.endTurn_same (s : State) : s.SameRecords s.endTurn := by
  unfold State.endTurn; split <;> simp [State.SameRecords]

theorem State.acceptFrame_same (s : State) (f : Frame) : s.SameRecords (s.acceptFrame f) := by
  unfold State.acceptFrame; (repeat' split) <;> simp [State.SameRecords]

theorem State.settleSweep_same (s : State) : s.SameRecords s.settleSweep := by simp [State.SameRecords]

theorem State.changeMode_same (s : State) (m : SupplyMode) (b : Bool) (c : ModeCause) :
    s.SameRecords (s.changeMode m b c) := by simp [State.SameRecords]

theorem State.requestRun_same (s : State) : s.SameRecords s.requestRun := by
  unfold State.requestRun; split <;> simp [State.SameRecords]

theorem State.requestReserve_same (s : State) : s.SameRecords s.requestReserve := by
  unfold State.requestReserve; split <;> simp [State.SameRecords]

theorem State.requestStandby_same (s : State) : s.SameRecords s.requestStandby := by
  unfold State.requestStandby; split <;> simp [State.SameRecords]

theorem State.closeTrail_same (s : State) (h : HalfId) : s.SameRecords (s.closeTrail h) := by
  simp [State.SameRecords, State.closeTrail]

theorem State.freeHalf_same (s : State) (h : HalfId) : s.SameRecords (s.freeHalf h) := by
  unfold State.freeHalf; split <;> simp [State.SameRecords]

/-! ### Requests and jobs -/

theorem except_map_ok {α β ε : Type} {f : α → β} {x : Except ε α} {y : β} (h : x.map f = .ok y) :
    ∃ a, x = .ok a ∧ f a = y := by
  cases x with
  | error e => cases h
  | ok a => exact ⟨a, rfl, Except.ok.inj h⟩

section
variable {i : Instr} {s t : State} {serve : List Byte → State → Except ReplyCode (State × List Byte)}

theorem State.answer_reaches (f : Frame)
    (hs : ∀ u r, serve f.body s = .ok (u, r) → s.Reaches u) : s.Reaches (s.answer f (serve f.body s)) := by
  unfold State.answer
  split
  · exact .same (by simp [State.SameRecords])
  · rename_i u r h
    exact (hs u r h).trans_same (by simp [State.SameRecords])

/-- A REQUEST job reaches what its service reaches. -/
theorem requestJob_reaches (hs : ∀ b u r, serve b s = .ok (u, r) → s.Reaches u) (h : requestJob i s serve = .next t) :
    s.Reaches t := by
  unfold requestJob at h
  split at h
  · split at h
    · cases h; exact State.answer_reaches _ (hs _)
    · cases h; exact .same (.refl s)
  · cases h; exact .same (.refl s)

/-- A request served at acceptance reaches what its service reaches. -/
theorem acceptedRequest_reaches (hs : ∀ b u r, serve b s = .ok (u, r) → s.Reaches u)
    (h : acceptedRequest i s serve = .next t) : s.Reaches t := by
  unfold acceptedRequest at h
  split at h
  · cases h; exact State.answer_reaches _ (hs _)
  · cases h; exact .same (.refl s)

theorem whenGranted_reaches {job : State → State} (hj : s.Reaches (job s)) (h : whenGranted i s job = .next t) :
    s.Reaches t := by
  unfold whenGranted at h
  split at h
  · cases h; exact hj.trans_same (State.pump_same _)
  · cases h; exact .same (.refl s)

/-- A service that reads a body and answers a state with the same records. -/
theorem map_reaches {α : Type} {x : Except ReplyCode α} {f : α → State × List Byte} {u : State} {r : List Byte}
    (h : x.map f = .ok (u, r)) (hf : ∀ a, x = .ok a → s.Reaches (f a).1) : s.Reaches u := by
  obtain ⟨a, ha, hfa⟩ := except_map_ok h
  have := hf a ha
  rwa [hfa] at this

end

/-! ### The services of the engine's requests -/

section
variable {s u : State} {b r : List Byte}

theorem serveClockSet_reaches (h : serveClockSet b s = .ok (u, r)) : s.Reaches u := by
  unfold serveClockSet at h
  (repeat' split at h) <;> cases h
  exact (State.Effect.setClock _ _).reaches

theorem servePermitAdd_reaches (h : servePermitAdd b s = .ok (u, r)) : s.Reaches u := by
  unfold servePermitAdd at h
  (repeat' split at h) <;> cases h
  rename_i p hp _ hfree hfull
  exact (State.Effect.addPermit b p hp (by simpa using hfree) (by simpa using hfull)).reaches

theorem servePermitAmend_reaches (h : servePermitAmend b s = .ok (u, r)) : s.Reaches u := by
  unfold servePermitAmend at h
  (repeat' split at h) <;> cases h
  rename_i c hc _ slot p hp hr _
  exact (State.Effect.amend b c (slot, p) hc hp (by simpa using hr)).reaches

theorem servePermitRemove_reaches (h : servePermitRemove b s = .ok (u, r)) : s.Reaches u := by
  unfold servePermitRemove at h
  (repeat' split at h) <;> cases h
  rename_i hu
  exact (State.Effect.dropPermit _ (by simpa using hu)).reaches

theorem servePermitRead_reaches (h : servePermitRead b s = .ok (u, r)) : s.Reaches u := by
  unfold servePermitRead at h
  (repeat' split at h) <;> cases h
  exact State.Effect.same.reaches

theorem servePermitFind_reaches (h : servePermitFind b s = .ok (u, r)) : s.Reaches u := by
  unfold servePermitFind at h
  (repeat' split at h) <;> cases h
  exact State.Effect.same.reaches

theorem serveRevoke_reaches (h : serveRevoke b s = .ok (u, r)) : s.Reaches u := by
  unfold serveRevoke at h
  (repeat' split at h) <;> cases h
  · exact State.Effect.same.reaches
  · rename_i c hc hm hl
    exact (State.Effect.revoke b c hc (by simpa using hm) (by simpa [Config.revocations] using hl)).reaches

theorem serveUnrevoke_reaches (h : serveUnrevoke b s = .ok (u, r)) : s.Reaches u := by
  unfold serveUnrevoke at h
  (repeat' split at h) <;> cases h
  exact (State.Effect.unrevoke _).reaches

theorem serveRoomSet_reaches (h : serveRoomSet b s = .ok (u, r)) : s.Reaches u := by
  unfold serveRoomSet at h
  (repeat' split at h) <;> cases h
  rename_i c hc _
  exact (State.Effect.roomSet b c hc).reaches

theorem serveRoomMode_reaches (h : serveRoomMode b s = .ok (u, r)) : s.Reaches u := by
  unfold serveRoomMode at h
  (repeat' split at h) <;> cases h
  · exact State.Effect.same.reaches
  · rename_i n m hm _
    exact (State.Effect.roomMode b n m hm).reaches

theorem serveRoomRead_reaches (h : serveRoomRead b s = .ok (u, r)) : s.Reaches u := by
  unfold serveRoomRead at h
  (repeat' split at h) <;> cases h
  exact State.Effect.same.reaches

theorem mem_pool_of_find_occupants {s : State} {n : Nat} {p : Occupant → Bool} {o : Occupant}
    (h : (s.occupants n).find? p = some o) : o ∈ s.pool :=
  List.mem_of_mem_filter (List.mem_of_find?_eq_some h)

theorem serveOccupantRelease_reaches (h : serveOccupantRelease b s = .ok (u, r)) : s.Reaches u := by
  unfold serveOccupantRelease at h
  (repeat' split at h) <;> cases h
  rename_i o ho
  exact (State.Effect.operatorRelease o (mem_pool_of_find_occupants ho)).reaches

theorem serveStationSet_reaches (h : serveStationSet b s = .ok (u, r)) : s.Reaches u := by
  unfold serveStationSet at h
  (repeat' split at h) <;> cases h
  rename_i hb hi
  exact (State.Effect.stationSet b _ _ _ _ hb hi).reaches

theorem serveStationChannel_reaches (h : serveStationChannel b s = .ok (u, r)) : s.Reaches u := by
  unfold serveStationChannel at h
  (repeat' split at h) <;> cases h
  · exact State.Effect.same.reaches
  · rename_i hc _
    exact (State.Effect.stationChannel _ _ (by simpa using hc)).reaches

theorem serveStationRead_reaches (h : serveStationRead b s = .ok (u, r)) : s.Reaches u := by
  unfold serveStationRead at h
  (repeat' split at h) <;> cases h
  exact (State.Effect.flag _ _).reaches

theorem serveTrailRead_reaches (h : serveTrailRead b s = .ok (u, r)) : s.Reaches u := by
  unfold serveTrailRead at h
  (repeat' split at h) <;> cases h
  exact State.Effect.same.reaches

theorem serveTrailClose_reaches (h : serveTrailClose b s = .ok (u, r)) : s.Reaches u := by
  unfold serveTrailClose at h
  (repeat' split at h) <;> cases h
  · exact State.Effect.same.reaches
  · exact .same (State.closeTrail_same _ _)

theorem serveTrailFree_reaches (h : serveTrailFree b s = .ok (u, r)) : s.Reaches u := by
  unfold serveTrailFree at h
  (repeat' split at h) <;> cases h
  exact .same (State.freeHalf_same _ _)

theorem serveModeRun_reaches (h : serveModeRun b s = .ok (u, r)) : s.Reaches u := by
  unfold serveModeRun at h
  (repeat' split at h) <;> cases h
  exact .same (State.requestRun_same s)

theorem serveModeReserve_reaches (h : serveModeReserve b s = .ok (u, r)) : s.Reaches u := by
  unfold serveModeReserve at h
  (repeat' split at h) <;> cases h
  exact .same (State.requestReserve_same s)

theorem serveModeStandby_reaches (h : serveModeStandby b s = .ok (u, r)) : s.Reaches u := by
  unfold serveModeStandby at h
  (repeat' split at h) <;> cases h
  exact .same (State.requestStandby_same s)

end

/-! ### Jobs, wakes and restarts -/

section
variable (s : State)

theorem State.takeDue_reaches {act : Due → State → State}
    (ha : act ∈ [pairingAction, stayDeadlineAction, escalationAction, limitAction]) : s.Reaches (s.takeDue act) := by
  unfold State.takeDue
  split
  · rename_i e he
    exact (State.Effect.due act e ha he).reaches
  · exact State.Effect.same.reaches

/-- A wake moves the stations alone of the records, so it is an effect of every state with the same records. -/
theorem State.wake_same {s t : State} (h : s.SameRecords t) (c : ModeCause) : (s.wake c).SameRecords (t.wake c) := by
  simp_all [State.SameRecords, State.wake, State.restartLine]

theorem State.Reaches.of_wakeEvent {s t : State} (h : s.SameRecords t) (c : ModeCause) : s.Reaches (t.wakeEvent c) := by
  unfold State.wakeEvent
  (repeat' split)
  · exact .same h
  · exact .same (h.trans (by simp [State.SameRecords]))
  · exact ⟨_, .wake c, State.wake_same h c⟩

theorem State.Reaches.of_stop {s t : State} (h : s.SameRecords t) : s.Reaches t.stop := by
  unfold State.stop
  split
  · exact ⟨_, .wake _, State.wake_same (h.trans (by simp [State.SameRecords])) _⟩
  · exact .same (h.trans (by simp [State.SameRecords]))

theorem State.Reaches.of_replySent {s t : State} (h : s.SameRecords t) (inputs : RestartInputs) :
    s.Reaches (t.replySent inputs) := by
  unfold State.replySent
  (repeat' split)
  · exact (State.Effect.startUp t _ inputs h).reaches
  · exact (State.Effect.startUp t _ inputs h).reaches
  · exact (State.Reaches.of_stop h).trans_same (State.pump_same _)
  · exact .same (h.trans (State.pump_same _))

theorem State.Reaches.of_leaveReset {s t : State} (h : s.SameRecords t) (inputs : RestartInputs) :
    s.Reaches (t.leaveReset inputs) := by
  have hb : s.SameRecords { t with supply := t.supply.backedUp inputs.backup } :=
    h.trans (by simp [State.SameRecords])
  unfold State.leaveReset
  dsimp only
  split
  · exact .same hb
  · exact (State.Effect.startUp _ _ inputs hb).reaches

theorem State.supplyFell_reaches {s t : State} (h : s.SameRecords t) : s.Reaches t.supplyFell := by
  unfold State.supplyFell
  split
  · exact .same (h.trans (State.changeMode_same _ _ _ _))
  · exact .same h
  · exact State.Reaches.of_wakeEvent h _

theorem State.supplyRose_reaches {s t : State} (h : s.SameRecords t) : s.Reaches t.supplyRose := by
  unfold State.supplyRose
  (repeat' split)
  · exact .same h
  · exact .same h
  · exact .same (h.trans ((State.changeMode_same _ _ _ _).trans (State.settleSweep_same _)))
  · exact State.Reaches.of_wakeEvent h _

end

/-! ### Every command -/

section
variable {s t : State}

theorem execFrameReceived_reaches {bytes : List Byte} (h : execFrameReceived bytes s = .next t) : s.Reaches t := by
  unfold execFrameReceived at h
  (repeat' split at h) <;> cases h
  · exact .same (.refl s)
  · exact .same ((State.acceptFrame_same _ _).trans (State.pump_same _))
  · exact .same (by simp [State.SameRecords])

/-- The three events that discard an unfinished frame touch no record. -/
theorem discard_reaches {b : Bool}
    (h : (if b then Host.Outcome.next s else .next s.discardFrame : Host.Outcome State Fault Refusal) = .next t) :
    s.Reaches t := by
  split at h <;> cases h
  · exact .same (.refl s)
  · exact .same (by simp [State.SameRecords])

theorem execStartByteReceived_reaches (h : execStartByteReceived s = .next t) : s.Reaches t := by
  unfold execStartByteReceived at h
  split at h <;> cases h
  · exact .same (.refl s)
  · exact (State.Reaches.of_wakeEvent (by simp [State.SameRecords]) _).trans_same (State.pump_same _)

theorem execFrameSent_reaches {inputs : RestartInputs} (h : execFrameSent inputs s = .next t) : s.Reaches t := by
  unfold execFrameSent at h
  (repeat' split at h) <;> cases h
  · exact .same (.refl s)
  · exact .same (.refl s)
  · exact State.Reaches.of_replySent (by simp [State.SameRecords]) _
  · exact .same (by simp [State.SameRecords])
  · exact .same (by simp [State.SameRecords])

theorem execDoorCommit_reaches (h : execDoorCommit s = .next t) : s.Reaches t := by
  refine whenGranted_reaches ?_ h
  split
  · exact (State.Effect.commit _).reaches
  · exact State.Effect.same.reaches

theorem execDoorLapse_reaches (h : execDoorLapse s = .next t) : s.Reaches t := by
  refine whenGranted_reaches ?_ h
  (repeat' split)
  · exact (State.Effect.lapse _ _).reaches
  all_goals exact State.Effect.same.reaches

theorem execSweepStep_reaches (h : execSweepStep s = .next t) : s.Reaches t :=
  whenGranted_reaches ⟨_, .sweep s.sweep.position, by simp [State.SameRecords]⟩ h

theorem execSweepIntervalExpiry_reaches (h : execSweepIntervalExpiry s = .next t) : s.Reaches t := by
  unfold execSweepIntervalExpiry at h
  split at h <;> cases h
  · exact .same (by simp [State.SameRecords])
  · exact .same (.refl s)

theorem execClockEnd_reaches (h : execClockEnd s = .next t) : s.Reaches t := by
  unfold execClockEnd at h
  split at h <;> cases h
  · rename_i hc
    simp only [Bool.and_eq_true, Bool.not_eq_true'] at hc
    exact (State.Effect.clockEnd hc.1.1).reaches
  · exact .same (.refl s)

theorem execPollRoundStart_reaches (h : execPollRoundStart s = .next t) : s.Reaches t := by
  unfold execPollRoundStart at h
  split at h <;> cases h
  · exact .same (by simp [State.SameRecords, State.startRound])
  · exact .same (.refl s)

theorem execCall_reaches (h : execCall s = .next t) : s.Reaches t := by
  unfold execCall at h
  (repeat' split at h) <;> cases h
  · exact .same (.refl s)
  · exact ⟨_, .call _, State.beginTurn_same _ _ _ _⟩
  all_goals exact .same (.refl s)

theorem execGoodAnswer_reaches {chars : List StationChar} (h : execGoodAnswer chars s = .next t) : s.Reaches t := by
  unfold execGoodAnswer at h
  (repeat' split at h) <;> cases h
  · rename_i hg _ _ _ _
    exact ⟨_, .answer _ chars (by simpa using hg), (State.endTurn_same _).trans (State.pump_same _)⟩
  · exact .same (.refl s)

theorem execMissingAnswer_reaches (h : execMissingAnswer s = .next t) : s.Reaches t := by
  unfold execMissingAnswer at h
  split at h <;> cases h
  · exact ⟨_, .miss _ _, (State.endTurn_same _).trans (State.pump_same _)⟩
  · exact .same (.refl s)

theorem execCorruptAnswer_reaches {chars : List StationChar} (h : execCorruptAnswer chars s = .next t) :
    s.Reaches t := by
  unfold execCorruptAnswer at h
  (repeat' split at h) <;> cases h
  · exact ⟨_, .corrupt _ _, (State.endTurn_same _).trans (State.pump_same _)⟩
  · exact .same (.refl s)

theorem execReleaseTimerExpiry_reaches {n : Nat} (h : execReleaseTimerExpiry n s = .next t) : s.Reaches t := by
  unfold execReleaseTimerExpiry at h
  (repeat' split at h) <;> cases h
  · exact .same (.refl s)
  · exact (State.Effect.releaseExpires n).reaches

theorem execHeldTimerExpiry_reaches {n : Nat} (h : execHeldTimerExpiry n s = .next t) : s.Reaches t := by
  unfold execHeldTimerExpiry at h
  (repeat' split at h) <;> cases h
  · exact .same (.refl s)
  · exact (State.Effect.heldExpires n).reaches

theorem execSupplyFall_reaches (h : execSupplyFall s = .next t) : s.Reaches t := by
  unfold execSupplyFall at h
  (repeat' split at h) <;> cases h
  · exact .same (.refl s)
  · exact .same (by simp [State.SameRecords])
  · exact (State.supplyFell_reaches (by simp [State.SameRecords])).trans_same (State.pump_same _)

theorem execSupplyRise_reaches (h : execSupplyRise s = .next t) : s.Reaches t := by
  unfold execSupplyRise at h
  (repeat' split at h) <;> cases h
  · exact .same (.refl s)
  · exact .same (by simp [State.SameRecords])
  · exact (State.supplyRose_reaches (by simp [State.SameRecords])).trans_same (State.pump_same _)

theorem execAttention_reaches {stays : Bool} (h : execAttention stays s = .next t) : s.Reaches t := by
  unfold execAttention at h
  split at h <;> cases h
  · exact .same (by simp [State.SameRecords])
  · exact (State.Reaches.of_wakeEvent (by simp [State.SameRecords]) _).trans_same (State.pump_same _)

theorem execResetLineReleased_reaches {inputs : RestartInputs} (h : execResetLineReleased inputs s = .next t) :
    s.Reaches t := by
  unfold execResetLineReleased at h
  split at h <;> cases h
  · exact State.Reaches.of_leaveReset (by simp [State.SameRecords]) _
  · exact .same (.refl s)

theorem execMainSupplyUp_reaches {inputs : RestartInputs} (h : execMainSupplyUp inputs s = .next t) :
    s.Reaches t := by
  unfold execMainSupplyUp at h
  split at h <;> cases h
  · exact State.Reaches.of_leaveReset (by simp [State.SameRecords]) _
  · exact .same (.refl s)

/-- A request of the host line that reads a body and answers a state with the same records. -/
theorem reads_reaches {α : Type} {x : Except ReplyCode α} {f : α → State × List Byte} {u : State} {r : List Byte}
    (hf : ∀ a, s.SameRecords (f a).1) (h : x.map f = .ok (u, r)) : s.Reaches u :=
  map_reaches h fun a _ => .same (hf a)

/-- Every command that completes is one of the effects, up to the fields that hold no records. -/
theorem exec_reaches (c : Instr) (h : exec c s = .next t) : s.Reaches t := by
  cases c <;> dsimp only [exec] at h
  case frameReceived bytes => exact execFrameReceived_reaches h
  case receiveGap => exact discard_reaches h
  case framingError => exact discard_reaches h
  case lengthOver1024 => exact discard_reaches h
  case startByteReceived => exact execStartByteReceived_reaches h
  case frameSent inputs => exact execFrameSent_reaches h
  case identify => exact acceptedRequest_reaches (fun _ _ _ => reads_reaches fun _ => .refl s) h
  case status =>
    exact acceptedRequest_reaches (fun _ _ _ => reads_reaches fun _ => by
      simp [State.SameRecords, State.clearLineFlags]) h
  case settingsRead => exact acceptedRequest_reaches (fun _ _ _ => reads_reaches fun _ => .refl s) h
  case unknownKind => exact acceptedRequest_reaches (fun _ _ _ hs => by cases hs) h
  case settingsWrite =>
    exact requestJob_reaches (fun b _ _ hs => map_reaches hs fun x hx => (State.Effect.writeSettings b x hx).reaches) h
  case clockSet => exact requestJob_reaches (fun _ _ _ => serveClockSet_reaches) h
  case clockRead => exact requestJob_reaches (fun _ _ _ => reads_reaches fun _ => .refl s) h
  case permitAdd => exact requestJob_reaches (fun _ _ _ => servePermitAdd_reaches) h
  case permitAmend => exact requestJob_reaches (fun _ _ _ => servePermitAmend_reaches) h
  case permitRemove => exact requestJob_reaches (fun _ _ _ => servePermitRemove_reaches) h
  case permitRead => exact requestJob_reaches (fun _ _ _ => servePermitRead_reaches) h
  case permitFind => exact requestJob_reaches (fun _ _ _ => servePermitFind_reaches) h
  case revoke => exact requestJob_reaches (fun _ _ _ => serveRevoke_reaches) h
  case unrevoke => exact requestJob_reaches (fun _ _ _ => serveUnrevoke_reaches) h
  case revokeList => exact requestJob_reaches (fun _ _ _ => reads_reaches fun _ => .refl s) h
  case roomSet => exact requestJob_reaches (fun _ _ _ => serveRoomSet_reaches) h
  case roomMode => exact requestJob_reaches (fun _ _ _ => serveRoomMode_reaches) h
  case roomRead => exact requestJob_reaches (fun _ _ _ => serveRoomRead_reaches) h
  case occupantRelease => exact requestJob_reaches (fun _ _ _ => serveOccupantRelease_reaches) h
  case stationSet => exact requestJob_reaches (fun _ _ _ => serveStationSet_reaches) h
  case stationChannel => exact requestJob_reaches (fun _ _ _ => serveStationChannel_reaches) h
  case stationRead => exact requestJob_reaches (fun _ _ _ => serveStationRead_reaches) h
  case trailRead => exact acceptedRequest_reaches (fun _ _ _ => serveTrailRead_reaches) h
  case trailClose => exact acceptedRequest_reaches (fun _ _ _ => serveTrailClose_reaches) h
  case trailFree => exact acceptedRequest_reaches (fun _ _ _ => serveTrailFree_reaches) h
  case modeRequestRun => exact requestJob_reaches (fun _ _ _ => serveModeRun_reaches) h
  case modeRequestReserve => exact requestJob_reaches (fun _ _ _ => serveModeReserve_reaches) h
  case modeRequestStandby => exact requestJob_reaches (fun _ _ _ => serveModeStandby_reaches) h
  case restartWarmRequest =>
    exact requestJob_reaches (fun _ _ _ => reads_reaches fun _ => by
      simp [State.SameRecords, State.requestRestart]) h
  case restartCleanRequest =>
    exact requestJob_reaches (fun _ _ _ => reads_reaches fun _ => by
      simp [State.SameRecords, State.requestRestart]) h
  case doorCommit => exact execDoorCommit_reaches h
  case doorLapse => exact execDoorLapse_reaches h
  case pairingExpiry => exact whenGranted_reaches (State.takeDue_reaches s (by simp)) h
  case stayDeadlineDue => exact whenGranted_reaches (State.takeDue_reaches s (by simp)) h
  case escalationDue => exact whenGranted_reaches (State.takeDue_reaches s (by simp)) h
  case limitDue => exact whenGranted_reaches (State.takeDue_reaches s (by simp)) h
  case entryDecision => exact whenGranted_reaches (State.Effect.decide _ (by simp)).reaches h
  case exitDecision => exact whenGranted_reaches (State.Effect.decide _ (by simp)).reaches h
  case sweepStep => exact execSweepStep_reaches h
  case sweepIntervalExpiry => exact execSweepIntervalExpiry_reaches h
  case clockEnd => exact execClockEnd_reaches h
  case pollRoundStart => exact execPollRoundStart_reaches h
  case call => exact execCall_reaches h
  case goodAnswer chars => exact execGoodAnswer_reaches h
  case missingAnswer => exact execMissingAnswer_reaches h
  case corruptAnswer chars => exact execCorruptAnswer_reaches h
  case releaseTimerExpiry n => exact execReleaseTimerExpiry_reaches h
  case heldTimerExpiry n => exact execHeldTimerExpiry_reaches h
  case supplyFall => exact execSupplyFall_reaches h
  case supplyRise => exact execSupplyRise_reaches h
  case attention stays => exact execAttention_reaches h
  case resetLineActive => cases h; exact .same (by simp [State.SameRecords])
  case mainSupplyLoss => cases h; exact .same (by simp [State.SameRecords])
  case resetLineReleased inputs => exact execResetLineReleased_reaches h
  case mainSupplyUp inputs => exact execMainSupplyUp_reaches h

/-- The queue of waiting commands holds no record: a property of the records that every effect keeps is kept by every
step. -/
theorem step_keeps {P : State → Prop} (same : ∀ {u v : State}, u.SameRecords v → P u → P v)
    (effect : ∀ {u v : State}, P u → u.Effect v → P v) (h : P s) (hs : step s = .next t) : P t := by
  have exec_keeps : ∀ c u, P u → exec c u = .next t → P t := fun c u hu hc => by
    obtain ⟨v, hv, hvt⟩ := exec_reaches c hc
    exact same hvt (effect hu hv)
  unfold step at hs
  (repeat' split at hs)
  · exact exec_keeps _ _ (same (by simp [State.SameRecords]) h) hs
  · exact exec_keeps _ _ h hs
  · cases hs; exact effect h .tick

end

end Sys2Proof.Machine
end

