-- ==== Sys2Proof/Proofs/Bodies.lean ====
section
/-! The permit body and the amend body (R181): what is read at an offset, when a body is refused, and the ranges of what
is taken. -/
namespace Sys2Proof.Machine

/-! ### Values at an offset -/

theorem leNat_lt (l : List Byte) : leNat l < 256 ^ l.length := by
  induction l with
  | nil => simp [leNat]
  | cons b bs ih =>
    have := b.isLt
    simp only [leNat, List.length_cons, Nat.pow_succ]
    omega

theorem valueAt_lt (b : List Byte) (o w : Nat) : valueAt b o w < 256 ^ w :=
  (leNat_lt _).trans_le (Nat.pow_le_pow_right (by decide) (List.length_take_le _ _))

/-! ### Rooms lists, windows and clamping -/

theorem mem_sortRooms (l : List Nat) (r : Nat) : r ∈ sortRooms l ↔ 1 ≤ r ∧ r ≤ 12 ∧ r ∈ l := by
  simp only [sortRooms, Config.rooms, List.mem_filter, List.mem_range'_1, List.contains_iff_mem]
  constructor
  · rintro ⟨⟨h1, h13⟩, hm⟩
    exact ⟨h1, by omega, hm⟩
  · rintro ⟨h1, h12, hm⟩
    exact ⟨⟨h1, by omega⟩, hm⟩

theorem sortRooms_pairwise (l : List Nat) : (sortRooms l).Pairwise (· < ·) :=
  (List.pairwise_lt_range' (s := 1) (n := Config.rooms)).filter _

theorem badRooms_eq_false (l : List Nat) : badRooms l = false ↔ l ≠ [] ∧ ∀ r ∈ l, 1 ≤ r ∧ r ≤ 12 := by
  simp [badRooms, Nat.one_le_iff_ne_zero]
  simp [Config.rooms]

theorem sortRooms_ne_nil (l : List Nat) (h : badRooms l = false) : sortRooms l ≠ [] := by
  obtain ⟨hne, hr⟩ := (badRooms_eq_false l).1 h
  obtain ⟨r, hm⟩ := List.exists_mem_of_ne_nil l hne
  exact List.ne_nil_of_mem ((mem_sortRooms l r).2 ⟨(hr r hm).1, (hr r hm).2, hm⟩)

/-- R7 item 3: a rooms list already ascending and in range is taken as it stands. -/
theorem sortRooms_eq_self (l : List Nat) (hs : l.Pairwise (· < ·)) (hr : ∀ r ∈ l, 1 ≤ r ∧ r ≤ 12) :
    sortRooms l = l :=
  (sortRooms_pairwise l).eq_of_mem_iff hs fun r => by
    rw [mem_sortRooms]
    exact ⟨fun h => h.2.2, fun h => ⟨(hr r h).1, (hr r h).2, h⟩⟩

theorem mem_roomsAt (b : List Byte) (o r : Nat) : r ∈ roomsAt b o ↔ ∃ i, i < byteAt b o ∧ byteAt b (o + 1 + i) = r := by
  simp [roomsAt]

theorem badRooms_roomsAt (b : List Byte) (o : Nat) : badRooms (roomsAt b o) = false ↔
    1 ≤ byteAt b o ∧ ∀ i, i < byteAt b o → 1 ≤ byteAt b (o + 1 + i) ∧ byteAt b (o + 1 + i) ≤ 12 := by
  rw [badRooms_eq_false]
  simp [roomsAt, Nat.one_le_iff_ne_zero]

theorem badWindow_eq_false (b : List Byte) (o : Nat) : badWindow b o = false ↔
    valueAt b o 2 ≤ 1439 ∧ valueAt b (o + 2) 2 ≤ 1439 ∧ byteAt b (o + 4) ≤ 127 := by
  simp [badWindow, and_assoc]

theorem takenMaxStay_eq (n : Nat) : takenMaxStay n = max 1 (min 1440 n) := by
  simp only [takenMaxStay, clampTo]; split
  · omega
  · split <;> omega

theorem badCredential_eq_false (c : Nat) : badCredential c = false ↔ c ≠ 0 ∧ c ≠ 4294967295 := by
  simp [badCredential]

/-- R6: a four-byte value that is not refused is a card number. -/
theorem isCredential_valueAt (b : List Byte) (o : Nat) :
    badCredential (valueAt b o 4) = false ↔ isCredential (valueAt b o 4) := by
  have := valueAt_lt b o 4
  rw [badCredential_eq_false, isCredential]
  omega

/-! ### The permit body -/

/-- R181: the length and shape of a permit body. -/
def PermitBodyShaped (b : List Byte) : Prop :=
  b.length = 41 ∧ byteAt b 9 ≤ 12 ∧ byteAt b 30 ≤ 1 ∧ byteAt b 38 ≤ 1

/-- R8 step 2: the values of a permit body in their ranges. -/
def PermitBodyInRange (b : List Byte) : Prop :=
  1 ≤ valueAt b 0 2 ∧ isCredential (valueAt b 2 4) ∧ byteAt b 6 ≤ 1 ∧ byteAt b 7 ≤ 1 ∧ byteAt b 8 ≤ 1
    ∧ 1 ≤ byteAt b 9 ∧ (∀ i, i < byteAt b 9 → 1 ≤ byteAt b (10 + i) ∧ byteAt b (10 + i) ≤ 12)
    ∧ valueAt b 22 4 ≤ 94371839 ∧ valueAt b 26 4 ≤ 94371840 ∧ valueAt b 22 4 < valueAt b 26 4
    ∧ (byteAt b 30 = 1 → valueAt b 31 2 ≤ 1439 ∧ valueAt b 33 2 ≤ 1439 ∧ byteAt b 35 ≤ 127)

theorem permitBodyOutOfRange_iff (b : List Byte) : permitBodyOutOfRange b = false ↔ PermitBodyInRange b := by
  simp only [permitBodyOutOfRange, Bool.or_eq_false_iff, badRooms_roomsAt, isCredential_valueAt, Bool.and_eq_false_imp,
    badWindow_eq_false, beq_eq_false_iff_ne, beq_iff_eq, decide_eq_false_iff_not, Config.lastMinute, PermitBodyInRange,
    Nat.reduceAdd]
  grind

theorem readPermitBody_malformed {b : List Byte} (h : ¬ PermitBodyShaped b) :
    readPermitBody b = .error .malformed :=
  if_pos (by unfold PermitBodyShaped at h; omega)

theorem readPermitBody_shaped {b : List Byte} (h : PermitBodyShaped b) :
    readPermitBody b = if permitBodyOutOfRange b then .error .range else .ok (permitOf b) :=
  if_neg (by unfold PermitBodyShaped at h; omega)

theorem readPermitBody_range {b : List Byte} (h : PermitBodyShaped b) (hr : ¬ PermitBodyInRange b) :
    readPermitBody b = .error .range := by
  rw [readPermitBody_shaped h, if_pos (by rwa [← permitBodyOutOfRange_iff, Bool.not_eq_false] at hr)]

theorem readPermitBody_ok {b : List Byte} (h : PermitBodyShaped b) (hr : PermitBodyInRange b) :
    readPermitBody b = .ok (permitOf b) := by
  rw [readPermitBody_shaped h, (permitBodyOutOfRange_iff b).2 hr]; rfl

/-- R2, R3, R4: a permit body in range is taken as a permit in its ranges. -/
theorem permitOf_sound {b : List Byte} (h : PermitBodyInRange b) : (permitOf b).Sound := by
  obtain ⟨hnum, hcred, hrole, -, -, hcount, hrooms, hfrom, huntil, hlt, hwin⟩ := h
  have hnum' := valueAt_lt b 0 2
  have hallow := valueAt_lt b 39 2
  have hstay : 1 ≤ takenMaxStay (valueAt b 36 2) ∧ takenMaxStay (valueAt b 36 2) ≤ 1440 := by
    rw [takenMaxStay_eq]; omega
  refine ⟨hnum, by simp only [permitOf]; omega, hcred, ?_, sortRooms_pairwise _, ?_, hfrom, ?_, huntil, hlt, ?_, ?_,
    hstay.1, hstay.2, ?_⟩
  · exact sortRooms_ne_nil _ ((badRooms_roomsAt b 9).2 ⟨hcount, hrooms⟩)
  · intro r hr
    obtain ⟨h1, h12, -⟩ := (mem_sortRooms _ r).1 hr
    exact ⟨h1, h12⟩
  · simp only [permitOf]; omega
  · intro w hw
    simp only [permitOf, Option.mem_def] at hw
    split at hw
    · rename_i h1
      cases hw
      exact ⟨(hwin h1).1, (hwin h1).2.1⟩
    · cases hw
  · intro hesc
    simp only [permitOf] at hesc ⊢
    simp [hesc, takenNeedsEscort]
  · intro a ha
    simp only [permitOf, Option.mem_def] at ha
    split at ha
    · cases ha; omega
    · cases ha

/-- What a permit body that is read has passed, and what it is taken as. -/
theorem readPermitBody_eq_ok {b : List Byte} {p : Permit} (h : readPermitBody b = .ok p) :
    PermitBodyInRange b ∧ p = permitOf b := by
  by_cases hs : PermitBodyShaped b
  · by_cases hr : PermitBodyInRange b
    · rw [readPermitBody_ok hs hr] at h
      exact ⟨hr, (Except.ok.inj h).symm⟩
    · rw [readPermitBody_range hs hr] at h; cases h
  · rw [readPermitBody_malformed hs] at h; cases h

theorem readPermitBody_sound {b : List Byte} {p : Permit} (h : readPermitBody b = .ok p) : p.Sound := by
  obtain ⟨hr, rfl⟩ := readPermitBody_eq_ok h
  exact permitOf_sound hr

/-! ### The amend body -/

/-- R181: the length and action bytes of an amend body. -/
def AmendBodyShaped (b : List Byte) : Prop :=
  b.length = 42 ∧ byteAt b 2 ≤ 1 ∧ byteAt b 4 ≤ 1 ∧ byteAt b 9 ≤ 1 ∧ byteAt b 14 ≤ 2 ∧ byteAt b 20 ≤ 1
    ∧ byteAt b 23 ≤ 3 ∧ byteAt b 26 ≤ 1 ∧ (byteAt b 26 = 1 → byteAt b 27 ≤ 12) ∧ byteAt b 40 ≤ 1

/-- R9 step 2: the values of an amend body in their ranges. -/
def AmendBodyInRange (b : List Byte) : Prop :=
  1 ≤ valueAt b 0 2 ∧ (byteAt b 2 = 1 → byteAt b 3 ≤ 1) ∧ (byteAt b 4 = 1 → valueAt b 5 4 ≤ 94371839)
    ∧ (byteAt b 9 = 1 → 1 ≤ valueAt b 10 4 ∧ valueAt b 10 4 ≤ 94371840)
    ∧ (byteAt b 14 = 1 → valueAt b 15 2 ≤ 1439 ∧ valueAt b 17 2 ≤ 1439 ∧ byteAt b 19 ≤ 127)
    ∧ (byteAt b 23 = 2 → 1 ≤ valueAt b 24 2)
    ∧ (byteAt b 26 = 1 → 1 ≤ byteAt b 27
        ∧ ∀ i, i < byteAt b 27 → 1 ≤ byteAt b (28 + i) ∧ byteAt b (28 + i) ≤ 12)
    ∧ (byteAt b 40 = 1 → byteAt b 41 ≤ 1)

theorem amendBodyOutOfRange_iff (b : List Byte) : amendBodyOutOfRange b = false ↔ AmendBodyInRange b := by
  simp only [amendBodyOutOfRange, Bool.or_eq_false_iff, badRooms_roomsAt, Bool.and_eq_false_imp,
    badWindow_eq_false, beq_eq_false_iff_ne, beq_iff_eq, decide_eq_false_iff_not, AmendBodyInRange,
    Nat.reduceAdd, not_lt, Nat.one_le_iff_ne_zero, and_assoc, ne_eq]
  simp only [Config.lastMinute, Nat.reduceAdd]

theorem amendBodyMisshaped_iff (b : List Byte) :
    (b.length ≠ 42 ∨ amendBodyMisshaped b = true) ↔ ¬ AmendBodyShaped b := by
  simp only [amendBodyMisshaped, Bool.or_eq_true, Bool.and_eq_true, decide_eq_true_eq, beq_iff_eq, AmendBodyShaped]
  omega

theorem readAmendBody_malformed {b : List Byte} (h : ¬ AmendBodyShaped b) : readAmendBody b = .error .malformed :=
  if_pos ((amendBodyMisshaped_iff b).2 h)

theorem readAmendBody_shaped {b : List Byte} (h : AmendBodyShaped b) :
    readAmendBody b = if amendBodyOutOfRange b then .error .range else .ok (amendOf b) :=
  if_neg fun hm => (amendBodyMisshaped_iff b).1 hm h

theorem readAmendBody_range {b : List Byte} (h : AmendBodyShaped b) (hr : ¬ AmendBodyInRange b) :
    readAmendBody b = .error .range := by
  rw [readAmendBody_shaped h, if_pos (by rwa [← amendBodyOutOfRange_iff, Bool.not_eq_false] at hr)]

theorem readAmendBody_ok {b : List Byte} (h : AmendBodyShaped b) (hr : AmendBodyInRange b) :
    readAmendBody b = .ok (amendOf b) := by
  rw [readAmendBody_shaped h, (amendBodyOutOfRange_iff b).2 hr]; rfl

theorem readAmendBody_eq_ok {b : List Byte} {c : PermitAmend} (h : readAmendBody b = .ok c) :
    AmendBodyInRange b ∧ c = amendOf b := by
  by_cases hs : AmendBodyShaped b
  · by_cases hr : AmendBodyInRange b
    · rw [readAmendBody_ok hs hr] at h
      exact ⟨hr, (Except.ok.inj h).symm⟩
    · rw [readAmendBody_range hs hr] at h; cases h
  · rw [readAmendBody_malformed hs] at h; cases h

/-- R9 step 2, R7: the ranges of the changes that an amend body carries. -/
structure PermitAmend.InRange (c : PermitAmend) : Prop where
  validFrom : ∀ n ∈ c.validFrom, n ≤ 94371839
  validUntil : ∀ n ∈ c.validUntil, 1 ≤ n ∧ n ≤ 94371840
  window : ∀ w, c.window = some (some w) → w.fromMinute ≤ 1439 ∧ w.toMinute ≤ 1439
  maxStay : ∀ n ∈ c.maxStay, 1 ≤ n ∧ n ≤ 1440
  allowance : ∀ n, c.allowance = .set n → n ≤ 65535
  rooms : ∀ l ∈ c.rooms, l ≠ [] ∧ l.Pairwise (· < ·) ∧ ∀ r ∈ l, 1 ≤ r ∧ r ≤ 12

theorem readAmendBody_inRange {b : List Byte} {c : PermitAmend} (h : readAmendBody b = .ok c) : c.InRange := by
  obtain ⟨⟨-, -, hfrom, huntil, hwin, -, hrooms, -⟩, rfl⟩ := readAmendBody_eq_ok h
  have hallow := valueAt_lt b 24 2
  constructor
  case validFrom =>
    intro n hn
    simp only [amendOf, Option.mem_def, Option.ite_none_right_eq_some, Option.some.injEq] at hn
    exact hn.2 ▸ hfrom hn.1
  case validUntil =>
    intro n hn
    simp only [amendOf, Option.mem_def, Option.ite_none_right_eq_some, Option.some.injEq] at hn
    exact hn.2 ▸ huntil hn.1
  case window =>
    intro w hw
    simp only [amendOf] at hw
    split at hw
    · rename_i h1
      cases hw
      exact ⟨(hwin h1).1, (hwin h1).2.1⟩
    · split at hw <;> cases hw
  case maxStay =>
    intro n hn
    simp only [amendOf, Option.mem_def, Option.ite_none_right_eq_some, Option.some.injEq, takenMaxStay_eq] at hn
    omega
  case allowance =>
    intro n hn
    simp only [amendOf] at hn
    split at hn
    · cases hn; omega
    · (repeat' split at hn) <;> cases hn
  case rooms =>
    intro l hl
    simp only [amendOf, Option.mem_def, Option.ite_none_right_eq_some, Option.some.injEq] at hl
    obtain ⟨h1, rfl⟩ := hl
    refine ⟨sortRooms_ne_nil _ ((badRooms_roomsAt b 27).2 (hrooms h1)), sortRooms_pairwise _, fun r hr => ?_⟩
    obtain ⟨h1, h12, -⟩ := (mem_sortRooms _ r).1 hr
    exact ⟨h1, h12⟩

/-! ### The two statements -/

/-- Settles O15. -/
theorem permitBodyIsNormalised : Obligations.PermitBodyIsNormalised := by
  unfold Obligations.PermitBodyIsNormalised
  refine ⟨fun b => ⟨readPermitBody_malformed, readPermitBody_range, fun hs hr => ?_⟩,
    fun b => ⟨readAmendBody_malformed, readAmendBody_range, fun hs hr => ?_⟩⟩
  · have hrooms : ∀ i, i < byteAt b 9 → 1 ≤ byteAt b (10 + i) ∧ byteAt b (10 + i) ≤ 12 := hr.2.2.2.2.2.2.1
    refine ⟨_, readPermitBody_ok hs hr, permitOf_sound hr, rfl, rfl, rfl, rfl, ?_, fun r => ?_, rfl, rfl, rfl,
      takenMaxStay_eq _, rfl⟩
    · simp only [permitOf, takenNeedsEscort, roleOf]
      split <;> simp_all
    · rw [permitOf, mem_sortRooms, mem_roomsAt]
      refine ⟨fun h => h.2.2, fun ⟨i, hi, h⟩ => ⟨?_, ?_, i, hi, h⟩⟩
      · exact h ▸ (hrooms i hi).1
      · exact h ▸ (hrooms i hi).2
  · have hs' : AmendBodyShaped b := hs
    obtain ⟨-, -, -, -, h14, -, h23, h26, -, -⟩ := hs'
    have hr' : AmendBodyInRange b := hr
    obtain ⟨-, -, -, -, -, -, hrooms, -⟩ := hr'
    refine ⟨_, readAmendBody_ok hs hr, rfl, rfl, rfl, rfl, ?_, ?_, ?_, fun h0 => ?_, fun h1 => ?_, rfl⟩
    · have : byteAt b 14 = 0 ∨ byteAt b 14 = 1 ∨ byteAt b 14 = 2 := by omega
      rcases this with h | h | h <;> simp [amendOf, h, windowAt]
    · simp only [amendOf, takenMaxStay_eq]
    · have : byteAt b 23 = 0 ∨ byteAt b 23 = 1 ∨ byteAt b 23 = 2 ∨ byteAt b 23 = 3 := by omega
      rcases this with h | h | h | h <;> simp [amendOf, h]
    · simp [amendOf, h0]
    · have hbad := (badRooms_roomsAt b 27).2 (hrooms h1)
      refine ⟨sortRooms (roomsAt b 27), by simp [amendOf, h1], sortRooms_ne_nil _ hbad, sortRooms_pairwise _,
        fun r => ?_⟩
      rw [mem_sortRooms, mem_roomsAt]
      refine ⟨fun h => h.2.2, fun ⟨i, hi, h⟩ => ⟨?_, ?_, i, hi, h⟩⟩
      · exact h ▸ ((hrooms h1).2 i hi).1
      · exact h ▸ ((hrooms h1).2 i hi).2

end Sys2Proof.Machine
end

