-- ==== Sys2Proof/Proofs/PermitBody.lean ====
section
/-! R181: the permit body of a permit in its ranges is read back as that permit. The body is three parts, the bytes before
the rooms list, the rooms list and the bytes after it; each field is read in its part. -/
namespace Sys2Proof.Machine

theorem leBytes_length (w n : Nat) : (leBytes w n).length = w := by
  induction w generalizing n with
  | zero => rfl
  | succ w ih => simp [leBytes, ih]

/-! ### Reading a part of a body -/

section
variable (a c : List Byte)

theorem byteAt_append_left {i : Nat} (h : i < a.length) : byteAt (a ++ c) i = byteAt a i := by
  simp [byteAt, List.getElem?_append_left h]

theorem byteAt_append_right {n : Nat} (h : a.length = n) (i : Nat) : byteAt (a ++ c) (n + i) = byteAt c i := by
  subst h; simp [byteAt, List.getElem?_append_right]

theorem valueAt_append_left {o w : Nat} (h : o + w ≤ a.length) : valueAt (a ++ c) o w = valueAt a o w := by
  unfold valueAt
  rw [List.drop_append_of_le_length (by omega), List.take_append_of_le_length (by simp; omega)]

theorem valueAt_append_right {n : Nat} (h : a.length = n) (o w : Nat) : valueAt (a ++ c) (n + o) w = valueAt c o w := by
  subst h; simp [valueAt, List.drop_append, List.drop_eq_nil_of_le]

end

/-! ### The parts of a permit body -/

/-- R181: the permit body before its rooms list. -/
def permitHead (p : Permit) : List Byte :=
  leBytes 2 p.number ++ leBytes 4 p.credential ++ leBytes 1 p.role.code ++ leBytes 1 p.status.code
    ++ [boolByte p.needsEscort]

/-- R181: the permit body after its rooms list. -/
def permitTail (p : Permit) : List Byte :=
  leBytes 4 p.validFrom ++ leBytes 4 p.validUntil ++ windowField p.window ++ leBytes 2 p.maxStay
    ++ (match p.allowance with | none => leBytes 3 0 | some n => 1 :: leBytes 2 n)

theorem permitBody_parts (p : Permit) : permitBody p = permitHead p ++ (roomsField p.rooms ++ permitTail p) := by
  simp [permitBody, permitHead, permitTail] <;> rfl

theorem permitHead_length (p : Permit) : (permitHead p).length = 9 := by simp [permitHead, leBytes_length]

theorem roomsField_length (l : List Nat) : (roomsField l).length = 13 := by simp [roomsField, leBytes_length]

theorem permitTail_length (p : Permit) : (permitTail p).length = 19 := by
  cases hw : p.window <;> cases ha : p.allowance <;> simp [permitTail, windowField, leBytes_length, hw, ha]

theorem permitBody_length (p : Permit) : (permitBody p).length = 41 := by
  simp [permitBody_parts, permitHead_length, roomsField_length, permitTail_length]

theorem byteAt_permitHead (p : Permit) (i : Nat) (h : i < 9) : byteAt (permitBody p) i = byteAt (permitHead p) i := by
  rw [permitBody_parts, byteAt_append_left _ _ (by rw [permitHead_length]; exact h)]

theorem valueAt_permitHead (p : Permit) (o w : Nat) (h : o + w ≤ 9) :
    valueAt (permitBody p) o w = valueAt (permitHead p) o w := by
  rw [permitBody_parts, valueAt_append_left _ _ (by rw [permitHead_length]; exact h)]

theorem byteAt_permitRooms (p : Permit) (i : Nat) (h : i < 13) :
    byteAt (permitBody p) (9 + i) = byteAt (roomsField p.rooms) i := by
  rw [permitBody_parts, byteAt_append_right _ _ (permitHead_length p),
    byteAt_append_left _ _ (by rw [roomsField_length]; exact h)]

theorem byteAt_permitTail (p : Permit) (i : Nat) : byteAt (permitBody p) (22 + i) = byteAt (permitTail p) i := by
  rw [permitBody_parts, ← List.append_assoc,
    byteAt_append_right _ _ (by simp [permitHead_length, roomsField_length])]

theorem valueAt_permitTail (p : Permit) (o w : Nat) :
    valueAt (permitBody p) (22 + o) w = valueAt (permitTail p) o w := by
  rw [permitBody_parts, ← List.append_assoc,
    valueAt_append_right _ _ (by simp [permitHead_length, roomsField_length])]

/-! ### The fields read back -/

theorem rooms_length_le {l : List Nat} (hs : l.Pairwise (· < ·)) (hr : ∀ r ∈ l, 1 ≤ r ∧ r ≤ 12) : l.length ≤ 12 := by
  have hsub : l ⊆ List.range' 1 12 := fun r h => by simp; have := hr r h; omega
  simpa using (List.subperm_of_subset (hs.imp Nat.ne_of_lt) hsub).length_le

theorem roomsAt_permitBody (p : Permit) (hs : p.rooms.Pairwise (· < ·)) (hr : ∀ r ∈ p.rooms, 1 ≤ r ∧ r ≤ 12) :
    byteAt (permitBody p) 9 = p.rooms.length ∧ roomsAt (permitBody p) 9 = p.rooms := by
  have hl := rooms_length_le hs hr
  have hcount : byteAt (permitBody p) 9 = p.rooms.length := by
    rw [byteAt_permitRooms p 0 (by decide)]
    simp [roomsField, leBytes, byteAt]; omega
  refine ⟨hcount, ?_⟩
  unfold roomsAt
  rw [hcount]
  refine List.ext_getElem (by simp) fun i h h' => ?_
  have hi : byteAt (roomsField p.rooms) (1 + i) = p.rooms[i] := by
    have := hr _ (List.getElem_mem h')
    simp [roomsField, leBytes, byteAt, Nat.add_comm 1 i, show i < 12 by omega, h']
    omega
  simp only [List.getElem_map, List.getElem_range, Nat.reduceAdd]
  rw [Nat.add_assoc 9 1 i, byteAt_permitRooms p (1 + i) (by omega), hi]

theorem permitHead_values (p : Permit) (h : p.Sound) :
    valueAt (permitBody p) 0 2 = p.number ∧ valueAt (permitBody p) 2 4 = p.credential
      ∧ byteAt (permitBody p) 6 = p.role.code ∧ byteAt (permitBody p) 7 = p.status.code
      ∧ byteAt (permitBody p) 8 = p.needsEscort.toNat := by
  obtain ⟨-, hnum, ⟨-, hcred⟩, -⟩ := h
  rw [valueAt_permitHead _ _ _ (by decide), valueAt_permitHead _ _ _ (by decide), byteAt_permitHead _ _ (by decide),
    byteAt_permitHead _ _ (by decide), byteAt_permitHead _ _ (by decide)]
  refine ⟨?_, ?_, ?_, ?_, ?_⟩
  · simp [permitHead, leBytes, valueAt, leNat]; omega
  · simp [permitHead, leBytes, valueAt, leNat]; omega
  · cases hr : p.role <;> simp [permitHead, leBytes, byteAt, hr, Role.code]
  · cases hs : p.status <;> simp [permitHead, leBytes, byteAt, hs, PermitStatus.code]
  · cases hn : p.needsEscort <;> simp [permitHead, leBytes, byteAt, hn, boolByte]

theorem permitTail_values (p : Permit) (h : p.Sound) :
    valueAt (permitBody p) 22 4 = p.validFrom ∧ valueAt (permitBody p) 26 4 = p.validUntil
      ∧ valueAt (permitBody p) 36 2 = p.maxStay := by
  obtain ⟨-, -, -, -, -, -, hfrom, -, huntil, -, -, -, -, hstay, -⟩ := h
  rw [valueAt_permitTail p 0, valueAt_permitTail p 4, valueAt_permitTail p 14]
  refine ⟨?_, ?_, ?_⟩
  · simp [permitTail, leBytes, valueAt, leNat]; omega
  · simp [permitTail, leBytes, valueAt, leNat]; omega
  · cases hw : p.window <;> simp [permitTail, windowField, leBytes, valueAt, leNat, hw] <;> omega

theorem permitTail_window (p : Permit) (h : p.Sound) :
    byteAt (permitBody p) 30 = p.window.isSome.toNat ∧ ∀ w, p.window = some w →
      valueAt (permitBody p) 31 2 = w.fromMinute ∧ valueAt (permitBody p) 33 2 = w.toMinute
        ∧ byteAt (permitBody p) 35 = w.mask.toNat := by
  obtain ⟨-, -, -, -, -, -, -, -, -, -, hwin, -⟩ := h
  rw [byteAt_permitTail p 8, valueAt_permitTail p 9, valueAt_permitTail p 11, byteAt_permitTail p 13]
  cases hw : p.window with
  | none => exact ⟨by simp [permitTail, windowField, leBytes, byteAt, hw], fun _ h => nomatch h⟩
  | some w =>
    obtain ⟨hf, ht⟩ := hwin w hw
    have hm := w.mask.isLt
    refine ⟨by simp [permitTail, windowField, leBytes, byteAt, hw], fun _ h => ?_⟩
    cases h
    refine ⟨?_, ?_, ?_⟩
    · simp [permitTail, windowField, leBytes, valueAt, leNat, hw]; omega
    · simp [permitTail, windowField, leBytes, valueAt, leNat, hw]; omega
    · simp [permitTail, windowField, leBytes, byteAt, hw]; omega

theorem permitTail_allowance (p : Permit) (h : p.Sound) :
    byteAt (permitBody p) 38 = p.allowance.isSome.toNat
      ∧ ∀ a, p.allowance = some a → valueAt (permitBody p) 39 2 = a := by
  obtain ⟨-, -, -, -, -, -, -, -, -, -, -, -, -, -, hall⟩ := h
  rw [byteAt_permitTail p 16, valueAt_permitTail p 17]
  cases ha : p.allowance with
  | none =>
    refine ⟨?_, fun _ h => nomatch h⟩
    cases hw : p.window <;> simp [permitTail, windowField, leBytes, byteAt, hw, ha]
  | some a =>
    have := hall a ha
    refine ⟨?_, fun _ h => ?_⟩
    · cases hw : p.window <;> simp [permitTail, windowField, leBytes, byteAt, hw, ha]
    · cases h
      cases hw : p.window <;> simp [permitTail, windowField, leBytes, valueAt, leNat, hw, ha] <;> omega

theorem permitBody_shaped (p : Permit) (h : p.Sound) : PermitBodyShaped (permitBody p) := by
  obtain ⟨-, -, -, -, hs, hr, -⟩ := id h
  have := rooms_length_le hs hr
  refine ⟨permitBody_length p, ?_, ?_, ?_⟩
  · rw [(roomsAt_permitBody p hs hr).1]; exact this
  · rw [(permitTail_window p h).1]; exact Bool.toNat_le _
  · rw [(permitTail_allowance p h).1]; exact Bool.toNat_le _

theorem permitBody_inRange (p : Permit) (h : p.Sound) : PermitBodyInRange (permitBody p) := by
  obtain ⟨hnum, -, hcred, hne, hs, hr, hfrom, -, huntil, hlt, hwin, -⟩ := id h
  obtain ⟨vnum, vcred, vrole, vstatus, vneeds⟩ := permitHead_values p h
  obtain ⟨vfrom, vuntil, -⟩ := permitTail_values p h
  obtain ⟨vpresent, vwin⟩ := permitTail_window p h
  have hrooms : badRooms (roomsAt (permitBody p) 9) = false := by
    rw [(roomsAt_permitBody p hs hr).2]; exact (badRooms_eq_false _).2 ⟨hne, hr⟩
  obtain ⟨hcount, hrange⟩ := (badRooms_roomsAt _ _).1 hrooms
  refine ⟨by omega, by rwa [vcred], ?_, ?_, ?_, hcount, hrange, by omega, by omega, by omega, fun h1 => ?_⟩
  · rw [vrole]; cases p.role <;> decide
  · rw [vstatus]; cases p.status <;> decide
  · rw [vneeds]; exact Bool.toNat_le _
  · cases hw : p.window with
    | none => simp [vpresent, hw] at h1
    | some w =>
      obtain ⟨vf, vt, vm⟩ := vwin w hw
      have := hwin w hw
      have := w.mask.isLt
      omega

theorem permitOf_permitBody (p : Permit) (h : p.Sound) : permitOf (permitBody p) = p := by
  obtain ⟨-, -, -, -, hs, hr, -, -, -, -, -, hesc, hstay, hstay', -⟩ := id h
  obtain ⟨vnum, vcred, vrole, vstatus, vneeds⟩ := permitHead_values p h
  obtain ⟨vfrom, vuntil, vstay⟩ := permitTail_values p h
  obtain ⟨vpresent, vwin⟩ := permitTail_window p h
  obtain ⟨vallow, vminutes⟩ := permitTail_allowance p h
  have role : roleOf (byteAt (permitBody p) 6) = p.role := by rw [vrole]; cases p.role <;> rfl
  have status : statusOf (byteAt (permitBody p) 7) = p.status := by rw [vstatus]; cases p.status <;> rfl
  have needs : takenNeedsEscort p.role (byteAt (permitBody p) 8 == 1) = p.needsEscort := by
    rw [vneeds]
    cases hp : p.role <;> cases hn : p.needsEscort <;> simp_all [takenNeedsEscort]
  have rooms : sortRooms (roomsAt (permitBody p) 9) = p.rooms := by
    rw [(roomsAt_permitBody p hs hr).2, sortRooms_eq_self _ hs hr]
  have window : (if byteAt (permitBody p) 30 = 1 then some (windowAt (permitBody p) 31) else none) = p.window := by
    cases hw : p.window with
    | none => simp [vpresent, hw]
    | some w =>
      obtain ⟨vf, vt, vm⟩ := vwin w hw
      simp [vpresent, hw, windowAt, vf, vt, vm]
  have stay : takenMaxStay (valueAt (permitBody p) 36 2) = p.maxStay := by rw [takenMaxStay_eq]; omega
  have allowance :
      (if byteAt (permitBody p) 38 = 1 then some (valueAt (permitBody p) 39 2) else none) = p.allowance := by
    cases ha : p.allowance with
    | none => simp [vallow, ha]
    | some a => simp [vallow, ha, vminutes a ha]
  unfold permitOf
  rw [vnum, vcred, role, status, needs, rooms, vfrom, vuntil, window, stay, allowance]

/-- Settles O14. -/
theorem permitBodyRoundTrip : Obligations.PermitBodyRoundTrip := fun p h => by
  rw [readPermitBody_ok (permitBody_shaped p h) (permitBody_inRange p h), permitOf_permitBody p h]

end Sys2Proof.Machine
end

