-- ==== Sys2Proof/Proofs/PermitTable.lean ====
section
/-! The permit table (R1, R8, R13 to R15): the lowest free slot, a permit placed, found, changed and removed, and what
these keep of the table's soundness. -/
namespace Sys2Proof.Machine

/-! ### Slots -/

/-- R1: the lowest free slot at or above `n`, of slots at or above `n` in ascending order: it is free, every slot below
it is taken, and it lies at most as far up as the list is long. -/
theorem lowestFree_spec (l : List (Nat × Permit)) (hs : l.Pairwise (fun e e' => e.1 < e'.1)) : ∀ n, (∀ e ∈ l, n ≤ e.1) →
    n ≤ lowestFree n l ∧ lowestFree n l ≤ n + l.length ∧ (∀ e ∈ l, e.1 ≠ lowestFree n l)
      ∧ ∀ k, n ≤ k → k < lowestFree n l → ∃ e ∈ l, e.1 = k := by
  induction l with
  | nil => intro n _; simp [lowestFree]
  | cons e l ih =>
    intro n hn
    obtain ⟨hlt, hl⟩ := List.pairwise_cons.1 hs
    have he : n ≤ e.1 := hn e List.mem_cons_self
    by_cases hk : e.1 = n
    · obtain ⟨hle, hlen, hfree, htaken⟩ := ih hl (n + 1) fun x hx => by have := hlt x hx; omega
      simp only [lowestFree, if_pos hk, List.length_cons]
      refine ⟨by omega, by omega, fun x hx => ?_, fun k hnk hk' => ?_⟩
      · rcases List.mem_cons.1 hx with rfl | hx
        · omega
        · exact hfree x hx
      · by_cases hkn : k = n
        · exact ⟨e, List.mem_cons_self, by omega⟩
        · obtain ⟨x, hx, hxk⟩ := htaken k (by omega) hk'
          exact ⟨x, List.mem_cons_of_mem _ hx, hxk⟩
    · simp only [lowestFree, if_neg hk]
      refine ⟨le_rfl, by omega, fun x hx => ?_, fun k _ _ => by omega⟩
      rcases List.mem_cons.1 hx with rfl | hx
      · exact hk
      · have := hlt x hx; omega

theorem insertPermit_perm (slot : Nat) (p : Permit) (l : List (Nat × Permit)) :
    (insertPermit slot p l).Perm ((slot, p) :: l) := by
  induction l with
  | nil => exact .refl _
  | cons e l ih =>
    simp only [insertPermit]
    split
    · exact .refl _
    · exact (ih.cons e).trans (.swap ..)

theorem mem_insertPermit (slot : Nat) (p : Permit) (l : List (Nat × Permit)) (e : Nat × Permit) :
    e ∈ insertPermit slot p l ↔ e = (slot, p) ∨ e ∈ l := by
  rw [(insertPermit_perm slot p l).mem_iff, List.mem_cons]

/-- R1: a permit placed in a free slot leaves the slots ascending. -/
theorem insertPermit_sorted (slot : Nat) (p : Permit) (l : List (Nat × Permit))
    (h : l.Pairwise (fun e e' => e.1 < e'.1)) (hf : ∀ e ∈ l, e.1 ≠ slot) :
    (insertPermit slot p l).Pairwise (fun e e' => e.1 < e'.1) := by
  induction l with
  | nil => simp [insertPermit]
  | cons e l ih =>
    obtain ⟨hlt, hl⟩ := List.pairwise_cons.1 h
    have he := hf e List.mem_cons_self
    simp only [insertPermit]
    split
    · rename_i hse
      refine List.pairwise_cons.2 ⟨fun x hx => ?_, h⟩
      rcases List.mem_cons.1 hx with rfl | hx
      · exact hse
      · exact Nat.lt_trans hse (hlt x hx)
    · refine List.pairwise_cons.2 ⟨fun x hx => ?_, ih hl fun x hx => hf x (List.mem_cons_of_mem _ hx)⟩
      rcases (mem_insertPermit slot p l x).1 hx with rfl | hx
      · dsimp only; omega
      · exact hlt x hx

/-! ### Permits found -/

theorem permit_eq_some {s : State} {n : Nat} {e : Nat × Permit} (h : s.permit n = some e) :
    e ∈ s.permits ∧ e.2.number = n :=
  ⟨List.mem_of_find?_eq_some h, by simpa using List.find?_some h⟩

theorem permit_eq_none {s : State} {n : Nat} : s.permit n = none ↔ ∀ e ∈ s.permits, e.2.number ≠ n := by
  simp [State.permit]

/-- R1: a permit number names one permit of a sound table. -/
theorem permit_eq_of_mem {s : State} {e : Nat × Permit}
    (h : s.permits.Pairwise (fun e e' => e.2.number ≠ e'.2.number)) (he : e ∈ s.permits) :
    s.permit e.2.number = some e := by
  unfold State.permit
  generalize s.permits = l at h he
  induction l with
  | nil => cases he
  | cons x l ih =>
    obtain ⟨hx, hl⟩ := List.pairwise_cons.1 h
    rcases List.mem_cons.1 he with rfl | he
    · simp
    · rw [List.find?_cons_of_neg (by simpa using hx e he), ih hl he]

theorem insertByNumber_perm (p : Permit) (l : List Permit) : (insertByNumber p l).Perm (p :: l) := by
  induction l with
  | nil => exact .refl _
  | cons q l ih =>
    simp only [insertByNumber]
    split
    · exact .refl _
    · exact (ih.cons q).trans (.swap ..)

theorem insertByNumber_sorted (p : Permit) (l : List Permit) (h : l.Pairwise (fun p q => p.number < q.number))
    (hp : ∀ q ∈ l, q.number ≠ p.number) : (insertByNumber p l).Pairwise (fun p q => p.number < q.number) := by
  induction l with
  | nil => simp [insertByNumber]
  | cons q l ih =>
    obtain ⟨hlt, hl⟩ := List.pairwise_cons.1 h
    have hq := hp q List.mem_cons_self
    simp only [insertByNumber]
    split
    · rename_i hpq
      refine List.pairwise_cons.2 ⟨fun x hx => ?_, h⟩
      rcases List.mem_cons.1 hx with rfl | hx
      · exact hpq
      · exact Nat.lt_trans hpq (hlt x hx)
    · refine List.pairwise_cons.2 ⟨fun x hx => ?_, ih hl fun x hx => hp x (List.mem_cons_of_mem _ hx)⟩
      rcases List.mem_cons.1 ((insertByNumber_perm p l).mem_iff.1 hx) with rfl | hx
      · omega
      · exact hlt x hx

theorem foldr_insertByNumber_perm (l : List Permit) : (l.foldr insertByNumber []).Perm l := by
  induction l with
  | nil => exact .refl _
  | cons p l ih => exact (insertByNumber_perm p _).trans (ih.cons p)

theorem foldr_insertByNumber_sorted (l : List Permit) (h : l.Pairwise (fun p q => p.number ≠ q.number)) :
    (l.foldr insertByNumber []).Pairwise (fun p q => p.number < q.number) := by
  induction l with
  | nil => simp
  | cons p l ih =>
    obtain ⟨hp, hl⟩ := List.pairwise_cons.1 h
    exact insertByNumber_sorted p _ (ih hl) fun q hq => (hp q ((foldr_insertByNumber_perm l).mem_iff.1 hq)).symm

section
variable (s : State) (c : Nat)

theorem permitsOf_perm : (s.permitsOf c).Perm ((s.permits.map Prod.snd).filter (fun p => p.credential = c)) :=
  foldr_insertByNumber_perm _

theorem mem_permitsOf (p : Permit) : p ∈ s.permitsOf c ↔ ∃ e ∈ s.permits, e.2 = p ∧ p.credential = c := by
  rw [(permitsOf_perm s c).mem_iff]
  simp only [List.mem_filter, List.mem_map, decide_eq_true_eq]
  exact ⟨fun ⟨⟨e, he, hep⟩, hc⟩ => ⟨e, he, hep, hc⟩, fun ⟨e, he, hep, hc⟩ => ⟨⟨e, he, hep⟩, hc⟩⟩

theorem permitsOf_length : (s.permitsOf c).length = s.permits.countP (fun e => e.2.credential = c) := by
  rw [(permitsOf_perm s c).length_eq, ← List.countP_eq_length_filter, List.countP_map]
  rfl

theorem permitsOf_sorted (h : s.permits.Pairwise (fun e e' => e.2.number ≠ e'.2.number)) :
    (s.permitsOf c).Pairwise (fun p q => p.number < q.number) :=
  foldr_insertByNumber_sorted _ ((List.pairwise_map (R := fun p q : Permit => p.number ≠ q.number)).2 h |>.filter _)

/-- R8 step 5, over the table. -/
theorem tableFullFor_iff : s.tableFullFor c = true ↔
    256 ≤ s.permits.length ∨ 8 ≤ s.permits.countP (fun e => e.2.credential = c) := by
  simp only [State.tableFullFor, permitsOf_length, Bool.or_eq_true, decide_eq_true_eq]
  exact Iff.rfl

end

/-! ### What keeps the table sound -/

/-- R1, R8: the lowest free slot of a sound table that is not full. -/
theorem lowestFree_permits {s : State} (h : s.PermitsSound) :
    lowestFree 0 s.permits ≤ s.permits.length ∧ (∀ e ∈ s.permits, e.1 ≠ lowestFree 0 s.permits)
      ∧ ∀ k, k < lowestFree 0 s.permits → ∃ e ∈ s.permits, e.1 = k := by
  obtain ⟨-, hlen, hfree, htaken⟩ := lowestFree_spec s.permits h.1 0 fun _ _ => Nat.zero_le _
  exact ⟨by omega, hfree, fun k hk => htaken k (Nat.zero_le _) hk⟩

theorem PermitsSound_addPermit {s : State} {p : Permit} (h : s.PermitsSound) (hp : p.Sound)
    (hn : s.permit p.number = none) (hf : s.tableFullFor p.credential = false) : (s.addPermit p).PermitsSound := by
  obtain ⟨hlen, hfree, -⟩ := lowestFree_permits h
  obtain ⟨hslots, hsound, hnumbers, hcount⟩ := h
  rw [← Bool.not_eq_true, tableFullFor_iff] at hf
  have perm := insertPermit_perm (lowestFree 0 s.permits) p s.permits
  refine ⟨insertPermit_sorted _ _ _ hslots hfree, fun e he => ?_, ?_, fun c => ?_⟩
  · rcases (mem_insertPermit _ _ _ e).1 he with rfl | he
    · exact ⟨by dsimp only; omega, hp⟩
    · exact hsound e he
  · refine (perm.pairwise_iff fun hne => hne.symm).2 (List.pairwise_cons.2 ⟨fun e he => ?_, hnumbers⟩)
    exact (permit_eq_none.1 hn e he).symm
  · have := hcount c
    rw [State.addPermit_permits, perm.countP_eq, List.countP_cons]
    split
    · rename_i hc
      rw [of_decide_eq_true hc] at hf
      omega
    · exact this

theorem PermitsSound_dropPermit {s : State} (h : s.PermitsSound) (n : Nat) : (s.dropPermit n).PermitsSound := by
  obtain ⟨hslots, hsound, hnumbers, hcount⟩ := h
  refine ⟨hslots.filter _, fun e he => hsound e (List.mem_of_mem_filter he), hnumbers.filter _, fun c => ?_⟩
  exact (List.filter_sublist.countP_le).trans (hcount c)

/-- A change of stored fields that keeps numbers, credentials and ranges keeps the table sound. -/
theorem PermitsSound_updatePermit {s : State} (h : s.PermitsSound) (n : Nat) (f : Permit → Permit)
    (hf : ∀ p, (f p).number = p.number ∧ (f p).credential = p.credential)
    (hs : ∀ e ∈ s.permits, e.2.number = n → (f e.2).Sound) : (s.updatePermit n f).PermitsSound := by
  obtain ⟨hslots, hsound, hnumbers, hcount⟩ := h
  have slot : ∀ e : Nat × Permit, (if e.2.number = n then (e.1, f e.2) else e).1 = e.1 := fun e => by split <;> rfl
  have number : ∀ e : Nat × Permit, (if e.2.number = n then (e.1, f e.2) else e).2.number = e.2.number := fun e => by
    split
    · exact (hf e.2).1
    · rfl
  have cred : ∀ e : Nat × Permit, (if e.2.number = n then (e.1, f e.2) else e).2.credential = e.2.credential :=
    fun e => by
      split
      · exact (hf e.2).2
      · rfl
  simp only [State.PermitsSound, State.updatePermit_permits, List.pairwise_map, slot, number, List.countP_map,
    Function.comp_def, cred]
  refine ⟨hslots, fun e he => ?_, hnumbers, hcount⟩
  obtain ⟨x, hx, rfl⟩ := List.mem_map.1 he
  rw [slot]
  refine ⟨(hsound x hx).1, ?_⟩
  split
  · rename_i hn
    exact hs x hx hn
  · exact (hsound x hx).2

/-- R114: a debit keeps a permit in its ranges. -/
theorem debited_sound {p : Permit} (h : p.Sound) (m : Nat) : (p.debited m).Sound := by
  obtain ⟨h1, h2, h3, h4, h5, h6, h7, h8, h9, h10, h11, h12, h13, h14, hall⟩ := h
  refine ⟨h1, h2, h3, h4, h5, h6, h7, h8, h9, h10, h11, h12, h13, h14, fun a ha => ?_⟩
  obtain ⟨b, hb, rfl⟩ := Option.map_eq_some_iff.1 ha
  have := hall b hb
  omega

theorem apply_allowance_le {c : AllowanceChange} {a : Option Nat} (hc : ∀ n, c = .set n → n ≤ 65535)
    (ha : ∀ n ∈ a, n ≤ 65535) : ∀ n ∈ c.apply a, n ≤ 65535 := by
  intro n hn
  cases c with
  | unchanged => exact ha n hn
  | set m => cases hn; exact hc _ rfl
  | topUp m =>
    obtain ⟨b, -, rfl⟩ := Option.map_eq_some_iff.1 hn
    exact Nat.min_le_left _ _
  | remove => cases hn

theorem mem_getD {α : Type} {o : Option α} {d : α} {P : α → Prop} (ho : ∀ x ∈ o, P x) (hd : P d) : P (o.getD d) := by
  cases o with
  | none => exact hd
  | some x => exact ho x rfl

/-- R10: an accepted amendment keeps a permit in its ranges. -/
theorem amended_sound {p : Permit} {c : PermitAmend} (h : p.Sound) (hc : c.InRange)
    (hv : (p.amended c).validFrom < (p.amended c).validUntil) : (p.amended c).Sound := by
  obtain ⟨h1, h2, h3, h4, h5, h6, h7, h8, h9, -, h11, h12, h13, h14, h15⟩ := h
  obtain ⟨hrooms, hsorted, hrange⟩ :=
    mem_getD (o := c.rooms) (d := p.rooms)
      (P := fun l => l ≠ [] ∧ l.Pairwise (· < ·) ∧ ∀ r ∈ l, 1 ≤ r ∧ r ≤ 12) hc.rooms ⟨h4, h5, h6⟩
  obtain ⟨huntil, huntil'⟩ :=
    mem_getD (o := c.validUntil) (d := p.validUntil) (P := fun n => 1 ≤ n ∧ n ≤ 94371840) hc.validUntil ⟨h8, h9⟩
  obtain ⟨hstay, hstay'⟩ :=
    mem_getD (o := c.maxStay) (d := p.maxStay) (P := fun n => 1 ≤ n ∧ n ≤ 1440) hc.maxStay ⟨h13, h14⟩
  refine ⟨h1, h2, h3, hrooms, hsorted, hrange,
    mem_getD (o := c.validFrom) (d := p.validFrom) (P := (· ≤ 94371839)) hc.validFrom h7, huntil, huntil', hv,
    fun w hw => ?_, fun hesc => ?_, hstay, hstay', apply_allowance_le hc.allowance h15⟩
  · cases hcw : c.window with
    | none => simp only [Permit.amended, hcw, Option.getD_none] at hw; exact h11 w hw
    | some x => simp only [Permit.amended, hcw, Option.getD_some, Option.mem_def] at hw; subst hw; exact hc.window w hcw
  · have hesc' : p.role = .escort := hesc
    cases hn : c.needsEscort with
    | none => simp [Permit.amended, hn, h12 hesc']
    | some v => simp [Permit.amended, hn, hesc', takenNeedsEscort]

end Sys2Proof.Machine
end

