-- ==== Sys2Proof/Proofs/PermitRequests.lean ====
section
/-! PERMIT-ADD, PERMIT-REMOVE, PERMIT-READ and PERMIT-FIND served (R8, R13 to R15). -/
namespace Sys2Proof.Machine

/-! ### An engine request answered or refused -/

section
variable {i : Instr} {s t : State} {f : Frame} {body : List Byte} {code : ReplyCode}
  {serve : List Byte → State → Except ReplyCode (State × List Byte)}

theorem answers_of_serve (he : exec i s = requestJob i s serve) (h : s.serving i f)
    (hs : serve f.body s = .ok (t, body)) : Answers i s f .ok body t :=
  he.trans (requestJob_answers h hs)

theorem refuses_of_serve (he : exec i s = requestJob i s serve) (h : s.serving i f)
    (hs : serve f.body s = .error code) : Refuses i s f code :=
  he.trans (requestJob_refuses h hs)

end

/-! ### The permit number and the credential of a body -/

section
variable {b : List Byte}

theorem readPermitNumber_malformed (h : b.length ≠ 2) : readPermitNumber b = .error .malformed := by
  simp [readPermitNumber, h]

theorem readPermitNumber_range (h : b.length = 2) (h0 : valueAt b 0 2 = 0) : readPermitNumber b = .error .range := by
  simp [readPermitNumber, h, h0]

theorem readPermitNumber_ok (h : b.length = 2) (h0 : valueAt b 0 2 ≠ 0) :
    readPermitNumber b = .ok (valueAt b 0 2) := by
  simp [readPermitNumber, h, h0]

theorem readCredential_malformed (h : b.length ≠ 4) : readCredential b = .error .malformed := by
  simp [readCredential, h]

theorem readCredential_range (h : b.length = 4) (h0 : valueAt b 0 4 = 0 ∨ valueAt b 0 4 = 4294967295) :
    readCredential b = .error .range := by
  simp [readCredential, badCredential, h, h0]

theorem readCredential_ok (h : b.length = 4) (h0 : valueAt b 0 4 ≠ 0) (h1 : valueAt b 0 4 ≠ 4294967295) :
    readCredential b = .ok (valueAt b 0 4) := by
  simp [readCredential, badCredential, h, h0, h1]

/-- R6: a credential read is a card number. -/
theorem readCredential_isCredential {c : Nat} (h : readCredential b = .ok c) : isCredential c := by
  unfold readCredential at h
  (repeat' split at h) <;> cases h
  rename_i hb
  exact (isCredential_valueAt b 0).1 (by simpa using hb)

end

theorem permit_ne_none {s : State} {n : Nat} (h : ∃ e ∈ s.permits, e.2.number = n) : s.permit n ≠ none :=
  fun hn => by
    obtain ⟨e, he, hen⟩ := h
    exact permit_eq_none.1 hn e he hen

/-! ### PERMIT-ADD -/

section
variable {s : State} {b : List Byte} {p : Permit}

theorem servePermitAdd_unread {code : ReplyCode} (h : readPermitBody b = .error code) :
    servePermitAdd b s = .error code := by simp [servePermitAdd, h]

/-- R8 steps 3 to 6, of a permit body that is read. -/
theorem servePermitAdd_read (h : readPermitBody b = .ok p) : servePermitAdd b s =
    if s.clock.unset then .error .clockUnset
    else if (s.permit p.number).isSome then .error .existing
    else if s.tableFullFor p.credential then .error .tableFull
    else .ok (s.addPermit p, permitReport (lowestFree 0 s.permits) p (s.inUse p.number)) := by
  simp [servePermitAdd, h]

end

/-- R8: what PERMIT-ADD does, in the order of its checks. -/
theorem permitAdd_served (s : State) (f : Frame) (hf : s.serving .permitAdd f) (p : Permit)
    (hp : readPermitBody f.body = .ok p) :
    (s.clock.unset = true → Refuses .permitAdd s f .clockUnset)
    ∧ (s.clock.unset = false → (∃ e ∈ s.permits, e.2.number = p.number) → Refuses .permitAdd s f .existing)
    ∧ (s.clock.unset = false → (∀ e ∈ s.permits, e.2.number ≠ p.number) →
        256 ≤ s.permits.length ∨ 8 ≤ s.permits.countP (fun e => e.2.credential = p.credential) →
        Refuses .permitAdd s f .tableFull)
    ∧ (s.PermitsSound → s.clock.unset = false → (∀ e ∈ s.permits, e.2.number ≠ p.number) →
        s.permits.length ≤ 255 → s.permits.countP (fun e => e.2.credential = p.credential) ≤ 7 →
        ∃ slot, slot ≤ 255 ∧ (∀ e ∈ s.permits, e.1 ≠ slot) ∧ (∀ k, k < slot → ∃ e ∈ s.permits, e.1 = k)
          ∧ Answers .permitAdd s f .ok (permitReport slot p (s.inUse p.number))
              { s with permits := insertPermit slot p s.permits }
          ∧ (insertPermit slot p s.permits).Perm ((slot, p) :: s.permits)) := by
  refine ⟨fun hu => ?_, fun hu he => ?_, fun hu hn hfull => ?_, fun hs hu hn hlen hcount => ?_⟩
  · exact refuses_of_serve rfl hf (by simp [servePermitAdd_read hp, hu])
  · have := Option.isSome_iff_ne_none.2 (permit_ne_none he)
    exact refuses_of_serve rfl hf (by simp [servePermitAdd_read hp, hu, this])
  · have full := (tableFullFor_iff s p.credential).2 hfull
    exact refuses_of_serve rfl hf (by simp [servePermitAdd_read hp, hu, permit_eq_none.2 hn, full])
  · obtain ⟨hle, hfree, htaken⟩ := lowestFree_permits hs
    have room : s.tableFullFor p.credential = false := by
      rw [← Bool.not_eq_true, tableFullFor_iff]; omega
    refine ⟨lowestFree 0 s.permits, by omega, hfree, htaken, ?_, insertPermit_perm _ _ _⟩
    exact answers_of_serve (t := s.addPermit p) rfl hf
      (by simp [servePermitAdd_read hp, hu, permit_eq_none.2 hn, room])

/-! ### PERMIT-REMOVE -/

theorem servePermitRemove_unread {s : State} {b : List Byte} {code : ReplyCode}
    (h : readPermitNumber b = .error code) : servePermitRemove b s = .error code := by simp [servePermitRemove, h]

theorem servePermitRemove_read {s : State} {b : List Byte} {n : Nat} (h : readPermitNumber b = .ok n) :
    servePermitRemove b s =
      if (s.permit n).isNone then .error .notFound
      else if s.inUse n ≠ 0 then .error .inUse else .ok (s.dropPermit n, []) := by
  simp [servePermitRemove, h]

/-- Settles O16. -/
theorem permitAddAndRemove : Obligations.PermitAddAndRemove := by
  refine ⟨fun s f hf => ⟨fun code h => refuses_of_serve rfl hf (servePermitAdd_unread h), permitAdd_served s f hf⟩,
    fun s f hf => ⟨fun hl => ?_, fun hl h0 => ?_, fun hl h0 hn => ?_, fun hl h0 he hu => ?_, fun hl h0 he hu => ?_⟩⟩
  · exact refuses_of_serve rfl hf (servePermitRemove_unread (readPermitNumber_malformed hl))
  · exact refuses_of_serve rfl hf (servePermitRemove_unread (readPermitNumber_range hl h0))
  · exact refuses_of_serve rfl hf (by simp [servePermitRemove_read (readPermitNumber_ok hl h0), permit_eq_none.2 hn])
  · exact refuses_of_serve rfl hf
      (by simp [servePermitRemove_read (readPermitNumber_ok hl h0), permit_ne_none he, hu])
  · exact answers_of_serve (t := s.dropPermit _) rfl hf
      (by simp [servePermitRemove_read (readPermitNumber_ok hl h0), permit_ne_none he, hu])

/-! ### PERMIT-READ and PERMIT-FIND -/

theorem servePermitRead_unread {s : State} {b : List Byte} {code : ReplyCode}
    (h : readPermitNumber b = .error code) : servePermitRead b s = .error code := by simp [servePermitRead, h]

theorem servePermitRead_absent {s : State} {b : List Byte} {n : Nat} (h : readPermitNumber b = .ok n)
    (hn : s.permit n = none) : servePermitRead b s = .error .notFound := by simp [servePermitRead, h, hn]

theorem servePermitRead_found {s : State} {b : List Byte} {n slot : Nat} {p : Permit} (h : readPermitNumber b = .ok n)
    (hn : s.permit n = some (slot, p)) : servePermitRead b s = .ok (s, permitReport slot p (s.inUse n)) := by
  simp [servePermitRead, h, hn]

theorem servePermitFind_unread {s : State} {b : List Byte} {code : ReplyCode}
    (h : readCredential b = .error code) : servePermitFind b s = .error code := by simp [servePermitFind, h]

/-- R15: the reply lists the permit numbers of the credential, in ascending number. -/
theorem servePermitFind_read {s : State} {b : List Byte} {c : Nat} (h : readCredential b = .ok c) :
    servePermitFind b s = .ok (s, leBytes 1 ((s.permitsOf c).map Permit.number).length
      ++ ((s.permitsOf c).map Permit.number).flatMap (leBytes 2)) := by
  simp [servePermitFind, h, List.flatMap_map]

/-- Settles O17. -/
theorem permitReadAndFind : Obligations.PermitReadAndFind := by
  refine ⟨fun s f hf hs => ⟨fun hl => ?_, fun hl h0 => ?_, fun hl h0 hn => ?_, fun slot p hl h0 hm hpn => ?_⟩,
    fun s f hf hs => ⟨fun hl => ?_, fun hl h0 => ?_, fun hl h0 h1 => ?_⟩⟩
  · exact refuses_of_serve rfl hf (servePermitRead_unread (readPermitNumber_malformed hl))
  · exact refuses_of_serve rfl hf (servePermitRead_unread (readPermitNumber_range hl h0))
  · exact refuses_of_serve rfl hf (servePermitRead_absent (readPermitNumber_ok hl h0) (permit_eq_none.2 hn))
  · have found := permit_eq_of_mem hs.2.2.1 hm
    rw [hpn] at found
    exact answers_of_serve rfl hf (servePermitRead_found (readPermitNumber_ok hl h0) found)
  · exact refuses_of_serve rfl hf (servePermitFind_unread (readCredential_malformed hl))
  · exact refuses_of_serve rfl hf (servePermitFind_unread (readCredential_range hl h0))
  · refine ⟨(s.permitsOf (valueAt f.body 0 4)).map Permit.number, ?_, ?_, fun n => ?_,
      answers_of_serve rfl hf (servePermitFind_read (readCredential_ok hl h0 h1))⟩
    · exact List.pairwise_map.2 (permitsOf_sorted s _ hs.2.2.1)
    · rw [List.length_map, permitsOf_length]
      exact hs.2.2.2 _
    · simp only [List.mem_map, mem_permitsOf]
      exact ⟨fun ⟨p, ⟨e, he, hep, hc⟩, hn⟩ => ⟨e, he, hep ▸ hc, hep ▸ hn⟩,
        fun ⟨e, he, hc, hn⟩ => ⟨e.2, ⟨e, he, rfl, hc⟩, hn⟩⟩

end Sys2Proof.Machine
end

