-- ==== Sys2Proof/Proofs/Tables.lean ====
section
/-! Every step keeps the bounds of the tables, the stations and the presentation queue (R1 to R4, R16, R22, R128, R139,
R170). One lemma per operation says that it keeps them; the statement is then a case split over the effects of a step. -/
namespace Sys2Proof.Machine

/-- The tables, the stations and the presentation queue are within their bounds. -/
def State.Bounded (s : State) : Prop := s.TablesSound ∧ s.StationsSound

/-- Two states agree in the tables, the stations and the presentation queue. -/
def State.SameTables (s t : State) : Prop :=
  t.settings = s.settings ∧ t.permits = s.permits ∧ t.revoked = s.revoked ∧ t.rooms = s.rooms
    ∧ t.presentations = s.presentations ∧ t.stations = s.stations

theorem State.SameRecords.sameTables {s t : State} (h : s.SameRecords t) : s.SameTables t := by
  unfold State.SameRecords at h; simp [State.SameTables, h]

theorem State.Bounded.of_same {s t : State} (h : s.Bounded) (hst : s.SameTables t) : t.Bounded := by
  obtain ⟨hset, hper, hrev, hroom, hpres, hst⟩ := hst
  simpa [State.Bounded, State.TablesSound, State.StationsSound, State.PermitsSound, State.RevokedSound,
    State.RoomsSound, State.PresentationsSound, hset, hper, hrev, hroom, hpres, hst] using h

/-! ### Tables of numbered entries -/

theorem forall_mem_setNth {α : Type} {P : α → Prop} {l : List α} {x : α} (n : Nat) (h : ∀ y ∈ l, P y) (hx : P x) :
    ∀ y ∈ setNth l n x, P y := by
  intro y hy
  cases n with
  | zero => exact h y hy
  | succ k =>
    rcases List.mem_or_eq_of_mem_set hy with hy | rfl
    · exact h y hy
    · exact hx

theorem nth_property {α : Type} {P : α → Prop} {l : List α} {d : α} (n : Nat) (h : ∀ y ∈ l, P y) (hd : P d) :
    P (nth l n d) := by
  cases n with
  | zero => exact hd
  | succ k =>
    by_cases hk : k < l.length
    · simp only [nth, List.getD_eq_getElem _ _ hk]
      exact h _ (List.getElem_mem hk)
    · simp only [nth, List.getD_eq_default _ _ (Nat.le_of_not_lt hk)]
      exact hd

theorem nth_out {α : Type} (l : List α) (n : Nat) (d : α) (h : ¬ (1 ≤ n ∧ n ≤ l.length)) : nth l n d = d := by
  cases n with
  | zero => rfl
  | succ k => exact List.getD_eq_default _ _ (by omega)

theorem defaultStation_sound : defaultStation.Sound := by unfold Station.Sound; decide

theorem defaultRoom_sound : defaultRoom.Sound := by unfold Room.Sound; decide

section
variable {s : State}

theorem State.Bounded.station (h : s.Bounded) (n : Nat) : (s.station n).Sound :=
  nth_property n h.2.2 defaultStation_sound

theorem State.Bounded.room (h : s.Bounded) (n : Nat) : (s.room n).Sound :=
  nth_property n h.1.2.2.1.2 defaultRoom_sound

theorem State.Bounded.setStation (h : s.Bounded) (n : Nat) {st : Station} (hst : st.Sound) :
    (s.setStation n st).Bounded := by
  obtain ⟨ht, hlen, hall⟩ := h
  exact ⟨ht, by simpa using hlen, forall_mem_setNth n hall hst⟩

theorem State.Bounded.setRoom (h : s.Bounded) (n : Nat) {r : Room} (hr : r.Sound) : (s.setRoom n r).Bounded := by
  obtain ⟨⟨hp, hrev, ⟨hlen, hall⟩, hrest⟩, hst⟩ := h
  exact ⟨⟨hp, hrev, ⟨by simpa using hlen, forall_mem_setNth n hall hr⟩, hrest⟩, hst⟩

theorem State.Bounded.permits {t : State} (h : s.Bounded) (hp : t.PermitsSound)
    (ht : { t with permits := s.permits } = s) : t.Bounded := by
  obtain ⟨⟨-, hrev, hroom, hset, hpres⟩, hst⟩ := h
  rw [← ht] at hrev hroom hset hpres hst
  exact ⟨⟨hp, hrev, hroom, hset, hpres⟩, hst⟩

/-! ### Records, notices and what is built of them -/

theorem State.Bounded.offer (h : s.Bounded) (n : Notice) : (s.offer n).Bounded :=
  h.of_same (by simp [State.SameTables])

theorem State.Bounded.put (h : s.Bounded) (r : TrailRecord) : (s.put r).Bounded :=
  h.of_same (by simp [State.SameTables])

theorem State.Bounded.offerDecision (h : s.Bounded) (d : DecisionNotice) : (s.offerDecision d).Bounded :=
  h.of_same (by simp [State.SameTables])

theorem State.Bounded.schedule (h : s.Bounded) (due : Nat) (w : Due) : (s.schedule due w).Bounded :=
  h.of_same (by simp [State.SameTables])

theorem State.Bounded.unschedule (h : s.Bounded) (w : Due) : (s.unschedule w).Bounded :=
  h.of_same (by simp [State.SameTables])

theorem State.Bounded.unscheduleRecord (h : s.Bounded) (c : Nat) : (s.unscheduleRecord c).Bounded :=
  h.of_same (by simp [State.SameTables])

theorem State.Bounded.updateRecord (h : s.Bounded) (c : Nat) (f : Occupant → Occupant) : (s.updateRecord c f).Bounded :=
  h.of_same (by simp [State.SameTables])

theorem State.Bounded.dropGroup (h : s.Bounded) (n : Nat) : (s.dropGroup n).Bounded :=
  h.of_same (by simp [State.SameTables])

theorem State.Bounded.setMembers (h : s.Bounded) (n : Nat) (l : List Member) : (s.setMembers n l).Bounded :=
  h.of_same (by simp [State.SameTables])

theorem State.Bounded.leave (h : s.Bounded) (o : Occupant) : (s.leave o).Bounded :=
  h.of_same (by simp [State.SameTables])

theorem State.Bounded.doorAlert (h : s.Bounded) (n : Nat) (k : AlertKind) (l : Level) : (s.doorAlert n k l).Bounded :=
  h.of_same (by simp [State.SameTables])

theorem State.Bounded.denyMember (h : s.Bounded) (g : Group) (r : Reason) (m : Member) :
    (State.denyMember g r s m).Bounded :=
  h.of_same (by simp [State.SameTables])

theorem State.Bounded.foldl_denyMember (h : s.Bounded) (g : Group) (r : Reason) (l : List Member) :
    (l.foldl (State.denyMember g r) s).Bounded :=
  h.of_same (by simp [State.SameTables])

theorem State.Bounded.foldl_grantMember (h : s.Bounded) (g : Group) (t : Option (Nat × Nat)) (l : List Member) :
    (l.foldl (State.grantMember g t) s).Bounded :=
  h.of_same (by simp [State.SameTables])

theorem State.Bounded.foldl_lapse (h : s.Bounded) (r : Reason) (l : List Occupant) :
    (l.foldl (State.lapse r) s).Bounded :=
  h.of_same (by simp [State.SameTables])

/-- A property that each step of a fold keeps holds after the fold. -/
theorem foldl_property {α σ : Type} {P : σ → Prop} {f : σ → α → σ} (hf : ∀ s x, P s → P (f s x)) (l : List α) :
    ∀ s, P s → P (l.foldl f s) := by
  induction l with
  | nil => intro s h; exact h
  | cons x l ih => intro s h; exact ih _ (hf s x h)

/-! ### Permits -/

theorem State.Bounded.debit (h : s.Bounded) (o : Occupant) : (s.debit o).Bounded := by
  unfold State.debit
  split
  · refine h.permits (PermitsSound_updatePermit h.1.1 _ _ (fun _ => ⟨rfl, rfl⟩) fun e he _ => ?_) rfl
    exact debited_sound (h.1.1.2.1 e he).2 _
  · exact h

theorem State.Bounded.dropPermit (h : s.Bounded) (n : Nat) : (s.dropPermit n).Bounded :=
  h.permits (PermitsSound_dropPermit h.1.1 n) rfl

theorem State.Bounded.retire (h : s.Bounded) (e : Nat × Permit) : (s.retire e).Bounded :=
  ((h.dropPermit _).put _).offer _

/-! ### Stations -/

theorem place_sound {st : Station} (h : st.Sound) (o : VerdictOutcome) (r : Reason) : (st.place o r).Sound := by
  unfold Station.place
  (repeat' split) <;> exact h

theorem State.Bounded.placeVerdict (h : s.Bounded) (n : Nat) (o : VerdictOutcome) (r : Reason) :
    (s.placeVerdict n o r).Bounded :=
  h.setStation n (place_sound (h.station n) o r)

theorem State.Bounded.setLast (h : s.Bounded) (p : Presentation) (o : VerdictOutcome) (r : Reason) :
    (s.setLast p o r).Bounded := by
  have hst := h.station p.station
  exact h.setStation _ hst

theorem State.Bounded.takeDoorEvent (h : s.Bounded) (n : Nat) : (s.takeDoorEvent n).Bounded := by
  have hst := h.station n
  exact (h.setStation n (st := { s.station n with events := (s.station n).events.tail }) hst).of_same
    (by simp [State.SameTables, State.takeDoorEvent])

theorem State.Bounded.commitIfAdmitting (h : s.Bounded) (n : Nat) : (s.commitIfAdmitting n).Bounded := by
  have hst := h.station n
  unfold State.commitIfAdmitting
  split
  · exact h.setStation n hst
  · exact h

theorem State.Bounded.raiseLapseAt (h : s.Bounded) (n : Nat) (b : Bool) : (s.raiseLapseAt n b).Bounded := by
  have hst := h.station n
  exact h.setStation n hst

theorem State.Bounded.writeChannel (h : s.Bounded) (n : Nat) (c : Channel) (r : Reason)
    (hc : (s.station n).room = 0 → c = .hold) : (s.writeChannel n c r).Bounded := by
  obtain ⟨h1, h2, h3, h4, h5, h6, hfree⟩ := h.station n
  exact (h.setStation n (st := { s.station n with channel := c })
    ⟨h1, h2, h3, h4, h5, h6, fun h0 => ⟨hc h0, (hfree h0).2⟩⟩).put _

/-! ### A bound station -/

/-- The bounds hold, and the station is bound to a room. -/
def State.BoundAt (s : State) (n : Nat) : Prop := s.Bounded ∧ (s.station n).room ≠ 0

/-- An address with a bound station is one of the sixteen. -/
theorem State.BoundAt.address {n : Nat} (h : s.BoundAt n) : 1 ≤ n ∧ n ≤ 16 := by
  by_contra hn
  refine h.2 ?_
  rw [State.station, nth_out _ _ _ (by rw [h.1.2.1]; exact hn)]
  rfl

theorem State.BoundAt.of_same {t : State} {n : Nat} (h : s.BoundAt n) (hst : s.SameTables t) : t.BoundAt n :=
  ⟨h.1.of_same hst, by rw [station_congr hst.2.2.2.2.2]; exact h.2⟩

/-- A bound station may take any link, channel, door, slot and events. -/
theorem State.BoundAt.setStation {n : Nat} (h : s.BoundAt n) {st : Station} (hroom : st.room = (s.station n).room)
    (hrel : st.releaseTime = (s.station n).releaseTime) (hheld : st.heldLimit = (s.station n).heldLimit)
    (hmiss : st.missed ≤ 15) : (s.setStation n st).BoundAt n := by
  obtain ⟨h1, h16⟩ := h.address
  obtain ⟨hr, hr3, hr30, hh10, hh300, -, -⟩ := h.1.station n
  have hne : st.room ≠ 0 := by rw [hroom]; exact h.2
  refine ⟨h.1.setStation n ⟨by omega, by omega, by omega, by omega, by omega, hmiss, fun h0 => absurd h0 hne⟩, ?_⟩
  rw [station_setStation_self h1 (by rw [h.1.2.1]; exact h16)]
  exact hne

theorem State.BoundAt.missed {n : Nat} (h : s.BoundAt n) : (s.station n).missed ≤ 15 :=
  (h.1.station n).2.2.2.2.2.1

section
variable {n : Nat}

theorem State.BoundAt.setDoor (h : s.BoundAt n) (d : Door) : (s.setDoor n d).BoundAt n :=
  h.setStation rfl rfl rfl h.missed

theorem State.BoundAt.setLink (h : s.BoundAt n) (l : Link) : (s.setStation n { s.station n with link := l }).BoundAt n :=
  h.setStation rfl rfl rfl h.missed

theorem State.BoundAt.setExpected (h : s.BoundAt n) (x : Expected) :
    (s.setStation n { s.station n with expected := x }).BoundAt n :=
  h.setStation rfl rfl rfl h.missed

theorem State.BoundAt.clearVerdict (h : s.BoundAt n) : (s.setStation n { s.station n with verdict := none }).BoundAt n :=
  h.setStation rfl rfl rfl h.missed

theorem State.BoundAt.commitIfAdmitting (h : s.BoundAt n) : (s.commitIfAdmitting n).BoundAt n := by
  unfold State.commitIfAdmitting
  split
  · exact h.setStation rfl rfl rfl h.missed
  · exact h

theorem State.BoundAt.raiseLapseAt (h : s.BoundAt n) (b : Bool) : (s.raiseLapseAt n b).BoundAt n :=
  h.setStation rfl rfl rfl h.missed

theorem State.BoundAt.doorAlert (h : s.BoundAt n) (k : AlertKind) (l : Level) : (s.doorAlert n k l).BoundAt n :=
  h.of_same (by simp [State.SameTables])

theorem State.BoundAt.put (h : s.BoundAt n) (r : TrailRecord) : (s.put r).BoundAt n :=
  h.of_same (by simp [State.SameTables])

theorem State.BoundAt.offer (h : s.BoundAt n) (x : Notice) : (s.offer x).BoundAt n :=
  h.of_same (by simp [State.SameTables])

theorem State.BoundAt.writeChannel (h : s.BoundAt n) (c : Channel) (r : Reason) : (s.writeChannel n c r).BoundAt n :=
  (h.setStation (st := { s.station n with channel := c }) rfl rfl rfl h.missed).put _

theorem State.BoundAt.raiseForced (h : s.BoundAt n) : (s.raiseForced n).BoundAt n := by
  unfold State.raiseForced
  dsimp only
  split
  · exact ((h.setDoor _).writeChannel _ _).doorAlert _ _
  · exact (h.setDoor _).doorAlert _ _

theorem State.BoundAt.doorOpened (h : s.BoundAt n) : (s.doorOpened n).BoundAt n := by
  unfold State.doorOpened
  split
  · exact h.setDoor _
  · exact h.raiseForced
  · exact (h.setDoor _).commitIfAdmitting
  all_goals exact h

theorem State.BoundAt.doorClosed (h : s.BoundAt n) : (s.doorClosed n).BoundAt n := by
  unfold State.doorClosed
  split
  · exact h.setDoor _
  · exact h
  · exact h
  · exact h.setDoor _
  · exact (h.setDoor _).doorAlert _ _
  · exact (h.setDoor _).doorAlert _ _

theorem State.BoundAt.doorReleased (h : s.BoundAt n) (k : Nat) : (s.doorReleased n k).BoundAt n := by
  unfold State.doorReleased
  split
  · exact h.setDoor _
  · exact h.setDoor _
  · exact h.setDoor _
  · exact (h.setDoor _).commitIfAdmitting
  · exact ((h.setDoor _).doorAlert _ _).commitIfAdmitting
  · exact h.commitIfAdmitting

theorem State.BoundAt.silenceDoor (h : s.BoundAt n) : (s.silenceDoor n).BoundAt n := by
  unfold State.silenceDoor
  split
  · exact (h.setDoor _).doorAlert _ _
  · exact (h.setDoor _).doorAlert _ _
  all_goals exact h.setDoor _

theorem State.BoundAt.linkStep (h : s.BoundAt n) : (s.linkStep n).BoundAt n := by
  have h1 : (s.setStation n { s.station n with missed := 0, link := .online }).BoundAt n :=
    h.setStation rfl rfl rfl (Nat.zero_le _)
  unfold State.linkStep
  dsimp only
  split
  · exact (h1.put _).offer _
  · exact h1

theorem State.BoundAt.verdictStep (h : s.BoundAt n) (t : Toggle) : (s.verdictStep n t).BoundAt n := by
  have h1 : (s.setStation n (s.station n).delivered).BoundAt n := h.setStation rfl rfl rfl h.missed
  unfold State.verdictStep
  (repeat' split)
  · exact h
  · exact h1.doorReleased _
  · exact h1
  · exact h

theorem State.BoundAt.contactStep (h : s.BoundAt n) (o l : Bool) : (s.contactStep n o l).BoundAt n := by
  unfold State.contactStep
  (repeat' split)
  · exact h.doorOpened
  · exact h.doorOpened.doorClosed
  · exact h.doorClosed

/-- R142: going SILENT keeps the bounds. -/
theorem State.BoundAt.silence (h : s.BoundAt n) : (s.silence n).BoundAt n := by
  have h1 := (((h.setLink .silent).put
    { kind := .link, station := n, room := (s.station n).room, reason := .stationSilent
      value := .number Link.silent.code }).offer (.link n .silent)).clearVerdict
  have h2 := h1.silenceDoor.setExpected .adopt
  unfold State.silence
  dsimp only
  split
  · exact h2.raiseLapseAt _
  · exact h2

theorem State.BoundAt.countMiss (h : s.BoundAt n) : (s.countMiss n).BoundAt n := by
  have h1 : (s.setStation n
      { s.station n with missed := min Config.missedLimit ((s.station n).missed + 1) }).BoundAt n :=
    h.setStation rfl rfl rfl (Nat.min_le_left _ _)
  unfold State.countMiss
  dsimp only
  split
  · exact h1.silence
  · exact h1

end

theorem State.Bounded.miss (h : s.Bounded) (n : Nat) (settle : Bool) : (s.miss n settle).Bounded := by
  unfold State.miss
  split
  · exact h
  · rename_i hn
    have hroom : (s.station n).room ≠ 0 := by simp at hn; exact hn.2
    exact (State.BoundAt.countMiss ⟨h, hroom⟩).1

/-- A station whose door has a timer running is bound. -/
theorem State.Bounded.boundAt {n : Nat} (h : s.Bounded) (hd : (s.station n).door ≠ .unknown) : s.BoundAt n :=
  ⟨h, fun h0 => hd ((h.station n).2.2.2.2.2.2 h0).2.2⟩

theorem State.Bounded.releaseExpires (h : s.Bounded) (n : Nat) : (s.releaseExpires n).Bounded := by
  unfold State.releaseExpires
  split
  · rename_i hd
    have h1 := (h.boundAt (n := n) (by rw [hd]; simp)).setDoor .secure
    dsimp only
    split
    · exact (h1.raiseLapseAt _).1
    · exact h1.1
  all_goals exact h

theorem State.Bounded.heldExpires (h : s.Bounded) (n : Nat) : (s.heldExpires n).Bounded := by
  unfold State.heldExpires
  split
  · rename_i hd
    have h1 := ((h.boundAt (n := n) (by rw [hd]; simp)).setDoor .heldOpen).doorAlert .held .raised
    exact h1.1.of_same (by simp [State.SameTables])
  all_goals exact h

/-! ### Reports taken (R139) -/

theorem State.BoundAt.acknowledged {n : Nat} (h : s.BoundAt n) (t : Toggle) :
    (s.setStation n ((s.station n).acknowledged t)).BoundAt n := h.setStation rfl rfl rfl h.missed

/-- R139: a report taken joins the queue as its only entry of the station. -/
theorem State.BoundAt.takeReport {n : Nat} (h : s.BoundAt n) (t : Toggle) (side : Side) {c : Nat} (hc : isCredential c)
    (hcan : s.canTake n = true) : State.Bounded { s.setStation n ((s.station n).acknowledged t) with
      presentations := s.presentations ++ [⟨n, side, c, s.now⟩] } := by
  simp only [State.canTake, Bool.and_eq_true, decide_eq_true_eq, List.all_eq_true, bne_iff_ne,
    ne_eq] at hcan
  obtain ⟨⟨⟨-, hlen⟩, hnone⟩, -⟩ := hcan
  have hlen : s.presentations.length < 8 := hlen
  obtain ⟨hn1, hn16⟩ := h.address
  obtain ⟨⟨hp, hrev, hroom, hset, -, hnd, hall⟩, hst⟩ := (h.acknowledged t).1
  refine ⟨⟨hp, hrev, hroom, hset, by simp; omega, ?_, fun p hp => ?_⟩, hst⟩
  · rw [List.map_append, List.nodup_append]
    refine ⟨hnd, List.nodup_singleton _, fun x hx y hy hxy => ?_⟩
    obtain ⟨p, hp, rfl⟩ := List.mem_map.1 hx
    exact hnone p hp (hxy.trans (List.mem_singleton.1 hy))
  · rcases List.mem_append.1 hp with hp | hp
    · exact hall p hp
    · cases List.mem_singleton.1 hp
      exact ⟨hn1, hn16, hc⟩

theorem State.BoundAt.reportStep {n : Nat} (h : s.BoundAt n) (t : Toggle) (side : Side) {c : Nat}
    (hc : badCredential c = false → isCredential c) : (s.reportStep n t side c).Bounded := by
  unfold State.reportStep
  (repeat' split)
  · exact (h.setStation (st := { (s.station n).acknowledged t with corrupt := true }) rfl rfl rfl h.missed).1
  · rename_i hbad _ hcan
    exact h.takeReport t side (hc (by simpa using hbad)) hcan
  · unfold Station.heldBack
    split
    · exact (h.setStation (st := { s.station n with acknowledge := !t }) rfl rfl rfl h.missed).1
    · exact (h.setStation (st := s.station n) rfl rfl rfl h.missed).1
  · exact h.1

theorem State.Bounded.takeAnswer (h : s.Bounded) (n : Nat) (chars : List StationChar) :
    (s.takeAnswer n (answerOf chars)).Bounded := by
  unfold State.takeAnswer
  split
  · exact h
  · rename_i hroom
    have h1 : ((s.linkStep n).verdictStep n (answerOf chars).seen).BoundAt n :=
      (State.BoundAt.linkStep ⟨h, hroom⟩).verdictStep _
    unfold State.contactAndReport
    split
    · exact h1.1
    · have h2 := h1.contactStep (answerOf chars).open? (answerOf chars).latch
      dsimp only
      split
      · rename_i t side c hrep
        refine h2.reportStep t side fun hbad => ?_
        simp only [answerOf, Option.ite_none_right_eq_some, Option.some.injEq, Prod.mk.injEq] at hrep
        obtain ⟨-, -, -, rfl⟩ := hrep
        exact (isCredential_valueAt _ _).1 hbad
      · exact h2.1

/-! ### Room alerts and groups -/

theorem State.Bounded.moveRoomAlert (h : s.Bounded) (a : RoomAlert) (n : Nat) (l : Level) :
    (s.moveRoomAlert a n l).Bounded := by
  have hr := h.room n
  have hl : (a.setLevel (s.room n) l).Sound := by cases a <;> exact hr
  exact ((h.setRoom n hl).offer _).put _

theorem State.Bounded.reevaluate (h : s.Bounded) (a : RoomAlert) (n : Nat) : (s.reevaluate a n).Bounded := by
  unfold State.reevaluate
  split
  · exact (h.moveRoomAlert ..).schedule ..
  · exact h
  · exact h
  · exact h
  · exact (h.moveRoomAlert ..).unschedule _
  · exact (h.moveRoomAlert ..).unschedule _

theorem State.Bounded.reevaluateRoom (h : s.Bounded) (n : Nat) : (s.reevaluateRoom n).Bounded :=
  (h.reevaluate _ _).reevaluate _ _

theorem State.Bounded.completeGroup (h : s.Bounded) (g : Group) (t : Option (Nat × Nat)) :
    (s.completeGroup g t).Bounded := by
  have h2 : ({ s.unschedule (.pairing g.station) with
      pool := s.pool ++ g.members.map (Member.toRecord g) } : State).Bounded := h.of_same (by simp [State.SameTables])
  exact (((h2.dropGroup _).placeVerdict _ _ _).foldl_grantMember _ _ _).reevaluateRoom _

theorem State.Bounded.retestFor (n k : Nat) : ∀ {s : State}, s.Bounded → (State.retestFor k n s).Bounded := by
  induction k with
  | zero => intro s h; exact h
  | succ k ih =>
    intro s h
    unfold State.retestFor
    split
    · exact h
    · exact ih (h.completeGroup _ _)

theorem State.Bounded.retest (h : s.Bounded) (n : Nat) : (s.retest n).Bounded := State.Bounded.retestFor n _ h

theorem State.Bounded.afterRemoval (h : s.Bounded) (n : Nat) : (s.afterRemoval n).Bounded :=
  (h.reevaluateRoom n).retest n

theorem State.Bounded.retestGroup (h : s.Bounded) (n : Nat) : (s.retestGroup n).Bounded := by
  unfold State.retestGroup
  (repeat' split)
  · exact h
  · exact (h.completeGroup _ _).retest _
  · exact h

theorem State.Bounded.removeMember (h : s.Bounded) (g : Group) (m : Member) (r : Reason) :
    (s.removeMember g m r).Bounded := by
  have h1 := ((h.setMembers g.station (g.members.filter (fun x => x.credential ≠ m.credential))).denyMember g r
    m).placeVerdict g.station .deny r
  unfold State.removeMember
  dsimp only
  split
  · exact (h1.unschedule _).dropGroup _
  · exact h1.retestGroup _

/-! ### Permit amendments and revocations -/

theorem State.Bounded.suspendMember (h : s.Bounded) (n : Nat) : (s.suspendMember n).Bounded := by
  unfold State.suspendMember
  (repeat' split)
  · exact h.removeMember _ _ _
  · exact h
  · exact h

theorem State.Bounded.returnToClear (h : s.Bounded) (o : Occupant) (d : Nat) : (s.returnToClear o d).Bounded :=
  (((h.updateRecord _ _).put _).offer _).schedule _ _

theorem State.Bounded.relevel (h : s.Bounded) (o : Occupant) (d : Nat) : (s.relevel o d).Bounded := by
  unfold State.relevel
  (repeat' split)
  · exact h.schedule _ _
  · exact h.returnToClear _ _
  · exact h.schedule _ _
  · exact h.returnToClear _ _
  · exact h

theorem State.Bounded.recompute (h : s.Bounded) (o : Occupant) (p : Permit) : (s.recompute o p).Bounded := by
  unfold State.recompute
  split
  · exact h
  · exact (((h.unscheduleRecord _).updateRecord _ _).put _).relevel _ _

theorem State.Bounded.actOnHolder (h : s.Bounded) (p : Permit) (c : PermitAmend) : (s.actOnHolder p c).Bounded := by
  have h1 : (if c.status = some .suspended then s.suspendMember p.number else s).Bounded := by
    split
    · exact h.suspendMember _
    · exact h
  unfold State.actOnHolder
  generalize (if c.status = some .suspended then s.suspendMember p.number else s) = s1 at h1 ⊢
  dsimp only
  (repeat' split)
  · exact h1.recompute _ _
  · exact h1
  · exact h1

theorem State.Bounded.markRevoked (h : s.Bounded) (o : Occupant) (b : Bool) : (s.markRevoked o b).Bounded :=
  ((h.updateRecord _ _).offer _).put _

theorem State.Bounded.actOnRevoked (h : s.Bounded) (c : Nat) : (s.actOnRevoked c).Bounded := by
  unfold State.actOnRevoked
  (repeat' split)
  · exact h.markRevoked _ _
  · exact h.removeMember _ _ _
  · exact h

theorem State.Bounded.unmark (h : s.Bounded) (c : Nat) : (s.unmark c).Bounded := by
  unfold State.unmark
  (repeat' split)
  · exact h.markRevoked _ _
  · exact h
  · exact h

theorem State.Bounded.revoke (h : s.Bounded) {c : Nat} (hc : isCredential c) (hm : c ∉ s.revoked)
    (hl : s.revoked.length < 32) : State.Bounded { s with revoked := s.revoked ++ [c] } := by
  obtain ⟨⟨hp, ⟨-, hnd, hall⟩, hrest⟩, hst⟩ := h
  refine ⟨⟨hp, ⟨by simp; omega, ?_, fun x hx => ?_⟩, hrest⟩, hst⟩
  · refine List.nodup_append.2 ⟨hnd, List.nodup_singleton _, fun x hx y hy hxy => hm ?_⟩
    rwa [← List.mem_singleton.1 hy, ← hxy]
  · rcases List.mem_append.1 hx with hx | hx
    · exact hall x hx
    · cases List.mem_singleton.1 hx
      exact hc

theorem State.Bounded.unrevoke (h : s.Bounded) (c : Nat) :
    State.Bounded { s with revoked := s.revoked.filter (fun x => x ≠ c) } := by
  obtain ⟨⟨hp, ⟨hlen, hnd, hall⟩, hrest⟩, hst⟩ := h
  exact ⟨⟨hp, ⟨(List.length_filter_le _ _).trans hlen, hnd.filter _, fun x hx => hall x (List.mem_of_mem_filter hx)⟩,
    hrest⟩, hst⟩

/-- R9 to R12: an accepted amendment keeps the bounds. -/
theorem State.Bounded.amend (h : s.Bounded) {c : PermitAmend} {e : Nat × Permit} (hc : c.InRange)
    (he : s.permit c.number = some e) (hv : (e.2.amended c).validFrom < (e.2.amended c).validUntil) :
    (s.updatePermit c.number (fun q => q.amended c)).Bounded := by
  refine h.permits (PermitsSound_updatePermit h.1.1 _ _ (fun _ => ⟨rfl, rfl⟩) fun x hx hn => ?_) rfl
  have hxe : e = x := by
    have := permit_eq_of_mem h.1.1.2.2.1 hx
    rw [hn, he] at this
    exact Option.some.inj this
  subst hxe
  exact amended_sound (h.1.1.2.1 e hx).2 hc hv

/-! ### Rooms, settings and stations written by the host -/

theorem clampTo_bounds {lo hi : Nat} (n : Nat) (h : lo ≤ hi) : lo ≤ clampTo lo hi n ∧ clampTo lo hi n ≤ hi := by
  unfold clampTo
  (repeat' split) <;> omega

theorem readSettings_sound {b : List Byte} {x : Settings} (h : readSettings b = .ok x) : x.Sound := by
  unfold readSettings at h
  split at h <;> cases h
  have poll := clampTo_bounds (lo := 50) (hi := 1000) (valueAt b 0 2) (by decide)
  have factor := clampTo_bounds (lo := 2) (hi := 8) (byteAt b 2) (by decide)
  have threshold := clampTo_bounds (lo := 3) (hi := 15) (byteAt b 3) (by decide)
  have interval := clampTo_bounds (lo := 1) (hi := 60) (byteAt b 5) (by decide)
  have offset := clampTo_bounds (lo := 0) (hi := 6) (byteAt b 9) (by decide)
  exact ⟨poll.1, poll.2, factor.1, factor.2, threshold.1, threshold.2, interval.1, interval.2, offset.2⟩

theorem configured_sound {b : List Byte} {c : RoomConfig} (h : readRoomConfig b = .ok c) (r : Room) :
    (r.configured c).Sound := by
  unfold readRoomConfig at h
  (repeat' split at h) <;> cases h
  have ratio := clampTo_bounds (lo := 1) (hi := 4) (byteAt b 3) (by decide)
  have stay := clampTo_bounds (lo := 0) (hi := 60) (byteAt b 4) (by decide)
  have grace := clampTo_bounds (lo := 0) (hi := 60) (byteAt b 5) (by decide)
  have window := clampTo_bounds (lo := 5) (hi := 120) (byteAt b 6) (by decide)
  have lone := clampTo_bounds (lo := 0) (hi := 600) (valueAt b 7 2) (by decide)
  have unescorted := clampTo_bounds (lo := 0) (hi := 600) (valueAt b 9 2) (by decide)
  refine ⟨?_, ?_, ratio.1, ratio.2, stay.2, grace.2, window.1, window.2, lone.2, unescorted.2⟩
  all_goals simp only [Room.configured]; omega

theorem State.Bounded.configureRoom (h : s.Bounded) {b : List Byte} {c : RoomConfig} (hc : readRoomConfig b = .ok c) :
    (s.configureRoom c).Bounded := by
  have h1 := h.setRoom c.room (configured_sound hc (s.room c.room))
  unfold State.configureRoom
  dsimp only
  split
  · exact h1
  · exact (h1.reevaluateRoom _).retest _

theorem State.Bounded.changeRoomMode (h : s.Bounded) (n : Nat) (m : RoomMode) : (s.changeRoomMode n m).Bounded := by
  have hr := h.room n
  have h1 := (h.setRoom n (r := { s.room n with mode := m }) hr).put
    { kind := .roomMode, room := n, value := .pair (s.room n).mode.code m.code }
  exact ((h1.of_same (t := State.rederive _ n) (by simp [State.SameTables, State.rederive])).reevaluateRoom n).retest n

theorem State.Bounded.operatorRelease (h : s.Bounded) (o : Occupant) : (s.operatorRelease o).Bounded :=
  (((h.debit o).put _).leave o).afterRemoval _

/-- R131: a station that is idle keeps its ranges when it is bound anew or unbound. -/
theorem bound_sound {b : List Byte} {n room release held : Nat} {st : Station} (h : st.Sound)
    (hb : readStationSet b = .ok (n, room, release, held)) (hch : st.channel = .hold) :
    (st.bound room release held).Sound := by
  unfold readStationSet at hb
  (repeat' split at hb) <;> cases hb
  rename_i hrange
  have hroom : byteAt b 1 ≤ 12 := by
    rw [not_or, not_or] at hrange
    exact Nat.le_of_not_lt hrange.2.2
  have hrel := clampTo_bounds (lo := 3) (hi := 30) (byteAt b 2) (by decide)
  have hheld := clampTo_bounds (lo := 10) (hi := 300) (valueAt b 3 2) (by decide)
  obtain ⟨-, -, -, -, -, hmiss, hfree⟩ := h
  unfold Station.bound
  split
  · exact ⟨Nat.zero_le _, hrel.1, hrel.2, hheld.1, hheld.2, Nat.zero_le _, fun _ => ⟨hch, rfl, rfl⟩⟩
  · rename_i hn
    refine ⟨hroom, hrel.1, hrel.2, hheld.1, hheld.2, hmiss, fun h0 => hfree ?_⟩
    by_contra hne
    exact hn ⟨hne, h0⟩

theorem stationIdle_hold {n : Nat} (h : s.stationIdle n = true) : (s.station n).channel = .hold := by
  simp only [State.stationIdle, Bool.and_eq_true, beq_iff_eq] at h
  exact h.1.1.1.1.1.1

/-! ### Jobs -/

theorem State.Bounded.foldl_commitRecord (h : s.Bounded) (l : List Occupant) : (l.foldl State.commitRecord s).Bounded :=
  foldl_property (fun _ _ h => ((h.updateRecord _ _).schedule _ _).put _) l s h

theorem State.Bounded.commitStation (h : s.Bounded) (n : Nat) : (s.commitStation n).Bounded := by
  unfold State.commitStation
  split
  · exact h
  · exact (h.foldl_commitRecord _).afterRemoval _

theorem State.Bounded.cancelGroup (h : s.Bounded) (n : Nat) : (s.cancelGroup n).Bounded := by
  unfold State.cancelGroup
  split
  · exact h
  · exact ((h.foldl_denyMember _ _ _).unschedule _).dropGroup _

theorem State.Bounded.lapseStation (h : s.Bounded) (n : Nat) (silence : Bool) : (s.lapseStation n silence).Bounded := by
  have h1 := h.foldl_lapse (if silence then .stationSilent else .releaseExpired) (s.admittingAt n)
  have h2 := h1.cancelGroup n
  unfold State.lapseStation
  cases silence with
  | true =>
    dsimp only
    split
    · exact h2
    · exact h2.afterRemoval _
  | false =>
    dsimp only
    split
    · exact h1
    · exact h1.afterRemoval _

theorem State.Bounded.dropHead (h : s.Bounded) : s.dropHead.Bounded := h.of_same (by simp [State.SameTables])

theorem State.Bounded.raiseOverstay (h : s.Bounded) (o : Occupant) : (s.raiseOverstay o).Bounded := by
  have h1 := ((h.updateRecord o.credential (fun x => { x with overstay := .raised })).offer
    (o.notice .overstay .raised)).put (o.record .overstay .raised)
  unfold State.raiseOverstay
  dsimp only
  split
  · exact h1.schedule _ _
  · exact h1

theorem State.Bounded.escalateAlert (h : s.Bounded) (a : RoomAlert) (n : Nat) : (s.escalateAlert a n).Bounded := by
  unfold State.escalateAlert
  split
  · exact h.moveRoomAlert _ _ _
  · exact h
  · exact h

theorem State.Bounded.expireGroup (h : s.Bounded) (n : Nat) : (s.expireGroup n).Bounded := by
  unfold State.expireGroup
  split
  · exact h
  · exact ((h.foldl_denyMember _ _ _).dropGroup _).placeVerdict _ _ _

theorem State.Bounded.dueAction (h : s.Bounded) {act : Due → State → State}
    (ha : act ∈ [pairingAction, stayDeadlineAction, escalationAction, limitAction]) (w : Due) : (act w s).Bounded := by
  simp only [List.mem_cons, List.not_mem_nil, or_false] at ha
  rcases ha with rfl | rfl | rfl | rfl
  · cases w with
    | pairing n => exact h.expireGroup n
    | _ => exact h
  · cases w with
    | stayDeadline c =>
      unfold stayDeadlineAction
      dsimp only
      split
      · exact h.raiseOverstay _
      · exact h
    | _ => exact h
  · cases w with
    | escalation c =>
      unfold escalationAction
      dsimp only
      split
      · exact ((h.updateRecord _ _).offer _).put _
      · exact h
    | _ => exact h
  · cases w with
    | loneLimit n => exact h.escalateAlert _ n
    | unescortedLimit n => exact h.escalateAlert _ n
    | _ => exact h

/-! ### Decisions -/

theorem State.Bounded.conclude (h : s.Bounded) (p : Presentation) (o : VerdictOutcome) (r : Reason) (n : Nat)
    (t : TrailRecord) : (s.conclude p o r n t).Bounded :=
  (((h.placeVerdict _ _ _).setLast _ _ _).put _).offerDecision _

theorem State.Bounded.refuse (h : s.Bounded) (p : Presentation) (r : Reason) (n v : Nat) : (s.refuse p r n v).Bounded :=
  h.conclude _ _ _ _ _

theorem State.Bounded.decideSilent (h : s.Bounded) (p : Presentation) : (s.decideSilent p).Bounded :=
  ((h.setLast _ _ _).put _).offerDecision _

theorem State.Bounded.grant (h : s.Bounded) (p : Presentation) (q : Permit) : (s.grant p q).Bounded := by
  have h1 : State.Bounded { s with pool := s.pool ++ [newRecord s p.station (s.station p.station).room p.credential q] } :=
    h.of_same (by simp [State.SameTables])
  exact (h1.conclude _ _ _ _ _).afterRemoval _

theorem State.Bounded.found (h : s.Bounded) (p : Presentation) (q : Permit) : (s.found p q).Bounded := by
  have h1 := fun g => (h.of_same (t := { s with groups := insertGroup g s.groups }) (by simp [State.SameTables]))
  exact ((h1 _).schedule _ _).conclude _ _ _ _ _

theorem State.Bounded.join (h : s.Bounded) (p : Presentation) (g : Group) (q : Permit) : (s.join p g q).Bounded := by
  have h1 := h.setMembers g.station (g.members ++ [s.newMember p q])
  unfold State.join
  dsimp only
  split
  · exact ((h1.completeGroup _ _).setLast _ _ _).retest _
  · exact h1.conclude _ _ _ _ _

theorem State.Bounded.admitOrPair (h : s.Bounded) (p : Presentation) (q : Permit) : (s.admitOrPair p q).Bounded := by
  unfold State.admitOrPair
  dsimp only
  (repeat' split)
  · exact h.refuse _ _ _ _
  · exact h.join _ _ _
  · exact h.grant _ _
  · exact h.refuse _ _ _ _
  · exact h.found _ _

theorem State.Bounded.roomChecks (h : s.Bounded) (p : Presentation) (q : Permit) : (s.roomChecks p q).Bounded := by
  unfold State.roomChecks
  dsimp only
  (repeat' split)
  · exact h.refuse _ _ _ _
  · exact h.refuse _ _ _ _
  · exact h.refuse _ _ _ _
  · exact h.refuse _ _ _ _
  · exact h.admitOrPair _ _

theorem State.Bounded.tryPermits (h : s.Bounded) (p : Presentation) : (s.tryPermits p).Bounded := by
  unfold State.tryPermits
  dsimp only
  split
  · exact h.roomChecks _ _
  · split
    · exact h.refuse _ _ _ _
    · exact h.refuse _ _ _ _

theorem State.Bounded.decideEntry (h : s.Bounded) (p : Presentation) : (s.decideEntry p).Bounded := by
  unfold State.decideEntry
  (repeat' split)
  · exact h.refuse _ _ _ _
  · exact h.refuse _ _ _ _
  · exact h.refuse _ _ _ _
  · exact h.conclude _ _ _ _ _
  · exact h.refuse _ _ _ _
  · exact h.conclude _ _ _ _ _
  · exact h.refuse _ _ _ _
  · exact h.tryPermits _

theorem State.Bounded.offerExit (h : s.Bounded) (p : Presentation) (n : Nat) : (s.offerExit p n).Bounded :=
  h.offerDecision _

theorem State.Bounded.exitRecord (h : s.Bounded) (p : Presentation) (o : Occupant) : (s.exitRecord p o).Bounded := by
  have h1 := (h.placeVerdict p.station .release .exit).setLast p .release .exit
  unfold State.exitRecord
  dsimp only
  split
  · exact ((((h1.debit o).put _).offerExit _ _).leave o).afterRemoval _
  · exact (((h1.put _).offerExit _ _).leave o).afterRemoval _

theorem State.Bounded.decideExit (h : s.Bounded) (p : Presentation) : (s.decideExit p).Bounded := by
  unfold State.decideExit
  split
  · exact h.exitRecord _ _
  · exact h.conclude _ _ _ _ _

/-- R139: a presentation taken leaves the rest of the queue. -/
theorem State.Bounded.takePresentation (h : s.Bounded) {act : State → Presentation → State}
    (ha : act ∈ [State.decideEntry, State.decideExit]) : (s.takePresentation act).Bounded := by
  unfold State.takePresentation
  split
  · exact h
  · rename_i p rest hp
    have h1 : State.Bounded { s with presentations := rest } := by
      obtain ⟨⟨hper, hrev, hroom, hset, hlen, hnd, hall⟩, hst⟩ := h
      rw [hp] at hlen hnd hall
      exact ⟨⟨hper, hrev, hroom, hset, Nat.le_of_succ_le hlen, (List.nodup_cons.1 hnd).2,
        fun x hx => hall x (List.mem_cons_of_mem _ hx)⟩, hst⟩
    dsimp only
    split
    · exact h1.decideSilent p
    · simp only [List.mem_cons, List.not_mem_nil, or_false] at ha
      rcases ha with rfl | rfl
      · exact h1.decideEntry p
      · exact h1.decideExit p

/-! ### Wakes and start-ups -/

/-- A change of every station that keeps its ranges. -/
theorem State.Bounded.mapStations (h : s.Bounded) {f : Station → Station} (hf : ∀ st : Station, st.Sound → (f st).Sound)
    {t : State} (ht : t.stations = s.stations.map f) (hrest : s.SameTables { t with stations := s.stations }) :
    t.Bounded := by
  obtain ⟨ht', -, -⟩ := h.of_same hrest
  refine ⟨ht', by rw [ht, List.length_map]; exact h.2.1, fun st hst => ?_⟩
  rw [ht] at hst
  obtain ⟨x, hx, rfl⟩ := List.mem_map.1 hst
  exact hf x (h.2.2 x hx)

theorem wokenStation_sound (st : Station) (h : st.Sound) : (wokenStation st).Sound := by
  unfold wokenStation
  split
  · exact h
  · rename_i h0
    obtain ⟨h1, h2, h3, h4, h5, -, -⟩ := h
    exact ⟨h1, h2, h3, h4, h5, Nat.zero_le _, fun hr => absurd hr h0⟩

theorem State.Bounded.wake (h : s.Bounded) (c : ModeCause) : (s.wake c).Bounded :=
  h.mapStations wokenStation_sound (by simp [State.wake, State.restartLine])
    (by simp [State.SameTables, State.wake, State.restartLine])

theorem tick_sound (st : Station) (h : st.Sound) : Station.Sound { st with door := st.door.tick } := by
  obtain ⟨h1, h2, h3, h4, h5, h6, hfree⟩ := h
  refine ⟨h1, h2, h3, h4, h5, h6, fun h0 => ?_⟩
  obtain ⟨hch, hlink, hdoor⟩ := hfree h0
  exact ⟨hch, hlink, by simp [hdoor, Door.tick]⟩

theorem State.Bounded.tick (h : s.Bounded) : s.tick.Bounded := by
  unfold State.tick
  split
  · exact h.of_same (by simp [State.SameTables])
  · exact h.mapStations tick_sound rfl (by simp [State.SameTables])

theorem warmStation_sound (st : Station) (h : st.Sound) : (warmStation st).Sound := by
  obtain ⟨h1, h2, h3, h4, h5, -, hfree⟩ := h
  exact ⟨h1, h2, h3, h4, h5, Nat.zero_le _, fun h0 => ⟨(hfree h0).1, rfl, rfl⟩⟩

theorem State.Bounded.resetUnretained (h : s.Bounded) : s.resetUnretained.Bounded := by
  have h1 : State.Bounded { s with presentations := [] } := by
    obtain ⟨⟨hper, hrev, hroom, hset, -⟩, hst⟩ := h
    exact ⟨⟨hper, hrev, hroom, hset, Nat.zero_le _, List.nodup_nil, fun _ hp => nomatch hp⟩, hst⟩
  exact h1.mapStations warmStation_sound rfl (by simp [State.SameTables, State.resetUnretained])

theorem defaultSettings_sound : defaultSettings.Sound := by unfold Settings.Sound; decide

theorem State.Bounded.defaultDomain (h : s.Bounded) : s.defaultDomain.Bounded := by
  obtain ⟨⟨-, -, -, -, hpres⟩, -⟩ := h
  have permits : s.defaultDomain.PermitsSound := by simp [State.PermitsSound, State.defaultDomain]
  have revoked : s.defaultDomain.RevokedSound := by simp [State.RevokedSound, State.defaultDomain]
  refine ⟨⟨permits, revoked, ⟨List.length_replicate, fun r hr => ?_⟩, defaultSettings_sound, hpres⟩,
    List.length_replicate, fun st hst => ?_⟩
  · rw [(List.mem_replicate.1 hr).2]; exact defaultRoom_sound
  · rw [(List.mem_replicate.1 hst).2]; exact defaultStation_sound

theorem State.Bounded.takeKind (h : s.Bounded) (k : RestartKind) (lost : Bool) : (s.takeKind k lost).Bounded := by
  have h1 : (s.domainFor k).Bounded := by
    cases k with
    | powerOn => exact h.defaultDomain.of_same (by simp [State.SameTables, State.domainFor])
    | restartClean => exact h.defaultDomain
    | resetLine => exact h
    | restartWarm => exact h
  exact h1.of_same (by simp [State.SameTables, State.takeKind])

theorem State.Bounded.rebuildEntry (h : s.Bounded) (o : Occupant) : (s.rebuildEntry o).Bounded := by
  unfold State.rebuildEntry
  split
  · exact h.schedule _ _
  · exact h.schedule _ _
  · exact h
  · exact h

theorem State.Bounded.rebuildAlert (h : s.Bounded) (a : RoomAlert) (n : Nat) : (s.rebuildAlert a n).Bounded := by
  unfold State.rebuildAlert
  split
  · exact h.schedule _ _
  · exact h.reevaluate _ _

theorem State.Bounded.discardGroups (h : s.Bounded) : s.discardGroups.Bounded := by
  have h1 := foldl_property (P := State.Bounded) (f := fun s g => g.members.foldl (State.denyAtRestart g) s)
    (fun _ g h => foldl_property (fun _ _ h => h.put _) g.members _ h) s.groups s h
  exact h1.of_same (by simp [State.SameTables, State.discardGroups])

theorem State.Bounded.warmWork (h : s.Bounded) : s.warmWork.Bounded := by
  have h1 : s.lapseAll.discardGroups.Bounded := (h.foldl_lapse .restart _).discardGroups
  have h2 := foldl_property (fun _ o h => h.rebuildEntry o) s.lapseAll.discardGroups.byRoom _ h1
  exact foldl_property (fun _ n h => (h.rebuildAlert .lone n).rebuildAlert .unescorted n) _ _ h2

theorem State.Bounded.startUpStep (h : s.Bounded) (k : RestartKind) (lost : Bool) (rate : Nat) (x : StartUpStep) :
    (State.startUpStep k lost rate s x).Bounded := by
  cases x with
  | unretained => exact h.resetUnretained
  | kind => exact h.takeKind k lost
  | mode => exact h.of_same (by simp [State.SameTables, State.startUpStep, State.takeMode])
  | record => exact h.put _
  | ready => exact h.of_same (by simp [State.SameTables, State.startUpStep, State.offerReady])
  | engine =>
    cases k with
    | resetLine => exact h.warmWork
    | restartWarm => exact h.warmWork
    | powerOn => exact h
    | restartClean => exact h
  | mark => exact h.of_same (by simp [State.SameTables, State.startUpStep, State.writeMark])

theorem State.holdAgain_same (s : State) (x : ResetHold) : s.SameRecords (s.holdAgain x) := by
  simp [State.SameRecords, State.holdAgain]

theorem State.Bounded.startUp (h : s.Bounded) (event : RestartKind) (inputs : RestartInputs) :
    (s.startUp event inputs).Bounded := by
  have started : State.Bounded { s with
      supply := (s.supply.backedUp inputs.backup).startingUp ((s.supply.backedUp inputs.backup).decideKind event).1 } :=
    h.of_same (by simp [State.SameTables])
  unfold State.startUp
  dsimp only
  generalize (s.supply.backedUp inputs.backup).decideKind event = kind at started ⊢
  have taken := foldl_property (f := State.startUpStep kind.1 kind.2 (rateOfStraps inputs))
    (fun _ x h => h.startUpStep _ _ _ x) (stepsTaken inputs.cut) _ started
  split
  · exact taken.of_same ((State.restartLine_same _).trans (State.pump_same _)).sameTables
  · exact taken.of_same (State.holdAgain_same _ _).sameTables

/-! ### Every step -/

theorem State.Bounded.effect {t : State} (h : s.Bounded) (he : s.Effect t) : t.Bounded := by
  cases he with
  | same => exact h
  | tick => exact h.tick
  | clockEnd => exact h.of_same (by simp [State.SameTables])
  | setClock day second => exact (h.of_same (t := { s with clock := clockAt day second }) (by simp [State.SameTables])).put _
  | writeSettings b x hx =>
    obtain ⟨⟨hp, hrev, hroom, -, hpres⟩, hst⟩ := h
    exact ⟨⟨hp, hrev, hroom, readSettings_sound hx, hpres⟩, hst⟩
  | addPermit b p hp hn hf => exact h.permits (PermitsSound_addPermit h.1.1 (readPermitBody_sound hp) hn hf) rfl
  | dropPermit n => exact h.dropPermit n
  | amend b c e hc he hv => exact (h.amend (readAmendBody_inRange hc) he hv).actOnHolder _ _
  | revoke b c hc hm hl => exact (h.revoke (readCredential_isCredential hc) hm hl).actOnRevoked c
  | unrevoke c => exact (h.unrevoke c).unmark c
  | roomSet b c hc => exact h.configureRoom hc
  | roomMode b n m => exact h.changeRoomMode n m
  | operatorRelease o => exact h.operatorRelease o
  | stationSet b n room release held hb hi =>
    exact h.setStation n (bound_sound (h.station n) hb (stationIdle_hold hi))
  | stationChannel n c hc => exact h.writeChannel n c _ hc
  | flag n v => exact h.setStation n (h.station n)
  | commit n => exact (h.takeDoorEvent n).commitStation n
  | lapse n silence => exact (h.takeDoorEvent n).lapseStation n silence
  | due act e ha => exact h.dropHead.dueAction ha _
  | decide act ha => exact h.takePresentation ha
  | sweep k => exact foldl_property (fun _ e h => h.retire e) _ s h
  | call n => exact h.setStation n (h.station n)
  | answer n chars => exact h.takeAnswer n chars
  | miss n settle => exact h.miss n settle
  | corrupt n settle => exact (h.setStation n (st := { s.station n with corrupt := true }) (h.station n)).miss n settle
  | releaseExpires n => exact h.releaseExpires n
  | heldExpires n => exact h.heldExpires n
  | wake c => exact h.wake c
  | startUp t k inputs ht => exact (h.of_same ht.sameTables).startUp k inputs

end

/-- Settles O56. -/
theorem stepKeepsTablesSound : Obligations.StepKeepsTablesSound := fun _ _ ht hst hstep =>
  step_keeps (P := State.Bounded) (fun huv h => h.of_same huv.sameTables) (fun h he => h.effect he) ⟨ht, hst⟩ hstep

end Sys2Proof.Machine
end

