-- ==== Sys2Proof/Proofs/References.lean ====
section
/-! The references between records, members, groups, permits and deadline entries (R5, R53, R70, R86, R92, R94), as one
invariant, and what each shared operation keeps of it. -/
namespace Sys2Proof.Machine

/-- What holds of the persons, their permits and the deadline queue at all times: the references of `ReferencesSound`,
and what they rest on of `PersonsSound`, `WithinCapacity` and `RoomsSound`. -/
structure State.Linked (s : State) : Prop where
  rooms : s.rooms.length = 12
  distinct : s.credentials.Nodup
  stations : s.groups.Pairwise (fun g g' => g.station ≠ g'.station)
  groupRooms : ∀ g ∈ s.groups, 1 ≤ g.room ∧ g.room ≤ 12
  poolRooms : ∀ o ∈ s.pool, 1 ≤ o.room ∧ o.room ≤ 12
  total : s.pool.length + s.members.length ≤ 48
  poolPermits : ∀ o ∈ s.pool, s.HoldsPermit o.permit o.credential
  memberPermits : ∀ m ∈ s.members, s.HoldsPermit m.permit m.credential
  admitting : ∀ o ∈ s.pool, o.presence = .admitting → o.overstay = .clear
  named : (s.deadlines.map DeadlineEntry.what).Nodup
  stands : ∀ e ∈ s.deadlines, s.Stands e.what
  groupCount : s.groups.length ≤ 8
  unset : s.clock.unset = true → s.pool = [] ∧ s.groups = [] ∧ s.deadlines = []

/-- Two states agree in the persons, their permits, the rooms and the deadline queue. -/
def State.SamePersons (s t : State) : Prop :=
  t.clock.unset = s.clock.unset ∧ t.permits = s.permits ∧ t.rooms = s.rooms ∧ t.pool = s.pool ∧ t.groups = s.groups
    ∧ t.deadlines = s.deadlines

theorem State.SameRecords.samePersons {s t : State} (h : s.SameRecords t) : s.SamePersons t := by
  unfold State.SameRecords at h; simp [State.SamePersons, h]

/-- No entry of the deadline queue names this. -/
def State.Unnamed (s : State) (w : Due) : Prop := ∀ e ∈ s.deadlines, e.what ≠ w

/-! ### What a deadline entry names stands -/

theorem stands_congr {s t : State} (hr : t.rooms = s.rooms) (hp : t.pool = s.pool) (hg : t.groups = s.groups) (w : Due) :
    t.Stands w ↔ s.Stands w := by
  cases w <;> simp [State.Stands, State.room, hr, hp, hg]

theorem stands_due (s : State) (a : RoomAlert) (n : Nat) :
    s.Stands (a.due n) ↔ 1 ≤ n ∧ n ≤ 12 ∧ a.level (s.room n) = .raised := by
  cases a <;> exact Iff.rfl

theorem due_inj {a b : RoomAlert} {n m : Nat} : a.due n = b.due m ↔ a = b ∧ n = m := by
  cases a <;> cases b <;> simp [RoomAlert.due]

theorem level_setLevel (a : RoomAlert) (r : Room) (l : Level) : a.level (a.setLevel r l) = l := by cases a <;> rfl

theorem level_setLevel_ne {a b : RoomAlert} (h : b ≠ a) (r : Room) (l : Level) :
    b.level (a.setLevel r l) = b.level r := by
  cases a with
  | lone => cases b with
    | lone => exact absurd rfl h
    | unescorted => rfl
  | unescorted => cases b with
    | lone => rfl
    | unescorted => exact absurd rfl h

/-- R37, R38: an alert's condition stands over somebody. -/
theorem stands_ne_nil {a : RoomAlert} {r : Room} {ps : List Person} (h : a.stands r ps = true) : ps ≠ [] := by
  rintro rfl
  cases a <;> simp [RoomAlert.stands, escortsCover] at h

section
variable {s : State}

theorem State.Linked.of_same {t : State} (h : s.Linked) (hst : s.SamePersons t) : t.Linked := by
  obtain ⟨hclock, hper, hroom, hpool, hgroup, hdead⟩ := hst
  constructor
  case rooms => rw [hroom]; exact h.rooms
  case distinct => simpa [State.credentials, State.members, hpool, hgroup] using h.distinct
  case stations => rw [hgroup]; exact h.stations
  case groupRooms => rw [hgroup]; exact h.groupRooms
  case poolRooms => rw [hpool]; exact h.poolRooms
  case total => simpa [State.members, hpool, hgroup] using h.total
  case poolPermits => simpa [State.HoldsPermit, hpool, hper] using h.poolPermits
  case memberPermits => simpa [State.HoldsPermit, State.members, hgroup, hper] using h.memberPermits
  case admitting => rw [hpool]; exact h.admitting
  case named => rw [hdead]; exact h.named
  case stands =>
    intro e he
    rw [hdead] at he
    exact (stands_congr hroom hpool hgroup _).2 (h.stands e he)
  case groupCount => rw [hgroup]; exact h.groupCount
  case unset => rw [hclock, hpool, hgroup, hdead]; exact h.unset

/-! ### Persons -/

theorem State.Linked.set_of_pool (h : s.Linked) {o : Occupant} (ho : o ∈ s.pool) : s.clock.unset = false := by
  by_contra hu
  rw [(h.unset (by simpa using hu)).1] at ho
  cases ho

theorem State.Linked.set_of_group (h : s.Linked) {g : Group} (hg : g ∈ s.groups) : s.clock.unset = false := by
  by_contra hu
  rw [(h.unset (by simpa using hu)).2.1] at hg
  cases hg

theorem State.Linked.pool_nodup (h : s.Linked) : (s.pool.map Occupant.credential).Nodup :=
  (List.nodup_append.1 h.distinct).1

/-- R53: a credential stands in one record. -/
theorem State.Linked.record_unique (h : s.Linked) {o o' : Occupant} (ho : o ∈ s.pool) (ho' : o' ∈ s.pool)
    (hc : o.credential = o'.credential) : o = o' :=
  List.inj_on_of_nodup_map h.pool_nodup ho ho' hc

theorem recordOf_eq_some {c : Nat} {o : Occupant} (h : s.recordOf c = some o) : o ∈ s.pool ∧ o.credential = c :=
  ⟨List.mem_of_find?_eq_some h, by simpa using List.find?_some h⟩

/-- The record of a credential, at each alert level: what its entries say of it. -/
theorem State.Linked.record_of_stay (h : s.Linked) {o : Occupant} (ho : o ∈ s.pool)
    (hs : s.Stands (.stayDeadline o.credential)) : o.presence ≠ .admitting ∧ o.overstay = .clear := by
  obtain ⟨x, hx, hc, hp, hl⟩ := hs
  cases h.record_unique hx ho hc
  exact ⟨hp, hl⟩

theorem State.Linked.record_of_escalation (h : s.Linked) {o : Occupant} (ho : o ∈ s.pool)
    (hs : s.Stands (.escalation o.credential)) : o.presence ≠ .admitting ∧ o.overstay = .raised := by
  obtain ⟨x, hx, hc, hp, hl⟩ := hs
  cases h.record_unique hx ho hc
  exact ⟨hp, hl⟩

theorem State.Linked.unnamed_of_not_stands (h : s.Linked) {w : Due} (hw : ¬ s.Stands w) : s.Unnamed w :=
  fun e he hew => hw (hew ▸ h.stands e he)

/-! ### The deadline queue -/

/-- A queue with fewer entries. -/
theorem State.Linked.fewer {t : State} {l : List DeadlineEntry} (h : s.Linked) (hl : l.Sublist s.deadlines)
    (ht : s.SamePersons { t with deadlines := s.deadlines }) (hd : t.deadlines = l) : t.Linked := by
  obtain ⟨hclock, hper, hroom, hpool, hgroup, -⟩ := ht
  have h1 : State.Linked { s with deadlines := l } :=
    { h with
      named := h.named.sublist (hl.map _)
      stands := fun e he => (stands_congr rfl rfl rfl _).2 (h.stands e (hl.subset he))
      unset := fun hu => by
        obtain ⟨hp, hg, hdl⟩ := h.unset hu
        rw [hdl] at hl
        exact ⟨hp, hg, List.sublist_nil.1 hl⟩ }
  exact h1.of_same ⟨hclock, hper, hroom, hpool, hgroup, hd⟩

theorem State.Linked.unschedule (h : s.Linked) (w : Due) : (s.unschedule w).Linked :=
  h.fewer List.filter_sublist (by simp [State.SamePersons]) rfl

theorem unscheduleRecord_deadlines (s : State) (c : Nat) : (s.unscheduleRecord c).deadlines
    = (s.deadlines.filter (fun e => e.what ≠ .stayDeadline c)).filter (fun e => e.what ≠ .escalation c) := by
  simp [State.unscheduleRecord]

theorem State.Linked.unscheduleRecord (h : s.Linked) (c : Nat) : (s.unscheduleRecord c).Linked :=
  (h.unschedule _).unschedule _

theorem unnamed_unschedule (s : State) (w : Due) : (s.unschedule w).Unnamed w := by
  simp [State.Unnamed]

theorem unnamed_unscheduleRecord (s : State) (c : Nat) :
    (s.unscheduleRecord c).Unnamed (.stayDeadline c) ∧ (s.unscheduleRecord c).Unnamed (.escalation c) := by
  simp only [State.Unnamed, unscheduleRecord_deadlines, List.mem_filter, decide_eq_true_eq]
  exact ⟨fun e he => he.1.2, fun e he => he.2⟩

theorem insertDeadline_perm (e : DeadlineEntry) (l : List DeadlineEntry) : (insertDeadline e l).Perm (e :: l) := by
  induction l with
  | nil => exact .refl _
  | cons x l ih =>
    simp only [insertDeadline]
    split
    · exact (ih.cons x).trans (.swap ..)
    · exact .refl _

/-- R93: an entry for something that stands and that no entry names yet. -/
theorem State.Linked.schedule (h : s.Linked) (due : Nat) {w : Due} (hnew : s.Unnamed w) (hst : s.Stands w)
    (hset : s.clock.unset = false) : (s.schedule due w).Linked :=
  { h with
    named := by
      rw [State.schedule_deadlines, ((insertDeadline_perm _ _).map _).nodup_iff]
      refine List.nodup_cons.2 ⟨fun hm => ?_, h.named⟩
      obtain ⟨e, he, hew⟩ := List.mem_map.1 hm
      exact hnew e he hew
    stands := fun e he => by
      rcases (mem_insertDeadline _ _ _).1 he with rfl | he
      · exact (stands_congr rfl rfl rfl _).2 hst
      · exact (stands_congr rfl rfl rfl _).2 (h.stands e he)
    unset := fun hu => absurd hu (by simp [hset]) }

/-! ### Rooms -/

/-- A room written: what an entry names at it is at level 1. -/
theorem State.Linked.setRoom (h : s.Linked) (n : Nat) {r : Room}
    (hr : ∀ a : RoomAlert, ¬ s.Unnamed (a.due n) → a.level r = .raised) : (s.setRoom n r).Linked :=
  { h with
    rooms := by simpa using h.rooms
    stands := fun e he => by
      have hs := h.stands e he
      have alert : ∀ (a : RoomAlert) (k : Nat), e.what = a.due k → (s.setRoom n r).Stands (a.due k) := by
        intro a k hw
        rw [hw, stands_due] at hs
        refine (stands_due _ a k).2 ⟨hs.1, hs.2.1, ?_⟩
        by_cases hk : k = n
        · subst hk
          rw [room_setRoom_self hs.1 (by rw [h.rooms]; exact hs.2.1)]
          exact hr a fun hu => hu e he hw
        · rw [room_setRoom_ne hk]
          exact hs.2.2
      cases hw : e.what with
      | loneLimit k => exact alert .lone k hw
      | unescortedLimit k => exact alert .unescorted k hw
      | pairing k => rw [hw] at hs; exact hs
      | stayDeadline c => rw [hw] at hs; exact hs
      | escalation c => rw [hw] at hs; exact hs }

/-- A room written with its alert levels as they were. -/
theorem State.Linked.setRoom_config (h : s.Linked) (n : Nat) {r : Room}
    (hr : ∀ a : RoomAlert, a.level r = a.level (s.room n)) : (s.setRoom n r).Linked := by
  refine h.setRoom n fun a ha => ?_
  by_contra hne
  refine ha (h.unnamed_of_not_stands fun hs => hne ?_)
  rw [hr]
  exact ((stands_due s a n).1 hs).2.2

/-- R35: an alert moved to level 1, or to another where no entry names it. -/
theorem State.Linked.setLevel (h : s.Linked) (a : RoomAlert) (n : Nat) (l : Level)
    (hl : l = .raised ∨ s.Unnamed (a.due n)) : (s.setRoom n (a.setLevel (s.room n) l)).Linked := by
  refine h.setRoom n fun b hb => ?_
  by_cases hba : b = a
  · subst hba
    rw [level_setLevel]
    exact hl.resolve_right hb
  · rw [level_setLevel_ne hba]
    by_contra hne
    exact hb (h.unnamed_of_not_stands fun hs => hne ((stands_due s b n).1 hs).2.2)

theorem State.Linked.moveRoomAlert (h : s.Linked) (a : RoomAlert) (n : Nat) (l : Level)
    (hl : l = .raised ∨ s.Unnamed (a.due n)) : (s.moveRoomAlert a n l).Linked :=
  (h.setLevel a n l hl).of_same (by simp [State.SamePersons, State.moveRoomAlert])

theorem moveRoomAlert_rooms (s : State) (a : RoomAlert) (n : Nat) (l : Level) :
    (s.moveRoomAlert a n l).rooms = setNth s.rooms n (a.setLevel (s.room n) l) := by
  simp [State.moveRoomAlert]

theorem moveRoomAlert_room (s : State) (a : RoomAlert) (n : Nat) (l : Level) (h1 : 1 ≤ n) (h : n ≤ s.rooms.length) :
    (s.moveRoomAlert a n l).room n = a.setLevel (s.room n) l := by
  rw [State.room, moveRoomAlert_rooms, nth_setNth_self _ _ _ _ h1 h]

/-- R36: an alert whose condition stands has an occupant to stand over. -/
theorem State.Linked.occupied (h : s.Linked) {a : RoomAlert} {n : Nat}
    (hst : a.stands (s.room n) ((s.occupants n).map Occupant.person) = true) :
    s.clock.unset = false ∧ 1 ≤ n ∧ n ≤ 12 := by
  obtain ⟨p, hp⟩ := List.exists_mem_of_ne_nil _ (stands_ne_nil hst)
  obtain ⟨o, ho, -⟩ := List.mem_map.1 hp
  obtain ⟨ho, hn⟩ := List.mem_filter.1 ho
  have hroom : o.room = n := by simpa using hn
  exact ⟨h.set_of_pool ho, hroom ▸ h.poolRooms o ho⟩

/-- R35, R92: an alert cleared has its entry removed with it. -/
theorem State.Linked.clearAlert (h : s.Linked) (a : RoomAlert) (n : Nat) :
    ((s.moveRoomAlert a n .clear).unschedule (a.due n)).Linked :=
  ((h.unschedule (a.due n)).moveRoomAlert a n .clear (.inr (unnamed_unschedule _ _))).of_same
    (by simp [State.SamePersons, moveRoomAlert_rooms, State.room])

theorem State.Linked.reevaluate (h : s.Linked) (a : RoomAlert) (n : Nat) : (s.reevaluate a n).Linked := by
  unfold State.reevaluate
  split
  · rename_i hl hst
    obtain ⟨hset, h1, h12⟩ := h.occupied hst
    have hnew : s.Unnamed (a.due n) :=
      h.unnamed_of_not_stands fun hs => by rw [stands_due, hl] at hs; exact absurd hs.2.2 (by simp)
    refine (h.moveRoomAlert a n .raised (.inl rfl)).schedule _ (by simpa [State.Unnamed] using hnew) ?_ (by simpa using hset)
    rw [stands_due, moveRoomAlert_room _ _ _ _ h1 (by rw [h.rooms]; exact h12), level_setLevel]
    exact ⟨h1, h12, rfl⟩
  · exact h
  · exact h
  · exact h
  · exact h.clearAlert a n
  · exact h.clearAlert a n

theorem State.Linked.reevaluateRoom (h : s.Linked) (n : Nat) : (s.reevaluateRoom n).Linked :=
  (h.reevaluate _ _).reevaluate _ _

/-! ### Records changed and removed -/

/-- A record changed in its presence, its alerts or its counts: what its entries say of it must go on to hold. -/
theorem State.Linked.updateRecord (h : s.Linked) (c : Nat) {f : Occupant → Occupant}
    (hf : ∀ o, (f o).credential = o.credential ∧ (f o).permit = o.permit ∧ (f o).room = o.room)
    (hadm : ∀ o ∈ s.pool, o.credential = c → (f o).presence = .admitting → (f o).overstay = .clear)
    (hstay : ∀ o ∈ s.pool, o.credential = c → ¬ s.Unnamed (.stayDeadline c) →
      (f o).presence ≠ .admitting ∧ (f o).overstay = .clear)
    (hesc : ∀ o ∈ s.pool, o.credential = c → ¬ s.Unnamed (.escalation c) →
      (f o).presence ≠ .admitting ∧ (f o).overstay = .raised) : (s.updateRecord c f).Linked := by
  have keep : ∀ o : Occupant, (if o.credential = c then f o else o).credential = o.credential
      ∧ (if o.credential = c then f o else o).permit = o.permit ∧ (if o.credential = c then f o else o).room = o.room :=
    fun o => by
      split
      · exact hf o
      · exact ⟨rfl, rfl, rfl⟩
  exact { h with
    distinct := by
      have : (s.updateRecord c f).credentials = s.credentials := by
        simp only [State.credentials, State.members, State.updateRecord_pool, State.updateRecord_groups, List.map_map]
        congr 1
        exact List.map_congr_left fun o _ => (keep o).1
      rw [this]
      exact h.distinct
    poolRooms := fun o ho => by
      obtain ⟨x, hx, rfl⟩ := List.mem_map.1 ho
      rw [(keep x).2.2]
      exact h.poolRooms x hx
    total := by simpa [State.members] using h.total
    poolPermits := fun o ho => by
      obtain ⟨x, hx, rfl⟩ := List.mem_map.1 ho
      rw [(keep x).1, (keep x).2.1]
      exact h.poolPermits x hx
    admitting := fun o ho => by
      obtain ⟨x, hx, rfl⟩ := List.mem_map.1 ho
      split
      · rename_i hc
        exact hadm x hx hc
      · exact h.admitting x hx
    stands := fun e he => by
      have hs := h.stands e he
      have moved : ∀ x ∈ s.pool, (if x.credential = c then f x else x) ∈ (s.updateRecord c f).pool :=
        fun x hx => List.mem_map.2 ⟨x, hx, rfl⟩
      cases hw : e.what with
      | pairing k => rw [hw] at hs; exact hs
      | loneLimit k => rw [hw] at hs; exact hs
      | unescortedLimit k => rw [hw] at hs; exact hs
      | stayDeadline k =>
        rw [hw] at hs
        obtain ⟨x, hx, rfl, hp, hl⟩ := hs
        refine ⟨_, moved x hx, (keep x).1, ?_⟩
        split
        · rename_i hc
          exact hstay x hx hc fun hu => hu e he (by rw [hw, hc])
        · exact ⟨hp, hl⟩
      | escalation k =>
        rw [hw] at hs
        obtain ⟨x, hx, rfl, hp, hl⟩ := hs
        refine ⟨_, moved x hx, (keep x).1, ?_⟩
        split
        · rename_i hc
          exact hesc x hx hc fun hu => hu e he (by rw [hw, hc])
        · exact ⟨hp, hl⟩
    unset := fun hu => by
      obtain ⟨hp, hg, hd⟩ := h.unset hu
      exact ⟨by simp [hp], hg, hd⟩ }

/-- A change of a record that leaves its presence and its overstay level. -/
theorem State.Linked.updateRecord_marks (h : s.Linked) (c : Nat) {f : Occupant → Occupant}
    (hf : ∀ o, (f o).credential = o.credential ∧ (f o).permit = o.permit ∧ (f o).room = o.room
      ∧ (f o).presence = o.presence ∧ (f o).overstay = o.overstay) : (s.updateRecord c f).Linked := by
  refine h.updateRecord c (fun o => ⟨(hf o).1, (hf o).2.1, (hf o).2.2.1⟩) ?_ ?_ ?_
  all_goals
    intro o ho hc
    rw [(hf o).2.2.2.1, (hf o).2.2.2.2]
  · exact h.admitting o ho
  · intro hn
    by_contra hne
    exact hn (h.unnamed_of_not_stands fun hs => hne (h.record_of_stay ho (hc ▸ hs)))
  · intro hn
    by_contra hne
    exact hn (h.unnamed_of_not_stands fun hs => hne (h.record_of_escalation ho (hc ▸ hs)))

theorem leave_pool (s : State) (o : Occupant) :
    (s.leave o).pool = s.pool.filter (fun x => x.credential ≠ o.credential) := by
  simp [State.leave]

theorem leave_deadlines (s : State) (o : Occupant) : (s.leave o).deadlines = (s.unscheduleRecord o.credential).deadlines := by
  simp [State.leave]

/-- R33: a record removed has its entry removed with it. -/
theorem State.Linked.leave (h : s.Linked) (o : Occupant) : (s.leave o).Linked := by
  have h1 := h.unscheduleRecord o.credential
  obtain ⟨hstay, hesc⟩ := unnamed_unscheduleRecord s o.credential
  have hsub : (s.leave o).pool.Sublist s.pool := leave_pool s o ▸ List.filter_sublist
  have hgroups : (s.leave o).groups = s.groups := by simp
  have hrooms : (s.leave o).rooms = s.rooms := by simp
  have hpermits : (s.leave o).permits = s.permits := by simp
  have hdead := leave_deadlines s o
  have stays : ∀ x ∈ s.pool, x.credential ≠ o.credential → x ∈ (s.leave o).pool := fun x hx hc => by
    rw [leave_pool]; exact List.mem_filter.2 ⟨hx, by simpa using hc⟩
  constructor
  case rooms => rw [hrooms]; exact h.rooms
  case distinct =>
    unfold State.credentials State.members
    rw [hgroups]
    exact h.distinct.sublist ((hsub.map _).append_right _)
  case stations => rw [hgroups]; exact h.stations
  case groupRooms => rw [hgroups]; exact h.groupRooms
  case poolRooms => exact fun x hx => h.poolRooms x (hsub.subset hx)
  case total =>
    unfold State.members
    rw [hgroups]
    exact (Nat.add_le_add_right hsub.length_le _).trans h.total
  case poolPermits => intro x hx; simpa [State.HoldsPermit] using h.poolPermits x (hsub.subset hx)
  case memberPermits =>
    unfold State.members State.HoldsPermit
    rw [hgroups, hpermits]
    exact h.memberPermits
  case admitting => exact fun x hx => h.admitting x (hsub.subset hx)
  case named => rw [hdead]; exact h1.named
  case stands =>
    intro e he
    rw [hdead] at he
    have hs := h1.stands e he
    cases hw : e.what with
    | pairing k => rw [hw] at hs; simpa [State.Stands] using hs
    | loneLimit k => rw [hw] at hs; simpa [State.Stands, State.room] using hs
    | unescortedLimit k => rw [hw] at hs; simpa [State.Stands, State.room] using hs
    | stayDeadline k =>
      rw [hw] at hs
      obtain ⟨x, hx, rfl, hrest⟩ := hs
      exact ⟨x, stays x (by simpa using hx) fun hc => hstay e he (by rw [hw, hc]), rfl, hrest⟩
    | escalation k =>
      rw [hw] at hs
      obtain ⟨x, hx, rfl, hrest⟩ := hs
      exact ⟨x, stays x (by simpa using hx) fun hc => hesc e he (by rw [hw, hc]), rfl, hrest⟩
  case groupCount => rw [hgroups]; exact h.groupCount
  case unset =>
    intro hu
    obtain ⟨hp, hg, hd⟩ := h.unset (by simpa using hu)
    refine ⟨List.sublist_nil.1 (hp ▸ hsub), hgroups.trans hg, ?_⟩
    rw [hdead, unscheduleRecord_deadlines, hd]
    rfl

theorem State.Linked.lapse (h : s.Linked) (r : Reason) (o : Occupant) : (State.lapse r s o).Linked := by
  refine State.Linked.leave (h.of_same ?_) o
  simp [State.SamePersons]

theorem State.Linked.foldl_lapse (h : s.Linked) (r : Reason) (l : List Occupant) : (l.foldl (State.lapse r) s).Linked :=
  foldl_property (fun _ o h => h.lapse r o) l s h

/-! ### Groups -/

/-- R70: the group at a station among groups at distinct stations. -/
theorem groups_split {l : List Group} {g : Group} (hp : l.Pairwise (fun g g' => g.station ≠ g'.station)) (hg : g ∈ l) :
    ∃ a b, l = a ++ g :: b ∧ (∀ x ∈ a, x.station ≠ g.station) ∧ ∀ x ∈ b, x.station ≠ g.station := by
  obtain ⟨a, b, rfl⟩ := List.append_of_mem hg
  obtain ⟨-, hb, hab⟩ := List.pairwise_append.1 hp
  exact ⟨a, b, rfl, fun x hx => hab x hx g List.mem_cons_self, fun x hx => ((List.pairwise_cons.1 hb).1 x hx).symm⟩

theorem dropGroup_split {a b : List Group} {g : Group} (ha : ∀ x ∈ a, x.station ≠ g.station)
    (hb : ∀ x ∈ b, x.station ≠ g.station) : (a ++ g :: b).filter (fun x => x.station ≠ g.station) = a ++ b := by
  simp only [List.filter_append, ne_eq, decide_not, List.filter_cons, decide_true, Bool.not_true]
  congr 1
  · exact List.filter_eq_self.2 fun x hx => by simpa using ha x hx
  · exact List.filter_eq_self.2 fun x hx => by simpa using hb x hx

theorem setMembers_split {a b : List Group} {g : Group} (ha : ∀ x ∈ a, x.station ≠ g.station)
    (hb : ∀ x ∈ b, x.station ≠ g.station) (l : List Member) :
    (a ++ g :: b).map (fun x => if x.station = g.station then { x with members := l } else x)
      = a ++ { g with members := l } :: b := by
  rw [List.map_append, List.map_cons, if_pos rfl]
  congr 1
  · exact (List.map_congr_left fun x hx => if_neg (ha x hx)).trans (List.map_id _)
  · congr 1
    exact (List.map_congr_left fun x hx => if_neg (hb x hx)).trans (List.map_id _)

/-- The members of all groups are those of one group and those of the others. -/
theorem State.Linked.members_perm (h : s.Linked) {g : Group} (hg : g ∈ s.groups) :
    s.members.Perm (g.members ++ (s.dropGroup g.station).members) := by
  obtain ⟨a, b, hl, ha, hb⟩ := groups_split h.stations hg
  unfold State.members
  rw [State.dropGroup_groups, hl, dropGroup_split ha hb]
  simp only [List.flatMap_append, List.flatMap_cons]
  exact (List.perm_append_comm_assoc _ _ _)

theorem State.Linked.setMembers_perm (h : s.Linked) {g : Group} (hg : g ∈ s.groups) (l : List Member) :
    (s.setMembers g.station l).members.Perm (l ++ (s.dropGroup g.station).members) := by
  obtain ⟨a, b, hl, ha, hb⟩ := groups_split h.stations hg
  unfold State.members
  rw [State.dropGroup_groups, State.setMembers_groups, hl, dropGroup_split ha hb, setMembers_split ha hb]
  simp only [List.flatMap_append, List.flatMap_cons]
  exact (List.perm_append_comm_assoc _ _ _)

theorem mem_setMembers {g : Group} (hg : g ∈ s.groups) (l : List Member) :
    { g with members := l } ∈ (s.setMembers g.station l).groups :=
  List.mem_map.2 ⟨g, hg, if_pos rfl⟩

/-- R70: the group at a station with other members, each of a permit of his own credential and in no other place. -/
theorem State.Linked.setMembers (h : s.Linked) {g : Group} (hg : g ∈ s.groups) (l : List Member)
    (hd : (s.pool.map Occupant.credential
      ++ (l ++ (s.dropGroup g.station).members).map Member.credential).Nodup)
    (ht : s.pool.length + (l ++ (s.dropGroup g.station).members).length ≤ 48)
    (hp : ∀ m ∈ l, s.HoldsPermit m.permit m.credential) : (s.setMembers g.station l).Linked := by
  have perm := h.setMembers_perm hg l
  have station : ∀ x : Group, (if x.station = g.station then { x with members := l } else x).station = x.station
      ∧ (if x.station = g.station then { x with members := l } else x).room = x.room := fun x => by
    split <;> exact ⟨rfl, rfl⟩
  exact { h with
    distinct := ((perm.map _).append_left _).nodup_iff.2 hd
    stations := List.pairwise_map.2 (h.stations.imp fun hne => by rwa [(station _).1, (station _).1])
    groupRooms := fun x hx => by
      obtain ⟨y, hy, rfl⟩ := List.mem_map.1 hx
      rw [(station y).2]
      exact h.groupRooms y hy
    total := by rw [perm.length_eq]; exact ht
    memberPermits := fun m hm => by
      rcases List.mem_append.1 (perm.mem_iff.1 hm) with hm | hm
      · exact hp m hm
      · exact h.memberPermits m ((h.members_perm hg).mem_iff.2 (List.mem_append_right _ hm))
    stands := fun e he => by
      have hs := h.stands e he
      cases hw : e.what with
      | pairing k =>
        rw [hw] at hs
        obtain ⟨x, hx, hk⟩ := hs
        exact ⟨_, List.mem_map.2 ⟨x, hx, rfl⟩, (station x).1.trans hk⟩
      | loneLimit k => rw [hw] at hs; exact hs
      | unescortedLimit k => rw [hw] at hs; exact hs
      | stayDeadline c => rw [hw] at hs; exact hs
      | escalation c => rw [hw] at hs; exact hs
    groupCount := by simpa using h.groupCount
    unset := fun hu => by
      obtain ⟨hp, hg, hd⟩ := h.unset hu
      exact ⟨hp, by simp [hg], hd⟩ }

/-- R79: a group with some of its members gone. -/
theorem State.Linked.removeFrom (h : s.Linked) {g : Group} (hg : g ∈ s.groups) {l : List Member}
    (hl : l.Sublist g.members) : (s.setMembers g.station l).Linked := by
  have perm := h.members_perm hg
  have hsub := hl.append_right (s.dropGroup g.station).members
  refine h.setMembers hg l ?_ ?_ fun m hm => ?_
  · have := ((perm.map Member.credential).append_left (s.pool.map Occupant.credential)).nodup_iff.1 h.distinct
    exact this.sublist ((hsub.map _).append_left _)
  · have := h.total
    rw [perm.length_eq] at this
    exact (Nat.add_le_add_left hsub.length_le _).trans this
  · exact h.memberPermits m (perm.mem_iff.2 (List.mem_append_left _ (hl.subset hm)))

/-- R70: a group ended, which no entry names. -/
theorem State.Linked.dropGroup (h : s.Linked) (n : Nat) (hn : s.Unnamed (.pairing n)) : (s.dropGroup n).Linked := by
  have hsub : (s.dropGroup n).groups.Sublist s.groups := List.filter_sublist
  have hmem : (s.dropGroup n).members.Sublist s.members := hsub.flatMap _
  exact { h with
    distinct := h.distinct.sublist ((hmem.map _).append_left _)
    stations := h.stations.sublist hsub
    groupRooms := fun g hg => h.groupRooms g (hsub.subset hg)
    total := (Nat.add_le_add_left hmem.length_le _).trans h.total
    memberPermits := fun m hm => h.memberPermits m (hmem.subset hm)
    stands := fun e he => by
      have hs := h.stands e he
      cases hw : e.what with
      | pairing k =>
        rw [hw] at hs
        obtain ⟨x, hx, hk⟩ := hs
        refine ⟨x, List.mem_filter.2 ⟨hx, ?_⟩, hk⟩
        rw [decide_eq_true_eq, hk]
        rintro rfl
        exact hn e he hw
      | loneLimit k => rw [hw] at hs; exact hs
      | unescortedLimit k => rw [hw] at hs; exact hs
      | stayDeadline c => rw [hw] at hs; exact hs
      | escalation c => rw [hw] at hs; exact hs
    groupCount := hsub.length_le.trans h.groupCount
    unset := fun hu => by
      obtain ⟨hp, hg, hd⟩ := h.unset hu
      exact ⟨hp, List.sublist_nil.1 (hg ▸ hsub), hd⟩ }

/-- R76 steps 1 to 3: a group's members become ADMITTING records of the pool, and the group and its entry end. -/
theorem State.Linked.admitGroup (h : s.Linked) {g : Group} (hg : g ∈ s.groups) :
    State.Linked { (s.unschedule (.pairing g.station)).dropGroup g.station with
      pool := s.pool ++ g.members.map (Member.toRecord g) } := by
  have perm := h.members_perm hg
  have h1 := (h.unschedule (.pairing g.station)).dropGroup g.station (unnamed_unschedule _ _)
  have hrec : ∀ o ∈ g.members.map (Member.toRecord g), ∃ m ∈ s.members, o = Member.toRecord g m := fun o ho => by
    obtain ⟨m, hm, rfl⟩ := List.mem_map.1 ho
    exact ⟨m, perm.mem_iff.2 (List.mem_append_left _ hm), rfl⟩
  exact { h1 with
    distinct := by
      have hnd := ((perm.map Member.credential).append_left (s.pool.map Occupant.credential)).nodup_iff.1 h.distinct
      rw [List.map_append, ← List.append_assoc] at hnd
      simp only [State.credentials, List.map_append, List.map_map]
      exact hnd
    poolRooms := fun o ho => by
      rcases List.mem_append.1 ho with ho | ho
      · exact h.poolRooms o ho
      · obtain ⟨m, -, rfl⟩ := hrec o ho
        exact h.groupRooms g hg
    total := by
      have := h.total
      rw [perm.length_eq, List.length_append] at this
      rw [← Nat.add_assoc] at this
      simpa [State.members] using this
    poolPermits := fun o ho => by
      rcases List.mem_append.1 ho with ho | ho
      · exact h.poolPermits o ho
      · obtain ⟨m, hm, rfl⟩ := hrec o ho
        exact h.memberPermits m hm
    admitting := fun o ho ha => by
      rcases List.mem_append.1 ho with ho | ho
      · exact h.admitting o ho ha
      · obtain ⟨m, -, rfl⟩ := hrec o ho
        rfl
    stands := fun e he => by
      have hs := h1.stands e he
      cases hw : e.what with
      | pairing k => rw [hw] at hs; exact hs
      | loneLimit k => rw [hw] at hs; exact hs
      | unescortedLimit k => rw [hw] at hs; exact hs
      | stayDeadline c =>
        rw [hw] at hs
        obtain ⟨x, hx, hrest⟩ := hs
        exact ⟨x, List.mem_append_left _ hx, hrest⟩
      | escalation c =>
        rw [hw] at hs
        obtain ⟨x, hx, hrest⟩ := hs
        exact ⟨x, List.mem_append_left _ hx, hrest⟩
    unset := fun hu => absurd hu (by simp [h.set_of_group hg]) }

theorem State.Linked.completeGroup (h : s.Linked) {g : Group} (hg : g ∈ s.groups) (t : Option (Nat × Nat)) :
    (s.completeGroup g t).Linked := by
  refine State.Linked.reevaluateRoom (State.Linked.of_same (h.admitGroup hg) ?_) g.room
  simp [State.SamePersons]

theorem State.Linked.retestFor (n k : Nat) : ∀ {s : State}, s.Linked → (State.retestFor k n s).Linked := by
  induction k with
  | zero => intro s h; exact h
  | succ k ih =>
    intro s h
    unfold State.retestFor
    split
    · exact h
    · rename_i g hg
      exact ih (h.completeGroup (List.mem_of_mem_filter (List.mem_of_find?_eq_some hg)) _)

theorem State.Linked.retest (h : s.Linked) (n : Nat) : (s.retest n).Linked := State.Linked.retestFor n _ h

theorem State.Linked.afterRemoval (h : s.Linked) (n : Nat) : (s.afterRemoval n).Linked :=
  (h.reevaluateRoom n).retest n

theorem groupAt_eq_some {n : Nat} {g : Group} (h : s.groupAt n = some g) : g ∈ s.groups ∧ g.station = n :=
  ⟨List.mem_of_find?_eq_some h, by simpa using List.find?_some h⟩

theorem State.Linked.retestGroup (h : s.Linked) (n : Nat) : (s.retestGroup n).Linked := by
  unfold State.retestGroup
  split
  · exact h
  · rename_i g hg
    split
    · exact (h.completeGroup (groupAt_eq_some hg).1 _).retest _
    · exact h

theorem State.Linked.removeMember (h : s.Linked) {g : Group} (hg : g ∈ s.groups) (m : Member) (r : Reason) :
    (s.removeMember g m r).Linked := by
  have h0 := h.removeFrom (l := g.members.filter (fun x => x.credential ≠ m.credential)) hg List.filter_sublist
  have h1 := h0.of_same
    (t := (State.denyMember g r (s.setMembers g.station (g.members.filter (fun x => x.credential ≠ m.credential)))
      m).placeVerdict g.station .deny r) (by simp [State.SamePersons])
  unfold State.removeMember
  dsimp only
  split
  · exact (h1.unschedule _).dropGroup _ (unnamed_unschedule _ _)
  · exact h1.retestGroup _

/-! ### Permits -/

/-- A table in which every permit keeps its number and its credential. -/
theorem State.Linked.permits {t : State} (h : s.Linked) (ht : s.SamePersons { t with permits := s.permits })
    (hp : ∀ o ∈ s.pool, t.HoldsPermit o.permit o.credential)
    (hm : ∀ m ∈ s.members, t.HoldsPermit m.permit m.credential) : t.Linked := by
  have h1 : State.Linked { s with permits := t.permits } := { h with poolPermits := hp, memberPermits := hm }
  obtain ⟨hclock, -, hroom, hpool, hgroup, hdead⟩ := ht
  exact h1.of_same ⟨hclock, rfl, hroom, hpool, hgroup, hdead⟩

theorem holdsPermit_updatePermit {n c k : Nat} {f : Permit → Permit}
    (hf : ∀ p, (f p).number = p.number ∧ (f p).credential = p.credential) (h : s.HoldsPermit n c) :
    (s.updatePermit k f).HoldsPermit n c := by
  obtain ⟨e, he, hn, hc⟩ := h
  refine ⟨_, List.mem_map.2 ⟨e, he, rfl⟩, ?_⟩
  split
  · exact ⟨(hf _).1.trans hn, (hf _).2.trans hc⟩
  · exact ⟨hn, hc⟩

theorem State.Linked.updatePermit (h : s.Linked) (n : Nat) {f : Permit → Permit}
    (hf : ∀ p, (f p).number = p.number ∧ (f p).credential = p.credential) : (s.updatePermit n f).Linked :=
  h.permits (by simp [State.SamePersons]) (fun o ho => holdsPermit_updatePermit hf (h.poolPermits o ho))
    fun m hm => holdsPermit_updatePermit hf (h.memberPermits m hm)

theorem State.Linked.debit (h : s.Linked) (o : Occupant) : (s.debit o).Linked := by
  unfold State.debit
  split
  · exact h.updatePermit _ fun _ => ⟨rfl, rfl⟩
  · exact h

theorem holdsPermit_addPermit {n c : Nat} (p : Permit) (h : s.HoldsPermit n c) : (s.addPermit p).HoldsPermit n c := by
  obtain ⟨e, he, hrest⟩ := h
  exact ⟨e, (mem_insertPermit _ _ _ _).2 (.inr he), hrest⟩

theorem State.Linked.addPermit (h : s.Linked) (p : Permit) : (s.addPermit p).Linked :=
  h.permits (by simp [State.SamePersons]) (fun o ho => holdsPermit_addPermit p (h.poolPermits o ho))
    fun m hm => holdsPermit_addPermit p (h.memberPermits m hm)

theorem holdsPermit_dropPermit {n c k : Nat} (hk : n ≠ k) (h : s.HoldsPermit n c) : (s.dropPermit k).HoldsPermit n c := by
  obtain ⟨e, he, hn, hc⟩ := h
  exact ⟨e, List.mem_filter.2 ⟨he, by simpa [hn] using hk⟩, hn, hc⟩

theorem inUse_eq_zero {n : Nat} :
    s.inUse n = 0 ↔ (∀ o ∈ s.pool, o.permit ≠ n) ∧ ∀ m ∈ s.members, m.permit ≠ n := by
  simp [State.inUse, List.countP_eq_zero]

/-- R13, R125: a permit that nobody holds leaves the table. -/
theorem State.Linked.dropPermit (h : s.Linked) {n : Nat} (hn : s.inUse n = 0) : (s.dropPermit n).Linked := by
  obtain ⟨hpool, hmem⟩ := inUse_eq_zero.1 hn
  exact h.permits (by simp [State.SamePersons])
    (fun o ho => holdsPermit_dropPermit (hpool o ho) (h.poolPermits o ho))
    fun m hm => holdsPermit_dropPermit (hmem m hm) (h.memberPermits m hm)

end

end Sys2Proof.Machine
end

