-- ==== Sys2Proof/Proofs/ReferencesStep.lean ====
section
/-! Every step keeps the references between records, members, groups, permits and deadline entries; so a permit is in use
at most once, and the deadline queue holds at most 80 entries (R5, R70, R86, R92, R94). -/
namespace Sys2Proof.Machine

/-- A property that each step of a fold keeps, where the step may use that its item stands in the list. -/
theorem foldl_property_of_mem {α σ : Type} {P : σ → Prop} {f : σ → α → σ} (l : List α)
    (hf : ∀ s, ∀ x ∈ l, P s → P (f s x)) : ∀ s, P s → P (l.foldl f s) := by
  induction l with
  | nil => intro s h; exact h
  | cons x l ih =>
    intro s h
    exact ih (fun s y hy => hf s y (List.mem_cons_of_mem _ hy)) _ (hf s x List.mem_cons_self h)

section
variable {s : State}

theorem State.Linked.put (h : s.Linked) (r : TrailRecord) : (s.put r).Linked := h.of_same (by simp [State.SamePersons])

theorem State.Linked.offer (h : s.Linked) (n : Notice) : (s.offer n).Linked := h.of_same (by simp [State.SamePersons])

/-! ### Door jobs -/

/-- R31: the ADMITTING records of a list commit one after the other. -/
theorem Linked_foldl_commitRecord (l : List Occupant) : ∀ s : State, s.Linked →
    (∀ o ∈ l, o ∈ s.pool ∧ o.presence = .admitting) → (l.map Occupant.credential).Nodup →
    (l.foldl State.commitRecord s).Linked := by
  induction l with
  | nil => intro s h _ _; exact h
  | cons o l ih =>
    intro s h hl hnd
    obtain ⟨ho, hadm⟩ := hl o List.mem_cons_self
    obtain ⟨hne, hnd⟩ := List.nodup_cons.1 hnd
    have unnamed : s.Unnamed (.stayDeadline o.credential) ∧ s.Unnamed (.escalation o.credential) :=
      ⟨h.unnamed_of_not_stands fun hs => (h.record_of_stay ho hs).1 hadm,
        h.unnamed_of_not_stands fun hs => (h.record_of_escalation ho hs).1 hadm⟩
    have h1 := h.updateRecord o.credential (f := fun x => { x with presence := .inside s.now (s.commitDeadline o) })
      (fun _ => ⟨rfl, rfl, rfl⟩) (fun _ _ _ hp => nomatch hp) (fun _ _ _ hn => absurd unnamed.1 hn)
      (fun _ _ _ hn => absurd unnamed.2 hn)
    have h2 := h1.schedule (s.commitDeadline o * 60) (w := .stayDeadline o.credential) unnamed.1
      ⟨_, List.mem_map.2 ⟨o, ho, if_pos rfl⟩, rfl, by simp, h.admitting o ho hadm⟩ (h.set_of_pool ho)
    refine ih _ (h2.of_same (by simp [State.SamePersons, State.commitRecord])) (fun x hx => ?_) hnd
    obtain ⟨hxp, hxa⟩ := hl x (List.mem_cons_of_mem _ hx)
    have hc : x.credential ≠ o.credential := fun hc => hne (hc ▸ List.mem_map_of_mem hx)
    refine ⟨?_, hxa⟩
    simp only [State.commitRecord, State.put_frame, State.schedule_pool, State.updateRecord_pool]
    exact List.mem_map.2 ⟨x, hxp, if_neg hc⟩

theorem State.Linked.takeDoorEvent (h : s.Linked) (n : Nat) : (s.takeDoorEvent n).Linked :=
  h.of_same (by simp [State.SamePersons, State.takeDoorEvent])

theorem State.Linked.commitStation (h : s.Linked) (n : Nat) : (s.commitStation n).Linked := by
  unfold State.commitStation
  split
  · exact h
  · refine State.Linked.afterRemoval (Linked_foldl_commitRecord _ s h (fun o ho => ?_) ?_) _
    · obtain ⟨ho, hp⟩ := List.mem_filter.1 ho
      exact ⟨ho, (of_decide_eq_true hp).2⟩
    · exact h.pool_nodup.sublist (List.filter_sublist.map _)

theorem State.Linked.foldl_denyMember (h : s.Linked) (g : Group) (r : Reason) (l : List Member) :
    (l.foldl (State.denyMember g r) s).Linked :=
  h.of_same (by simp [State.SamePersons])

theorem State.Linked.cancelGroup (h : s.Linked) (n : Nat) : (s.cancelGroup n).Linked := by
  unfold State.cancelGroup
  split
  · exact h
  · exact ((h.foldl_denyMember _ _ _).unschedule _).dropGroup _ (unnamed_unschedule _ _)

theorem State.Linked.lapseStation (h : s.Linked) (n : Nat) (silence : Bool) : (s.lapseStation n silence).Linked := by
  have h1 := h.foldl_lapse (if silence then .stationSilent else .releaseExpired) (s.admittingAt n)
  have h2 := h1.cancelGroup n
  unfold State.lapseStation
  cases silence with
  | true =>
    dsimp only
    split
    · exact h2
    · exact h2.afterRemoval _
  | false =>
    dsimp only
    split
    · exact h1
    · exact h1.afterRemoval _

/-! ### Timer jobs -/

/-- R94: the head taken, nothing is left that names the same. -/
theorem State.Linked.dropHead (h : s.Linked) {e : DeadlineEntry} (he : s.dueHead = some e) :
    s.dropHead.Linked ∧ s.dropHead.Unnamed e.what ∧ s.Stands e.what := by
  unfold State.dueHead at he
  split at he
  · rename_i x rest hd
    split at he
    · cases he
      have hnd := h.named
      rw [hd] at hnd
      refine ⟨h.fewer (List.tail_sublist _) (by simp [State.SamePersons]) rfl, fun y hy hw => ?_, h.stands e ?_⟩
      · rw [State.dropHead_deadlines, hd] at hy
        exact (List.nodup_cons.1 hnd).1 (hw ▸ List.mem_map_of_mem hy)
      · rw [hd]; exact List.mem_cons_self
    · cases he
  · cases he

theorem State.Linked.expireGroup (h : s.Linked) {n : Nat} (hn : s.Unnamed (.pairing n)) : (s.expireGroup n).Linked := by
  unfold State.expireGroup
  split
  · exact h
  · rename_i g _
    have h1 := (h.foldl_denyMember g .pairingTimeout g.members).dropGroup n (by simpa [State.Unnamed] using hn)
    exact h1.of_same (by simp [State.SamePersons])

/-- R40: OVERSTAY raised on the INSIDE record whose entry has been taken. -/
theorem State.Linked.raiseOverstay (h : s.Linked) {o : Occupant} (ho : o ∈ s.pool) (hp : o.presence ≠ .admitting)
    (hl : o.overstay = .clear) (hn : s.Unnamed (.stayDeadline o.credential)) : (s.raiseOverstay o).Linked := by
  have unnamed : s.Unnamed (.escalation o.credential) :=
    h.unnamed_of_not_stands fun hs => by have := (h.record_of_escalation ho hs).2; simp [hl] at this
  have h1 := h.updateRecord o.credential (f := fun x => { x with overstay := .raised }) (fun _ => ⟨rfl, rfl, rfl⟩)
    (fun x hx hc ha => absurd (h.record_unique hx ho hc ▸ ha) hp) (fun _ _ _ hs => absurd hn hs)
    (fun _ _ _ hs => absurd unnamed hs)
  have stood : (s.updateRecord o.credential (fun x => { x with overstay := .raised })).Stands (.escalation o.credential) :=
    ⟨_, List.mem_map.2 ⟨o, ho, if_pos rfl⟩, rfl, hp, rfl⟩
  have h2 := (h1.offer (o.notice .overstay .raised)).put (o.record .overstay .raised)
  unfold State.raiseOverstay
  dsimp only
  split
  · refine h2.schedule _ (w := .escalation o.credential) (by simpa [State.Unnamed] using unnamed) ?_
      (by simpa using h.set_of_pool ho)
    exact (stands_congr (by simp) (by simp) (by simp) _).2 stood
  · exact h2

/-- R41: OVERSTAY escalated on the record whose entry has been taken. -/
theorem State.Linked.escalateOverstay (h : s.Linked) {o : Occupant} (ho : o ∈ s.pool) (hp : o.presence ≠ .admitting)
    (hl : o.overstay = .raised) (hn : s.Unnamed (.escalation o.credential)) : (s.escalateOverstay o).Linked := by
  have unnamed : s.Unnamed (.stayDeadline o.credential) :=
    h.unnamed_of_not_stands fun hs => by have := (h.record_of_stay ho hs).2; simp [hl] at this
  have h1 := h.updateRecord o.credential (f := fun x => { x with overstay := .escalated }) (fun _ => ⟨rfl, rfl, rfl⟩)
    (fun x hx hc ha => absurd (h.record_unique hx ho hc ▸ ha) hp) (fun _ _ _ hs => absurd unnamed hs)
    (fun _ _ _ hs => absurd hn hs)
  exact (h1.offer _).put _

theorem State.Linked.escalateAlert (h : s.Linked) {a : RoomAlert} {n : Nat} (hn : s.Unnamed (a.due n)) :
    (s.escalateAlert a n).Linked := by
  unfold State.escalateAlert
  split
  · exact h.moveRoomAlert a n _ (.inr hn)
  · exact h
  · exact h

/-- R94: each action on the entry taken keeps the references. -/
theorem State.Linked.dueAction (h : s.Linked) {act : Due → State → State}
    (ha : act ∈ [pairingAction, stayDeadlineAction, escalationAction, limitAction]) {w : Due} (hn : s.Unnamed w)
    (hs : s.Stands w) : (act w s).Linked := by
  simp only [List.mem_cons, List.not_mem_nil, or_false] at ha
  rcases ha with rfl | rfl | rfl | rfl
  · cases w with
    | pairing n => exact h.expireGroup hn
    | _ => exact h
  · cases w with
    | stayDeadline c =>
      unfold stayDeadlineAction
      dsimp only
      split
      · rename_i o ho
        obtain ⟨hm, rfl⟩ := recordOf_eq_some ho
        obtain ⟨hp, hl⟩ := h.record_of_stay hm hs
        exact h.raiseOverstay hm hp hl hn
      · exact h
    | _ => exact h
  · cases w with
    | escalation c =>
      unfold escalationAction
      dsimp only
      split
      · rename_i o ho
        obtain ⟨hm, rfl⟩ := recordOf_eq_some ho
        obtain ⟨hp, hl⟩ := h.record_of_escalation hm hs
        exact h.escalateOverstay hm hp hl hn
      · exact h
    | _ => exact h
  · cases w with
    | loneLimit n => exact h.escalateAlert (a := .lone) hn
    | unescortedLimit n => exact h.escalateAlert (a := .unescorted) hn
    | _ => exact h

/-! ### The entry decision -/

/-- What the checks R50 to R60 have established of a presenter with his chosen permit. -/
structure State.MayEnter (s : State) (p : Presentation) (q : Permit) : Prop where
  set : s.clock.unset = false
  absent : p.credential ∉ s.credentials
  holds : s.HoldsPermit q.number p.credential
  room : 1 ≤ (s.station p.station).room ∧ (s.station p.station).room ≤ 12
  place : s.pool.length + s.members.length + 1 ≤ 48

section
variable {p : Presentation} {q : Permit}

theorem State.Linked.refuse (h : s.Linked) (r : Reason) (n v : Nat) : (s.refuse p r n v).Linked :=
  h.of_same (by simp [State.SamePersons])

theorem State.Linked.conclude (h : s.Linked) (o : VerdictOutcome) (r : Reason) (n : Nat) (t : TrailRecord) :
    (s.conclude p o r n t).Linked :=
  h.of_same (by simp [State.SamePersons])

theorem State.Linked.grant (h : s.Linked) (hq : s.MayEnter p q) : (s.grant p q).Linked := by
  have h1 : State.Linked { s with
      pool := s.pool ++ [newRecord s p.station (s.station p.station).room p.credential q] } :=
    { h with
      distinct := by
        simp only [State.credentials, List.map_append, List.append_assoc]
        exact (List.perm_middle (a := p.credential)).nodup_iff.2 (List.nodup_cons.2 ⟨hq.absent, h.distinct⟩)
      poolRooms := fun o ho => by
        rcases List.mem_append.1 ho with ho | ho
        · exact h.poolRooms o ho
        · cases List.mem_singleton.1 ho; exact hq.room
      total := by
        have := hq.place
        rw [List.length_append, List.length_singleton, Nat.add_right_comm]
        exact this
      poolPermits := fun o ho => by
        rcases List.mem_append.1 ho with ho | ho
        · exact h.poolPermits o ho
        · cases List.mem_singleton.1 ho; exact hq.holds
      admitting := fun o ho ha => by
        rcases List.mem_append.1 ho with ho | ho
        · exact h.admitting o ho ha
        · cases List.mem_singleton.1 ho; rfl
      stands := fun e he => by
        have hs := h.stands e he
        cases hw : e.what with
        | pairing k => rw [hw] at hs; exact hs
        | loneLimit k => rw [hw] at hs; exact hs
        | unescortedLimit k => rw [hw] at hs; exact hs
        | stayDeadline c =>
          rw [hw] at hs
          obtain ⟨x, hx, hrest⟩ := hs
          exact ⟨x, List.mem_append_left _ hx, hrest⟩
        | escalation c =>
          rw [hw] at hs
          obtain ⟨x, hx, hrest⟩ := hs
          exact ⟨x, List.mem_append_left _ hx, hrest⟩
      unset := fun hu => absurd hu (by simp [hq.set]) }
  exact (h1.conclude _ _ _ _).afterRemoval _

theorem insertGroup_perm (g : Group) (l : List Group) : (insertGroup g l).Perm (g :: l) := by
  induction l with
  | nil => exact .refl _
  | cons x l ih =>
    simp only [insertGroup]
    split
    · exact .refl _
    · exact (ih.cons x).trans (.swap ..)

/-- R72: a group of one at a station where none waits. -/
theorem State.Linked.addGroup (h : s.Linked) (hq : s.MayEnter p q) {g : Group} (hg : ∀ x ∈ s.groups, x.station ≠ g.station)
    (hroom : g.room = (s.station p.station).room) (hm : g.members = [s.newMember p q]) (hc : s.groups.length < 8) :
    State.Linked { s with groups := insertGroup g s.groups } := by
  have perm := insertGroup_perm g s.groups
  have mem : ∀ x ∈ insertGroup g s.groups, x = g ∨ x ∈ s.groups := fun x hx => List.mem_cons.1 (perm.mem_iff.1 hx)
  have members : ((insertGroup g s.groups).flatMap Group.members).Perm (s.newMember p q :: s.members) := by
    have := perm.flatMap_right Group.members
    rwa [List.flatMap_cons, hm] at this
  exact { h with
    distinct := by
      refine ((members.map Member.credential).append_left _).nodup_iff.2 ?_
      rw [List.map_cons]
      exact (List.perm_middle (a := p.credential)).nodup_iff.2 (List.nodup_cons.2 ⟨hq.absent, h.distinct⟩)
    stations := (perm.pairwise_iff fun hne => hne.symm).2
      (List.pairwise_cons.2 ⟨fun x hx => (hg x hx).symm, h.stations⟩)
    groupRooms := fun x hx => by
      rcases mem x hx with rfl | hx
      · rw [hroom]; exact hq.room
      · exact h.groupRooms x hx
    total := by
      unfold State.members
      rw [members.length_eq, List.length_cons, ← Nat.add_assoc]
      exact hq.place
    memberPermits := fun m hm => by
      rcases List.mem_cons.1 (members.mem_iff.1 hm) with rfl | hm
      · exact hq.holds
      · exact h.memberPermits m hm
    stands := fun e he => by
      have hs := h.stands e he
      cases hw : e.what with
      | pairing k =>
        rw [hw] at hs
        obtain ⟨x, hx, hk⟩ := hs
        exact ⟨x, perm.mem_iff.2 (List.mem_cons_of_mem _ hx), hk⟩
      | loneLimit k => rw [hw] at hs; exact hs
      | unescortedLimit k => rw [hw] at hs; exact hs
      | stayDeadline c => rw [hw] at hs; exact hs
      | escalation c => rw [hw] at hs; exact hs
    groupCount := by rw [perm.length_eq]; exact hc
    unset := fun hu => absurd hu (by simp [hq.set]) }

theorem State.Linked.found (h : s.Linked) (hq : s.MayEnter p q) (hg : s.groupAt p.station = none)
    (hc : s.groups.length < 8) : (s.found p q).Linked := by
  have none : ∀ x ∈ s.groups, x.station ≠ p.station := by simpa [State.groupAt] using hg
  have unnamed : s.Unnamed (.pairing p.station) :=
    h.unnamed_of_not_stands fun ⟨x, hx, hxs⟩ => none x hx hxs
  unfold State.found
  dsimp only
  generalize s.now + (s.room (s.station p.station).room).pairingWindow = expiry
  have h1 := h.addGroup hq (g := ⟨p.station, (s.station p.station).room, [s.newMember p q], expiry⟩) none rfl rfl hc
  exact (h1.schedule _ unnamed ⟨_, (insertGroup_perm _ _).mem_iff.2 List.mem_cons_self, rfl⟩ hq.set).conclude _ _ _ _

/-- R73: a presenter joins a group. -/
theorem State.Linked.join (h : s.Linked) (hq : s.MayEnter p q) {g : Group} (hg : g ∈ s.groups) :
    (s.join p g q).Linked := by
  have perm := h.members_perm hg
  have h1 : (s.setMembers g.station (g.members ++ [s.newMember p q])).Linked := by
    have moved : (g.members ++ [s.newMember p q] ++ (s.dropGroup g.station).members).Perm
        (s.newMember p q :: s.members) := by
      rw [List.append_assoc]
      exact List.perm_middle.trans (perm.symm.cons _)
    refine h.setMembers hg _ ?_ ?_ fun m hm => ?_
    · refine ((moved.map Member.credential).append_left _).nodup_iff.2 ?_
      rw [List.map_cons]
      exact (List.perm_middle (a := p.credential)).nodup_iff.2 (List.nodup_cons.2 ⟨hq.absent, h.distinct⟩)
    · rw [moved.length_eq, List.length_cons, ← Nat.add_assoc]
      exact hq.place
    · rcases List.mem_append.1 hm with hm | hm
      · exact h.memberPermits m (perm.mem_iff.2 (List.mem_append_left _ hm))
      · cases List.mem_singleton.1 hm; exact hq.holds
  unfold State.join
  dsimp only
  split
  · have h2 := h1.completeGroup (mem_setMembers hg (g.members ++ [s.newMember p q])) (some (p.credential, p.taken))
    exact (h2.of_same (by simp [State.SamePersons])).retest _
  · exact h1.conclude _ _ _ _

theorem State.Linked.admitOrPair (h : s.Linked) (hq : s.MayEnter p q) : (s.admitOrPair p q).Linked := by
  unfold State.admitOrPair
  dsimp only
  split
  · rename_i g hg
    split
    · exact h.refuse _ _ _
    · exact h.join hq (groupAt_eq_some hg).1
  · rename_i hg
    (repeat' split)
    · exact h.grant hq
    · exact h.refuse _ _ _
    · rename_i hc
      exact h.found hq hg (Nat.lt_of_not_le hc)

theorem State.Linked.tryPermits (h : s.Linked) (hps : s.PermitsSound) (hset : s.clock.unset = false)
    (hnew : p.credential ∉ s.credentials) : (s.tryPermits p).Linked := by
  unfold State.tryPermits
  dsimp only
  split
  · rename_i q hq
    have hfail : s.failure (s.station p.station).room q = none := by simpa using List.find?_some hq
    obtain ⟨e, he, rfl, hc⟩ := (mem_permitsOf s _ _).1 (List.mem_of_find?_eq_some hq)
    have hroom : (s.station p.station).room ∈ e.2.rooms := by
      by_contra hn
      simp [State.failure, hn] at hfail
    unfold State.roomChecks
    dsimp only
    (repeat' split)
    · exact h.refuse _ _ _
    · exact h.refuse _ _ _
    · exact h.refuse _ _ _
    · exact h.refuse _ _ _
    · rename_i hplace
      exact h.admitOrPair ⟨hset, hnew, ⟨e, he, rfl, hc⟩, (hps.2.1 e he).2.2.2.2.2.2.1 _ hroom, Nat.le_of_not_lt hplace⟩
  · split
    · exact h.refuse _ _ _
    · exact h.refuse _ _ _

theorem not_mem_credentials {c : Nat} (hr : s.recordOf c = none) (hm : s.membershipOf c = none) : c ∉ s.credentials := by
  have hr : ∀ o ∈ s.pool, o.credential ≠ c := by simpa [State.recordOf] using hr
  have hm : ∀ g ∈ s.groups, ∀ m ∈ g.members, m.credential ≠ c := by simpa [State.membershipOf] using hm
  intro hc
  rcases List.mem_append.1 hc with hc | hc
  · obtain ⟨o, ho, hoc⟩ := List.mem_map.1 hc
    exact hr o ho hoc
  · obtain ⟨m, hmm, hmc⟩ := List.mem_map.1 hc
    obtain ⟨g, hg, hmg⟩ := List.mem_flatMap.1 hmm
    exact hm g hg m hmg hmc

theorem State.Linked.decideEntry (h : s.Linked) (hps : s.PermitsSound) : (s.decideEntry p).Linked := by
  unfold State.decideEntry
  split
  · exact h.refuse _ _ _
  · rename_i hset
    split
    · exact h.refuse _ _ _
    · split
      · exact h.refuse _ _ _
      · split
        · split
          · exact h.conclude _ _ _ _
          · exact h.refuse _ _ _
        · rename_i hr
          split
          · split
            · exact h.conclude _ _ _ _
            · exact h.refuse _ _ _
          · rename_i hm
            exact h.tryPermits hps (by simpa using hset) (not_mem_credentials hr hm)

theorem State.Linked.exitRecord (h : s.Linked) (o : Occupant) : (s.exitRecord p o).Linked := by
  have h1 : ((s.placeVerdict p.station .release .exit).setLast p .release .exit).Linked :=
    h.of_same (by simp [State.SamePersons])
  unfold State.exitRecord
  dsimp only
  split
  · refine State.Linked.afterRemoval (State.Linked.leave ((h1.debit o).of_same ?_) o) _
    simp [State.SamePersons, State.offerExit]
  · refine State.Linked.afterRemoval (State.Linked.leave (h1.of_same ?_) o) _
    simp [State.SamePersons, State.offerExit]

theorem State.Linked.decideExit (h : s.Linked) : (s.decideExit p).Linked := by
  unfold State.decideExit
  split
  · exact h.exitRecord _
  · exact h.conclude _ _ _ _

theorem State.Linked.takePresentation (h : s.Linked) (hps : s.PermitsSound) {act : State → Presentation → State}
    (ha : act ∈ [State.decideEntry, State.decideExit]) : (s.takePresentation act).Linked := by
  unfold State.takePresentation
  split
  · exact h
  · rename_i p rest _
    have h1 : State.Linked { s with presentations := rest } := h.of_same (by simp [State.SamePersons])
    dsimp only
    split
    · exact h1.of_same (by simp [State.SamePersons, State.decideSilent])
    · simp only [List.mem_cons, List.not_mem_nil, or_false] at ha
      rcases ha with rfl | rfl
      · exact h1.decideEntry hps
      · exact h1.decideExit

end

/-! ### Requests -/

/-- R109 to R111: a recompute leaves the record with the one entry of its level. -/
theorem State.Linked.recompute (h : s.Linked) {o : Occupant} (ho : o ∈ s.pool) (p : Permit) : (s.recompute o p).Linked := by
  unfold State.recompute
  split
  · exact h
  · rename_i entry old hp
    dsimp only
    generalize stayDeadline p s.settings.weekdayOffset (entry / 60) = deadline
    have h0 := h.unscheduleRecord o.credential
    obtain ⟨nstay, nesc⟩ := unnamed_unscheduleRecord s o.credential
    have h1 := h0.updateRecord o.credential (f := fun x => { x with presence := .inside entry deadline })
      (fun _ => ⟨rfl, rfl, rfl⟩) (fun _ _ _ hp => nomatch hp) (fun _ _ _ hn => absurd nstay hn)
      (fun _ _ _ hn => absurd nesc hn)
    have h2 := h1.put
      { kind := .recompute, station := o.station, room := o.room, credential := o.credential, permit := o.permit
        value := .number deadline }
    generalize ht : State.put _ _ = t at h2 ⊢
    have pool : t.pool = s.pool.map
        (fun x => if x.credential = o.credential then { x with presence := .inside entry deadline } else x) := by
      rw [← ht]; simp
    have dead : t.deadlines = (s.unscheduleRecord o.credential).deadlines := by rw [← ht]; simp
    have moved : { o with presence := .inside entry deadline } ∈ t.pool := by
      rw [pool]; exact List.mem_map.2 ⟨o, ho, if_pos rfl⟩
    have tstay : t.Unnamed (.stayDeadline o.credential) := by unfold State.Unnamed; rw [dead]; exact nstay
    have tesc : t.Unnamed (.escalation o.credential) := by unfold State.Unnamed; rw [dead]; exact nesc
    have set := h2.set_of_pool moved
    have cleared : (t.returnToClear o deadline).Linked := by
      have h3 := h2.updateRecord o.credential (f := fun x => { x with overstay := .clear }) (fun _ => ⟨rfl, rfl, rfl⟩)
        (fun _ _ _ _ => rfl) (fun _ _ _ hn => absurd tstay hn) (fun _ _ _ hn => absurd tesc hn)
      have h4 := h3.schedule (deadline * 60) (w := .stayDeadline o.credential) tstay
        ⟨_, List.mem_map.2 ⟨_, moved, if_pos rfl⟩, rfl, by simp, rfl⟩ set
      exact h4.of_same (by simp [State.SamePersons, State.returnToClear])
    unfold State.relevel
    split
    · rename_i hl
      exact h2.schedule _ tstay ⟨_, moved, rfl, by simp, hl⟩ set
    · rename_i hl
      split
      · exact cleared
      · exact h2.schedule _ tesc ⟨_, moved, rfl, by simp, hl⟩ set
    · split
      · exact cleared
      · exact h2

theorem State.Linked.suspendMember (h : s.Linked) (n : Nat) : (s.suspendMember n).Linked := by
  unfold State.suspendMember
  (repeat' split)
  · rename_i hg _ _ _
    exact h.removeMember (List.mem_of_find?_eq_some hg) _ _
  · exact h
  · exact h

theorem State.Linked.actOnHolder (h : s.Linked) (p : Permit) (c : PermitAmend) : (s.actOnHolder p c).Linked := by
  have h1 : (if c.status = some .suspended then s.suspendMember p.number else s).Linked := by
    split
    · exact h.suspendMember _
    · exact h
  unfold State.actOnHolder
  generalize (if c.status = some .suspended then s.suspendMember p.number else s) = s1 at h1 ⊢
  dsimp only
  split
  · rename_i o ho
    split
    · exact h1.recompute (List.mem_of_find?_eq_some ho) _
    · exact h1
  · exact h1

theorem State.Linked.markRevoked (h : s.Linked) (o : Occupant) (b : Bool) : (s.markRevoked o b).Linked :=
  (h.updateRecord_marks o.credential (f := fun x => { x with revokedInside := b }) fun _ => ⟨rfl, rfl, rfl, rfl, rfl⟩).of_same
    (by simp [State.SamePersons, State.markRevoked])

theorem membershipOf_eq_some {c : Nat} {g : Group} {m : Member} (h : s.membershipOf c = some (g, m)) :
    g ∈ s.groups ∧ m ∈ g.members ∧ m.credential = c := by
  obtain ⟨x, hx, hf⟩ := List.exists_of_findSome?_eq_some h
  obtain ⟨y, hy, hxy⟩ := Option.map_eq_some_iff.1 hf
  cases hxy
  exact ⟨hx, List.mem_of_find?_eq_some hy, by simpa using List.find?_some hy⟩

theorem State.Linked.actOnRevoked (h : s.Linked) (c : Nat) : (s.actOnRevoked c).Linked := by
  unfold State.actOnRevoked
  split
  · exact h.markRevoked _ _
  · split
    · rename_i hm
      exact h.removeMember (membershipOf_eq_some hm).1 _ _
    · exact h

theorem State.Linked.unmark (h : s.Linked) (c : Nat) : (s.unmark c).Linked := by
  unfold State.unmark
  (repeat' split)
  · exact h.markRevoked _ _
  · exact h
  · exact h

theorem State.Linked.configureRoom (h : s.Linked) (c : RoomConfig) : (s.configureRoom c).Linked := by
  have h1 := h.setRoom_config c.room (r := (s.room c.room).configured c) fun a => by cases a <;> rfl
  unfold State.configureRoom
  dsimp only
  split
  · exact h1
  · exact (h1.reevaluateRoom _).retest _

/-- R26 step 3: the counts derived afresh move no reference. -/
theorem State.Linked.rederive (h : s.Linked) (n : Nat) : (s.rederive n).Linked := by
  have occ : ∀ o : Occupant, ∀ b, (if o.room = n then { o with needsEscort := b } else o).credential = o.credential
      ∧ (if o.room = n then { o with needsEscort := b } else o).permit = o.permit
      ∧ (if o.room = n then { o with needsEscort := b } else o).room = o.room
      ∧ (if o.room = n then { o with needsEscort := b } else o).presence = o.presence
      ∧ (if o.room = n then { o with needsEscort := b } else o).overstay = o.overstay := fun o b => by
    split <;> exact ⟨rfl, rfl, rfl, rfl, rfl⟩
  have grp : ∀ g : Group, ∀ f : Member → Member, (if g.room = n then { g with members := g.members.map f } else g).station
      = g.station ∧ (if g.room = n then { g with members := g.members.map f } else g).room = g.room := fun g f => by
    split <;> exact ⟨rfl, rfl⟩
  let derive : Member → Member := fun m => { m with needsEscort := s.derivedNeeds m.role m.permit n }
  have members : (s.rederive n).members
      = s.groups.flatMap (fun g => if g.room = n then g.members.map derive else g.members) := by
    simp only [State.members, State.rederive, List.flatMap_map]
    congr 1
    funext g
    split <;> rfl
  have creds : (s.rederive n).members.map Member.credential = s.members.map Member.credential := by
    rw [members, State.members, List.map_flatMap, List.map_flatMap]
    congr 1
    funext g
    split
    · rw [List.map_map]; rfl
    · rfl
  have pool : (s.rederive n).pool.map Occupant.credential = s.pool.map Occupant.credential := by
    simp only [State.rederive, List.map_map]
    exact List.map_congr_left fun o _ => (occ o _).1
  exact { h with
    distinct := by rw [State.credentials, pool, creds]; exact h.distinct
    stations := List.pairwise_map.2 (h.stations.imp fun hne => by rwa [(grp _ _).1, (grp _ _).1])
    groupRooms := fun g hg => by
      obtain ⟨x, hx, rfl⟩ := List.mem_map.1 hg
      rw [(grp _ _).2]
      exact h.groupRooms x hx
    poolRooms := fun o ho => by
      obtain ⟨x, hx, rfl⟩ := List.mem_map.1 ho
      rw [(occ _ _).2.2.1]
      exact h.poolRooms x hx
    total := by
      have hp := congrArg List.length pool
      have hm := congrArg List.length creds
      rw [List.length_map, List.length_map] at hp hm
      rw [hp, hm]
      exact h.total
    poolPermits := fun o ho => by
      obtain ⟨x, hx, rfl⟩ := List.mem_map.1 ho
      rw [(occ _ _).1, (occ _ _).2.1]
      exact h.poolPermits x hx
    memberPermits := fun m hm => by
      rw [members] at hm
      obtain ⟨g, hg, hm⟩ := List.mem_flatMap.1 hm
      split at hm
      · obtain ⟨x, hx, rfl⟩ := List.mem_map.1 hm
        exact h.memberPermits x (List.mem_flatMap.2 ⟨g, hg, hx⟩)
      · exact h.memberPermits m (List.mem_flatMap.2 ⟨g, hg, hm⟩)
    admitting := fun o ho => by
      obtain ⟨x, hx, rfl⟩ := List.mem_map.1 ho
      rw [(occ _ _).2.2.2.1, (occ _ _).2.2.2.2]
      exact h.admitting x hx
    stands := fun e he => by
      have hs := h.stands e he
      cases hw : e.what with
      | loneLimit k => rw [hw] at hs; exact hs
      | unescortedLimit k => rw [hw] at hs; exact hs
      | pairing k =>
        rw [hw] at hs
        obtain ⟨x, hx, hk⟩ := hs
        exact ⟨_, List.mem_map.2 ⟨x, hx, rfl⟩, (grp _ _).1.trans hk⟩
      | stayDeadline c =>
        rw [hw] at hs
        obtain ⟨x, hx, rfl, hp, hl⟩ := hs
        refine ⟨_, List.mem_map.2 ⟨x, hx, rfl⟩, (occ _ _).1, ?_⟩
        rw [(occ _ _).2.2.2.1, (occ _ _).2.2.2.2]
        exact ⟨hp, hl⟩
      | escalation c =>
        rw [hw] at hs
        obtain ⟨x, hx, rfl, hp, hl⟩ := hs
        refine ⟨_, List.mem_map.2 ⟨x, hx, rfl⟩, (occ _ _).1, ?_⟩
        rw [(occ _ _).2.2.2.1, (occ _ _).2.2.2.2]
        exact ⟨hp, hl⟩
    groupCount := by simpa [State.rederive] using h.groupCount
    unset := fun hu => by
      obtain ⟨hp, hg, hd⟩ := h.unset hu
      exact ⟨by simp [State.rederive, hp], by simp [State.rederive, hg], hd⟩ }

theorem State.Linked.changeRoomMode (h : s.Linked) (n : Nat) (m : RoomMode) : (s.changeRoomMode n m).Linked := by
  have h1 := (h.setRoom_config n (r := { s.room n with mode := m }) fun a => by cases a <;> rfl).put
    { kind := .roomMode, room := n, value := .pair (s.room n).mode.code m.code }
  exact ((h1.rederive n).reevaluateRoom n).retest n

theorem State.Linked.operatorRelease (h : s.Linked) (o : Occupant) : (s.operatorRelease o).Linked := by
  refine State.Linked.afterRemoval (State.Linked.leave ((h.debit o).of_same ?_) o) _
  simp [State.SamePersons]

/-- R125: the permits a sweep step retires are held by nobody. -/
theorem State.Linked.sweep (h : s.Linked) (k : Nat) : ((s.toRetire k).foldl State.retire s).Linked := by
  refine (foldl_property_of_mem (P := fun t => t.Linked ∧ t.pool = s.pool ∧ t.groups = s.groups) (s.toRetire k)
    (fun t e he ⟨ht, hp, hg⟩ => ⟨?_, ?_, ?_⟩) s ⟨h, rfl, rfl⟩).1
  · have hu : s.inUse e.2.number = 0 := by
      have := (List.mem_filter.1 he).2
      simp only [Bool.and_eq_true, beq_iff_eq] at this
      exact this.2
    have hu' : t.inUse e.2.number = 0 := by simpa [State.inUse, State.members, hp, hg] using hu
    exact (ht.dropPermit hu').of_same (by simp [State.SamePersons, State.retire])
  · simpa [State.retire] using hp
  · simpa [State.retire] using hg

end

end Sys2Proof.Machine
end

