-- ==== Sys2Proof/Proofs/ReferencesKept.lean ====
section
/-! Start-up keeps the references (R44, R81, R97, R178), and so does every step; so a permit is in use at most once, and
the deadline queue holds at most 80 entries. -/
namespace Sys2Proof.Machine

/-! ### The engine work of a warm start-up, alert by alert -/

/-- The room alerts in the order start-up takes them: rooms ascending, LONE before UNESCORTED (R36, R97). -/
def roomAlerts : List (Nat × RoomAlert) := (List.range' 1 12).flatMap fun n => [(n, .lone), (n, .unescorted)]

theorem roomAlerts_nodup : roomAlerts.Nodup := by decide

theorem mem_roomAlerts {p : Nat × RoomAlert} : p ∈ roomAlerts ↔ 1 ≤ p.1 ∧ p.1 ≤ 12 := by
  obtain ⟨n, a⟩ := p
  simp only [roomAlerts, List.mem_flatMap, List.mem_range'_1]
  constructor
  · rintro ⟨k, hk, hm⟩
    simp only [List.mem_cons, Prod.mk.injEq, List.not_mem_nil, or_false] at hm
    omega
  · intro h
    exact ⟨n, by omega, by cases a <;> simp⟩

theorem warmWork_eq (s : State) : s.warmWork = roomAlerts.foldl (fun s p => s.rebuildAlert p.2 p.1)
    (s.lapseAll.discardGroups.byRoom.foldl State.rebuildEntry s.lapseAll.discardGroups) := by
  unfold roomAlerts
  rw [List.foldl_flatMap]
  rfl

section
variable {s : State}

theorem mem_byRoom {o : Occupant} : o ∈ s.byRoom ↔ o ∈ s.pool ∧ 1 ≤ o.room ∧ o.room ≤ 12 := by
  simp only [State.byRoom, State.occupants, Config.rooms, List.mem_flatMap, List.mem_range'_1, List.mem_filter,
    decide_eq_true_eq]
  constructor
  · rintro ⟨n, hn, ho, rfl⟩
    exact ⟨ho, hn.1, by omega⟩
  · rintro ⟨ho, h1, h12⟩
    exact ⟨o.room, ⟨h1, by omega⟩, ho, rfl⟩

/-- Records sorted by room keep distinct credentials. -/
theorem byRoom_nodup {l : List Occupant} (h : (l.map Occupant.credential).Nodup) (rooms : List Nat) (hr : rooms.Nodup) :
    ((rooms.flatMap fun n => l.filter (fun o => o.room = n)).map Occupant.credential).Nodup := by
  induction rooms with
  | nil => exact List.nodup_nil
  | cons n rooms ih =>
    obtain ⟨hn, hr⟩ := List.nodup_cons.1 hr
    rw [List.flatMap_cons, List.map_append, List.nodup_append]
    refine ⟨h.sublist (List.filter_sublist.map _), ih hr, fun c hc d hd hcd => hn ?_⟩
    obtain ⟨o, ho, rfl⟩ := List.mem_map.1 hc
    obtain ⟨x, hx, rfl⟩ := List.mem_map.1 hd
    obtain ⟨k, hk, hx⟩ := List.mem_flatMap.1 hx
    obtain ⟨ho, hon⟩ := List.mem_filter.1 ho
    obtain ⟨hx, hxk⟩ := List.mem_filter.1 hx
    cases List.inj_on_of_nodup_map h ho hx hcd
    rw [← of_decide_eq_true hon, of_decide_eq_true hxk]
    exact hk

/-! ### The deadline queue rebuilt -/

/-- Nothing is named of any room alert. -/
def State.NoLimits (s : State) : Prop := ∀ a n, s.Unnamed (RoomAlert.due a n)

theorem unnamed_schedule {due : Nat} {w v : Due} (h : s.Unnamed v) (hv : w ≠ v) : (s.schedule due w).Unnamed v := by
  intro e he
  rcases (mem_insertDeadline _ _ _).1 he with rfl | he
  · exact hv
  · exact h e he

theorem stayDeadline_ne_due (c : Nat) (a : RoomAlert) (n : Nat) : Due.stayDeadline c ≠ a.due n := by cases a <;> simp [RoomAlert.due]

theorem escalation_ne_due (c : Nat) (a : RoomAlert) (n : Nat) : Due.escalation c ≠ a.due n := by cases a <;> simp [RoomAlert.due]

/-- R97: the entries of the kept records, each named once. -/
theorem Linked_foldl_rebuildEntry (l : List Occupant) : ∀ s : State, s.Linked → (∀ o ∈ l, o ∈ s.pool) →
    (l.map Occupant.credential).Nodup →
    (∀ o ∈ l, s.Unnamed (.stayDeadline o.credential) ∧ s.Unnamed (.escalation o.credential)) → s.NoLimits →
    (l.foldl State.rebuildEntry s).Linked ∧ (l.foldl State.rebuildEntry s).NoLimits := by
  induction l with
  | nil => intro s h _ _ _ hn; exact ⟨h, hn⟩
  | cons o l ih =>
    intro s h hl hnd hu hn
    have ho := hl o List.mem_cons_self
    obtain ⟨hnew, hnd⟩ := List.nodup_cons.1 hnd
    obtain ⟨ustay, uesc⟩ := hu o List.mem_cons_self
    have hl' : ∀ x ∈ l, x ∈ s.pool := fun x hx => hl x (List.mem_cons_of_mem _ hx)
    have hu' := fun x hx => hu x (List.mem_cons_of_mem _ hx)
    have other : ∀ x ∈ l, o.credential ≠ x.credential := fun x hx hc => hnew (hc ▸ List.mem_map_of_mem hx)
    rw [List.foldl_cons]
    unfold State.rebuildEntry
    split
    · rename_i entry deadline hp hov
      refine ih _ (h.schedule _ ustay ⟨o, ho, rfl, by simp [hp], hov⟩ (h.set_of_pool ho)) hl' hnd
        (fun x hx => ⟨unnamed_schedule (hu' x hx).1 ?_, unnamed_schedule (hu' x hx).2 ?_⟩)
        fun a n => unnamed_schedule (hn a n) (stayDeadline_ne_due _ a n)
      · simpa using other x hx
      · simp
    · rename_i entry deadline hp hov
      refine ih _ (h.schedule _ uesc ⟨o, ho, rfl, by simp [hp], hov⟩ (h.set_of_pool ho)) hl' hnd
        (fun x hx => ⟨unnamed_schedule (hu' x hx).1 ?_, unnamed_schedule (hu' x hx).2 ?_⟩)
        fun a n => unnamed_schedule (hn a n) (escalation_ne_due _ a n)
      · simp
      · simpa using other x hx
    · exact ih s h hl' hnd hu' hn
    · exact ih s h hl' hnd hu' hn

theorem unnamed_reevaluate {a : RoomAlert} {n : Nat} {w : Due} (h : s.Unnamed w) (hw : a.due n ≠ w) :
    (s.reevaluate a n).Unnamed w := by
  unfold State.reevaluate
  split
  · exact unnamed_schedule (by simpa [State.Unnamed] using h) hw
  · exact h
  · exact h
  · exact h
  all_goals
    intro e he
    exact h e (by simpa using List.mem_of_mem_filter he)

theorem unnamed_rebuildAlert {a : RoomAlert} {n : Nat} {w : Due} (h : s.Unnamed w) (hw : a.due n ≠ w) :
    (s.rebuildAlert a n).Unnamed w := by
  unfold State.rebuildAlert
  split
  · exact unnamed_schedule h hw
  · exact unnamed_reevaluate h hw

theorem State.Linked.rebuildAlert (h : s.Linked) (a : RoomAlert) (n : Nat) (hn : s.Unnamed (a.due n)) :
    (s.rebuildAlert a n).Linked := by
  unfold State.rebuildAlert
  split
  · rename_i hst
    obtain ⟨hset, h1, h12⟩ := h.occupied hst.2
    exact h.schedule _ hn ((stands_due s a n).2 ⟨h1, h12, hst.1⟩) hset
  · exact h.reevaluate a n

/-- R44 step 3: the alerts of a list, none of them named yet. -/
theorem Linked_foldl_rebuildAlert (l : List (Nat × RoomAlert)) : ∀ s : State, s.Linked → l.Nodup →
    (∀ p ∈ l, s.Unnamed (p.2.due p.1)) → (l.foldl (fun s p => s.rebuildAlert p.2 p.1) s).Linked := by
  induction l with
  | nil => intro s h _ _; exact h
  | cons p l ih =>
    intro s h hnd hu
    obtain ⟨hp, hnd⟩ := List.nodup_cons.1 hnd
    refine ih _ (h.rebuildAlert _ _ (hu p List.mem_cons_self)) hnd fun q hq => ?_
    refine unnamed_rebuildAlert (hu q (List.mem_cons_of_mem _ hq)) fun hd => hp ?_
    obtain ⟨ha, hn⟩ := due_inj.1 hd
    rwa [Prod.ext hn ha]

/-! ### Start-up, step by step -/

theorem denyAtRestart_fold_same (l : List Group) :
    s.SameRecords (l.foldl (fun s g => g.members.foldl (State.denyAtRestart g) s) s) := by
  refine foldl_property (P := s.SameRecords) (fun t g ht => ?_) l s (.refl s)
  refine foldl_property (P := s.SameRecords) (fun u m hu => hu.trans ?_) g.members t ht
  simp [State.SameRecords, State.denyAtRestart]

theorem discardGroups_eq (s : State) : ∃ u, s.SameRecords u ∧ s.discardGroups = { u with groups := [] } :=
  ⟨_, denyAtRestart_fold_same s.groups, rfl⟩

/-- R81: the groups discarded, which no entry names. -/
theorem State.Linked.discardGroups (h : s.Linked) (hd : s.deadlines = []) :
    s.discardGroups.Linked ∧ s.discardGroups.deadlines = [] := by
  obtain ⟨u, hu, he⟩ := discardGroups_eq s
  have hl := h.of_same hu.samePersons
  have hd' : u.deadlines = [] := hu.2.2.2.2.2.2.2.1.trans hd
  rw [he]
  refine ⟨{ hl with
    distinct := by
      simpa [State.credentials, State.members] using hl.pool_nodup
    stations := List.Pairwise.nil
    groupRooms := fun _ hg => nomatch hg
    total := by
      have := hl.total
      simp only [State.members, List.flatMap_nil, List.length_nil]
      exact (Nat.add_le_add_left (Nat.zero_le _) _).trans this
    memberPermits := fun _ hm => nomatch hm
    stands := fun e he => by rw [hd'] at he; cases he
    groupCount := Nat.zero_le _
    unset := fun hun => ⟨(hl.unset hun).1, rfl, hd'⟩ }, hd'⟩

theorem lapseAll_deadlines (hd : s.deadlines = []) : s.lapseAll.deadlines = [] :=
  foldl_property (P := fun t => t.deadlines = []) (fun t o ht => by
    rw [State.lapse, leave_deadlines, unscheduleRecord_deadlines]
    simp [ht]) _ s hd

theorem State.Linked.warmWork (h : s.Linked) (hd : s.deadlines = []) : s.warmWork.Linked := by
  have h1 : s.lapseAll.Linked := h.foldl_lapse _ _
  obtain ⟨h2, hd2⟩ := h1.discardGroups (lapseAll_deadlines hd)
  have unnamed : ∀ w, s.lapseAll.discardGroups.Unnamed w := fun w e he => by rw [hd2] at he; cases he
  rw [warmWork_eq]
  obtain ⟨h3, hn⟩ := Linked_foldl_rebuildEntry s.lapseAll.discardGroups.byRoom _ h2
    (fun o ho => (mem_byRoom.1 ho).1) (byRoom_nodup h2.pool_nodup _ (List.nodup_range' ..))
    (fun o _ => ⟨unnamed _, unnamed _⟩) fun a n => unnamed _
  exact Linked_foldl_rebuildAlert roomAlerts _ h3 roomAlerts_nodup fun p _ => hn p.2 p.1

theorem State.Linked.resetUnretained (h : s.Linked) : s.resetUnretained.Linked :=
  h.fewer (l := []) (List.nil_sublist _) (by simp [State.SamePersons, State.resetUnretained]) rfl

/-- R176: the retained domain at its defaults holds no person. -/
theorem defaultDomain_linked (hd : s.deadlines = []) : s.defaultDomain.Linked where
  rooms := List.length_replicate
  distinct := List.nodup_nil
  stations := List.Pairwise.nil
  groupRooms := fun _ hg => nomatch hg
  poolRooms := fun _ ho => nomatch ho
  total := Nat.zero_le _
  poolPermits := fun _ ho => nomatch ho
  memberPermits := fun _ hm => nomatch hm
  admitting := fun _ ho => nomatch ho
  named := by simp [State.defaultDomain, hd]
  stands := fun e he => by
    have : e ∈ s.deadlines := he
    rw [hd] at this
    cases this
  groupCount := Nat.zero_le _
  unset := fun _ => ⟨rfl, rfl, hd⟩

theorem State.Linked.takeKind (h : s.Linked) (hd : s.deadlines = []) (k : RestartKind) (lost : Bool) :
    (s.takeKind k lost).Linked ∧ (s.takeKind k lost).deadlines = [] := by
  have hdef := defaultDomain_linked hd
  cases k with
  | powerOn =>
    have h1 : State.Linked { s.defaultDomain with clock := unsetClock } :=
      { hdef with unset := fun _ => ⟨rfl, rfl, hd⟩ }
    exact ⟨h1.of_same (by simp [State.SamePersons, State.takeKind, State.domainFor]), hd⟩
  | restartClean => exact ⟨hdef.of_same (by simp [State.SamePersons, State.takeKind, State.domainFor]), hd⟩
  | resetLine => exact ⟨h.of_same (by simp [State.SamePersons, State.takeKind, State.domainFor]), hd⟩
  | restartWarm => exact ⟨h.of_same (by simp [State.SamePersons, State.takeKind, State.domainFor]), hd⟩

/-- R178: the steps before step 6 leave the deadline queue empty, so that step 6 builds it from nothing. -/
theorem State.Linked.startUpStep (h : s.Linked) (hd : s.deadlines = []) (k : RestartKind) (lost : Bool) (rate : Nat)
    (x : StartUpStep) : (State.startUpStep k lost rate s x).Linked
      ∧ (x ≠ .engine → (State.startUpStep k lost rate s x).deadlines = []) := by
  cases x with
  | unretained => exact ⟨h.resetUnretained, fun _ => rfl⟩
  | kind => exact ⟨(h.takeKind hd k lost).1, fun _ => (h.takeKind hd k lost).2⟩
  | mode => exact ⟨h.of_same (by simp [State.SamePersons, State.startUpStep, State.takeMode]), fun _ => hd⟩
  | record => exact ⟨h.put _, fun _ => by simpa [State.startUpStep, State.putRestart] using hd⟩
  | ready => exact ⟨h.of_same (by simp [State.SamePersons, State.startUpStep, State.offerReady]), fun _ => hd⟩
  | engine =>
    refine ⟨?_, fun hne => absurd rfl hne⟩
    cases k with
    | resetLine => exact h.warmWork hd
    | restartWarm => exact h.warmWork hd
    | powerOn => exact h
    | restartClean => exact h
  | mark => exact ⟨h.of_same (by simp [State.SamePersons, State.startUpStep, State.writeMark]), fun _ => hd⟩

/-- Steps before step 6, from an empty deadline queue. -/
theorem State.Linked.startUpSteps (k : RestartKind) (lost : Bool) (rate : Nat) (l : List StartUpStep)
    (hl : StartUpStep.engine ∉ l) : ∀ s : State, s.Linked → s.deadlines = [] →
    (l.foldl (State.startUpStep k lost rate) s).Linked ∧ (l.foldl (State.startUpStep k lost rate) s).deadlines = [] := by
  intro s h hd
  refine foldl_property_of_mem (P := fun t => t.Linked ∧ t.deadlines = []) l (fun t x hx ⟨ht, hd⟩ => ?_) s ⟨h, hd⟩
  obtain ⟨h1, h2⟩ := ht.startUpStep hd k lost rate x
  exact ⟨h1, h2 fun he => hl (he ▸ hx)⟩

theorem State.Linked.stepsTaken (h : s.Linked) (k : RestartKind) (lost : Bool) (rate : Nat) (cut : Option StartUpCut) :
    ((stepsTaken cut).foldl (State.startUpStep k lost rate) s).Linked := by
  have first := h.resetUnretained
  have pre := fun l hl => State.Linked.startUpSteps k lost rate l hl s.resetUnretained first rfl
  have engine := fun l hl => (State.Linked.startUpStep (pre l hl).1 (pre l hl).2 k lost rate .engine).1
  have whole : ((Sys2Proof.Machine.startUpSteps).foldl (State.startUpStep k lost rate) s).Linked :=
    (engine [.kind, .mode, .record, .ready] (by decide)).of_same (by
      simp [State.SamePersons, Sys2Proof.Machine.startUpSteps, State.startUpStep, State.writeMark])
  cases cut with
  | none => exact whole
  | some c =>
    obtain ⟨after, hold⟩ := c
    cases after with
    | unretained => exact first
    | kind => exact (pre [.kind] (by decide)).1
    | mode => exact (pre [.kind, .mode] (by decide)).1
    | record => exact (pre [.kind, .mode, .record] (by decide)).1
    | ready => exact (pre [.kind, .mode, .record, .ready] (by decide)).1
    | engine => exact engine [.kind, .mode, .record, .ready] (by decide)
    | mark => exact whole

theorem State.Linked.startUp (h : s.Linked) (event : RestartKind) (inputs : RestartInputs) :
    (s.startUp event inputs).Linked := by
  have started : State.Linked { s with
      supply := (s.supply.backedUp inputs.backup).startingUp ((s.supply.backedUp inputs.backup).decideKind event).1 } :=
    h.of_same (by simp [State.SamePersons])
  unfold State.startUp
  dsimp only
  generalize (s.supply.backedUp inputs.backup).decideKind event = kind at started ⊢
  have taken := started.stepsTaken kind.1 kind.2 (rateOfStraps inputs) inputs.cut
  split
  · exact taken.of_same ((State.restartLine_same _).trans (State.pump_same _)).samePersons
  · exact taken.of_same (State.holdAgain_same _ _).samePersons

/-! ### Every step -/

theorem State.Linked.withRevoked (h : s.Linked) (l : List Nat) : State.Linked { s with revoked := l } :=
  h.of_same (by simp [State.SamePersons])

theorem State.Linked.setStation (h : s.Linked) (n : Nat) (st : Station) : (s.setStation n st).Linked :=
  h.of_same (by simp [State.SamePersons])

theorem State.miss_samePersons (s : State) (n : Nat) (settle : Bool) : s.SamePersons (s.miss n settle) := by
  have silenced : ∀ t : State, t.SamePersons (t.silence n) := fun t => by
    unfold State.silence State.silenceDoor
    dsimp only
    split <;> (repeat' split) <;> simp [State.SamePersons]
  unfold State.miss
  split
  · simp [State.SamePersons]
  · unfold State.countMiss
    dsimp only
    split
    · have := silenced (s.setStation n { s.station n with missed := min Config.missedLimit ((s.station n).missed + 1) })
      simpa [State.SamePersons] using this
    · simp [State.SamePersons]

theorem State.takeAnswer_samePersons (s : State) (n : Nat) (a : StationAnswer) : s.SamePersons (s.takeAnswer n a) := by
  unfold State.takeAnswer State.contactAndReport
  dsimp only
  (repeat' split) <;> simp [State.SamePersons]

theorem State.releaseExpires_samePersons (s : State) (n : Nat) : s.SamePersons (s.releaseExpires n) := by
  unfold State.releaseExpires
  dsimp only
  (repeat' split) <;> simp [State.SamePersons]

theorem State.heldExpires_samePersons (s : State) (n : Nat) : s.SamePersons (s.heldExpires n) := by
  unfold State.heldExpires
  split <;> simp [State.SamePersons]

theorem State.tick_samePersons (s : State) : s.SamePersons s.tick := by
  have clock : s.clock.tick.unset = s.clock.unset := by
    unfold Clock.tick Clock.atEnd
    (repeat' split) <;> rfl
  unfold State.tick
  split <;> simp [State.SamePersons, clock]

theorem State.Linked.effect {t : State} (h : s.Linked) (hps : s.PermitsSound) (he : s.Effect t) : t.Linked := by
  cases he with
  | same => exact h
  | tick => exact h.of_same s.tick_samePersons
  | clockEnd => exact h.of_same (by simp [State.SamePersons, Clock.atEnd])
  | setClock day second =>
    have h1 : State.Linked { s with clock := clockAt day second } := { h with unset := fun hu => nomatch hu }
    exact h1.put _
  | writeSettings b x => exact h.of_same (by simp [State.SamePersons, State.writeSettings])
  | addPermit b p => exact h.addPermit p
  | dropPermit n hn => exact h.dropPermit hn
  | amend b c e => exact (h.updatePermit c.number (f := fun q => q.amended c) fun _ => ⟨rfl, rfl⟩).actOnHolder _ c
  | revoke b c => exact State.Linked.actOnRevoked (h.withRevoked _) c
  | unrevoke c => exact State.Linked.unmark (h.withRevoked _) c
  | roomSet b c => exact h.configureRoom c
  | roomMode b n m => exact h.changeRoomMode n m
  | operatorRelease o => exact h.operatorRelease o
  | stationSet b n => exact h.setStation n _
  | stationChannel n c => exact h.of_same (by simp [State.SamePersons])
  | flag n v => exact h.setStation n _
  | commit n => exact (h.takeDoorEvent n).commitStation n
  | lapse n silence => exact (h.takeDoorEvent n).lapseStation n silence
  | due act e ha hh =>
    obtain ⟨h1, hu, hs⟩ := h.dropHead hh
    exact h1.dueAction ha hu ((stands_congr rfl rfl rfl _).2 hs)
  | decide act ha => exact h.takePresentation hps ha
  | sweep k => exact h.sweep k
  | call n => exact h.setStation n _
  | answer n chars => exact h.of_same (s.takeAnswer_samePersons n _)
  | miss n settle => exact h.of_same (s.miss_samePersons n settle)
  | corrupt n settle => exact (h.setStation n _).of_same (State.miss_samePersons _ n settle)
  | releaseExpires n => exact h.of_same (s.releaseExpires_samePersons n)
  | heldExpires n => exact h.of_same (s.heldExpires_samePersons n)
  | wake c => exact h.of_same (by simp [State.SamePersons, State.wake, State.restartLine])
  | startUp t k inputs ht => exact (h.of_same ht.samePersons).startUp k inputs

/-! ### What follows -/

theorem State.Linked.referencesSound (h : s.Linked) : s.ReferencesSound :=
  ⟨h.poolPermits, h.memberPermits, h.admitting, h.named, h.stands, h.groupCount, h.unset⟩

theorem linked_of_sound (ht : s.TablesSound) (hp : s.PersonsSound) (hc : s.WithinCapacity) (hr : s.ReferencesSound) :
    s.Linked := by
  obtain ⟨-, -, ⟨rooms, -⟩, -⟩ := ht
  obtain ⟨distinct, stations, groups, poolRooms, -⟩ := hp
  obtain ⟨poolPermits, memberPermits, admitting, named, stands, groupCount, unset⟩ := hr
  exact
    { rooms, distinct, poolRooms, poolPermits, memberPermits, admitting, named, stands, groupCount, unset
      stations := stations.imp Nat.ne_of_lt
      groupRooms := fun g hg => (groups g hg).2.2.2
      total := hc.2 }

/-- R5: the in-use count of a permit is 0 or 1. -/
theorem State.Linked.inUse_le_one (h : s.Linked) (hps : s.PermitsSound) (n : Nat) : s.inUse n ≤ 1 := by
  by_cases he : ∃ e ∈ s.permits, e.2.number = n
  · obtain ⟨e, he, rfl⟩ := he
    have cred : ∀ c, s.HoldsPermit e.2.number c → c = e.2.credential := fun c ⟨x, hx, hn, hc⟩ => by
      have hx' := permit_eq_of_mem hps.2.2.1 hx
      rw [hn, permit_eq_of_mem hps.2.2.1 he] at hx'
      cases hx'
      exact hc.symm
    have pool : s.pool.countP (fun o => o.permit = e.2.number)
        ≤ (s.pool.map Occupant.credential).count e.2.credential := by
      rw [List.count, List.countP_map]
      refine List.countP_mono_left fun o ho hn => ?_
      have hn : o.permit = e.2.number := by simpa using hn
      simpa using cred _ (hn ▸ h.poolPermits o ho)
    have members : s.members.countP (fun m => m.permit = e.2.number)
        ≤ (s.members.map Member.credential).count e.2.credential := by
      rw [List.count, List.countP_map]
      refine List.countP_mono_left fun m hm hn => ?_
      have hn : m.permit = e.2.number := by simpa using hn
      simpa using cred _ (hn ▸ h.memberPermits m hm)
    have one := List.nodup_iff_count_le_one.1 h.distinct e.2.credential
    rw [State.credentials, List.count_append] at one
    exact (Nat.add_le_add pool members).trans one
  · have absent : ∀ k c, s.HoldsPermit k c → k ≠ n := fun k c ⟨x, hx, hk, _⟩ hkn => he ⟨x, hx, hk.trans hkn⟩
    rw [inUse_eq_zero.2 ⟨fun o ho => absent _ _ (h.poolPermits o ho), fun m hm => absent _ _ (h.memberPermits m hm)⟩]
    exact Nat.zero_le _

/-- Everything a deadline entry may name: a group, a record at its alert level, a room alert. -/
def State.nameable (s : State) : List Due :=
  s.groups.map (fun g => .pairing g.station)
    ++ s.pool.map (fun o => if o.overstay = .clear then .stayDeadline o.credential else .escalation o.credential)
    ++ roomAlerts.map (fun p => p.2.due p.1)

theorem mem_nameable {w : Due} (h : s.Stands w) : w ∈ s.nameable := by
  simp only [State.nameable, List.mem_append, List.mem_map]
  cases w with
  | pairing n =>
    obtain ⟨g, hg, rfl⟩ := h
    exact .inl (.inl ⟨g, hg, rfl⟩)
  | stayDeadline c =>
    obtain ⟨o, ho, rfl, -, hl⟩ := h
    exact .inl (.inr ⟨o, ho, by simp [hl]⟩)
  | escalation c =>
    obtain ⟨o, ho, rfl, -, hl⟩ := h
    exact .inl (.inr ⟨o, ho, by simp [hl]⟩)
  | loneLimit n => exact .inr ⟨(n, .lone), mem_roomAlerts.2 ⟨h.1, h.2.1⟩, rfl⟩
  | unescortedLimit n => exact .inr ⟨(n, .unescorted), mem_roomAlerts.2 ⟨h.1, h.2.1⟩, rfl⟩

/-- R92: 8 groups, 48 records and 24 room alerts, each named at most once. -/
theorem State.Linked.deadlines_length (h : s.Linked) : s.deadlines.length ≤ 80 := by
  have sub : s.deadlines.map DeadlineEntry.what ⊆ s.nameable := fun w hw => by
    obtain ⟨e, he, rfl⟩ := List.mem_map.1 hw
    exact mem_nameable (h.stands e he)
  have alerts : roomAlerts.length = 24 := by decide
  have len := (List.subperm_of_subset h.named sub).length_le
  have pool := h.total
  have groups := h.groupCount
  simp only [State.nameable, List.length_map, List.length_append, alerts] at len
  omega

end

/-- Settles O59: the references and what they rest on are kept by every effect of a step. -/
theorem stepKeepsReferencesSound : Obligations.StepKeepsReferencesSound := by
  intro s t ht hst hp hc hr hstep
  have kept := step_keeps (P := fun u => u.Bounded ∧ u.Linked)
    (fun huv h => ⟨h.1.of_same huv.sameTables, h.2.of_same huv.samePersons⟩)
    (fun h he => ⟨h.1.effect he, h.2.effect h.1.1.1 he⟩) ⟨⟨ht, hst⟩, linked_of_sound ht hp hc hr⟩ hstep
  obtain ⟨⟨⟨hps, -⟩, -⟩, hl⟩ := kept
  exact ⟨hl.referencesSound, hl.inUse_le_one hps, hl.deadlines_length⟩

end Sys2Proof.Machine
end

