-- ==== Sys2Proof/Proofs/Reset.lean ====
section
/-! The state after reset: each invariant is a check of one fixed state. -/
namespace Sys2Proof.Machine

theorem reset_countersSound : State.reset.CountersSound :=
  ⟨by unfold Clock.Sound; decide +kernel,
    ⟨by show (1 : Nat) ≤ 63; decide, by show ([] : List TrailRecord) = []; rfl, by decide +kernel, by decide +kernel,
      by decide +kernel, by decide +kernel⟩,
    ⟨by decide +kernel, by decide +kernel, by decide +kernel, by decide +kernel, ⟨rfl, rfl⟩⟩,
    by unfold Sweep.Sound; decide +kernel, by unfold State.DeadlinesSorted; decide +kernel⟩

theorem reset_tablesSound : State.reset.TablesSound :=
  ⟨⟨.nil, nofun, .nil, fun _ => Nat.zero_le 8⟩, ⟨by decide +kernel, by decide +kernel, nofun⟩,
    ⟨rfl, fun _ hr => List.eq_of_mem_replicate hr ▸ defaultRoom_sound⟩, defaultSettings_sound,
    ⟨by decide +kernel, by decide +kernel, nofun⟩⟩

theorem reset_stationsSound : State.reset.StationsSound :=
  ⟨rfl, fun _ hst => List.eq_of_mem_replicate hst ▸ defaultStation_sound⟩

theorem reset_personsSound : State.reset.PersonsSound := ⟨.nil, .nil, nofun, nofun, nofun⟩

/-- Every room is a default room with nobody in it. -/
theorem reset_alertsAgree : State.reset.AlertsAgree := by
  intro n h h'
  have hn : n ∈ List.range' 1 12 := by simp; omega
  clear h h'
  revert n
  unfold State.AlertAgrees
  decide +kernel

theorem reset_withinCapacity : State.reset.WithinCapacity :=
  ⟨fun n _ _ => Nat.zero_le (State.reset.room n).capacity, Nat.zero_le 48⟩

theorem reset_referencesSound : State.reset.ReferencesSound :=
  ⟨nofun, nofun, nofun, .nil, nofun, Nat.zero_le 8, fun _ => ⟨rfl, rfl, rfl⟩⟩

theorem reset_standbyEmpty : State.reset.StandbyEmpty := ⟨nofun, nofun⟩

/-- Settles O54. -/
theorem resetIsSound : Obligations.ResetIsSound :=
  ⟨reset_countersSound, reset_tablesSound, reset_stationsSound, reset_personsSound, reset_alertsAgree,
    reset_withinCapacity, reset_referencesSound, nofun, reset_standbyEmpty⟩

end Sys2Proof.Machine
end

