-- ==== Sys2Proof/Proofs/Revocation.lean ====
section
/-! REVOKE, UNREVOKE and REVOKE-LIST served (R16 to R20), with the removal of a group member (R79). -/
namespace Sys2Proof.Machine

/-! ### A member removed from his group (R79) -/

/-- R79 steps 1 to 4: the member out of his group, with his DENY record, his notice and the DENY verdict. -/
def State.expel (s : State) (g : Group) (m : Member) (reason : Reason) : State :=
  (((s.setMembers g.station (g.members.filter (fun x => x.credential ≠ m.credential))).put
      { kind := .deny, station := g.station, room := g.room, credential := m.credential, permit := m.permit
        reason := reason }).offerDecision
    { station := g.station, side := .outside, credential := m.credential, taken := m.joined, decided := s.now
      outcome := .deny, reason := reason, permit := m.permit, room := g.room }).setStation g.station
    ((s.station g.station).place .deny reason)

section
variable (s : State) (g : Group) (m : Member) (r : Reason)

@[simp] theorem State.expel_rooms : (s.expel g m r).rooms = s.rooms := by simp [State.expel]
@[simp] theorem State.expel_pool : (s.expel g m r).pool = s.pool := by simp [State.expel]
@[simp] theorem State.expel_deadlines : (s.expel g m r).deadlines = s.deadlines := by simp [State.expel]
@[simp] theorem State.expel_groups : (s.expel g m r).groups
    = (s.setMembers g.station (g.members.filter (fun x => x.credential ≠ m.credential))).groups := by simp [State.expel]

/-- R79: the member is expelled; his group ends with him or is tested again. -/
theorem removeMember_eq : s.removeMember g m r =
    if g.members.filter (fun x => x.credential ≠ m.credential) = [] then
      ((s.expel g m r).unschedule (.pairing g.station)).dropGroup g.station
    else (s.expel g m r).retestGroup g.station := by
  simp [State.removeMember, State.expel, State.denyMember, State.placeVerdict, State.station, State.now]

variable {s g m r}

theorem removeMember_last (h : g.members.filter (fun x => x.credential ≠ m.credential) = []) : s.removeMember g m r =
    { s.expel g m r with
      deadlines := s.deadlines.filter (fun e => e.what ≠ .pairing g.station)
      groups := (s.expel g m r).groups.filter (fun x => x.station ≠ g.station) } := by
  rw [removeMember_eq, if_pos h, ← State.expel_deadlines s g m r]
  rfl

/-- Members written leave every group at its station. -/
theorem setMembers_station (n : Nat) (l : List Member) (q : Nat → Bool) :
    ((fun x : Group => q x.station) ∘ fun x => if x.station = n then { x with members := l } else x)
      = fun x => q x.station := by
  funext x
  simp only [Function.comp_apply]
  split <;> rfl

/-- The groups that stay when one ends are those that stood beside it before its members left. -/
theorem setMembers_filter (n : Nat) (l : List Member) :
    (s.setMembers n l).groups.filter (fun x => x.station ≠ n) = s.groups.filter (fun x => x.station ≠ n) := by
  rw [State.setMembers_groups, List.filter_map, setMembers_station n l (fun k => k ≠ n)]
  refine (List.map_congr_left fun x hx => if_neg ?_).trans (List.map_id _)
  simpa using (List.mem_filter.1 hx).2

/-- R79 step 5: the group that goes on, with the members left. -/
theorem groupAt_expel (hg : s.groupAt g.station = some g) : (s.expel g m r).groupAt g.station
    = some { g with members := g.members.filter (fun x => x.credential ≠ m.credential) } := by
  unfold State.groupAt at hg ⊢
  rw [State.expel_groups, State.setMembers_groups, List.find?_map, setMembers_station _ _ (fun k => k = g.station), hg]
  simp

theorem passes_expel (l : List Member) : (s.expel g m r).passes { g with members := l }
    = requirementTest (s.room g.room) ((s.occupants g.room).map Occupant.person ++ l.map Member.person) := by
  simp [State.passes, State.personsWith, State.occupants, State.room]

section
variable (hg : s.groupAt g.station = some g) (hne : g.members.filter (fun x => x.credential ≠ m.credential) ≠ [])
include hg hne

/-- R79 step 5: the group that goes on waits where the rest fail the completion test. -/
theorem removeMember_waits
    (ht : requirementTest (s.room g.room) ((s.occupants g.room).map Occupant.person
      ++ (g.members.filter (fun x => x.credential ≠ m.credential)).map Member.person) = false) :
    s.removeMember g m r = s.expel g m r := by
  rw [removeMember_eq, if_neg hne]
  unfold State.retestGroup
  simp only [groupAt_expel hg, passes_expel, ht, Bool.false_eq_true, if_false]

/-- R79 step 5: the group that goes on is completed where the rest pass the completion test. -/
theorem removeMember_completes
    (ht : requirementTest (s.room g.room) ((s.occupants g.room).map Occupant.person
      ++ (g.members.filter (fun x => x.credential ≠ m.credential)).map Member.person) = true) :
    s.removeMember g m r = ((s.expel g m r).completeGroup
      { g with members := g.members.filter (fun x => x.credential ≠ m.credential) } none).retest g.room := by
  rw [removeMember_eq, if_neg hne]
  unfold State.retestGroup
  simp only [groupAt_expel hg, passes_expel, ht, if_true]

end
end

/-! ### REVOKE -/

/-- R17: the credential appended to the set. -/
def State.appendRevoked (s : State) (c : Nat) : State := { s with revoked := s.revoked ++ [c] }

/-- R19: the credential removed from the set. -/
def State.dropRevoked (s : State) (c : Nat) : State := { s with revoked := s.revoked.filter (fun x => x ≠ c) }

section
variable {s : State} {b : List Byte} {c : Nat}

theorem serveRevoke_unread {code : ReplyCode} (h : readCredential b = .error code) : serveRevoke b s = .error code := by
  simp [serveRevoke, h]

/-- R17, of a credential that is read. -/
theorem serveRevoke_read (h : readCredential b = .ok c) : serveRevoke b s =
    if c ∈ s.revoked then .ok (s, [])
    else if 32 ≤ s.revoked.length then .error .tableFull
    else .ok ((s.appendRevoked c).actOnRevoked c, []) := by
  by_cases hc : c ∈ s.revoked
  · simp [serveRevoke, h, hc]
  · simp only [serveRevoke, h, List.contains_iff_mem, hc, if_false]
    rfl

/-- R17: a credential new to a set that has room. -/
theorem serveRevoke_new (h : readCredential b = .ok c) (hn : c ∉ s.revoked) (hl : s.revoked.length ≤ 31) :
    serveRevoke b s = .ok ((s.appendRevoked c).actOnRevoked c, []) := by
  rw [serveRevoke_read h, if_neg hn, if_neg (by omega)]

/-- R42: the marker of a credential's record, with its notice and its trail record. -/
theorem markRevoked_of_record {o : Occupant} (h : s.recordOf c = some o) (marked : Bool) : s.markRevoked o marked =
    (({ s with pool := s.pool.map (fun x => if x.credential = c then { x with revokedInside := marked } else x) } :
        State).offer
      (.alert { kind := .revokedInside, level := if marked then .raised else .clear, room := o.room
                station := o.station, credential := c, permit := o.permit })).put
      { kind := .alert, station := o.station, room := o.room, credential := c, permit := o.permit
        reason := .alert .revokedInside, value := .number (if marked then Level.raised else .clear).code } := by
  obtain ⟨-, rfl⟩ := recordOf_eq_some h
  rfl

theorem actOnRevoked_record {o : Occupant} (h : s.recordOf c = some o) : s.actOnRevoked c = s.markRevoked o true := by
  simp [State.actOnRevoked, h]

theorem actOnRevoked_member {g : Group} {m : Member} (h : s.recordOf c = none) (hm : s.membershipOf c = some (g, m)) :
    s.actOnRevoked c = s.removeMember g m .revoked := by
  simp [State.actOnRevoked, h, hm]

theorem actOnRevoked_absent (h : s.recordOf c = none) (hm : s.membershipOf c = none) : s.actOnRevoked c = s := by
  simp [State.actOnRevoked, h, hm]

theorem serveRevoke_absent (h : readCredential b = .ok c) (hn : c ∉ s.revoked) (hl : s.revoked.length ≤ 31)
    (hr : s.recordOf c = none) (hm : s.membershipOf c = none) : serveRevoke b s = .ok (s.appendRevoked c, []) := by
  rw [serveRevoke_new h hn hl, actOnRevoked_absent (s := s.appendRevoked c) hr hm]

theorem serveRevoke_record {o : Occupant} (h : readCredential b = .ok c) (hn : c ∉ s.revoked)
    (hl : s.revoked.length ≤ 31) (ho : s.recordOf c = some o) :
    serveRevoke b s = .ok ((s.appendRevoked c).markRevoked o true, []) := by
  rw [serveRevoke_new h hn hl, actOnRevoked_record (s := s.appendRevoked c) ho]

/-- R17, R79: REVOKE of a member's credential. -/
theorem serveRevoke_member {g : Group} {m : Member} (h : readCredential b = .ok c) (hn : c ∉ s.revoked)
    (hl : s.revoked.length ≤ 31) (hr : s.recordOf c = none) (hm : s.membershipOf c = some (g, m)) :
    serveRevoke b s = .ok ((s.appendRevoked c).removeMember g m .revoked, []) := by
  rw [serveRevoke_new h hn hl, actOnRevoked_member (s := s.appendRevoked c) hr hm]

end

/-- Settles O20. -/
theorem revokeActs : Obligations.RevokeActs := by
  refine ⟨fun s f hf => ⟨fun hl => ?_, fun hl h0 => ?_, fun hl h0 h1 => ⟨fun hc => ?_, fun hc hfull => ?_,
    fun hc hroom hr hm => ?_, fun o hc hroom ho => ?_⟩⟩, fun s f g m hf hl hcr hc hroom hr hm => ⟨fun hnil => ?_,
    fun hne hg => ⟨fun ht => ?_, fun ht => ?_⟩⟩⟩
  · exact refuses_of_serve rfl hf (serveRevoke_unread (readCredential_malformed hl))
  · exact refuses_of_serve rfl hf (serveRevoke_unread (readCredential_range hl h0))
  · exact answers_of_serve (t := s) rfl hf (by rw [serveRevoke_read (readCredential_ok hl h0 h1), if_pos hc])
  · exact refuses_of_serve rfl hf
      (by rw [serveRevoke_read (readCredential_ok hl h0 h1), if_neg hc, if_pos hfull])
  · exact answers_of_serve rfl hf (serveRevoke_absent (readCredential_ok hl h0 h1) hc hroom hr hm)
  · have served := serveRevoke_record (readCredential_ok hl h0 h1) hc hroom ho
    rw [markRevoked_of_record (s := s.appendRevoked _) ho] at served
    exact answers_of_serve rfl hf served
  all_goals
    have hread : readCredential f.body = .ok (valueAt f.body 0 4) :=
      readCredential_ok hl (by unfold isCredential at hcr; omega) (by unfold isCredential at hcr; omega)
    have served := serveRevoke_member hread hc hroom hr hm
  · exact answers_of_serve rfl hf (by rw [served, removeMember_last hnil]; rfl)
  · exact answers_of_serve rfl hf (by rw [served, removeMember_waits (s := s.appendRevoked _) hg hne ht]; rfl)
  · exact answers_of_serve rfl hf (by rw [served, removeMember_completes (s := s.appendRevoked _) hg hne ht]; rfl)

/-! ### UNREVOKE and REVOKE-LIST -/

section
variable {s : State} {b : List Byte} {c : Nat}

theorem serveUnrevoke_unread {code : ReplyCode} (h : readCredential b = .error code) :
    serveUnrevoke b s = .error code := by simp [serveUnrevoke, h]

theorem serveUnrevoke_absent (h : readCredential b = .ok c) (hn : c ∉ s.revoked) :
    serveUnrevoke b s = .error .notFound := by simp [serveUnrevoke, h, hn]

theorem serveUnrevoke_read (h : readCredential b = .ok c) (hc : c ∈ s.revoked) : serveUnrevoke b s =
    .ok ((s.dropRevoked c).unmark c, []) := by
  simp [serveUnrevoke, h, hc, State.dropRevoked]

theorem unmark_unmarked (h : ∀ o, s.recordOf c = some o → o.revokedInside = false) : s.unmark c = s := by
  unfold State.unmark
  split
  · rename_i o ho
    simp [h o ho]
  · rfl

theorem unmark_marked {o : Occupant} (h : s.recordOf c = some o) (hm : o.revokedInside = true) :
    s.unmark c = s.markRevoked o false := by simp [State.unmark, h, hm]

theorem serveUnrevoke_unmarked (h : readCredential b = .ok c) (hc : c ∈ s.revoked)
    (hm : ∀ o, s.recordOf c = some o → o.revokedInside = false) : serveUnrevoke b s = .ok (s.dropRevoked c, []) := by
  rw [serveUnrevoke_read h hc, unmark_unmarked (s := s.dropRevoked c) hm]

theorem serveUnrevoke_marked {o : Occupant} (h : readCredential b = .ok c) (hc : c ∈ s.revoked)
    (ho : s.recordOf c = some o) (hm : o.revokedInside = true) :
    serveUnrevoke b s = .ok ((s.dropRevoked c).markRevoked o false, []) := by
  rw [serveUnrevoke_read h hc, unmark_marked (s := s.dropRevoked c) ho hm]

end

/-- What execRevokeList serves. -/
def serveRevokeList (body : List Byte) (s : State) : Except ReplyCode (State × List Byte) :=
  (readNothing body).map fun _ => (s, leBytes 1 s.revoked.length ++ s.revoked.flatMap (leBytes 4))

theorem execRevokeList_eq (s : State) : execRevokeList s = requestJob .revokeList s serveRevokeList := rfl

/-- Settles O21. -/
theorem unrevokeAndRevokeList : Obligations.UnrevokeAndRevokeList := by
  refine ⟨fun s f hf => ⟨fun hl => ?_, fun hl h0 => ?_, fun hl h0 h1 => ⟨fun hc => ?_, fun hc hm => ?_,
    fun o hc ho hm => ?_⟩⟩, fun s f hf => ⟨fun hb => ?_, fun hb => ?_⟩⟩
  · exact refuses_of_serve rfl hf (serveUnrevoke_unread (readCredential_malformed hl))
  · exact refuses_of_serve rfl hf (serveUnrevoke_unread (readCredential_range hl h0))
  · exact refuses_of_serve rfl hf (serveUnrevoke_absent (readCredential_ok hl h0 h1) hc)
  · exact answers_of_serve rfl hf (serveUnrevoke_unmarked (readCredential_ok hl h0 h1) hc hm)
  · have served := serveUnrevoke_marked (readCredential_ok hl h0 h1) hc ho hm
    rw [markRevoked_of_record (s := s.dropRevoked _) ho] at served
    exact answers_of_serve rfl hf served
  · exact answers_of_serve (execRevokeList_eq s) hf (by simp [serveRevokeList, hb, readNothing, Except.map])
  · exact refuses_of_serve (execRevokeList_eq s) hf (by simp [serveRevokeList, hb, readNothing, Except.map])

end Sys2Proof.Machine
end

