-- ==== Sys2Proof/Proofs/Amendment.lean ====
section
/-! PERMIT-AMEND served (R9 to R12): its checks, the recompute of a stay (R108 to R111) and the suspension of a group
member (R79). -/
namespace Sys2Proof.Machine

/-! ### Who holds a permit -/

section
variable {s t : State} {n : Nat}

/-- R5: the count is of the records and the members, whatever else they hold. -/
theorem inUse_congr (hp : t.pool.map Occupant.permit = s.pool.map Occupant.permit) (hg : t.groups = s.groups) (n : Nat) :
    t.inUse n = s.inUse n := by
  have count (l : List Occupant) :
      l.countP (fun o => o.permit = n) = (l.map Occupant.permit).countP (fun k => k = n) := by
    rw [List.countP_map]
    rfl
  unfold State.inUse State.members
  rw [count, count, hp, hg]

theorem inUse_updateRecord (k : Nat) {f : Occupant → Occupant} (hf : ∀ o, (f o).permit = o.permit) (n : Nat) :
    (s.updateRecord k f).inUse n = s.inUse n := by
  refine inUse_congr (s := s) (t := s.updateRecord k f) ?_ rfl n
  rw [State.updateRecord_pool, List.map_map]
  refine List.map_congr_left fun o _ => ?_
  simp only [Function.comp_apply]
  split
  · exact hf o
  · rfl

/-- R11 item 1: the holder's room is that of a record or of a group which holds the permit. -/
theorem holderRoom_eq_some {r : Nat} (h : s.holderRoom n = some r) : (∃ o ∈ s.pool, o.permit = n ∧ o.room = r)
    ∨ (s.pool.find? (fun o => o.permit = n) = none ∧ ∃ g ∈ s.groups, (∃ m ∈ g.members, m.permit = n) ∧ g.room = r) := by
  unfold State.holderRoom at h
  split at h
  · rename_i o ho
    exact .inl ⟨o, List.mem_of_find?_eq_some ho, by simpa using List.find?_some ho, by simpa using h⟩
  · rename_i ho
    obtain ⟨g, hg, hr⟩ := Option.map_eq_some_iff.1 h
    exact .inr ⟨ho, g, List.mem_of_find?_eq_some hg, by simpa using List.find?_some hg, hr⟩

theorem suspendMember_none (h : ∀ g ∈ s.groups, ∀ m ∈ g.members, m.permit ≠ n) : s.suspendMember n = s := by
  have none : s.groups.find? (fun g => g.members.any (fun m => m.permit = n)) = none := by
    simpa [List.find?_eq_none] using h
  simp [State.suspendMember, none]

end

/-! ### The checks of an amendment -/

section
variable {s : State} {b : List Byte} {c : PermitAmend} {slot : Nat} {p : Permit}

/-- R10: the permit as an amendment leaves it. -/
theorem amended_eq (p : Permit) (c : PermitAmend) : p.amended c
    = { p with
        status := c.status.getD p.status
        validFrom := c.validFrom.getD p.validFrom
        validUntil := c.validUntil.getD p.validUntil
        window := c.window.getD p.window
        maxStay := c.maxStay.getD p.maxStay
        allowance :=
          (match c.allowance with
            | .unchanged => p.allowance
            | .set n => some n
            | .topUp n => p.allowance.map (fun r => min 65535 (r + n))
            | .remove => none)
        rooms := c.rooms.getD p.rooms
        needsEscort :=
          (match c.needsEscort with
            | some v => p.role == .worker && v
            | none => p.needsEscort) } := by
  unfold Permit.amended
  cases c.needsEscort <;> cases c.allowance <;> rfl

theorem amended_needsEscort (h : ∀ v, c.needsEscort = some v → (p.role == .worker && v) = p.needsEscort) :
    (p.amended c).needsEscort = p.needsEscort := by
  rw [amended_eq]
  dsimp only
  split
  · rename_i v hv
    exact h v hv
  · rfl

/-- R11: no conflict where the amendment keeps the holder's room and needs escort. -/
theorem amendConflicts_eq_false (hr : ∀ rooms r, c.rooms = some rooms → s.holderRoom p.number = some r → r ∈ rooms)
    (hv : ∀ v, c.needsEscort = some v → (p.role == .worker && v) = p.needsEscort) : s.amendConflicts p c = false := by
  unfold State.amendConflicts
  rw [amended_needsEscort hv]
  split
  · rename_i rooms r hc hh
    simpa using hr rooms r hc hh
  · simp

/-- R11 item 1. -/
theorem amendConflicts_room {rooms : List Nat} {r : Nat} (hc : c.rooms = some rooms)
    (hh : s.holderRoom p.number = some r) (hr : r ∉ rooms) : s.amendConflicts p c = true := by
  simp [State.amendConflicts, hc, hh, hr]

/-- R11 item 2. -/
theorem amendConflicts_needsEscort {v : Bool} (hc : c.needsEscort = some v)
    (hv : (p.role == .worker && v) ≠ p.needsEscort) : s.amendConflicts p c = true := by
  have changed : (p.amended c).needsEscort ≠ p.needsEscort := by
    rw [amended_eq]
    simpa only [hc] using hv
  simp [State.amendConflicts, changed]

/-- The state after an accepted amendment: the permit written, then the effects on its holder. -/
def State.amend (s : State) (c : PermitAmend) (p : Permit) : State :=
  (s.updatePermit c.number (fun q => q.amended c)).actOnHolder (p.amended c) c

theorem servePermitAmend_unread {code : ReplyCode} (h : readAmendBody b = .error code) :
    servePermitAmend b s = .error code := by simp [servePermitAmend, h]

theorem servePermitAmend_absent (h : readAmendBody b = .ok c) (hn : s.permit c.number = none) :
    servePermitAmend b s = .error .notFound := by simp [servePermitAmend, h, hn]

/-- R9 steps 4 and 5, of an amend body that is read and names a permit of the table. -/
theorem servePermitAmend_found (h : readAmendBody b = .ok c) (hp : s.permit c.number = some (slot, p)) :
    servePermitAmend b s =
      if c.validUntil.getD p.validUntil ≤ c.validFrom.getD p.validFrom then .error .range
      else if s.inUse c.number ≠ 0 ∧ s.amendConflicts p c then .error .inUse
      else .ok (s.amend c p, permitReport slot (p.amended c) ((s.amend c p).inUse c.number)) := by
  simp only [servePermitAmend, h, hp]
  rfl

/-- An amendment that the checks let pass. -/
theorem servePermitAmend_accepted (h : readAmendBody b = .ok c) (hp : s.permit c.number = some (slot, p))
    (hv : c.validFrom.getD p.validFrom < c.validUntil.getD p.validUntil)
    (hok : s.inUse c.number = 0 ∨ s.amendConflicts p c = false) : servePermitAmend b s =
      .ok (s.amend c p, permitReport slot (p.amended c) ((s.amend c p).inUse c.number)) := by
  have allowed : ¬ (s.inUse c.number ≠ 0 ∧ s.amendConflicts p c) := by
    rcases hok with h0 | h0 <;> simp [h0]
  rw [servePermitAmend_found h hp, if_neg (by omega), if_neg allowed]

/-- R12 item 2: the recompute of the holder's record, where the amendment moves his deadline. -/
def State.recomputeHolder (s : State) (p : Permit) (c : PermitAmend) : State :=
  match s.pool.find? (fun o => o.permit = p.number ∧ o.presence ≠ .admitting) with
  | some o => if c.movesDeadline then s.recompute o p else s
  | none => s

/-- R12: the suspension of a member, then the recompute of a record. -/
theorem actOnHolder_eq : s.actOnHolder p c =
    (if c.status = some .suspended then s.suspendMember p.number else s).recomputeHolder p c := rfl

/-- R12 item 1: nobody leaves a group unless a member's permit is suspended. -/
theorem actOnHolder_unsuspended
    (hs : c.status = some .suspended → ∀ g ∈ s.groups, ∀ m ∈ g.members, m.permit ≠ p.number) :
    s.actOnHolder p c = s.recomputeHolder p c := by
  rw [actOnHolder_eq]
  split
  · rename_i hc
    rw [suspendMember_none (hs hc)]
  · rfl

theorem recomputeHolder_absent (h : ∀ o ∈ s.pool, o.permit = p.number → o.presence = .admitting) :
    s.recomputeHolder p c = s := by
  have none : s.pool.find? (fun o => o.permit = p.number ∧ o.presence ≠ .admitting) = none := by
    simpa [List.find?_eq_none] using h
  unfold State.recomputeHolder
  rw [none]

theorem recomputeHolder_unmoved (h : c.movesDeadline = false) : s.recomputeHolder p c = s := by
  unfold State.recomputeHolder
  split
  · simp [h]
  · rfl

theorem recomputeHolder_moved {o : Occupant}
    (ho : s.pool.find? (fun o => o.permit = p.number ∧ o.presence ≠ .admitting) = some o)
    (hm : c.movesDeadline = true) : s.recomputeHolder p c = s.recompute o p := by
  unfold State.recomputeHolder
  rw [ho]
  exact if_pos hm

theorem movesDeadline_iff : c.movesDeadline = true
    ↔ c.validUntil ≠ none ∨ c.window ≠ none ∨ c.maxStay ≠ none ∨ c.allowance ≠ .unchanged := by
  simp [PermitAmend.movesDeadline, Option.isSome_iff_ne_none, or_assoc]

theorem permit_number (hp : s.permit c.number = some (slot, p)) : p.number = c.number := (permit_eq_some hp).2

end

/-! ### The recompute (R108 to R111) -/

section
variable {s : State} {o : Occupant} {deadline : Nat}

theorem relevel_inUse (s : State) (o : Occupant) (deadline n : Nat) : (s.relevel o deadline).inUse n = s.inUse n := by
  have cleared : (s.returnToClear o deadline).inUse n = s.inUse n := by
    rw [← inUse_updateRecord (s := s) o.credential (f := fun x => { x with overstay := .clear }) (fun _ => rfl) n]
    exact inUse_congr (by simp [State.returnToClear]) (by simp [State.returnToClear]) n
  unfold State.relevel
  split
  · rfl
  · split
    · exact cleared
    · rfl
  · split
    · exact cleared
    · rfl

/-- R108: the record's deadline from its own entry minute, its entry removed, with a RECOMPUTE record. -/
def State.newDeadline (s : State) (o : Occupant) (entry deadline : Nat) : State :=
  ((s.unscheduleRecord o.credential).updateRecord o.credential
      (fun x => { x with presence := .inside entry deadline })).put
    { kind := .recompute, station := o.station, room := o.room, credential := o.credential, permit := o.permit
      value := .number deadline }

theorem recompute_inside {entry old : Nat} (h : o.presence = .inside entry old) (p : Permit) : s.recompute o p =
    (s.newDeadline o entry (stayDeadline p s.settings.weekdayOffset (entry / 60))).relevel o
      (stayDeadline p s.settings.weekdayOffset (entry / 60)) := by
  simp only [State.recompute, h]
  rfl

theorem newDeadline_inUse (s : State) (o : Occupant) (entry deadline n : Nat) :
    (s.newDeadline o entry deadline).inUse n = s.inUse n := by
  rw [← inUse_updateRecord (s := s) o.credential (f := fun x => { x with presence := .inside entry deadline })
    (fun _ => rfl) n]
  exact inUse_congr (by simp [State.newDeadline]) (by simp [State.newDeadline]) n

@[simp] theorem newDeadline_nowMinute (s : State) (o : Occupant) (entry deadline : Nat) :
    (s.newDeadline o entry deadline).nowMinute = s.nowMinute := by
  simp [State.newDeadline, State.nowMinute, State.now]

@[simp] theorem newDeadline_room (s : State) (o : Occupant) (entry deadline n : Nat) :
    (s.newDeadline o entry deadline).room n = s.room n := by
  simp [State.newDeadline, State.room]

theorem recompute_inUse (s : State) (o : Occupant) (p : Permit) (n : Nat) : (s.recompute o p).inUse n = s.inUse n := by
  cases h : o.presence with
  | admitting => simp [State.recompute, h]
  | inside entry old => rw [recompute_inside h, relevel_inUse, newDeadline_inUse]

/-- R110: no level stood. -/
theorem relevel_clear (h : o.overstay = .clear) :
    s.relevel o deadline = s.schedule (deadline * 60) (.stayDeadline o.credential) := by
  simp [State.relevel, h]

/-- R110, R111: a level stood, and the new deadline lies after now. -/
theorem relevel_later (h : o.overstay ≠ .clear) (hd : s.nowMinute < deadline) :
    s.relevel o deadline = s.returnToClear o deadline := by
  unfold State.relevel
  cases hl : o.overstay with
  | clear => exact absurd hl h
  | raised => exact if_pos hd
  | escalated => exact if_pos hd

/-- R110: level 1 stays, and its entry is for the escalation. -/
theorem relevel_raised (h : o.overstay = .raised) (hd : deadline ≤ s.nowMinute) : s.relevel o deadline =
    s.schedule ((deadline + (s.room o.room).grace) * 60) (.escalation o.credential) := by
  simp only [State.relevel, h]
  exact if_neg (by omega)

/-- R111: level 2 stays, with no entry. -/
theorem relevel_escalated (h : o.overstay = .escalated) (hd : deadline ≤ s.nowMinute) : s.relevel o deadline = s := by
  simp only [State.relevel, h]
  exact if_neg (by omega)

end

/-- R12 item 2: the whole effect of an amendment which recomputes an INSIDE record. -/
theorem amend_recomputes {s : State} {c : PermitAmend} {slot : Nat} {p : Permit} {o : Occupant}
    (hp : s.permit c.number = some (slot, p))
    (hs : c.status = some .suspended → ∀ g ∈ s.groups, ∀ m ∈ g.members, m.permit ≠ c.number)
    (hm : c.validUntil ≠ none ∨ c.window ≠ none ∨ c.maxStay ≠ none ∨ c.allowance ≠ .unchanged)
    (ho : s.pool.find? (fun o => o.permit = c.number ∧ o.presence ≠ .admitting) = some o) :
    s.amend c p = (s.updatePermit c.number (fun q => q.amended c)).recompute o (p.amended c) := by
  have number : (p.amended c).number = c.number := (permit_number hp : p.number = c.number)
  unfold State.amend
  rw [actOnHolder_unsuspended (by simpa [number] using hs), recomputeHolder_moved _ (movesDeadline_iff.2 hm)]
  simpa [number] using ho

/-- Settles O19. -/
theorem amendRecomputesDeadline : Obligations.AmendRecomputesDeadline := by
  intro s f c slot p o entry old hf hb hp hv hrooms hesc hsus hmoves ho hi deadline written recorded cleared
  have holds : o.permit = c.number ∧ o ∈ s.pool :=
    ⟨(by simpa using List.find?_some ho : _ ∧ _).1, List.mem_of_find?_eq_some ho⟩
  have noConflict : s.amendConflicts p c = false := by
    refine amendConflicts_eq_false (fun rooms r hc hr => ?_) hesc
    rw [permit_number hp] at hr
    obtain ⟨x, hx, hxp, rfl⟩ | ⟨hnone, -⟩ := holderRoom_eq_some hr
    · exact hrooms rooms hc x hx hxp
    · exact absurd holds.1 (by simpa using List.find?_eq_none.1 hnone o holds.2)
  have effect := amend_recomputes hp hsus hmoves ho
  have served := servePermitAmend_accepted hb hp hv (.inr noConflict)
  have count : (s.amend c p).inUse c.number = s.inUse c.number := by rw [effect, recompute_inUse]; rfl
  rw [count, effect, recompute_inside hi] at served
  refine ⟨fun hl => ?_, fun hl hd => ?_, fun hl hd => ?_, fun hl hd => ?_⟩
  · rw [relevel_clear hl] at served
    exact answers_of_serve rfl hf served
  · rw [relevel_later hl (by rw [newDeadline_nowMinute]; exact hd)] at served
    exact answers_of_serve rfl hf served
  · rw [relevel_raised hl (by rw [newDeadline_nowMinute]; exact hd), newDeadline_room] at served
    exact answers_of_serve rfl hf served
  · rw [relevel_escalated hl (by rw [newDeadline_nowMinute]; exact hd)] at served
    exact answers_of_serve rfl hf served

end Sys2Proof.Machine
end

