-- ==== Sys2Proof/Proofs/Suspension.lean ====
section
/-! PERMIT-AMEND of a permit in use: its refusals, an amendment with no effect on the holder, and the suspension of a group
member (R11, R12, R79). -/
namespace Sys2Proof.Machine

/-! ### A permit nobody holds stays unheld when groups are completed -/

section
variable {s : State} {n : Nat}

theorem inUse_completeGroup {g : Group} (h : s.inUse n = 0) (hg : ∀ m ∈ g.members, m.permit ≠ n)
    (t : Option (Nat × Nat)) : (s.completeGroup g t).inUse n = 0 := by
  obtain ⟨pool, members⟩ := inUse_eq_zero.1 h
  rw [inUse_eq_zero, State.completeGroup_pool, State.members, State.completeGroup_groups]
  refine ⟨fun o ho => ?_, fun m hm => ?_⟩
  · rcases List.mem_append.1 ho with ho | ho
    · exact pool o ho
    · obtain ⟨m, hm, rfl⟩ := List.mem_map.1 ho
      exact hg m hm
  · obtain ⟨x, hx, hm⟩ := List.mem_flatMap.1 hm
    exact members m (List.mem_flatMap.2 ⟨x, List.mem_of_mem_filter hx, hm⟩)

theorem inUse_retestFor (room : Nat) : ∀ (k : Nat) {s : State}, s.inUse n = 0 → (State.retestFor k room s).inUse n = 0
  | 0, _, h => h
  | k + 1, s, h => by
    unfold State.retestFor
    split
    · exact h
    · rename_i g hg
      have hg : g ∈ s.groups := List.mem_of_mem_filter (List.mem_of_find?_eq_some hg)
      exact inUse_retestFor room k
        (inUse_completeGroup h (fun m hm => (inUse_eq_zero.1 h).2 m (List.mem_flatMap.2 ⟨g, hg, hm⟩)) none)

theorem inUse_retest (h : s.inUse n = 0) (room : Nat) : (s.retest room).inUse n = 0 := inUse_retestFor room _ h

end

/-! ### The one holder of a permit -/

/-- The members of the waiting groups, each with his group. -/
def State.waiting (s : State) : List (Group × Member) := s.groups.flatMap (fun g => g.members.map (fun m => (g, m)))

theorem mem_waiting {s : State} {g : Group} {m : Member} : (g, m) ∈ s.waiting ↔ g ∈ s.groups ∧ m ∈ g.members := by
  simp [State.waiting]

theorem waiting_members (s : State) : s.waiting.map Prod.snd = s.members := by
  simp [State.waiting, State.members, List.map_flatMap]

theorem eq_of_countP_le_one {α : Type} {l : List α} {q : α → Bool} (h : l.countP q ≤ 1) {a b : α} (ha : a ∈ l) (hb : b ∈ l)
    (hqa : q a = true) (hqb : q b = true) : a = b := by
  rw [List.countP_eq_length_filter] at h
  have ma := List.mem_filter.2 ⟨ha, hqa⟩
  have mb := List.mem_filter.2 ⟨hb, hqb⟩
  match hl : l.filter q, h with
  | [], _ => simp [hl] at ma
  | [x], _ => rw [hl, List.mem_singleton] at ma mb; exact ma.trans mb.symm

section
variable {s : State} {g : Group} {m : Member} {n : Nat}
  (h1 : s.inUse n = 1) (hg : g ∈ s.groups) (hm : m ∈ g.members) (hn : m.permit = n)
include h1 hg hm hn

/-- R5: a permit that a waiting member holds is held by him alone. -/
theorem holder_unique {g' : Group} {m' : Member} (hg' : g' ∈ s.groups) (hm' : m' ∈ g'.members) (hn' : m'.permit = n) :
    g' = g ∧ m' = m := by
  have count : s.waiting.countP (fun x => x.2.permit = n) ≤ 1 := by
    have : s.waiting.countP (fun x => x.2.permit = n) = s.members.countP (fun m => m.permit = n) := by
      rw [← waiting_members, List.countP_map]; rfl
    rw [this, ← h1]
    exact Nat.le_add_left _ _
  exact Prod.mk.inj (eq_of_countP_le_one count (mem_waiting.2 ⟨hg', hm'⟩) (mem_waiting.2 ⟨hg, hm⟩) (by simpa using hn')
    (by simpa using hn))

theorem no_record_of_member : ∀ o ∈ s.pool, o.permit ≠ n := by
  have : 0 < s.members.countP (fun m => m.permit = n) :=
    List.countP_pos_iff.2 ⟨m, List.mem_flatMap.2 ⟨g, hg, hm⟩, by simpa using hn⟩
  have : s.pool.countP (fun o => o.permit = n) = 0 := by unfold State.inUse at h1; omega
  simpa [List.countP_eq_zero] using this

/-- R12 item 1: it is the member who leaves his group. -/
theorem suspendMember_holder : s.suspendMember n = s.removeMember g m .suspended := by
  unfold State.suspendMember
  have found : s.groups.find? (fun g => g.members.any (fun m => m.permit = n)) ≠ none := by
    rw [Ne, List.find?_eq_none]
    exact fun h => h g hg (List.any_eq_true.2 ⟨m, hm, by simpa using hn⟩)
  split
  · rename_i g' hg'
    obtain ⟨y, hy, hyn⟩ : ∃ y ∈ g'.members, y.permit = n := by simpa using List.find?_some hg'
    obtain ⟨rfl, rfl⟩ := holder_unique h1 hg hm hn (List.mem_of_find?_eq_some hg') hy hyn
    split
    · rename_i x hx
      rw [(holder_unique h1 hg hm hn hg (List.mem_of_find?_eq_some hx) (by simpa using List.find?_some hx)).2]
    · rename_i hx
      exact absurd hn (by simpa using List.find?_eq_none.1 hx _ hm)
  · rename_i hnone
    exact absurd hnone found

/-- R79: once he is out of his group nobody holds the permit. -/
theorem inUse_expel (r : Reason) :
    (s.expel g m r).inUse n = 0 := by
  refine inUse_eq_zero.2 ⟨fun o ho => no_record_of_member h1 hg hm hn o (by simpa using ho), fun x hx hxn => ?_⟩
  obtain ⟨y, hy, hx⟩ := List.mem_flatMap.1 hx
  rw [State.expel_groups, State.setMembers_groups] at hy
  obtain ⟨z, hz, rfl⟩ := List.mem_map.1 hy
  by_cases hzs : z.station = g.station
  · rw [if_pos hzs] at hx
    obtain ⟨hx, hne⟩ := List.mem_filter.1 hx
    rw [(holder_unique h1 hg hm hn hg hx hxn).2] at hne
    simp at hne
  · rw [if_neg hzs] at hx
    exact hzs (by rw [(holder_unique h1 hg hm hn hz hx hxn).1])

theorem inUse_removeMember (r : Reason) : (s.removeMember g m r).inUse n = 0 := by
  have h0 := inUse_expel h1 hg hm hn r
  obtain ⟨pool, members⟩ := inUse_eq_zero.1 h0
  rw [removeMember_eq]
  split
  · refine inUse_eq_zero.2 ⟨pool, fun x hx => ?_⟩
    obtain ⟨y, hy, hx⟩ := List.mem_flatMap.1 hx
    exact members x (List.mem_flatMap.2 ⟨y, List.mem_of_mem_filter hy, hx⟩)
  · unfold State.retestGroup
    split
    · exact h0
    · rename_i y hy
      split
      · exact inUse_retest (inUse_completeGroup h0
          (fun x hx => members x (List.mem_flatMap.2 ⟨y, (groupAt_eq_some hy).1, hx⟩)) none) _
      · exact h0

end

theorem groupAt_of_mem {s : State} {g : Group} (hs : s.groups.Pairwise (fun g g' => g.station < g'.station))
    (hg : g ∈ s.groups) : s.groupAt g.station = some g := by
  obtain ⟨a, b, hl, ha, -⟩ := groups_split (hs.imp Nat.ne_of_lt) hg
  have none : a.find? (fun x => x.station = g.station) = none := by simpa [List.find?_eq_none] using ha
  simp [State.groupAt, hl, List.find?_append, none]

/-! ### PERMIT-AMEND of a permit in use -/

section
variable {s : State} {f : Frame} {c : PermitAmend} {slot : Nat} {p : Permit}

/-- R11: the amendments that conflict with the holder's presence. -/
theorem amendConflicts_eq_true (hpn : p.number = c.number)
    (h : (∃ rooms o, c.rooms = some rooms ∧ s.pool.find? (fun o => o.permit = c.number) = some o ∧ o.room ∉ rooms)
      ∨ (∃ rooms g, c.rooms = some rooms ∧ s.pool.find? (fun o => o.permit = c.number) = none
          ∧ s.groups.find? (fun g => g.members.any (fun m => m.permit = c.number)) = some g ∧ g.room ∉ rooms)
      ∨ (∃ v, c.needsEscort = some v ∧ (p.role == .worker && v) ≠ p.needsEscort)) : s.amendConflicts p c = true := by
  obtain ⟨rooms, o, hc, ho, hr⟩ | ⟨rooms, g, hc, ho, hg, hr⟩ | ⟨v, hc, hv⟩ := h
  · exact amendConflicts_room (r := o.room) hc (by simp [State.holderRoom, hpn, ho]) hr
  · exact amendConflicts_room (r := g.room) hc (by simp [State.holderRoom, hpn, ho, hg]) hr
  · exact amendConflicts_needsEscort hc hv

/-- R11: an amendment that keeps the room of every holder, and needs escort, is accepted. -/
theorem amendConflicts_kept (hpn : p.number = c.number)
    (hr : ∀ rooms, c.rooms = some rooms → (∀ o ∈ s.pool, o.permit = c.number → o.room ∈ rooms)
      ∧ (∀ g ∈ s.groups, (∃ m ∈ g.members, m.permit = c.number) → g.room ∈ rooms))
    (hv : ∀ v, c.needsEscort = some v → (p.role == .worker && v) = p.needsEscort) : s.amendConflicts p c = false := by
  refine amendConflicts_eq_false (fun rooms r hc hh => ?_) hv
  rw [hpn] at hh
  obtain ⟨o, ho, hn, rfl⟩ | ⟨-, g, hg, hm, rfl⟩ := holderRoom_eq_some hh
  · exact (hr rooms hc).1 o ho hn
  · exact (hr rooms hc).2 g hg hm

/-- R12: an amendment which recomputes nothing and suspends no member writes the permit alone. -/
theorem amend_plain (hpn : p.number = c.number)
    (hs : c.status ≠ some .suspended ∨ (∀ g ∈ s.groups, ∀ m ∈ g.members, m.permit ≠ c.number))
    (hr : (∀ o ∈ s.pool, o.permit = c.number → o.presence = .admitting)
      ∨ c.validUntil = none ∧ c.window = none ∧ c.maxStay = none ∧ c.allowance = .unchanged) :
    s.amend c p = s.updatePermit c.number (fun q => q.amended c) := by
  have number : (p.amended c).number = c.number := hpn
  unfold State.amend
  rw [actOnHolder_unsuspended fun hc => ?_]
  · rcases hr with hr | ⟨h1, h2, h3, h4⟩
    · exact recomputeHolder_absent (by simpa [number] using hr)
    · exact recomputeHolder_unmoved (by simp [PermitAmend.movesDeadline, h1, h2, h3, h4])
  · rcases hs with hs | hs
    · exact absurd hc hs
    · simpa [number] using hs

/-- R12 item 1: the suspension of a waiting member's permit takes him out of his group, and no more. -/
theorem amend_suspends {g : Group} {m : Member} (hpn : p.number = c.number) (h1 : s.inUse c.number = 1)
    (hg : g ∈ s.groups) (hm : m ∈ g.members) (hn : m.permit = c.number) (hs : c.status = some .suspended) :
    s.amend c p = (s.updatePermit c.number (fun q => q.amended c)).removeMember g m .suspended := by
  have number : (p.amended c).number = c.number := hpn
  unfold State.amend
  rw [actOnHolder_eq, if_pos hs, number, suspendMember_holder (s := s.updatePermit _ _) h1 hg hm hn]
  have none := inUse_removeMember (s := s.updatePermit c.number (fun q => q.amended c)) h1 hg hm hn .suspended
  refine recomputeHolder_absent fun o ho hon => absurd (hon.trans number) ?_
  exact (inUse_eq_zero.1 none).1 o ho

end

/-- Settles O18. -/
theorem amendChecked : Obligations.AmendChecked := by
  refine ⟨fun s f hf => ⟨fun code hb => ?_, fun c hb hn => ?_, fun c slot p hb hp hv => ?_,
      fun c slot p hb hp hv h0 => ?_⟩,
    fun s f c slot p hf hb hp hpn hv hu hconf => ?_, amended_eq,
    fun s f c slot p hf hb hp hpn hv hps h1 hrooms hesc => ⟨fun hs hr => ?_, fun g hg m hm hn hs => ?_⟩⟩
  · exact refuses_of_serve rfl hf (servePermitAmend_unread hb)
  · exact refuses_of_serve rfl hf (servePermitAmend_absent hb (permit_eq_none.2 hn))
  · exact refuses_of_serve rfl hf (by rw [servePermitAmend_found hb hp, if_pos hv])
  · obtain ⟨pool, members⟩ := inUse_eq_zero.1 h0
    have plain := amend_plain (s := s) (permit_number hp)
      (.inr fun g hg m hm => members m (List.mem_flatMap.2 ⟨g, hg, hm⟩)) (.inl fun o ho hon => absurd hon (pool o ho))
    have served := servePermitAmend_accepted hb hp hv (.inl h0)
    rw [plain, show (s.updatePermit c.number _).inUse c.number = 0 from h0] at served
    exact answers_of_serve rfl hf served
  · exact refuses_of_serve rfl hf
      (by rw [servePermitAmend_found hb hp, if_neg (by omega), if_pos ⟨hu, amendConflicts_eq_true hpn hconf⟩])
  all_goals have served := servePermitAmend_accepted hb hp hv (.inr (amendConflicts_kept hpn hrooms hesc))
  · rw [amend_plain hpn hs hr, show (s.updatePermit c.number _).inUse c.number = 1 from h1] at served
    exact answers_of_serve rfl hf served
  · rw [amend_suspends hpn h1 hg hm hn hs,
      inUse_removeMember (s := s.updatePermit c.number (fun q => q.amended c)) h1 hg hm hn] at served
    rw [← hn] at served ⊢
    refine ⟨fun hnil => ?_, fun hne ht => ?_, fun hne ht => ?_⟩
    · rw [removeMember_last hnil, State.expel_groups, setMembers_filter] at served
      exact answers_of_serve rfl hf served
    · rw [removeMember_waits (s := s.updatePermit _ _) (groupAt_of_mem hps.2.1 hg) hne ht] at served
      exact answers_of_serve rfl hf served
    · rw [removeMember_completes (s := s.updatePermit _ _) (groupAt_of_mem hps.2.1 hg) hne ht] at served
      exact answers_of_serve rfl hf served

end Sys2Proof.Machine
end

