-- ==== Sys2Proof/Proofs/Telling.lean ====
section
/-! What an action hands to the trail and offers as notices, in one order (R153, R166). A start-up offers its notices to a
queue that nothing empties meanwhile, so the queue is the first sixteen of all that is offered. -/
namespace Sys2Proof.Machine

/-! ### The trail and the notices after a list of records and notices -/

/-- One record handed to the trail, or one notice offered: the trail, and all notices so far, the TRAIL-HALF of a half
closed among them. -/
def hear (stamp : TrailRecord → TrailRecord) (w : Trail × List Notice) (x : TrailRecord ⊕ Notice) : Trail × List Notice :=
  match x with
  | .inl r => ((w.1.put (stamp r)).1, w.2 ++ (w.1.put (stamp r)).2.toList)
  | .inr n => (w.1, w.2 ++ [n])

section
variable (stamp : TrailRecord → TrailRecord)

/-- Notices offered before stand before. -/
theorem foldl_hear_append (l : List (TrailRecord ⊕ Notice)) : ∀ (tr : Trail) (a b : List Notice),
    l.foldl (hear stamp) (tr, a ++ b) = ((l.foldl (hear stamp) (tr, b)).1, a ++ (l.foldl (hear stamp) (tr, b)).2) := by
  induction l with
  | nil => intro tr a b; rfl
  | cons x l ih =>
    intro tr a b
    cases x with
    | inl r => simpa only [List.foldl_cons, hear, List.append_assoc] using ih _ a _
    | inr n => simpa only [List.foldl_cons, hear, List.append_assoc] using ih _ a _

/-- The trail hears the records alone. -/
theorem foldl_hear_trail (l : List (TrailRecord ⊕ Notice)) : ∀ w : Trail × List Notice, (l.foldl (hear stamp) w).1
    = ((l.filterMap Sum.getLeft?).map stamp).foldl (fun tr r => (tr.put r).1) w.1 := by
  induction l with
  | nil => intro w; rfl
  | cons x l ih =>
    intro w
    cases x with
    | inl r => simp [ih, hear]
    | inr n => simp [ih, hear, List.filterMap_cons]

end

/-! ### The host line of a part that has just restarted -/

/-- R166, R171: the host line after a restart, when these notices have been offered. -/
def offeredHost (rate : Nat) (l : List Notice) : HostLine :=
  { restartedHost rate with notices := l.take 16, noticesDropped := decide (16 < l.length) }

/-- The trail and the host line stand as these records and notices leave them. -/
def State.Told (s : State) (rate : Nat) (w : Trail × List Notice) : Prop :=
  s.trail = w.1 ∧ s.host = offeredHost rate w.2

section
variable {s t u : State} {rate : Nat} {w : Trail × List Notice}

/-- R166: the notice is the last of the queue, or is dropped where sixteen wait. -/
theorem State.Told.offer (h : s.Told rate w) (n : Notice) : (s.offer n).Told rate (w.1, w.2 ++ [n]) := by
  obtain ⟨htr, hh⟩ := h
  have hlen : s.host.notices.length = min 16 w.2.length := by simp [hh, offeredHost]
  refine ⟨by simpa using htr, ?_⟩
  obtain ⟨hl, he⟩ | ⟨hl, he⟩ := s.offer_spec n
  · have fits : (w.2 ++ [n]).length ≤ 16 := by simp; omega
    rw [he, hh]
    simp [offeredHost, List.take_of_length_le fits, List.take_of_length_le (show w.2.length ≤ 16 by omega)]
    omega
  · have long : 16 ≤ w.2.length := by omega
    rw [he, hh]
    simp [offeredHost, List.take_append_of_le_length long, Nat.lt_succ_of_le long]

theorem State.Told.offerSome (h : s.Told rate w) (o : Option Notice) :
    (s.offerSome o).Told rate (w.1, w.2 ++ o.toList) := by
  cases o with
  | none => simpa [State.offerSome] using h
  | some n => exact h.offer n

/-- R153: a record is written, with the TRAIL-HALF notice of a half that it closes. -/
theorem State.Told.put (h : s.Told rate w) (r : TrailRecord) : (s.put r).Told rate (hear s.stamp w (.inl r)) := by
  obtain ⟨htr, hh⟩ := h
  have written : State.Told { s with trail := (w.1.put (s.stamp r)).1 } rate ((w.1.put (s.stamp r)).1, w.2) := ⟨rfl, hh⟩
  unfold State.put
  rw [htr]
  exact written.offerSome _

/-! ### What an action tells -/

/-- What the engine work of a start-up leaves alone. -/
def State.SameAround (s t : State) : Prop :=
  t.clock = s.clock ∧ t.settings = s.settings ∧ t.permits = s.permits ∧ t.revoked = s.revoked
    ∧ t.presentations = s.presentations ∧ t.stations = s.stations ∧ t.line = s.line ∧ t.sweep = s.sweep
    ∧ t.supply = s.supply ∧ t.lastDoor = s.lastDoor ∧ t.pending = s.pending

theorem State.SameAround.stamp (h : s.SameAround t) : t.stamp = s.stamp := by
  unfold State.stamp
  rw [h.1]

theorem State.SameAround.now (h : s.SameAround t) : t.now = s.now := by
  unfold State.now
  rw [h.1]

/-- The action from one state to another tells these records and notices, and no more. -/
structure State.Tells (l : List (TrailRecord ⊕ Notice)) (s t : State) : Prop where
  around : s.SameAround t
  told : ∀ rate w, s.Told rate w → t.Told rate (l.foldl (hear s.stamp) w)

theorem State.Tells.refl (s : State) : State.Tells [] s s := ⟨by simp [State.SameAround], fun _ _ h => h⟩

theorem State.Tells.trans {l l' : List (TrailRecord ⊕ Notice)} (h : State.Tells l s t) (h' : State.Tells l' t u) :
    State.Tells (l ++ l') s u where
  around := by
    obtain ⟨a, -⟩ := h
    obtain ⟨b, -⟩ := h'
    unfold State.SameAround at *
    simp_all
  told rate w hw := by
    rw [List.foldl_append, ← h.around.stamp]
    exact h'.told rate _ (h.around.stamp ▸ h.told rate w hw)

/-- A change of the tables, after which the trail and the host line are as they were. -/
theorem State.Tells.of_same (ha : s.SameAround t) (htr : t.trail = s.trail) (hh : t.host = s.host) :
    State.Tells [] s t := ⟨ha, fun _ _ hw => ⟨htr.trans hw.1, hh.trans hw.2⟩⟩

theorem tells_put (s : State) (r : TrailRecord) : State.Tells [.inl r] s (s.put r) :=
  ⟨by simp [State.SameAround], fun _ _ hw => hw.put r⟩

theorem tells_offer (s : State) (n : Notice) : State.Tells [.inr n] s (s.offer n) :=
  ⟨by simp [State.SameAround], fun _ _ hw => hw.offer n⟩

theorem tells_foldl {α : Type} {f : State → α → State} {g : α → List (TrailRecord ⊕ Notice)}
    (h : ∀ s x, State.Tells (g x) s (f s x)) (l : List α) : ∀ s, State.Tells (l.flatMap g) s (l.foldl f s) := by
  induction l with
  | nil => exact State.Tells.refl
  | cons x l ih => exact fun s => (h s x).trans (ih (f s x))

end

end Sys2Proof.Machine
end

