-- ==== Sys2Proof/Proofs/WarmWork.lean ====
section
/-! The engine work of a warm start-up (R44, R81, R97): what it leaves of the tables, and what it tells. -/
namespace Sys2Proof.Machine

/-! ### The ADMITTING records lapsed (R44 step 1) -/

/-- R44, R32, R33 step 4: the LAPSE record, and the level 0 notices of the lapsed markers. -/
def lapseTold (o : Occupant) : List (TrailRecord ⊕ Notice) :=
  .inl { kind := .lapse, station := o.station, room := o.room, credential := o.credential, permit := o.permit
         reason := .restart }
    :: ((if o.overstay = .clear then [] else [.inr (o.notice .overstay .clear)])
      ++ (if o.revokedInside then [.inr (o.notice .revokedInside .clear)] else []))

section
variable {s : State}

theorem tells_clearOverstay (s : State) (o : Occupant) :
    State.Tells (if o.overstay = .clear then [] else [.inr (o.notice .overstay .clear)]) s (s.clearOverstay o) := by
  unfold State.clearOverstay
  split
  · exact .refl s
  · exact tells_offer s _

theorem tells_clearRevoked (s : State) (o : Occupant) :
    State.Tells (if o.revokedInside then [.inr (o.notice .revokedInside .clear)] else []) s (s.clearRevoked o) := by
  unfold State.clearRevoked
  split
  · exact tells_offer s _
  · exact .refl s

theorem tells_leave (s : State) (o : Occupant) :
    State.Tells ((if o.overstay = .clear then [] else [.inr (o.notice .overstay .clear)])
      ++ (if o.revokedInside then [.inr (o.notice .revokedInside .clear)] else [])) s (s.leave o) := by
  have unscheduled : State.Tells [] s (s.unscheduleRecord o.credential) :=
    .of_same (by simp [State.SameAround]) rfl rfl
  have said := (unscheduled.trans (tells_clearOverstay _ o)).trans (tells_clearRevoked _ o)
  exact List.append_nil (_ ++ _) ▸ said.trans (.of_same (by simp [State.SameAround, State.leave]) rfl rfl)

theorem tells_lapse (s : State) (o : Occupant) : State.Tells (lapseTold o) s (State.lapse .restart s o) :=
  (tells_put s _).trans (tells_leave _ o)

theorem foldl_lapse_pool (l : List Occupant) : ∀ s : State, (l.foldl (State.lapse .restart) s).pool
    = s.pool.filter (fun o => o.credential ∉ l.map Occupant.credential) := by
  induction l with
  | nil => intro s; simp
  | cons x l ih =>
    intro s
    rw [List.foldl_cons, ih, State.lapse, leave_pool, List.filter_filter]
    obtain ⟨-, -, -, -, -, hpool, -⟩ := s.put_frame
      { kind := .lapse, station := x.station, room := x.room, credential := x.credential, permit := x.permit
        reason := .restart }
    rw [hpool]
    refine List.filter_congr fun o _ => ?_
    rw [List.map_cons, ← Bool.decide_and]
    exact decide_eq_decide.2 (by simp [and_comm])

/-- R44 step 1: the records that are not ADMITTING stay, where every record is of one of the rooms. -/
theorem lapseAll_pool (hc : (s.pool.map Occupant.credential).Nodup) (hr : ∀ o ∈ s.pool, 1 ≤ o.room ∧ o.room ≤ 12) :
    s.lapseAll.pool = s.pool.filter (fun o => o.presence ≠ .admitting) := by
  unfold State.lapseAll
  rw [foldl_lapse_pool]
  refine List.filter_congr fun o ho => ?_
  have : o.credential ∈ (s.byRoom.filter (fun o => o.presence = .admitting)).map Occupant.credential
      ↔ o.presence = .admitting := by
    constructor
    · intro h
      obtain ⟨x, hx, hxo⟩ := List.mem_map.1 h
      obtain ⟨hx, hxa⟩ := List.mem_filter.1 hx
      cases List.inj_on_of_nodup_map hc (mem_byRoom.1 hx).1 ho hxo
      exact of_decide_eq_true hxa
    · exact fun h => List.mem_map_of_mem (List.mem_filter.2 ⟨mem_byRoom.2 ⟨ho, hr o ho⟩, decide_eq_true h⟩)
  simp only [this, ne_eq]

theorem tells_lapseAll (s : State) :
    State.Tells ((s.byRoom.filter (fun o => o.presence = .admitting)).flatMap lapseTold) s s.lapseAll :=
  tells_foldl tells_lapse _ s

/-! ### The groups discarded (R81) -/

/-- R81: the DENY records of a group's members. -/
def denialsTold (g : Group) : List (TrailRecord ⊕ Notice) :=
  g.members.map (fun m =>
    .inl { kind := .deny, station := g.station, room := g.room, credential := m.credential, permit := m.permit
           reason := .restart })

theorem tells_denials (s : State) (g : Group) :
    State.Tells (denialsTold g) s (g.members.foldl (State.denyAtRestart g) s) := by
  unfold denialsTold
  rw [List.map_eq_flatMap]
  exact tells_foldl (fun s m => tells_put s _) g.members s

theorem tells_discardGroups (s : State) : State.Tells (s.groups.flatMap denialsTold) s s.discardGroups :=
  List.append_nil (s.groups.flatMap denialsTold) ▸
    (tells_foldl tells_denials s.groups s).trans (.of_same ⟨rfl, rfl, rfl, rfl, rfl, rfl, rfl, rfl, rfl, rfl, rfl⟩ rfl rfl)

/-! ### The deadline queue rebuilt (R97) -/

/-- R97: the entry of a kept record, by its overstay level. -/
def State.entryOf (s : State) (o : Occupant) : List DeadlineEntry :=
  match o.presence, o.overstay with
  | .inside _ deadline, .clear => [⟨deadline * 60, .stayDeadline o.credential⟩]
  | .inside _ deadline, .raised => [⟨(deadline + (s.room o.room).grace) * 60, .escalation o.credential⟩]
  | _, _ => []

/-- R93: entries put in their places, one after another. -/
def insertAll (l : List DeadlineEntry) (entries : List DeadlineEntry) : List DeadlineEntry :=
  entries.foldl (fun l e => insertDeadline e l) l

theorem insertAll_append (l a b : List DeadlineEntry) : insertAll l (a ++ b) = insertAll (insertAll l a) b :=
  List.foldl_append

/-- Entries of a list scheduled, one after another. -/
def State.scheduleAll (s : State) (entries : List DeadlineEntry) : State :=
  { s with deadlines := insertAll s.deadlines entries }

@[simp] theorem State.scheduleAll_nil (s : State) : s.scheduleAll [] = s := rfl

@[simp] theorem State.scheduleAll_singleton (s : State) (e : DeadlineEntry) :
    s.scheduleAll [e] = s.schedule e.due e.what := rfl

theorem State.scheduleAll_append (s : State) (a b : List DeadlineEntry) :
    s.scheduleAll (a ++ b) = (s.scheduleAll a).scheduleAll b := by
  unfold State.scheduleAll
  rw [insertAll_append]

@[simp] theorem State.scheduleAll_deadlines (s : State) (l : List DeadlineEntry) :
    (s.scheduleAll l).deadlines = insertAll s.deadlines l := rfl

theorem tells_scheduleAll (s : State) (l : List DeadlineEntry) : State.Tells [] s (s.scheduleAll l) :=
  .of_same ⟨rfl, rfl, rfl, rfl, rfl, rfl, rfl, rfl, rfl, rfl, rfl⟩ rfl rfl

theorem rebuildEntry_eq (s : State) (o : Occupant) : s.rebuildEntry o = s.scheduleAll (s.entryOf o) := by
  unfold State.rebuildEntry State.entryOf
  cases o.presence <;> cases o.overstay <;> rfl

theorem foldl_rebuildEntry (l : List Occupant) : ∀ s : State,
    l.foldl State.rebuildEntry s = s.scheduleAll (l.flatMap s.entryOf) := by
  induction l with
  | nil => intro s; rfl
  | cons o l ih =>
    intro s
    rw [List.foldl_cons, ih, rebuildEntry_eq, List.flatMap_cons, State.scheduleAll_append]
    rfl

/-! ### The room alerts rebuilt (R44 step 3) -/

/-- R44 step 3: the level of a room alert after start-up. -/
def State.rebuiltLevel (s : State) (a : RoomAlert) (n : Nat) : Level :=
  if a.stands (s.room n) ((s.occupants n).map Occupant.person) then
    if a.level (s.room n) = .clear then .raised else a.level (s.room n)
  else .clear

/-- R35, R44: the notice and the record of a room alert that changes. -/
def State.alertTold (s : State) (p : Nat × RoomAlert) : List (TrailRecord ⊕ Notice) :=
  if s.rebuiltLevel p.2 p.1 = p.2.level (s.room p.1) then []
  else [.inr (.alert { kind := p.2.kind, level := s.rebuiltLevel p.2 p.1, room := p.1 })
       , .inl { kind := .alert, room := p.1, reason := .alert p.2.kind, value := .number (s.rebuiltLevel p.2 p.1).code }]

/-- R44, R97: the entry of a room alert that stands at level 1. -/
def State.alertEntry (s : State) (p : Nat × RoomAlert) : List DeadlineEntry :=
  if s.rebuiltLevel p.2 p.1 = .raised then [⟨s.now + p.2.limit (s.room p.1), p.2.due p.1⟩] else []

theorem unschedule_unnamed {w : Due} (h : s.Unnamed w) : s.unschedule w = s := by
  unfold State.unschedule
  rw [List.filter_eq_self.2 fun e he => decide_eq_true (h e he)]

theorem setNth_nth {α : Type} (l : List α) (n : Nat) (d : α) : setNth l n (nth l n d) = l := by
  cases n with
  | zero => rfl
  | succ k =>
    by_cases hk : k < l.length
    · simp [setNth, nth, List.getD, hk]
    · exact List.set_eq_of_length_le (by omega)

theorem setLevel_level (a : RoomAlert) (r : Room) : a.setLevel r (a.level r) = r := by cases a <;> rfl

/-- R44 step 3: the alert moved where its level changes, with an entry where it stands at level 1. -/
theorem rebuildAlert_eq {a : RoomAlert} {n : Nat} (hu : s.Unnamed (a.due n)) : s.rebuildAlert a n =
    (if s.rebuiltLevel a n = a.level (s.room n) then s
      else s.moveRoomAlert a n (s.rebuiltLevel a n)).scheduleAll (s.alertEntry (n, a)) := by
  have unmoved (l : Level) : (s.moveRoomAlert a n l).unschedule (a.due n) = s.moveRoomAlert a n l :=
    unschedule_unnamed (by simpa [State.Unnamed] using hu)
  unfold State.rebuildAlert State.reevaluate State.alertEntry State.rebuiltLevel
  cases a.level (s.room n) <;>
    cases a.stands (s.room n) ((s.occupants n).map Occupant.person) <;>
    simp [unmoved]

end

/-- What the start-up of one room alert leaves and tells. -/
structure State.AlertRebuilt (s t : State) (p : Nat × RoomAlert) : Prop where
  tells : State.Tells (s.alertTold p) s t
  pool : t.pool = s.pool
  groups : t.groups = s.groups
  deadlines : t.deadlines = insertAll s.deadlines (s.alertEntry p)
  rooms : t.rooms = setNth s.rooms p.1 (p.2.setLevel (s.room p.1) (s.rebuiltLevel p.2 p.1))

section
variable {s t : State}

theorem tells_moveRoomAlert (s : State) (a : RoomAlert) (n : Nat) (l : Level) :
    State.Tells [.inr (.alert { kind := a.kind, level := l, room := n })
      , .inl { kind := .alert, room := n, reason := .alert a.kind, value := .number l.code }] s (s.moveRoomAlert a n l) :=
  ((State.Tells.of_same (s := s) (t := s.setRoom n (a.setLevel (s.room n) l))
    ⟨rfl, rfl, rfl, rfl, rfl, rfl, rfl, rfl, rfl, rfl, rfl⟩ rfl rfl).trans (tells_offer _ _)).trans (tells_put _ _)

theorem rebuildAlert_rebuilt {a : RoomAlert} {n : Nat} (hu : s.Unnamed (a.due n)) :
    s.AlertRebuilt (s.rebuildAlert a n) (n, a) := by
  rw [rebuildAlert_eq hu]
  by_cases hl : s.rebuiltLevel a n = a.level (s.room n)
  · rw [if_pos hl]
    refine ⟨?_, rfl, rfl, rfl, ?_⟩
    · rw [State.alertTold, if_pos hl]
      exact tells_scheduleAll _ _
    · rw [hl, setLevel_level]
      exact (setNth_nth _ _ _).symm
  · rw [if_neg hl]
    refine ⟨?_, ?_, ?_, ?_, ?_⟩
    · rw [State.alertTold, if_neg hl]
      exact (tells_moveRoomAlert s a n _).trans (tells_scheduleAll _ _)
    · simp [State.scheduleAll]
    · simp [State.scheduleAll]
    · simp [State.scheduleAll]
    · exact moveRoomAlert_rooms s a n _

/-- A room apart from the levels of its alerts. -/
def Room.quiet (r : Room) : Room := { r with lone := .clear, unescorted := .clear }

theorem setLevel_quiet (a : RoomAlert) (r : Room) (l : Level) : (a.setLevel r l).quiet = r.quiet := by cases a <;> rfl

theorem stands_quiet (a : RoomAlert) (r : Room) (ps : List Person) : a.stands r.quiet ps = a.stands r ps := by
  cases a <;> rfl

theorem limit_quiet (a : RoomAlert) (r : Room) : a.limit r.quiet = a.limit r := by cases a <;> rfl

theorem room_eq_of_quiet {r r' : Room} (h : r'.quiet = r.quiet) (l u : Level) (hl : RoomAlert.lone.level r' = l)
    (hu : RoomAlert.unescorted.level r' = u) : r' = { r with lone := l, unescorted := u } := by
  subst hl hu
  exact (congrArg (fun x : Room => { x with lone := r'.lone, unescorted := r'.unescorted }) h : _)

/-- The rebuilt level, the records and the entry of an alert are those of its own level and of its room's list. -/
theorem alert_congr {p : Nat × RoomAlert} (hnow : t.now = s.now) (hp : t.pool = s.pool)
    (hq : (t.room p.1).quiet = (s.room p.1).quiet) (hl : p.2.level (t.room p.1) = p.2.level (s.room p.1)) :
    t.rebuiltLevel p.2 p.1 = s.rebuiltLevel p.2 p.1 ∧ t.alertTold p = s.alertTold p ∧ t.alertEntry p = s.alertEntry p := by
  have level : t.rebuiltLevel p.2 p.1 = s.rebuiltLevel p.2 p.1 := by
    unfold State.rebuiltLevel State.occupants
    rw [← stands_quiet, hq, stands_quiet, hp, hl]
  refine ⟨level, ?_, ?_⟩
  · unfold State.alertTold
    rw [level, hl]
  · unfold State.alertEntry
    rw [level, hnow, ← limit_quiet, hq, limit_quiet]

section
variable {p : Nat × RoomAlert} (h : s.AlertRebuilt t p)
include h

theorem State.AlertRebuilt.level_other {q : Nat × RoomAlert} (hne : q ≠ p) :
    q.2.level (t.room q.1) = q.2.level (s.room q.1) := by
  rw [State.room, h.rooms]
  by_cases hn : q.1 = p.1
  · have hq : q.2 ≠ p.2 := fun ha => hne (Prod.ext hn ha)
    by_cases hr : 1 ≤ p.1 ∧ p.1 ≤ s.rooms.length
    · rw [hn, nth_setNth_self _ _ _ _ hr.1 hr.2, level_setLevel_ne hq]
    · rw [hn, nth_out _ _ _ (by simpa using hr)]
      exact congrArg q.2.level (nth_out _ _ _ hr).symm
  · rw [nth_setNth_ne _ _ _ _ _ hn]
    rfl

variable (h1 : 1 ≤ p.1) (hn : p.1 ≤ s.rooms.length)
include h1 hn

theorem State.AlertRebuilt.room_self : t.room p.1 = p.2.setLevel (s.room p.1) (s.rebuiltLevel p.2 p.1) := by
  rw [State.room, h.rooms, nth_setNth_self _ _ _ _ h1 hn]

theorem State.AlertRebuilt.room_quiet (n : Nat) : (t.room n).quiet = (s.room n).quiet := by
  by_cases hp : n = p.1
  · rw [hp, h.room_self h1 hn, setLevel_quiet]
  · rw [State.room, h.rooms, nth_setNth_ne _ _ _ _ _ hp]
    rfl

end

/-- What the start-up of room alerts, each named once, leaves and tells. -/
structure State.AlertsRebuilt (s t : State) (l : List (Nat × RoomAlert)) : Prop where
  tells : State.Tells (l.flatMap s.alertTold) s t
  pool : t.pool = s.pool
  groups : t.groups = s.groups
  deadlines : t.deadlines = insertAll s.deadlines (l.flatMap s.alertEntry)
  length : t.rooms.length = s.rooms.length
  quiet : ∀ n, (t.room n).quiet = (s.room n).quiet
  level : ∀ p ∈ l, p.2.level (t.room p.1) = s.rebuiltLevel p.2 p.1
  others : ∀ p, p ∉ l → p.2.level (t.room p.1) = p.2.level (s.room p.1)

theorem foldl_rebuildAlert (l : List (Nat × RoomAlert)) : ∀ s : State, l.Nodup →
    (∀ p ∈ l, 1 ≤ p.1 ∧ p.1 ≤ s.rooms.length) → (∀ p ∈ l, s.Unnamed (p.2.due p.1)) →
    s.AlertsRebuilt (l.foldl (fun s p => s.rebuildAlert p.2 p.1) s) l := by
  induction l with
  | nil => exact fun s _ _ _ => ⟨.refl s, rfl, rfl, rfl, rfl, fun _ => rfl, nofun, fun _ _ => rfl⟩
  | cons p l ih =>
    intro s hnd hr hu
    obtain ⟨hp, hnd⟩ := List.nodup_cons.1 hnd
    obtain ⟨h1, hn⟩ := hr p List.mem_cons_self
    have first : s.AlertRebuilt (s.rebuildAlert p.2 p.1) p := rebuildAlert_rebuilt (hu p List.mem_cons_self)
    have unnamed : ∀ q ∈ l, (s.rebuildAlert p.2 p.1).Unnamed (q.2.due q.1) := fun q hq =>
      unnamed_rebuildAlert (hu q (List.mem_cons_of_mem _ hq)) fun hd => hp (by
        obtain ⟨ha, hn⟩ := due_inj.1 hd
        rwa [Prod.ext hn ha])
    rw [List.foldl_cons]
    generalize s.rebuildAlert p.2 p.1 = u at first unnamed ⊢
    have length : u.rooms.length = s.rooms.length := by rw [first.rooms, setNth_length]
    have same := fun q (hq : q ∈ l) => alert_congr first.tells.around.now first.pool (first.room_quiet h1 hn q.1)
      (first.level_other fun he => hp (he ▸ hq))
    have rest := ih u hnd (fun q hq => by rw [length]; exact hr q (List.mem_cons_of_mem _ hq)) unnamed
    have told : l.flatMap u.alertTold = l.flatMap s.alertTold := List.flatMap_congr fun q hq => (same q hq).2.1
    have entries : l.flatMap u.alertEntry = l.flatMap s.alertEntry := List.flatMap_congr fun q hq => (same q hq).2.2
    refine ⟨?_, rest.pool.trans first.pool, rest.groups.trans first.groups, ?_, rest.length.trans length,
      fun n => (rest.quiet n).trans (first.room_quiet h1 hn n), fun q hq => ?_, fun q hq => ?_⟩
    · rw [List.flatMap_cons, ← told]
      exact first.tells.trans rest.tells
    · rw [rest.deadlines, first.deadlines, entries, List.flatMap_cons, insertAll_append]
    · rcases List.mem_cons.1 hq with rfl | hq
      · rw [rest.others q hp, first.room_self h1 hn, level_setLevel]
      · rw [rest.level q hq, (same q hq).1]
    · obtain ⟨hqp, hql⟩ : q ≠ p ∧ q ∉ l := by simpa using hq
      rw [rest.others q hql, first.level_other hqp]

end

/-! ### The whole engine work (R178 step 6) -/

/-- A table of rooms, written out room by room. -/
theorem rooms_eq_map {s : State} {n : Nat} (h : s.rooms.length = n) : s.rooms = (List.range' 1 n).map s.room := by
  refine List.ext_getElem (by simp [h]) fun i h1 h2 => ?_
  simp [State.room, nth, Nat.add_comm 1 i, List.getD, h1]

/-- The state with its INSIDE records alone: those that a warm start-up keeps, and judges the room alerts by. -/
def State.keptInside (s : State) : State := { s with pool := s.pool.filter (fun o => o.presence ≠ .admitting) }

/-- What the engine work of a warm start-up leaves and tells. -/
structure State.WarmWorked (s t : State) : Prop where
  tells : State.Tells ((s.byRoom.filter (fun o => o.presence = .admitting)).flatMap lapseTold
    ++ s.groups.flatMap denialsTold ++ roomAlerts.flatMap s.keptInside.alertTold) s t
  pool : t.pool = s.keptInside.pool
  groups : t.groups = []
  deadlines : t.deadlines = insertAll []
    (s.keptInside.byRoom.flatMap s.keptInside.entryOf ++ roomAlerts.flatMap s.keptInside.alertEntry)
  rooms : t.rooms = (List.range' 1 12).map (fun n =>
    { s.room n with lone := s.keptInside.rebuiltLevel .lone n, unescorted := s.keptInside.rebuiltLevel .unescorted n })

section
variable {s t : State}

theorem mem_insertAll {e : DeadlineEntry} (entries : List DeadlineEntry) : ∀ l : List DeadlineEntry,
    e ∈ insertAll l entries ↔ e ∈ entries ∨ e ∈ l := by
  induction entries with
  | nil => intro l; simp [insertAll]
  | cons x xs ih =>
    intro l
    have step := ih (insertDeadline x l)
    rw [mem_insertDeadline] at step
    rw [List.mem_cons, or_comm (a := e = x), or_assoc]
    exact step

/-- R97: the entries of the records name no room alert. -/
theorem entryOf_ne_due {o : Occupant} {e : DeadlineEntry} (he : e ∈ s.entryOf o) (a : RoomAlert) (n : Nat) :
    e.what ≠ a.due n := by
  unfold State.entryOf at he
  split at he
  · cases List.mem_singleton.1 he
    exact stayDeadline_ne_due _ a n
  · cases List.mem_singleton.1 he
    exact escalation_ne_due _ a n
  · cases he

/-- The records lapsed and the groups discarded: the tables of a warm start-up before the deadline queue is rebuilt. -/
theorem lapsed_and_discarded (hd : s.deadlines = []) (hc : (s.pool.map Occupant.credential).Nodup)
    (hr : ∀ o ∈ s.pool, 1 ≤ o.room ∧ o.room ≤ 12) :
    s.lapseAll.discardGroups.pool = s.keptInside.pool ∧ s.lapseAll.discardGroups.rooms = s.rooms
      ∧ s.lapseAll.discardGroups.groups = [] ∧ s.lapseAll.discardGroups.deadlines = [] := by
  obtain ⟨u, hu, he⟩ := discardGroups_eq s.lapseAll
  obtain ⟨-, -, -, -, hrooms, hpool, -, hdead, -⟩ := hu
  rw [he]
  refine ⟨hpool.trans (lapseAll_pool hc hr), hrooms.trans ?_, rfl, hdead.trans (lapseAll_deadlines hd)⟩
  simp [State.lapseAll]

/-- R44, R81, R97: the engine work of a warm start-up. -/
theorem warmWork_worked (hd : s.deadlines = []) (hc : (s.pool.map Occupant.credential).Nodup)
    (hr : ∀ o ∈ s.pool, 1 ≤ o.room ∧ o.room ≤ 12) (hlen : s.rooms.length = 12) : s.WarmWorked s.warmWork := by
  obtain ⟨pool, rooms, groups, dead⟩ := lapsed_and_discarded hd hc hr
  have hgroups : s.lapseAll.groups = s.groups := by simp [State.lapseAll]
  have told := (tells_lapseAll s).trans (tells_discardGroups s.lapseAll)
  rw [hgroups] at told
  rw [warmWork_eq]
  generalize s.lapseAll.discardGroups = u at *
  have room (n : Nat) : u.room n = s.keptInside.room n := by unfold State.room; rw [rooms]; rfl
  have byRoom : u.byRoom = s.keptInside.byRoom := by unfold State.byRoom State.occupants; rw [pool]
  have entryOf : u.entryOf = s.keptInside.entryOf := by
    funext o
    unfold State.entryOf
    rw [room]
  rw [foldl_rebuildEntry, byRoom, entryOf]
  have same (p : Nat × RoomAlert) := alert_congr (s := s.keptInside)
    (t := u.scheduleAll (s.keptInside.byRoom.flatMap s.keptInside.entryOf)) (p := p) told.around.now pool
    (congrArg Room.quiet (room p.1)) (congrArg p.2.level (room p.1))
  have alerts := foldl_rebuildAlert roomAlerts (u.scheduleAll (s.keptInside.byRoom.flatMap s.keptInside.entryOf))
    roomAlerts_nodup (fun p hp => by
      show 1 ≤ p.1 ∧ p.1 ≤ u.rooms.length
      rw [rooms, hlen]
      exact mem_roomAlerts.1 hp) (fun p _ e he => by
      obtain he | he := (mem_insertAll _ _).1 he
      · obtain ⟨o, -, he⟩ := List.mem_flatMap.1 he
        exact entryOf_ne_due he p.2 p.1
      · rw [dead] at he
        cases he)
  generalize roomAlerts.foldl _ _ = t at alerts ⊢
  have level (n : Nat) (a : RoomAlert) (hn : n ∈ List.range' 1 12) :
      a.level (t.room n) = s.keptInside.rebuiltLevel a n := by
    rw [List.mem_range'_1] at hn
    exact (alerts.level (n, a) (mem_roomAlerts.2 ⟨hn.1, by omega⟩)).trans (same (n, a)).1
  refine ⟨?_, alerts.pool.trans pool, alerts.groups.trans groups, ?_, ?_⟩
  · have := (told.trans (tells_scheduleAll u _)).trans alerts.tells
    rw [List.append_nil, List.flatMap_congr fun p _ => (same p).2.1] at this
    exact this
  · rw [alerts.deadlines, State.scheduleAll_deadlines, dead, List.flatMap_congr fun p _ => (same p).2.2, insertAll_append]
  · rw [rooms_eq_map (alerts.length.trans ((congrArg List.length rooms).trans hlen))]
    refine List.map_congr_left fun n hn => ?_
    exact room_eq_of_quiet ((alerts.quiet n).trans (congrArg Room.quiet (room n))) _ _ (level n .lone hn)
      (level n .unescorted hn)

end

end Sys2Proof.Machine
end

