-- ==== Sys2Proof/Proofs/WarmRestart.lean ====
section
/-! A RESET_LINE and a RESTART_WARM (R176 item 3, R178): the part after the numbered steps of its start-up. -/
namespace Sys2Proof.Machine

/-! ### The start-up of a retained part, step by step -/

/-- The kinds of a restart that keep the retained domain (R176). -/
def RestartKind.keeps (k : RestartKind) : Prop := k = .resetLine ∨ k = .restartWarm

/-- R178 steps 1 to 3. -/
def State.begun (s : State) (kind : RestartKind) (rate : Nat) : State :=
  (s.resetUnretained.takeKind kind false).takeMode rate

/-- R178 steps 1 to 4. -/
def State.recorded (s : State) (kind : RestartKind) (rate : Nat) : State := (s.begun kind rate).putRestart kind false

/-- R178 steps 1 to 5. -/
def State.announced (s : State) (kind : RestartKind) (rate : Nat) : State := (s.recorded kind rate).offerReady kind false

/-- R178 steps 1 to 6. -/
def State.worked (s : State) (kind : RestartKind) (rate : Nat) : State := (s.announced kind rate).warmWork

/-- The supply as steps 1 to 3 leave it. -/
def Supply.begun (p : Supply) (kind : RestartKind) : Supply :=
  { p with
    mode := p.modeOfLine, byRequest := false, stopPending := false, fromReserve := false, heldWake := none
    restartRequested := none, lastKind := kind, retentionLost := false }

/-- R159: the RESTART record. -/
def restartRecord (kind : RestartKind) : TrailRecord := { kind := .restart, reason := .restarted kind }

/-- A record handed to the trail changes the trail and the host line alone. -/
theorem put_eq (s : State) (r : TrailRecord) : s.put r = { s with trail := (s.put r).trail, host := (s.put r).host } := by
  unfold State.put State.offerSome
  split
  · rfl
  · unfold State.offer
    split <;> rfl

/-- R178 step 5: READY stands before all that has been offered, which is at most one notice. -/
theorem State.Told.offerReady {s : State} {rate : Nat} {w : Trail × List Notice} (h : s.Told rate w)
    (hw : w.2.length ≤ 1) (kind : RestartKind) :
    (s.offerReady kind false).Told rate (w.1, .ready kind false :: w.2) := by
  obtain ⟨htr, hh⟩ := h
  refine ⟨htr, ?_⟩
  unfold State.offerReady
  rw [hh]
  simp [offeredHost, List.take_of_length_le (show w.2.length ≤ 15 by omega),
    List.take_of_length_le (show w.2.length ≤ 16 by omega)]
  omega

section
variable {s : State} {kind : RestartKind} {rate : Nat} (hk : kind.keeps)
include hk

theorem begun_eq : s.begun kind rate =
    { s with
      host := restartedHost rate, presentations := [], stations := s.stations.map warmStation, deadlines := []
      sweep := restartedSweep, lastDoor := restartedLastDoor, supply := s.supply.begun kind } := by
  rcases hk with rfl | rfl <;> rfl

theorem begun_told : (s.begun kind rate).Told rate (s.trail, []) := by
  rw [begun_eq hk]
  exact ⟨rfl, rfl⟩

theorem recorded_told : (s.recorded kind rate).Told rate (hear s.stamp (s.trail, []) (.inl (restartRecord kind))) := by
  have told := (begun_told (s := s) (rate := rate) hk).put (restartRecord kind)
  have stamp : (s.begun kind rate).stamp = s.stamp := by rw [begun_eq hk]; rfl
  rw [stamp] at told
  exact told

/-- A RESTART record offers the TRAIL-HALF notice of the half that it closes, and no other. -/
theorem announced_told : (s.announced kind rate).Told rate
    ((hear s.stamp (s.trail, []) (.inl (restartRecord kind))).1,
      .ready kind false :: (hear s.stamp (s.trail, []) (.inl (restartRecord kind))).2) := by
  refine (recorded_told hk).offerReady ?_ kind
  show ([] ++ Option.toList _).length ≤ 1
  cases (s.trail.put (s.stamp (restartRecord kind))).2 <;> simp

/-- The records and the notices move the trail and the host line alone. -/
theorem announced_eq : ∃ tr h, s.announced kind rate =
    { s with
      trail := tr, host := h, presentations := [], stations := s.stations.map warmStation, deadlines := []
      sweep := restartedSweep, lastDoor := restartedLastDoor, supply := s.supply.begun kind } := by
  unfold State.announced State.recorded State.putRestart
  rw [put_eq, begun_eq hk]
  exact ⟨_, _, rfl⟩

end

/-- R176, R178: all that a warm start-up hands to the trail and offers as notices, READY apart. -/
def State.startUpTold (s : State) (kind : RestartKind) : List (TrailRecord ⊕ Notice) :=
  .inl (restartRecord kind) :: (s.byRoom.filter (fun o => o.presence = .admitting)).flatMap lapseTold
    ++ s.groups.flatMap denialsTold ++ roomAlerts.flatMap s.keptInside.alertTold

/-- R178 steps 1 to 6: what they leave of a retained part. -/
structure State.WarmStarted (s t : State) (kind : RestartKind) (rate : Nat) : Prop where
  around : (s.begun kind rate).SameAround t
  told : t.Told rate (((s.startUpTold kind).foldl (hear s.stamp) (s.trail, [])).1,
    .ready kind false :: ((s.startUpTold kind).foldl (hear s.stamp) (s.trail, [])).2)
  pool : t.pool = s.keptInside.pool
  groups : t.groups = []
  deadlines : t.deadlines = insertAll []
    (s.keptInside.byRoom.flatMap s.keptInside.entryOf ++ roomAlerts.flatMap s.keptInside.alertEntry)
  rooms : t.rooms = (List.range' 1 12).map (fun n =>
    { s.room n with lone := s.keptInside.rebuiltLevel .lone n, unescorted := s.keptInside.rebuiltLevel .unescorted n })

theorem worked_started {s : State} {kind : RestartKind} {rate : Nat} (hk : kind.keeps) (hp : s.PersonsSound)
    (hlen : s.rooms.length = 12) : s.WarmStarted (s.worked kind rate) kind rate := by
  obtain ⟨hc, -, -, hrooms, -⟩ := hp
  have told := announced_told (s := s) (rate := rate) hk
  have worked : (s.announced kind rate).WarmWorked (s.worked kind rate) := by
    unfold State.worked
    obtain ⟨tr, h, he⟩ := announced_eq (s := s) (rate := rate) hk
    rw [he]
    exact warmWork_worked rfl (List.nodup_append.1 hc).1 hrooms hlen
  obtain ⟨tr, h, he⟩ := announced_eq (s := s) (rate := rate) hk
  rw [he] at worked told
  refine ⟨?_, ?_, worked.pool, worked.groups, worked.deadlines, worked.rooms⟩
  · rw [begun_eq hk]
    exact worked.tells.around
  · have all := worked.tells.told rate _ told
    rw [← List.singleton_append, foldl_hear_append] at all
    exact all

/-! ### The start-up whole, and cut short -/

/-- The state of a retained part after the steps up to one of them. -/
def State.startedUpTo (s : State) (kind : RestartKind) (rate : Nat) : StartUpStep → State
  | .unretained => s.resetUnretained
  | .kind => s.resetUnretained.takeKind kind false
  | .mode => s.begun kind rate
  | .record => s.recorded kind rate
  | .ready => s.announced kind rate
  | .engine => s.worked kind rate
  | .mark => (s.worked kind rate).writeMark

section
variable {s : State} {kind : RestartKind} {inputs : RestartInputs}

theorem foldl_startUpStep (hk : kind.keeps) (rate : Nat) (after : StartUpStep) :
    (startUpSteps.takeWhile (fun x => x ≠ after) ++ [after]).foldl (State.startUpStep kind false rate) s
      = s.startedUpTo kind rate after := by
  have engine (t : State) : t.engineWork kind = t.warmWork := by rcases hk with rfl | rfl <;> rfl
  cases after <;>
    simp [startUpSteps, State.startUpStep, State.startedUpTo, State.begun, State.recorded, State.announced, State.worked,
      engine]

variable (hk : kind.keeps) (hb : inputs.backup = .kept) (hm : s.supply.markPresent = true)
  (hc : s.supply.checkHolds = true)
include hk hb hm hc

/-- R176: a kept retained domain, with its mark and its check, begins the restart of the event's own kind. -/
theorem startUp_kept : s.supply.backedUp inputs.backup = s.supply ∧ s.supply.decideKind kind = (kind, false)
    ∧ s.supply.startingUp kind = s.supply := by
  refine ⟨by rw [hb]; rfl, by simp [Supply.decideKind, hm, hc], ?_⟩
  rcases hk with rfl | rfl <;> rfl

theorem startUp_whole (hcut : inputs.cut = none) :
    s.startUp kind inputs = (s.startedUpTo kind (rateOfStraps inputs) .mark).restartLine.pump := by
  obtain ⟨backed, decided, starting⟩ := startUp_kept hk hb hm hc
  simp only [State.startUp, hcut, backed, decided, starting]
  rw [← foldl_startUpStep hk]
  rfl

theorem startUp_cut {after : StartUpStep} {hold : ResetHold} (hcut : inputs.cut = some ⟨after, hold⟩) :
    s.startUp kind inputs = (s.startedUpTo kind (rateOfStraps inputs) after).holdAgain hold := by
  obtain ⟨backed, decided, starting⟩ := startUp_kept hk hb hm hc
  simp only [State.startUp, hcut, backed, decided, starting]
  rw [← foldl_startUpStep hk]
  rfl

end

/-- What every step of the start-up of a retained part keeps. -/
def State.KeptSoFar (s t : State) : Prop :=
  t.clock = s.clock ∧ t.settings = s.settings ∧ t.permits = s.permits ∧ t.revoked = s.revoked
    ∧ t.supply.resetActive = s.supply.resetActive ∧ t.supply.mainLost = s.supply.mainLost
    ∧ (s.supply.markPresent = true → t.supply.markPresent = true) ∧ (s.supply.checkHolds = true → t.supply.checkHolds = true)

section
variable {s t : State} {kind : RestartKind} {rate : Nat} (hk : kind.keeps)
include hk

theorem keptSoFar_of_around (h : (s.begun kind rate).SameAround t) : s.KeptSoFar t := by
  rw [begun_eq hk] at h
  obtain ⟨hclock, hset, hper, hrev, -, -, -, -, hsup, -⟩ := h
  unfold State.KeptSoFar
  rw [hsup]
  exact ⟨hclock, hset, hper, hrev, rfl, rfl, id, id⟩

/-- R178 steps 1 to 3 leave the persons, the rooms and the trail alone. -/
theorem startedUpTo_mode {after : StartUpStep} (ha : after ∈ [StartUpStep.unretained, .kind, .mode]) :
    (s.startedUpTo kind rate after).pool = s.pool ∧ (s.startedUpTo kind rate after).groups = s.groups
      ∧ (s.startedUpTo kind rate after).rooms = s.rooms ∧ (s.startedUpTo kind rate after).trail = s.trail := by
  have kinds : ∀ k, k = RestartKind.resetLine ∨ k = .restartWarm → ∀ u : State, u.domainFor k = u := by
    rintro _ (rfl | rfl) u <;> rfl
  simp only [List.mem_cons, List.not_mem_nil, or_false] at ha
  rcases ha with rfl | rfl | rfl
  · exact ⟨rfl, rfl, rfl, rfl⟩
  · simp [State.startedUpTo, State.takeKind, kinds kind hk]
  · simp [State.startedUpTo, begun_eq hk]

/-- R178 step 4: the RESTART record is all that steps 4 and 5 add. -/
theorem startedUpTo_ready {after : StartUpStep} (ha : after ∈ [StartUpStep.record, .ready]) :
    (s.startedUpTo kind rate after).pool = s.pool ∧ (s.startedUpTo kind rate after).groups = s.groups
      ∧ (s.startedUpTo kind rate after).rooms = s.rooms
      ∧ (s.startedUpTo kind rate after).trail = (s.trail.put (s.stamp (restartRecord kind))).1 := by
  obtain ⟨tr, h, he⟩ := announced_eq (s := s) (rate := rate) hk
  have trail := (announced_told (s := s) (rate := rate) hk).1
  have announced : (s.announced kind rate).pool = s.pool ∧ (s.announced kind rate).groups = s.groups
      ∧ (s.announced kind rate).rooms = s.rooms
      ∧ (s.announced kind rate).trail = (s.trail.put (s.stamp (restartRecord kind))).1 := by
    rw [he] at trail ⊢
    exact ⟨rfl, rfl, rfl, trail⟩
  simp only [List.mem_cons, List.not_mem_nil, or_false] at ha
  rcases ha with rfl | rfl <;> exact announced

omit hk in
/-- R178: step 7 leaves the persons and the trail as step 6 does. -/
theorem startedUpTo_mark {after : StartUpStep} (ha : after ∈ [StartUpStep.engine, .mark]) :
    (s.startedUpTo kind rate after).pool = (s.worked kind rate).pool
      ∧ (s.startedUpTo kind rate after).groups = (s.worked kind rate).groups
      ∧ (s.startedUpTo kind rate after).trail = (s.worked kind rate).trail := by
  simp only [List.mem_cons, List.not_mem_nil, or_false] at ha
  rcases ha with rfl | rfl <;> simp [State.startedUpTo]

/-- R178: what a start-up cut short has kept of the state it began in. -/
theorem startedUpTo_kept (hp : s.PersonsSound) (hlen : s.rooms.length = 12) (after : StartUpStep) :
    s.KeptSoFar (s.startedUpTo kind rate after) := by
  have begun : s.KeptSoFar (s.begun kind rate) := keptSoFar_of_around hk (State.Tells.refl _).around
  have recorded : s.KeptSoFar (s.recorded kind rate) := keptSoFar_of_around hk (tells_put _ _).around
  have worked : s.KeptSoFar (s.worked kind rate) := keptSoFar_of_around hk (worked_started hk hp hlen).around
  cases after with
  | unretained => exact ⟨rfl, rfl, rfl, rfl, rfl, rfl, id, id⟩
  | kind => rcases hk with rfl | rfl <;> exact ⟨rfl, rfl, rfl, rfl, rfl, rfl, id, id⟩
  | mode => exact begun
  | record => exact recorded
  | ready => exact recorded
  | engine => exact worked
  | mark =>
    show s.KeptSoFar (s.worked kind rate).writeMark
    generalize s.worked kind rate = t at worked ⊢
    obtain ⟨h1, h2, h3, h4, h5, h6, -, -⟩ := worked
    exact ⟨h1, h2, h3, h4, h5, h6, fun _ => rfl, fun _ => rfl⟩

end

/-! ### The commands that begin the start-up -/

/-- R176: neither line holds the part in reset. -/
def Supply.released (p : Supply) : Supply := { p with resetActive := false, mainLost := false }

theorem released_eq {p : Supply} (hr : p.resetActive = false) (hl : p.mainLost = false) : p.released = p := by
  cases p
  simp_all [Supply.released]

/-- R176 item 3: the three commands that begin a warm start-up. -/
theorem exec_startUp {c : Instr} {s : State} {inputs : RestartInputs} {kind : RestartKind}
    (hcmd : c = .resetLineReleased inputs ∧ s.supply.resetActive = true ∧ s.supply.mainLost = false ∧ kind = .resetLine
      ∨ c = .mainSupplyUp inputs ∧ s.supply.mainLost = true ∧ s.supply.resetActive = false ∧ kind = .resetLine
      ∨ c = .frameSent inputs ∧ s.inReset = false ∧ s.supply.restartRequested = some .warm ∧ kind = .restartWarm
        ∧ ∃ frame, s.host.sending = some ⟨frame, .reply⟩) (hb : inputs.backup = .kept) :
    kind.keeps ∧ ∃ h, exec c s = .next (State.startUp { s with host := h, supply := s.supply.released } kind inputs) := by
  obtain ⟨rfl, hr, hl, rfl⟩ | ⟨rfl, hl, hr, rfl⟩ | ⟨rfl, hin, hreq, rfl, frame, hsend⟩ := hcmd
  · refine ⟨.inl rfl, s.host, ?_⟩
    show execResetLineReleased inputs s = _
    simp [execResetLineReleased, State.leaveReset, State.inReset, hr, hl, hb, Supply.backedUp, Supply.released]
  · refine ⟨.inl rfl, s.host, ?_⟩
    show execMainSupplyUp inputs s = _
    simp [execMainSupplyUp, State.leaveReset, State.inReset, hr, hl, hb, Supply.backedUp, Supply.released]
  · refine ⟨.inr rfl, { s.host with sending := none, outstanding := none }, ?_⟩
    have free : s.supply.resetActive = false ∧ s.supply.mainLost = false := by simpa [State.inReset] using hin
    rw [released_eq free.1 free.2]
    show execFrameSent inputs s = _
    simp [execFrameSent, hin, hsend, State.replySent, hreq]

/-! ### The statement's own words -/

theorem byRoom_filter (s : State) (q : Occupant → Bool) :
    (List.range' 1 12).flatMap (fun n => (s.pool.filter q).filter (fun o => o.room = n)) = s.byRoom.filter q := by
  simp only [State.byRoom, State.occupants, Config.rooms, List.filter_flatMap, List.filter_filter, Bool.and_comm]

theorem roomAlerts_flatMap {α : Type} (f : Nat → RoomAlert → List α) :
    (List.range' 1 12).flatMap (fun n => f n .lone ++ f n .unescorted) = roomAlerts.flatMap (fun p => f p.1 p.2) := by
  simp [roomAlerts, List.flatMap_assoc]

/-- R165: the transmitter, free, begins READY; what waits behind it are the first fifteen of the other notices. -/
theorem begin_offeredHost (rate : Nat) (n : Notice) (l : List Notice) : (offeredHost rate (n :: l)).begin =
    { restartedHost rate with
      sending := some ⟨n.frame, .notice⟩, notices := l.take 15, noticesDropped := decide (15 < l.length) } := by
  simp [HostLine.begin, offeredHost, restartedHost]
  omega

theorem ready_frame {kind : RestartKind} : (Notice.ready kind false).frame = ⟨0x40, 0, [BitVec.ofNat 8 kind.code, 0]⟩ := by
  cases kind <;> rfl

/-- R178: the supply after a whole warm start-up. -/
theorem started_supply {p : Supply} (hm : p.markPresent = true) (hc : p.checkHolds = true) (kind : RestartKind) :
    { p.released.begun kind with markPresent := true, checkHolds := true } =
      { p with
        mode := if p.supplyGood then .run else .reserve
        byRequest := false, stopPending := false, fromReserve := false, heldWake := none, restartRequested := none
        resetActive := false, mainLost := false, lastKind := kind, retentionLost := false } := by
  cases p
  simp_all [Supply.released, Supply.begun, Supply.modeOfLine]

/-- R171, R176: held again, the part has lost its host line, and the hold is the one line of the two that cut it short. -/
theorem holdAgain_kept {s t : State} (h : s.KeptSoFar t) (hr : s.supply.resetActive = false)
    (hl : s.supply.mainLost = false) (hm : s.supply.markPresent = true) (hc : s.supply.checkHolds = true)
    (hold : ResetHold) :
    (t.holdAgain hold).supply.resetActive = decide (hold = .resetLine)
      ∧ (t.holdAgain hold).supply.mainLost = decide (hold = .mainSupply)
      ∧ (t.holdAgain hold).supply.markPresent = true ∧ (t.holdAgain hold).supply.checkHolds = true
      ∧ (t.holdAgain hold).clock = s.clock ∧ (t.holdAgain hold).settings = s.settings
      ∧ (t.holdAgain hold).permits = s.permits ∧ (t.holdAgain hold).revoked = s.revoked := by
  obtain ⟨clock, settings, permits, revoked, active, lost, mark, check⟩ := h
  refine ⟨?_, ?_, ?_, ?_, clock, settings, permits, revoked⟩ <;>
    cases hold <;> simp [State.holdAgain, active, lost, mark hm, check hc, hr, hl]

/-- Settles O40. -/
theorem warmRestartKeepsInside : Obligations.WarmRestartKeepsInside := by
  intro c s inputs kind hcmd hb hm hc hp hlen kept byRooms level ofAlerts restart told records notices trailWith entries
    started
  obtain ⟨hk, h, hexec⟩ := exec_startUp hcmd hb
  have same : told = s.startUpTold kind := by
    unfold State.startUpTold
    rw [← byRoom_filter, ← roomAlerts_flatMap (fun n a => s.keptInside.alertTold (n, a))]
    rfl
  have hear_eq : (s.startUpTold kind).foldl (hear s.stamp) (s.trail, []) = (trailWith records, notices) := by
    rw [← same]
    exact Prod.ext (foldl_hear_trail s.stamp told _) rfl
  have entries_eq : entries = s.keptInside.byRoom.flatMap s.keptInside.entryOf ++ roomAlerts.flatMap s.keptInside.alertEntry := by
    rw [← roomAlerts_flatMap (fun n a => s.keptInside.alertEntry (n, a))]
    rfl
  obtain ⟨around, said, pool, groups, deadlines, rooms⟩ := worked_started
    (s := { s with host := h, supply := s.supply.released }) (rate := rateOfStraps inputs) hk hp hlen
  change State.Told _ _ (((s.startUpTold kind).foldl (hear s.stamp) (s.trail, [])).1,
    .ready kind false :: ((s.startUpTold kind).foldl (hear s.stamp) (s.trail, [])).2) at said
  rw [hear_eq] at said
  obtain ⟨trail, host⟩ := said
  refine ⟨fun hcut => ?_, fun ⟨after, hold⟩ hcut => ?_⟩
  · rw [startUp_whole (s := { s with host := h, supply := s.supply.released }) hk hb hm hc hcut] at hexec
    refine ⟨_, hexec, ?_⟩
    rw [begun_eq hk] at around
    obtain ⟨clock, settings, permits, revoked, presentations, stations, -, sweep, supply, lastDoor, pending⟩ := around
    simp only [State.startedUpTo]
    generalize State.worked _ kind (rateOfStraps inputs) = w at *
    have sending : w.writeMark.restartLine.pump.host = _ :=
      (congrArg HostLine.begin host).trans (begin_offeredHost _ _ _)
    have ready : { w.supply with markPresent := true, checkHolds := true } = started := by
      rw [supply]
      exact started_supply hm hc kind
    refine ⟨pool, groups, presentations, clock, settings, permits, revoked, stations, rooms, sweep, lastDoor, pending,
      ready, trail, deadlines.trans (by rw [entries_eq]; rfl), rfl, rfl, ?_⟩
    rw [sending, ready_frame]
    exact ⟨rfl, rfl, rfl, rfl, rfl, rfl, rfl, rfl, rfl⟩
  · rw [startUp_cut (s := { s with host := h, supply := s.supply.released }) hk hb hm hc hcut] at hexec
    refine ⟨_, hexec, ?_⟩
    have keeps := holdAgain_kept (startedUpTo_kept (s := { s with host := h, supply := s.supply.released })
      (rate := rateOfStraps inputs) hk hp hlen after) rfl rfl hm hc hold
    obtain ⟨active, lost, mark, check, clock, settings, permits, revoked⟩ := keeps
    refine ⟨active, lost, mark, check, clock, settings, permits, revoked, rfl, rfl, rfl, rfl, fun ha => ?_, fun ha => ?_,
      fun ha => ?_⟩
    · exact startedUpTo_mode hk ha
    · exact startedUpTo_ready hk ha
    · obtain ⟨hpool, hgroups, htrail⟩ := startedUpTo_mark ha
      exact ⟨hpool.trans pool, hgroups.trans groups, htrail.trans trail⟩

end Sys2Proof.Machine
end

