-- ==== Sys2Proof/Proofs/Layout.lean ====
section
/-! What a step does to the configuration of the rooms (R22, R24, R25) and to the rooms the stations are bound to
(R131): an accepted ROOM-SET or STATION-SET writes it, a restart with defaults resets it, and no other command moves it.
So a step is one of these two writes with the checks it has passed, or an effect that keeps this layout or resets it. -/
namespace Sys2Proof.Machine

/-- A room apart from its mode and the levels of its alerts: what a ROOM-SET writes (R24). -/
def Room.config (r : Room) : Room := { r.quiet with mode := .closed }

/-- What each entry of a table is read as, after a write that reads the same. -/
theorem map_setNth {α β : Type} {f : α → β} {l : List α} {n : Nat} {x d : α} (h : f x = f (nth l n d)) :
    (setNth l n x).map f = l.map f := by
  cases n with
  | zero => rfl
  | succ k =>
    refine List.ext_getElem (by simp) fun i h1 h2 => ?_
    by_cases hk : k = i
    · subst hk
      have hk : k < l.length := by simpa using h2
      simpa [setNth, nth, hk] using h
    · simp [setNth, hk]

theorem nth_map {α β : Type} (f : α → β) (l : List α) (n : Nat) (d : α) : nth (l.map f) n (f d) = f (nth l n d) := by
  cases n with
  | zero => rfl
  | succ k => exact List.getD_map ..

theorem setLevel_config (a : RoomAlert) (r : Room) (l : Level) : (a.setLevel r l).config = r.config := by cases a <;> rfl

theorem room_config {s t : State} (h : t.rooms.map Room.config = s.rooms.map Room.config) (n : Nat) :
    (t.room n).config = (s.room n).config := by
  have read (u : State) : (u.room n).config = nth (u.rooms.map Room.config) n defaultRoom.config := (nth_map ..).symm
  rw [read, read, h]

theorem State.SameRecords.rooms {s t : State} (h : s.SameRecords t) : t.rooms = s.rooms := h.2.2.2.2.1

theorem State.SameRecords.stations {s t : State} (h : s.SameRecords t) : t.stations = s.stations :=
  h.2.2.2.2.2.2.2.2.2

/-- A station written with the room it was bound to. -/
theorem setStation_bindings {s : State} {n : Nat} {st : Station} (h : st.room = (s.station n).room) :
    (s.setStation n st).stations.map Station.room = s.stations.map Station.room := map_setNth h

theorem place_room (st : Station) (o : VerdictOutcome) (r : Reason) : (st.place o r).room = st.room :=
  (congrArg Station.room (st.place_keeps o r) : _)

section
variable (s : State)

@[simp] theorem State.placeVerdict_bindings (n : Nat) (o : VerdictOutcome) (r : Reason) :
    (s.placeVerdict n o r).stations.map Station.room = s.stations.map Station.room :=
  setStation_bindings (place_room _ o r)

@[simp] theorem setNth_called_bindings (n : Nat) :
    (setNth s.stations n (s.station n).called).map Station.room = s.stations.map Station.room := map_setNth rfl

@[simp] theorem setNth_corrupt_bindings (n : Nat) (v : Bool) :
    (setNth s.stations n { s.station n with corrupt := v }).map Station.room = s.stations.map Station.room :=
  map_setNth rfl

@[simp] theorem State.setLast_bindings (p : Presentation) (o : VerdictOutcome) (r : Reason) :
    (s.setLast p o r).stations.map Station.room = s.stations.map Station.room := setStation_bindings rfl

@[simp] theorem State.conclude_bindings (p : Presentation) (o : VerdictOutcome) (r : Reason) (n : Nat) (t : TrailRecord) :
    (s.conclude p o r n t).stations.map Station.room = s.stations.map Station.room := by
  simp [State.conclude]

@[simp] theorem State.refuse_bindings (p : Presentation) (r : Reason) (n v : Nat) :
    (s.refuse p r n v).stations.map Station.room = s.stations.map Station.room := s.conclude_bindings ..

/-! ### Alerts, groups and requests -/

@[simp] theorem State.moveRoomAlert_layout (a : RoomAlert) (n : Nat) (l : Level) :
    (s.moveRoomAlert a n l).rooms.map Room.config = s.rooms.map Room.config
      ∧ (s.moveRoomAlert a n l).stations.map Station.room = s.stations.map Station.room := by
  rw [moveRoomAlert_rooms]
  exact ⟨map_setNth (setLevel_config a _ l), by simp [State.moveRoomAlert]⟩

@[simp] theorem State.reevaluate_layout (a : RoomAlert) (n : Nat) :
    (s.reevaluate a n).rooms.map Room.config = s.rooms.map Room.config
      ∧ (s.reevaluate a n).stations.map Station.room = s.stations.map Station.room := by
  unfold State.reevaluate; split <;> simp

@[simp] theorem State.reevaluateRoom_layout (n : Nat) :
    (s.reevaluateRoom n).rooms.map Room.config = s.rooms.map Room.config
      ∧ (s.reevaluateRoom n).stations.map Station.room = s.stations.map Station.room := by
  simp [State.reevaluateRoom]

@[simp] theorem State.completeGroup_layout (g : Group) (t : Option (Nat × Nat)) :
    (s.completeGroup g t).rooms.map Room.config = s.rooms.map Room.config
      ∧ (s.completeGroup g t).stations.map Station.room = s.stations.map Station.room := by
  simp [State.completeGroup]

@[simp] theorem State.retestFor_layout (n k : Nat) : ∀ s : State,
    (State.retestFor k n s).rooms.map Room.config = s.rooms.map Room.config
      ∧ (State.retestFor k n s).stations.map Station.room = s.stations.map Station.room := by
  induction k with
  | zero => intro s; exact ⟨rfl, rfl⟩
  | succ k ih => intro s; unfold State.retestFor; split <;> simp [ih]

@[simp] theorem State.retest_layout (n : Nat) :
    (s.retest n).rooms.map Room.config = s.rooms.map Room.config
      ∧ (s.retest n).stations.map Station.room = s.stations.map Station.room := by
  simp [State.retest]

@[simp] theorem State.afterRemoval_layout (n : Nat) :
    (s.afterRemoval n).rooms.map Room.config = s.rooms.map Room.config
      ∧ (s.afterRemoval n).stations.map Station.room = s.stations.map Station.room := by
  simp [State.afterRemoval]

@[simp] theorem State.retestGroup_layout (n : Nat) :
    (s.retestGroup n).rooms.map Room.config = s.rooms.map Room.config
      ∧ (s.retestGroup n).stations.map Station.room = s.stations.map Station.room := by
  unfold State.retestGroup; (repeat' split) <;> simp

@[simp] theorem State.removeMember_layout (g : Group) (m : Member) (r : Reason) :
    (s.removeMember g m r).rooms.map Room.config = s.rooms.map Room.config
      ∧ (s.removeMember g m r).stations.map Station.room = s.stations.map Station.room := by
  unfold State.removeMember; dsimp only; split <;> simp

@[simp] theorem State.suspendMember_layout (n : Nat) :
    (s.suspendMember n).rooms.map Room.config = s.rooms.map Room.config
      ∧ (s.suspendMember n).stations.map Station.room = s.stations.map Station.room := by
  unfold State.suspendMember; (repeat' split) <;> simp

@[simp] theorem State.recompute_rooms (o : Occupant) (p : Permit) :
    (s.recompute o p).rooms = s.rooms ∧ (s.recompute o p).stations = s.stations := by
  unfold State.recompute State.relevel State.returnToClear
  dsimp only
  (repeat' split) <;> simp

@[simp] theorem State.actOnHolder_layout (p : Permit) (c : PermitAmend) :
    (s.actOnHolder p c).rooms.map Room.config = s.rooms.map Room.config
      ∧ (s.actOnHolder p c).stations.map Station.room = s.stations.map Station.room := by
  unfold State.actOnHolder; dsimp only; (repeat' split) <;> simp

@[simp] theorem State.markRevoked_rooms (o : Occupant) (b : Bool) :
    (s.markRevoked o b).rooms = s.rooms ∧ (s.markRevoked o b).stations = s.stations := by
  simp [State.markRevoked]

@[simp] theorem State.actOnRevoked_layout (c : Nat) :
    (s.actOnRevoked c).rooms.map Room.config = s.rooms.map Room.config
      ∧ (s.actOnRevoked c).stations.map Station.room = s.stations.map Station.room := by
  unfold State.actOnRevoked; (repeat' split) <;> simp

@[simp] theorem State.unmark_rooms (c : Nat) :
    (s.unmark c).rooms = s.rooms ∧ (s.unmark c).stations = s.stations := by
  unfold State.unmark; (repeat' split) <;> simp

@[simp] theorem State.rederive_rooms (n : Nat) :
    (s.rederive n).rooms = s.rooms ∧ (s.rederive n).stations = s.stations := ⟨rfl, rfl⟩

@[simp] theorem State.changeRoomMode_layout (n : Nat) (m : RoomMode) :
    (s.changeRoomMode n m).rooms.map Room.config = s.rooms.map Room.config
      ∧ (s.changeRoomMode n m).stations.map Station.room = s.stations.map Station.room := by
  simp only [State.changeRoomMode, State.retest_layout, State.reevaluateRoom_layout, State.rederive_rooms,
    State.put_frame, State.setRoom_rooms]
  exact ⟨map_setNth rfl, rfl⟩

@[simp] theorem State.operatorRelease_layout (o : Occupant) :
    (s.operatorRelease o).rooms.map Room.config = s.rooms.map Room.config
      ∧ (s.operatorRelease o).stations.map Station.room = s.stations.map Station.room := by
  simp [State.operatorRelease]

/-! ### Jobs -/

@[simp] theorem State.commitStation_layout (n : Nat) :
    (s.commitStation n).rooms.map Room.config = s.rooms.map Room.config
      ∧ (s.commitStation n).stations.map Station.room = s.stations.map Station.room := by
  have rooms (l : List Occupant) : (l.foldl State.commitRecord s).rooms = s.rooms :=
    foldl_keeps _ _ (fun s o => by simp [State.commitRecord]) l s
  have stations (l : List Occupant) : (l.foldl State.commitRecord s).stations = s.stations :=
    foldl_keeps _ _ (fun s o => by simp [State.commitRecord]) l s
  unfold State.commitStation; split <;> simp [rooms, stations]

@[simp] theorem State.cancelGroup_rooms (n : Nat) :
    (s.cancelGroup n).rooms = s.rooms ∧ (s.cancelGroup n).stations = s.stations := by
  unfold State.cancelGroup; split <;> simp

@[simp] theorem State.lapseStation_layout (n : Nat) (silence : Bool) :
    (s.lapseStation n silence).rooms.map Room.config = s.rooms.map Room.config
      ∧ (s.lapseStation n silence).stations.map Station.room = s.stations.map Station.room := by
  unfold State.lapseStation; dsimp only; (repeat' split) <;> simp

@[simp] theorem State.takeDoorEvent_layout (n : Nat) :
    (s.takeDoorEvent n).rooms.map Room.config = s.rooms.map Room.config
      ∧ (s.takeDoorEvent n).stations.map Station.room = s.stations.map Station.room :=
  ⟨rfl, setStation_bindings rfl⟩

@[simp] theorem State.takeDue_layout {act : Due → State → State}
    (ha : act ∈ [pairingAction, stayDeadlineAction, escalationAction, limitAction]) :
    (s.takeDue act).rooms.map Room.config = s.rooms.map Room.config
      ∧ (s.takeDue act).stations.map Station.room = s.stations.map Station.room := by
  have acts (w : Due) (s : State) :
      (act w s).rooms.map Room.config = s.rooms.map Room.config
        ∧ (act w s).stations.map Station.room = s.stations.map Station.room := by
    simp only [List.mem_cons, List.not_mem_nil, or_false] at ha
    rcases ha with rfl | rfl | rfl | rfl
    · unfold pairingAction State.expireGroup; (repeat' split) <;> simp
    · unfold stayDeadlineAction State.raiseOverstay; dsimp only; (repeat' split) <;> simp
    · unfold escalationAction State.escalateOverstay; (repeat' split) <;> simp
    · unfold limitAction State.escalateAlert; (repeat' split) <;> simp
  unfold State.takeDue; split <;> simp [acts]

@[simp] theorem State.admitOrPair_layout (p : Presentation) (q : Permit) :
    (s.admitOrPair p q).rooms.map Room.config = s.rooms.map Room.config
      ∧ (s.admitOrPair p q).stations.map Station.room = s.stations.map Station.room := by
  unfold State.admitOrPair State.join State.grant State.found State.concludeWait
  dsimp only
  (repeat' split) <;> simp

@[simp] theorem State.decideEntry_layout (p : Presentation) :
    (s.decideEntry p).rooms.map Room.config = s.rooms.map Room.config
      ∧ (s.decideEntry p).stations.map Station.room = s.stations.map Station.room := by
  unfold State.decideEntry State.tryPermits State.roomChecks State.repeatTap State.memberTap
  dsimp only
  (repeat' split) <;> simp

@[simp] theorem State.decideExit_layout (p : Presentation) :
    (s.decideExit p).rooms.map Room.config = s.rooms.map Room.config
      ∧ (s.decideExit p).stations.map Station.room = s.stations.map Station.room := by
  unfold State.decideExit State.exitRecord State.offerExit
  dsimp only
  (repeat' split) <;> simp

@[simp] theorem State.takePresentation_layout {act : State → Presentation → State}
    (ha : act ∈ [State.decideEntry, State.decideExit]) :
    (s.takePresentation act).rooms.map Room.config = s.rooms.map Room.config
      ∧ (s.takePresentation act).stations.map Station.room = s.stations.map Station.room := by
  simp only [List.mem_cons, List.not_mem_nil, or_false] at ha
  unfold State.takePresentation State.decideSilent
  dsimp only
  rcases ha with rfl | rfl <;> (repeat' split) <;> simp

@[simp] theorem State.foldl_retire_layout (l : List (Nat × Permit)) :
    (l.foldl State.retire s).rooms = s.rooms ∧ (l.foldl State.retire s).stations = s.stations :=
  ⟨foldl_keeps _ _ (fun s e => by simp [State.retire]) l s, foldl_keeps _ _ (fun s e => by simp [State.retire]) l s⟩

/-! ### The station line -/

@[simp] theorem State.setDoor_bindings (n : Nat) (d : Door) :
    (s.setDoor n d).stations.map Station.room = s.stations.map Station.room := setStation_bindings rfl

@[simp] theorem State.writeChannel_bindings (n : Nat) (c : Channel) (r : Reason) :
    (s.writeChannel n c r).stations.map Station.room = s.stations.map Station.room := by
  simp only [State.writeChannel, State.put_frame]
  exact setStation_bindings rfl

@[simp] theorem State.commitIfAdmitting_bindings (n : Nat) :
    (s.commitIfAdmitting n).stations.map Station.room = s.stations.map Station.room := by
  unfold State.commitIfAdmitting
  split
  · exact setStation_bindings rfl
  · rfl

@[simp] theorem State.raiseLapseAt_bindings (n : Nat) (c : Bool) :
    (s.raiseLapseAt n c).stations.map Station.room = s.stations.map Station.room := setStation_bindings rfl

@[simp] theorem State.doorOpened_bindings (n : Nat) :
    (s.doorOpened n).stations.map Station.room = s.stations.map Station.room := by
  unfold State.doorOpened State.raiseForced
  dsimp only
  (repeat' split) <;> simp

@[simp] theorem State.doorClosed_bindings (n : Nat) :
    (s.doorClosed n).stations.map Station.room = s.stations.map Station.room := by
  unfold State.doorClosed; split <;> simp

@[simp] theorem State.doorReleased_bindings (n k : Nat) :
    (s.doorReleased n k).stations.map Station.room = s.stations.map Station.room := by
  unfold State.doorReleased; split <;> simp

@[simp] theorem State.linkStep_bindings (n : Nat) :
    (s.linkStep n).stations.map Station.room = s.stations.map Station.room := by
  have written := setStation_bindings (s := s) (n := n) (st := { s.station n with missed := 0, link := .online }) rfl
  unfold State.linkStep
  split
  · simpa using written
  · exact written

@[simp] theorem State.verdictStep_bindings (n : Nat) (t : Toggle) :
    (s.verdictStep n t).stations.map Station.room = s.stations.map Station.room := by
  have written := setStation_bindings (s := s) (n := n) (st := (s.station n).delivered) rfl
  unfold State.verdictStep
  (repeat' split)
  · rfl
  · rw [State.doorReleased_bindings, written]
  · exact written
  · rfl

@[simp] theorem State.reportStep_bindings (n : Nat) (t : Toggle) (d : Side) (c : Nat) :
    (s.reportStep n t d c).stations.map Station.room = s.stations.map Station.room := by
  have heldBack : ((s.station n).heldBack t).room = (s.station n).room := by unfold Station.heldBack; split <;> rfl
  unfold State.reportStep
  (repeat' split)
  · exact setStation_bindings rfl
  · exact setStation_bindings rfl
  · exact setStation_bindings heldBack
  · rfl

@[simp] theorem State.takeAnswer_layout (n : Nat) (a : StationAnswer) :
    (s.takeAnswer n a).rooms = s.rooms
      ∧ (s.takeAnswer n a).stations.map Station.room = s.stations.map Station.room := by
  refine ⟨(s.takeAnswer_samePersons n a).2.2.1, ?_⟩
  unfold State.takeAnswer State.contactAndReport State.contactStep
  dsimp only
  (repeat' split) <;> simp

@[simp] theorem State.silence_bindings (n : Nat) :
    (s.silence n).stations.map Station.room = s.stations.map Station.room := by
  have door (s : State) : (s.silenceDoor n).stations.map Station.room = s.stations.map Station.room := by
    unfold State.silenceDoor; split <;> simp
  unfold State.silence
  extract_lets _ s1 _ s2 _ s3
  have h1 : s1.stations.map Station.room = s.stations.map Station.room := by
    simp only [s1, State.offer_frame, State.put_frame]
    exact setStation_bindings rfl
  have h2 : s2.stations.map Station.room = s.stations.map Station.room :=
    (door _).trans ((setStation_bindings (by rfl)).trans h1)
  have h3 : s3.stations.map Station.room = s.stations.map Station.room := (setStation_bindings (by rfl)).trans h2
  split
  · exact (State.raiseLapseAt_bindings ..).trans h3
  · exact h3

@[simp] theorem State.miss_layout (n : Nat) (settle : Bool) :
    (s.miss n settle).rooms = s.rooms ∧ (s.miss n settle).stations.map Station.room = s.stations.map Station.room := by
  refine ⟨(s.miss_samePersons n settle).2.2.1, ?_⟩
  unfold State.miss State.countMiss
  dsimp only
  (repeat' split)
  · rfl
  · exact (State.silence_bindings ..).trans (setStation_bindings rfl)
  · exact setStation_bindings rfl

@[simp] theorem State.releaseExpires_layout (n : Nat) :
    (s.releaseExpires n).rooms = s.rooms
      ∧ (s.releaseExpires n).stations.map Station.room = s.stations.map Station.room := by
  refine ⟨(s.releaseExpires_samePersons n).2.2.1, ?_⟩
  unfold State.releaseExpires
  dsimp only
  (repeat' split) <;> simp

@[simp] theorem State.heldExpires_layout (n : Nat) :
    (s.heldExpires n).rooms = s.rooms ∧ (s.heldExpires n).stations.map Station.room = s.stations.map Station.room := by
  refine ⟨(s.heldExpires_samePersons n).2.2.1, ?_⟩
  unfold State.heldExpires
  split <;> simp

@[simp] theorem State.endTurn_layout : s.endTurn.rooms = s.rooms ∧ s.endTurn.stations = s.stations := by
  unfold State.endTurn; split <;> exact ⟨rfl, rfl⟩

end

/-! ### Wakes and start-ups -/

/-- The rooms keep their configuration, and the stations the rooms they are bound to. -/
def State.SameLayout (s t : State) : Prop :=
  t.rooms.map Room.config = s.rooms.map Room.config ∧ t.stations.map Station.room = s.stations.map Station.room

/-- The rooms at their defaults, with nobody in them and no group waiting. -/
def State.Blank (s : State) : Prop := s.rooms = List.replicate 12 defaultRoom ∧ s.pool = [] ∧ s.groups = []

/-- The layout is kept, or nobody is in rooms at their defaults. -/
def State.KeepsLayout (s t : State) : Prop := s.SameLayout t ∨ t.Blank

section
variable {s t u : State}

theorem State.SameLayout.of_same (h : s.SameLayout t) (hr : t.SameRecords u) : s.SameLayout u := by
  obtain ⟨-, -, -, -, hrooms, -, -, -, -, hstations⟩ := hr
  simpa [State.SameLayout, hrooms, hstations] using h

theorem State.KeepsLayout.of_same (h : s.KeepsLayout t) (hr : t.SameRecords u) : s.KeepsLayout u := by
  refine h.imp (fun h => h.of_same hr) fun h => ?_
  obtain ⟨-, -, -, -, hrooms, hpool, hgroups, -⟩ := hr
  simpa [State.Blank, hrooms, hpool, hgroups] using h

theorem wokenStation_room (st : Station) : (wokenStation st).room = st.room := by unfold wokenStation; split <;> rfl

@[simp] theorem wake_layout (s : State) (c : ModeCause) :
    (s.wake c).rooms = s.rooms ∧ (s.wake c).stations.map Station.room = s.stations.map Station.room := by
  simp [State.wake, State.restartLine, Function.comp_def, wokenStation_room]

@[simp] theorem wakeEvent_layout (s : State) (c : ModeCause) :
    (s.wakeEvent c).rooms = s.rooms ∧ (s.wakeEvent c).stations.map Station.room = s.stations.map Station.room := by
  unfold State.wakeEvent
  (repeat' split) <;> simp

@[simp] theorem stop_layout (s : State) :
    s.stop.rooms = s.rooms ∧ s.stop.stations.map Station.room = s.stations.map Station.room := by
  unfold State.stop
  dsimp only
  split <;> simp

@[simp] theorem supplyFell_layout (s : State) :
    s.supplyFell.rooms = s.rooms ∧ s.supplyFell.stations.map Station.room = s.stations.map Station.room := by
  unfold State.supplyFell; split <;> simp

@[simp] theorem supplyRose_layout (s : State) :
    s.supplyRose.rooms = s.rooms ∧ s.supplyRose.stations.map Station.room = s.stations.map Station.room := by
  unfold State.supplyRose; (repeat' split) <;> simp

@[simp] theorem warmWork_layout (s : State) :
    s.warmWork.rooms.map Room.config = s.rooms.map Room.config ∧ s.warmWork.stations = s.stations := by
  have entries (l : List Occupant) (s : State) :
      (l.foldl State.rebuildEntry s).rooms = s.rooms ∧ (l.foldl State.rebuildEntry s).stations = s.stations :=
    ⟨foldl_keeps _ _ (fun s o => by unfold State.rebuildEntry; split <;> simp) l s,
      foldl_keeps _ _ (fun s o => by unfold State.rebuildEntry; split <;> simp) l s⟩
  have alert (s : State) (a : RoomAlert) (n : Nat) :
      (s.rebuildAlert a n).rooms.map Room.config = s.rooms.map Room.config
        ∧ (s.rebuildAlert a n).stations = s.stations := by
    unfold State.rebuildAlert; split <;> simp
  obtain ⟨v, ⟨-, -, -, -, hrooms, -, -, -, -, hstations⟩, hd⟩ := discardGroups_eq s.lapseAll
  unfold State.warmWork
  constructor
  · rw [foldl_keeps (fun t => t.rooms.map Room.config) _ (fun s n => by rw [(alert _ _ _).1, (alert _ _ _).1]),
      (entries ..).1, hd]
    simp [hrooms, State.lapseAll]
  · rw [foldl_keeps State.stations _ (fun s n => by rw [(alert _ _ _).2, (alert _ _ _).2]), (entries ..).2, hd]
    simp [hstations, State.lapseAll]

/-- What every numbered step of a start-up keeps, the kind being given, holds after the start-up, whole or cut short. -/
theorem startUp_property {P : RestartKind → State → Prop}
    (same : ∀ {k : RestartKind} {u v : State}, u.SameRecords v → P k u → P k v)
    (step : ∀ (k : RestartKind) (lost : Bool) (rate : Nat) (v : State) (x : StartUpStep), P k v →
      P k (v.startUpStep k lost rate x))
    (h : ∀ k, P k s) (event : RestartKind) (inputs : RestartInputs) : ∃ k, P k (s.startUp event inputs) := by
  unfold State.startUp
  dsimp only
  generalize (s.supply.backedUp inputs.backup).decideKind event = kind
  refine ⟨kind.1, ?_⟩
  have taken := foldl_property (step kind.1 kind.2 (rateOfStraps inputs)) (stepsTaken inputs.cut)
    { s with supply := (s.supply.backedUp inputs.backup).startingUp kind.1 }
    (same (u := s) (by simp [State.SameRecords]) (h kind.1))
  split
  · exact same ((State.restartLine_same _).trans (State.pump_same _)) taken
  · exact same (State.holdAgain_same _ _) taken

/-- The numbered steps keep the layout; under a kind that keeps no retained domain they may set the defaults. -/
theorem startUpStep_layout {w : State} (k : RestartKind) (lost : Bool) (rate : Nat) (v : State) (x : StartUpStep)
    (hv : w.SameLayout v ∨ v.Blank ∧ ¬ k.keeps) :
    w.SameLayout (v.startUpStep k lost rate x) ∨ (v.startUpStep k lost rate x).Blank ∧ ¬ k.keeps := by
  have warm (hk : k.keeps) : w.SameLayout v.warmWork := by
    obtain ⟨hrooms, hstations⟩ := hv.resolve_right fun h => h.2 hk
    simp [State.SameLayout, hrooms, hstations]
  cases x with
  | unretained =>
    have kept : (warmStation · |>.room) = Station.room := rfl
    simpa [State.startUpStep, State.resetUnretained, State.SameLayout, State.Blank, Function.comp_def, kept] using hv
  | kind =>
    cases k with
    | powerOn => exact .inr ⟨⟨rfl, rfl, rfl⟩, by simp [RestartKind.keeps]⟩
    | restartClean => exact .inr ⟨⟨rfl, rfl, rfl⟩, by simp [RestartKind.keeps]⟩
    | resetLine => exact hv
    | restartWarm => exact hv
  | mode => exact hv
  | record => simpa [State.startUpStep, State.putRestart, State.SameLayout, State.Blank] using hv
  | ready => exact hv
  | engine =>
    cases k with
    | powerOn => exact hv
    | restartClean => exact hv
    | resetLine => exact .inl (warm (.inl rfl))
    | restartWarm => exact .inl (warm (.inr rfl))
  | mark => exact hv

/-- R176, R178: a start-up keeps the layout, or sets all to the defaults. -/
theorem State.KeepsLayout.startUp (h : t.SameLayout s) (event : RestartKind) (inputs : RestartInputs) :
    t.KeepsLayout (s.startUp event inputs) := by
  obtain ⟨k, hk⟩ := startUp_property (P := fun k v => t.SameLayout v ∨ v.Blank ∧ ¬ k.keeps)
    (fun hr hv => hv.imp (fun h => h.of_same hr) fun ⟨hb, hk⟩ => by
      obtain ⟨-, -, -, -, hrooms, hpool, hgroups, -⟩ := hr
      exact ⟨by simpa [State.Blank, hrooms, hpool, hgroups] using hb, hk⟩)
    startUpStep_layout (fun _ => .inl h) event inputs
  exact hk.imp_right And.left

theorem State.KeepsLayout.replySent (h : s.SameLayout t) (inputs : RestartInputs) :
    s.KeepsLayout (t.replySent inputs) := by
  unfold State.replySent
  split
  · exact .startUp h _ _
  · exact .startUp h _ _
  · split <;> exact .inl (by simpa [State.SameLayout] using h)

theorem State.KeepsLayout.leaveReset (h : s.SameLayout t) (inputs : RestartInputs) :
    s.KeepsLayout (t.leaveReset inputs) := by
  unfold State.leaveReset
  dsimp only
  split
  · exact .inl (by simpa [State.SameLayout] using h)
  · exact .startUp (by simpa [State.SameLayout] using h) _ _

/-! ### Every command but ROOM-SET and STATION-SET -/

/-- A request job leaves the state, but for the reply, or what its service leaves. -/
theorem requestJob_cases {i : Instr} {serve : List Byte → State → Except ReplyCode (State × List Byte)}
    (h : requestJob i s serve = .next t) :
    s.SameRecords t ∨ ∃ b u r, serve b s = .ok (u, r) ∧ u.SameRecords t := by
  unfold requestJob State.answer at h
  (repeat' split at h) <;> cases h
  · exact .inl (by simp [State.SameRecords])
  · rename_i u r hs
    exact .inr ⟨_, u, r, hs, by simp [State.SameRecords]⟩
  · exact .inl (.refl s)
  · exact .inl (.refl s)

theorem acceptedRequest_cases {i : Instr} {serve : List Byte → State → Except ReplyCode (State × List Byte)}
    (h : acceptedRequest i s serve = .next t) :
    s.SameRecords t ∨ ∃ b u r, serve b s = .ok (u, r) ∧ u.SameRecords t := by
  unfold acceptedRequest State.answer at h
  (repeat' split at h) <;> cases h
  · exact .inl (by simp [State.SameRecords])
  · rename_i u r hs
    exact .inr ⟨_, u, r, hs, by simp [State.SameRecords]⟩
  · exact .inl (.refl s)

theorem whenGranted_cases {i : Instr} {job : State → State} (h : whenGranted i s job = .next t) :
    t = s ∨ (job s).SameRecords t := by
  unfold whenGranted at h
  split at h <;> cases h
  · exact .inr (State.pump_same _)
  · exact .inl rfl

theorem State.SameRecords.sameLayout (h : s.SameRecords t) : s.SameLayout t :=
  State.SameLayout.of_same ⟨rfl, rfl⟩ h

/-- What a service keeps of the layout, the whole request keeps. -/
theorem layout_of_served {serve : List Byte → State → Except ReplyCode (State × List Byte)}
    (h : s.SameRecords t ∨ ∃ b u r, serve b s = .ok (u, r) ∧ u.SameRecords t)
    (hs : ∀ b u r, serve b s = .ok (u, r) → s.SameLayout u) : s.KeepsLayout t := by
  obtain h | ⟨b, u, r, hu, h⟩ := h
  · exact .inl h.sameLayout
  · exact .inl ((hs b u r hu).of_same h)

theorem layout_of_job {job : State → State} (h : t = s ∨ (job s).SameRecords t) (hj : s.SameLayout (job s)) :
    s.KeepsLayout t := by
  obtain rfl | h := h
  · exact .inl ⟨rfl, rfl⟩
  · exact .inl (hj.of_same h)

/-- A service that reads a body and answers one state. -/
theorem layout_of_read {α : Type} {x : Except ReplyCode α} {f : α → State × List Byte} {r : List Byte}
    (h : x.map f = .ok (u, r)) (hf : ∀ a, s.SameLayout (f a).1) : s.SameLayout u := by
  obtain ⟨a, -, ha⟩ := except_map_ok h
  simpa [ha] using hf a

/-- R24, R25, R131, R176: only a ROOM-SET writes a room's configuration, only a STATION-SET binds a station, and only a
restart with defaults resets them. -/
theorem exec_keepsLayout {c : Instr} (hr : c ≠ .roomSet) (hs : c ≠ .stationSet) (h : exec c s = .next t) :
    s.KeepsLayout t := by
  cases c <;> dsimp only [exec] at h
  case roomSet => exact absurd rfl hr
  case stationSet => exact absurd rfl hs
  case identify | status | settingsRead =>
    exact layout_of_served (acceptedRequest_cases h) fun _ _ _ hs => layout_of_read hs fun _ => ⟨rfl, rfl⟩
  case unknownKind => exact layout_of_served (acceptedRequest_cases h) fun _ _ _ hs => nomatch hs
  case settingsWrite | clockRead | revokeList | restartWarmRequest | restartCleanRequest =>
    exact layout_of_served (requestJob_cases h) fun _ _ _ hs => layout_of_read hs fun _ => ⟨rfl, rfl⟩
  case trailRead | trailClose | trailFree =>
    refine layout_of_served (acceptedRequest_cases h) fun b u r hs => ?_
    simp only [serveTrailRead, serveTrailClose, serveTrailFree] at hs
    (repeat' split at hs) <;> cases hs
    all_goals simp [State.SameLayout, State.closeTrail, State.freeHalf, apply_ite State.rooms, apply_ite State.stations]
  case modeRequestRun | modeRequestReserve | modeRequestStandby =>
    refine layout_of_served (requestJob_cases h) fun b u r hs => ?_
    simp only [serveModeRun, serveModeReserve, serveModeStandby] at hs
    (repeat' split at hs) <;> cases hs
    all_goals simp [(State.requestRun_same s).sameLayout, (State.requestReserve_same s).sameLayout,
      (State.requestStandby_same s).sameLayout]
  case clockSet | permitAdd | permitAmend | permitRemove | permitRead | permitFind | revoke | unrevoke | roomMode
      | roomRead | occupantRelease | stationChannel | stationRead =>
    refine layout_of_served (requestJob_cases h) fun b u r hs => ?_
    simp only [serveClockSet, servePermitAdd, servePermitAmend, servePermitRemove, servePermitRead, servePermitFind,
      serveRevoke, serveUnrevoke, serveRoomMode, serveRoomRead, serveOccupantRelease, serveStationChannel,
      serveStationRead] at hs
    (repeat' split at hs) <;> cases hs
    all_goals simp [State.SameLayout, State.setClock]
  case doorCommit =>
    refine layout_of_job (whenGranted_cases h) ?_
    split <;> simp [State.SameLayout]
  case doorLapse =>
    refine layout_of_job (whenGranted_cases h) ?_
    (repeat' split) <;> simp [State.SameLayout]
  case pairingExpiry | stayDeadlineDue | escalationDue | limitDue =>
    exact layout_of_job (whenGranted_cases h) (State.takeDue_layout s (by simp))
  case entryDecision | exitDecision =>
    exact layout_of_job (whenGranted_cases h) (State.takePresentation_layout s (by simp))
  case sweepStep => exact layout_of_job (whenGranted_cases h) (by simp [State.SameLayout])
  case frameSent =>
    simp only [execFrameSent] at h
    (repeat' split at h) <;> cases h
    · exact .inl ⟨rfl, rfl⟩
    · exact .inl ⟨rfl, rfl⟩
    · exact .replySent ⟨rfl, rfl⟩ _
    · exact .inl ⟨rfl, rfl⟩
    · exact .inl ⟨rfl, rfl⟩
  case resetLineReleased | mainSupplyUp =>
    simp only [execResetLineReleased, execMainSupplyUp] at h
    split at h <;> cases h
    · exact .leaveReset ⟨rfl, rfl⟩ _
    · exact .inl ⟨rfl, rfl⟩
  case frameReceived | receiveGap | framingError | lengthOver1024 | startByteReceived | sweepIntervalExpiry | clockEnd
      | pollRoundStart | call | goodAnswer | missingAnswer | corruptAnswer | releaseTimerExpiry | heldTimerExpiry
      | supplyFall | supplyRise | attention | resetLineActive | mainSupplyLoss =>
    simp only [execFrameReceived, execReceiveGap, execFramingError, execLengthOver1024, execStartByteReceived,
      execSweepIntervalExpiry, execClockEnd, execPollRoundStart, execCall, execGoodAnswer, execMissingAnswer,
      execCorruptAnswer, execReleaseTimerExpiry, execHeldTimerExpiry, execSupplyFall, execSupplyRise, execAttention,
      execResetLineActive, execMainSupplyLoss] at h
    (repeat' split at h) <;> cases h
    all_goals
      exact .inl (by simp [State.SameLayout, (State.acceptFrame_same ..).rooms, (State.acceptFrame_same ..).stations,
        State.startRound, State.beginTurn])

/-! ### The effect of a step with its checks -/

/-- R24: a ROOM-SET that the checks let pass. -/
def State.RoomSet (s t : State) : Prop :=
  ∃ b c, readRoomConfig b = .ok c ∧ s.roomSetOccupied c = false ∧ t = s.configureRoom c

/-- R131: a STATION-SET that the checks let pass. -/
def State.StationSet (s t : State) : Prop :=
  ∃ b n room release held, readStationSet b = .ok (n, room, release, held) ∧ s.stationIdle n = true
    ∧ t = s.setStation n ((s.station n).bound room release held)

theorem serveRoomSet_ok {b r : List Byte} (h : serveRoomSet b s = .ok (u, r)) : s.RoomSet u := by
  unfold serveRoomSet at h
  (repeat' split at h) <;> cases h
  rename_i c hc ho
  exact ⟨b, c, hc, by simpa using ho, rfl⟩

theorem serveStationSet_ok {b r : List Byte} (h : serveStationSet b s = .ok (u, r)) : s.StationSet u := by
  unfold serveStationSet at h
  (repeat' split at h) <;> cases h
  rename_i n room release held hc hi
  exact ⟨b, n, room, release, held, hc, hi, rfl⟩

/-- What a step can do to the records: an accepted ROOM-SET or STATION-SET, or an effect that keeps the layout or sets
the defaults. -/
def State.Acts (s t : State) : Prop := s.RoomSet t ∨ s.StationSet t ∨ s.Effect t ∧ s.KeepsLayout t

theorem exec_acts {c : Instr} (h : exec c s = .next t) : ∃ v, s.Acts v ∧ v.SameRecords t := by
  by_cases hr : c = .roomSet
  · subst hr
    obtain h | ⟨b, v, r, hv, h⟩ := requestJob_cases h
    · exact ⟨s, .inr (.inr ⟨.same, .inl ⟨rfl, rfl⟩⟩), h⟩
    · exact ⟨v, .inl (serveRoomSet_ok hv), h⟩
  by_cases hs : c = .stationSet
  · subst hs
    obtain h | ⟨b, v, r, hv, h⟩ := requestJob_cases h
    · exact ⟨s, .inr (.inr ⟨.same, .inl ⟨rfl, rfl⟩⟩), h⟩
    · exact ⟨v, .inr (.inl (serveStationSet_ok hv)), h⟩
  · obtain ⟨v, hv, h'⟩ := exec_reaches c h
    have back : t.SameRecords v := by unfold State.SameRecords at h' ⊢; simp [h']
    exact ⟨v, .inr (.inr ⟨hv, (exec_keepsLayout hr hs h).of_same back⟩), h'⟩

/-- The queue of waiting commands holds no record: every step acts so on a state with the same records. -/
theorem step_acts (h : step s = .next t) : ∃ u v, s.SameRecords u ∧ u.Acts v ∧ v.SameRecords t := by
  unfold step at h
  (repeat' split at h)
  · obtain ⟨v, hv, h⟩ := exec_acts h
    exact ⟨_, v, by simp [State.SameRecords], hv, h⟩
  · obtain ⟨v, hv, h⟩ := exec_acts h
    exact ⟨s, v, .refl s, hv, h⟩
  · cases h
    have rooms : s.tick.rooms = s.rooms := s.tick_samePersons.2.2.1
    have stations : s.tick.stations.map Station.room = s.stations.map Station.room := by
      unfold State.tick; split <;> simp [Function.comp_def]
    exact ⟨s, s.tick, .refl s, .inr (.inr ⟨.tick, .inl ⟨by rw [rooms], stations⟩⟩), .refl _⟩

end

end Sys2Proof.Machine
end

