-- ==== Sys2Proof/Proofs/Places.lean ====
section
/-! The places persons hold, in a room or waiting for one (R28, R53, R70, R71), as one invariant of the pool and the
groups, the bindings of the stations and the capacities being given; and what each operation keeps of it. -/
namespace Sys2Proof.Machine

/-! ### The places of a state -/

/-- Every place held, in a room or reserved in it by a waiting member, as the credential and the room. -/
def State.places (s : State) : List (Nat × Nat) :=
  s.pool.map (fun o => (o.credential, o.room))
    ++ s.groups.flatMap (fun g => g.members.map (fun m => (m.credential, g.room)))

theorem places_credentials (s : State) : s.places.map Prod.fst = s.credentials := by
  simp [State.places, State.credentials, State.members, List.map_flatMap, Function.comp_def]

theorem places_count (s : State) (n : Nat) :
    s.places.countP (fun x => x.2 = n) = (s.occupants n).length + s.reserved n := by
  have waiting (l : List Group) : (l.flatMap (fun g => g.members.map (fun m => (m.credential, g.room)))).countP
      (fun x => x.2 = n) = ((l.filter (fun g => g.room = n)).flatMap Group.members).length := by
    induction l with
    | nil => rfl
    | cons g l ih =>
      rw [List.flatMap_cons, List.countP_append, ih, List.countP_map]
      by_cases hg : g.room = n <;> simp [hg, Function.comp_def]
  rw [State.places, List.countP_append, waiting, List.countP_map, State.occupants, ← List.countP_eq_length_filter]
  rfl

theorem places_length (s : State) : s.places.length = s.pool.length + s.members.length := by
  simp [State.places, State.members, List.length_flatMap]

theorem places_congr {s t : State} (hp : t.pool = s.pool) (hg : t.groups = s.groups) : t.places = s.places := by
  simp [State.places, hp, hg]

/-- R28, R53: places of distinct credentials, in the twelve rooms, within their capacities and 48 in all. -/
structure Housed (capacity : Nat → Nat) (l : List (Nat × Nat)) : Prop where
  distinct : (l.map Prod.fst).Nodup
  rooms : ∀ x ∈ l, 1 ≤ x.2 ∧ x.2 ≤ 12
  fits : ∀ n, l.countP (fun x => x.2 = n) ≤ capacity n
  total : l.length ≤ 48

theorem Housed.subperm {capacity : Nat → Nat} {l l' : List (Nat × Nat)} (h : Housed capacity l) (hl : l'.Subperm l) :
    Housed capacity l' where
  distinct := by
    obtain ⟨x, hx, hs⟩ := hl
    exact (hx.map _).nodup_iff.1 (h.distinct.sublist (hs.map _))
  rooms := fun x hx => h.rooms x (hl.subset hx)
  fits := fun n => (hl.countP_le _).trans (h.fits n)
  total := hl.length_le.trans h.total

theorem Housed.cons {capacity : Nat → Nat} {l : List (Nat × Nat)} (h : Housed capacity l) {c n : Nat}
    (hc : c ∉ l.map Prod.fst) (hn : 1 ≤ n ∧ n ≤ 12) (hfit : l.countP (fun x => x.2 = n) + 1 ≤ capacity n)
    (htotal : l.length + 1 ≤ 48) : Housed capacity ((c, n) :: l) where
  distinct := List.nodup_cons.2 ⟨hc, h.distinct⟩
  rooms := fun x hx => by
    rcases List.mem_cons.1 hx with rfl | hx
    · exact hn
    · exact h.rooms x hx
  fits := fun k => by
    by_cases hk : n = k
    · subst hk; simpa using hfit
    · simpa [List.countP_cons, hk] using h.fits k
  total := htotal

/-! ### The invariant -/

/-- R28, R53, R70, R71: the places are housed, the groups stand at distinct stations with 1 to 4 members each, and every
group and every ADMITTING record names its station's room, the bindings and the capacities being given. -/
structure State.Seated (bound capacity : Nat → Nat) (s : State) : Prop where
  housed : Housed capacity s.places
  stations : s.groups.Pairwise (fun g g' => g.station < g'.station)
  sizes : ∀ g ∈ s.groups, g.members ≠ [] ∧ g.members.length ≤ 4
  groupRooms : ∀ g ∈ s.groups, g.room = bound g.station
  entrances : ∀ o ∈ s.pool, o.presence = .admitting → o.room = bound o.station

/-- The room a station is bound to (R128). -/
def State.binding (s : State) (n : Nat) : Nat := (s.station n).room

/-- The capacity of a room (R22). -/
def State.capacity (s : State) (n : Nat) : Nat := (s.room n).capacity

theorem seated_iff (s : State) : s.Seated s.binding s.capacity ↔ s.PersonsSound ∧ s.WithinCapacity := by
  constructor
  · intro h
    have room {g : Group} (hg : g ∈ s.groups) : 1 ≤ g.room ∧ g.room ≤ 12 := by
      obtain ⟨m, hm⟩ := List.exists_mem_of_ne_nil _ (h.sizes g hg).1
      exact h.housed.rooms (m.credential, g.room)
        (List.mem_append_right _ (List.mem_flatMap.2 ⟨g, hg, List.mem_map.2 ⟨m, hm, rfl⟩⟩))
    refine ⟨⟨places_credentials s ▸ h.housed.distinct, h.stations, fun g hg => ?_, fun o ho => ?_, h.entrances⟩,
      fun n _ _ => places_count s n ▸ h.housed.fits n, places_length s ▸ h.housed.total⟩
    · exact ⟨(h.sizes g hg).1, (h.sizes g hg).2, h.groupRooms g hg, (room hg).1, (room hg).2⟩
    · exact h.housed.rooms (o.credential, o.room) (List.mem_append_left _ (List.mem_map.2 ⟨o, ho, rfl⟩))
  · rintro ⟨⟨distinct, stations, groups, pool, entrances⟩, fits, total⟩
    have rooms : ∀ x ∈ s.places, 1 ≤ x.2 ∧ x.2 ≤ 12 := fun x hx => by
      rcases List.mem_append.1 hx with hx | hx
      · obtain ⟨o, ho, rfl⟩ := List.mem_map.1 hx
        exact pool o ho
      · obtain ⟨g, hg, hx⟩ := List.mem_flatMap.1 hx
        obtain ⟨m, -, rfl⟩ := List.mem_map.1 hx
        exact (groups g hg).2.2.2
    refine ⟨⟨places_credentials s ▸ distinct, rooms, fun n => ?_, places_length s ▸ total⟩, stations, fun g hg => ?_,
      fun g hg => ?_, entrances⟩
    · by_cases hn : 1 ≤ n ∧ n ≤ 12
      · exact places_count s n ▸ fits n hn.1 hn.2
      · have none : s.places.countP (fun x => x.2 = n) = 0 :=
          List.countP_eq_zero.2 fun x hx he => hn (of_decide_eq_true he ▸ rooms x hx)
        exact none ▸ Nat.zero_le _
    · exact ⟨(groups g hg).1, (groups g hg).2.1⟩
    · exact (groups g hg).2.2.1

section
variable {bound capacity : Nat → Nat} {s t : State}

theorem State.Seated.of_same (h : s.Seated bound capacity) (hp : t.pool = s.pool) (hg : t.groups = s.groups) :
    t.Seated bound capacity := by
  obtain ⟨housed, stations, sizes, groupRooms, entrances⟩ := h
  exact ⟨places_congr hp hg ▸ housed, hg ▸ stations, hg ▸ sizes, hg ▸ groupRooms, hp ▸ entrances⟩

theorem State.Seated.of_empty (hp : s.pool = []) (hg : s.groups = []) : s.Seated bound capacity where
  housed := by
    have : s.places = [] := by simp [State.places, hp, hg]
    rw [this]
    exact ⟨List.nodup_nil, by simp, by simp, by simp⟩
  stations := by simp [hg]
  sizes := by simp [hg]
  groupRooms := by simp [hg]
  entrances := by simp [hp]

/-- Other bindings and capacities, under which what stands still fits. -/
theorem State.Seated.rebind {bound' capacity' : Nat → Nat} (h : s.Seated bound capacity)
    (hg : ∀ g ∈ s.groups, bound' g.station = bound g.station)
    (ho : ∀ o ∈ s.pool, o.presence = .admitting → bound' o.station = bound o.station)
    (hc : ∀ n, s.places.countP (fun x => x.2 = n) ≤ capacity' n) : s.Seated bound' capacity' where
  housed := { h.housed with fits := hc }
  stations := h.stations
  sizes := h.sizes
  groupRooms := fun g hm => (h.groupRooms g hm).trans (hg g hm).symm
  entrances := fun o hm ha => (h.entrances o hm ha).trans (ho o hm ha).symm

/-- Records removed and groups ended. -/
theorem State.Seated.fewer (h : s.Seated bound capacity) (hp : t.pool.Sublist s.pool) (hg : t.groups.Sublist s.groups) :
    t.Seated bound capacity where
  housed := h.housed.subperm ((hp.map _).append (hg.flatMap _)).subperm
  stations := h.stations.sublist hg
  sizes := fun g hm => h.sizes g (hg.subset hm)
  groupRooms := fun g hm => h.groupRooms g (hg.subset hm)
  entrances := fun o hm => h.entrances o (hp.subset hm)

/-- Records changed in what no place depends on. -/
theorem State.Seated.records (h : s.Seated bound capacity) {f : Occupant → Occupant}
    (hf : ∀ o, (f o).credential = o.credential ∧ (f o).room = o.room ∧ (f o).station = o.station
      ∧ ((f o).presence = .admitting → o.presence = .admitting))
    (hp : t.pool = s.pool.map f) (hg : t.groups = s.groups) : t.Seated bound capacity where
  housed := by
    have : t.places = s.places := by
      simp only [State.places, hp, hg, List.map_map, Function.comp_def, hf]
    rw [this]
    exact h.housed
  stations := hg ▸ h.stations
  sizes := hg ▸ h.sizes
  groupRooms := hg ▸ h.groupRooms
  entrances := fun o ho ha => by
    rw [hp] at ho
    obtain ⟨x, hx, rfl⟩ := List.mem_map.1 ho
    obtain ⟨-, hroom, hstation, hadm⟩ := hf x
    rw [hroom, hstation]
    exact h.entrances x hx (hadm ha)

theorem State.Seated.updateRecord (h : s.Seated bound capacity) (c : Nat) {f : Occupant → Occupant}
    (hf : ∀ o, (f o).credential = o.credential ∧ (f o).room = o.room ∧ (f o).station = o.station
      ∧ ((f o).presence = .admitting → o.presence = .admitting)) : (s.updateRecord c f).Seated bound capacity := by
  refine h.records (f := fun o => if o.credential = c then f o else o) (fun o => ?_) rfl rfl
  split
  · exact hf o
  · exact ⟨rfl, rfl, rfl, id⟩

/-! ### Groups -/

theorem State.Seated.apart (h : s.Seated bound capacity) : s.groups.Pairwise (fun g g' => g.station ≠ g'.station) :=
  h.stations.imp fun h => Nat.ne_of_lt h

/-- The places of one group, and those of the others with the pool's. -/
theorem State.Seated.places_split (h : s.Seated bound capacity) {g : Group} (hg : g ∈ s.groups) :
    s.places.Perm (g.members.map (fun m => (m.credential, g.room)) ++ (s.dropGroup g.station).places) := by
  obtain ⟨a, b, hl, ha, hb⟩ := groups_split h.apart hg
  unfold State.places
  rw [State.dropGroup_groups, State.dropGroup_pool, hl, dropGroup_split ha hb]
  simp only [List.flatMap_append, List.flatMap_cons]
  exact ((List.perm_append_comm_assoc ..).append_left _).trans (List.perm_append_comm_assoc ..)

theorem State.Seated.setMembers_places (h : s.Seated bound capacity) {g : Group} (hg : g ∈ s.groups) (l : List Member) :
    (s.setMembers g.station l).places.Perm
      (l.map (fun m => (m.credential, g.room)) ++ (s.dropGroup g.station).places) := by
  obtain ⟨a, b, hl, ha, hb⟩ := groups_split h.apart hg
  unfold State.places
  rw [State.dropGroup_groups, State.dropGroup_pool, State.setMembers_groups, State.setMembers_pool, hl,
    dropGroup_split ha hb, setMembers_split ha hb]
  simp only [List.flatMap_append, List.flatMap_cons]
  exact ((List.perm_append_comm_assoc ..).append_left _).trans (List.perm_append_comm_assoc ..)

/-- R70: the group at a station with other members, 1 to 4, whose places are housed. -/
theorem State.Seated.setMembers (h : s.Seated bound capacity) {g : Group} (hg : g ∈ s.groups) {l : List Member}
    (hl : Housed capacity (l.map (fun m => (m.credential, g.room)) ++ (s.dropGroup g.station).places))
    (hsize : l ≠ [] ∧ l.length ≤ 4) : (s.setMembers g.station l).Seated bound capacity := by
  have kept : ∀ x : Group, (if x.station = g.station then { x with members := l } else x).station = x.station
      ∧ (if x.station = g.station then { x with members := l } else x).room = x.room := fun x => by
    split <;> exact ⟨rfl, rfl⟩
  refine ⟨hl.subperm (h.setMembers_places hg l).subperm, ?_, fun x hx => ?_, fun x hx => ?_, h.entrances⟩
  · exact List.pairwise_map.2 (h.stations.imp fun hlt => by rwa [(kept _).1, (kept _).1])
  all_goals obtain ⟨y, hy, rfl⟩ := List.mem_map.1 hx
  · split
    · exact hsize
    · exact h.sizes y hy
  · rw [(kept y).1, (kept y).2]
    exact h.groupRooms y hy

/-- R79: some members of a group gone, not all. -/
theorem State.Seated.removeFrom (h : s.Seated bound capacity) {g : Group} (hg : g ∈ s.groups) {l : List Member}
    (hl : l.Sublist g.members) (hne : l ≠ []) : (s.setMembers g.station l).Seated bound capacity :=
  h.setMembers hg
    (h.housed.subperm (((hl.map _).append_right _).subperm.trans (h.places_split hg).symm.subperm))
    ⟨hne, hl.length_le.trans (h.sizes g hg).2⟩

/-- R76: a completed group's members hold their places as ADMITTING records. -/
theorem State.Seated.completeGroup (h : s.Seated bound capacity) {g : Group} (hg : g ∈ s.groups)
    (tap : Option (Nat × Nat)) : (s.completeGroup g tap).Seated bound capacity := by
  have hp := s.completeGroup_pool g tap
  have hgs := s.completeGroup_groups g tap
  have sub : (s.completeGroup g tap).groups.Sublist s.groups := hgs ▸ List.filter_sublist
  have perm : (s.completeGroup g tap).places.Perm s.places := by
    refine List.Perm.trans ?_ (h.places_split hg).symm
    unfold State.places
    rw [hp, hgs, State.dropGroup_groups, State.dropGroup_pool, List.map_append, List.map_map]
    rw [List.append_assoc]
    exact List.perm_append_comm_assoc ..
  refine ⟨h.housed.subperm perm.subperm, h.stations.sublist sub, fun x hx => h.sizes x (sub.subset hx),
    fun x hx => h.groupRooms x (sub.subset hx), fun o ho ha => ?_⟩
  rw [hp] at ho
  rcases List.mem_append.1 ho with ho | ho
  · exact h.entrances o ho ha
  · obtain ⟨m, -, rfl⟩ := List.mem_map.1 ho
    exact h.groupRooms g hg

theorem State.Seated.retestFor (n k : Nat) :
    ∀ {s : State}, s.Seated bound capacity → (State.retestFor k n s).Seated bound capacity := by
  induction k with
  | zero => intro s h; exact h
  | succ k ih =>
    intro s h
    unfold State.retestFor
    split
    · exact h
    · rename_i g hg
      exact ih (h.completeGroup (List.mem_of_mem_filter (List.mem_of_find?_eq_some hg)) _)

theorem State.Seated.retest (h : s.Seated bound capacity) (n : Nat) : (s.retest n).Seated bound capacity :=
  State.Seated.retestFor n _ h

theorem State.Seated.afterRemoval (h : s.Seated bound capacity) (n : Nat) : (s.afterRemoval n).Seated bound capacity :=
  (h.of_same (by simp) (by simp)).retest n

theorem State.Seated.retestGroup (h : s.Seated bound capacity) (n : Nat) : (s.retestGroup n).Seated bound capacity := by
  unfold State.retestGroup
  split
  · exact h
  · rename_i g hg
    split
    · exact (h.completeGroup (groupAt_eq_some hg).1 _).retest _
    · exact h

theorem State.Seated.dropGroup (h : s.Seated bound capacity) (n : Nat) : (s.dropGroup n).Seated bound capacity :=
  h.fewer (.refl _) List.filter_sublist

theorem State.Seated.removeMember (h : s.Seated bound capacity) {g : Group} (hg : g ∈ s.groups) (m : Member)
    (r : Reason) : (s.removeMember g m r).Seated bound capacity := by
  unfold State.removeMember
  dsimp only
  split
  · refine (h.dropGroup g.station).of_same (by simp) ?_
    simp only [State.dropGroup_groups, State.unschedule_groups, State.placeVerdict_frame, State.denyMember_frame,
      setMembers_filter]
  · rename_i hne
    exact State.Seated.retestGroup ((h.removeFrom hg List.filter_sublist hne).of_same (by simp) (by simp)) _

/-! ### Removals, door jobs and timer jobs -/

theorem State.Seated.leave (h : s.Seated bound capacity) (o : Occupant) : (s.leave o).Seated bound capacity :=
  h.fewer (leave_pool s o ▸ List.filter_sublist) (by simp)

theorem State.Seated.foldl_lapse (h : s.Seated bound capacity) (r : Reason) (l : List Occupant) :
    (l.foldl (State.lapse r) s).Seated bound capacity :=
  foldl_property (fun _ o h => State.Seated.leave (h.of_same (by simp) (by simp)) o) l s h

theorem State.Seated.cancelGroup (h : s.Seated bound capacity) (n : Nat) : (s.cancelGroup n).Seated bound capacity := by
  unfold State.cancelGroup
  split
  · exact h
  · exact (h.of_same (by simp) (by simp)).dropGroup n

theorem State.Seated.lapseStation (h : s.Seated bound capacity) (n : Nat) (silence : Bool) :
    (s.lapseStation n silence).Seated bound capacity := by
  have h1 := h.foldl_lapse (if silence then .stationSilent else .releaseExpired) (s.admittingAt n)
  unfold State.lapseStation
  extract_lets s1 s2
  have h2 : s2.Seated bound capacity := by
    unfold s2
    split
    · exact h1.cancelGroup n
    · exact h1
  split
  · exact h2
  · exact h2.afterRemoval _

theorem State.Seated.commitRecord (h : s.Seated bound capacity) (o : Occupant) :
    (s.commitRecord o).Seated bound capacity :=
  (h.updateRecord o.credential (f := fun x => { x with presence := .inside s.now (s.commitDeadline o) })
    fun _ => ⟨rfl, rfl, rfl, fun hp => nomatch hp⟩).of_same (by simp [State.commitRecord]) (by simp [State.commitRecord])

theorem State.Seated.commitStation (h : s.Seated bound capacity) (n : Nat) :
    (s.commitStation n).Seated bound capacity := by
  unfold State.commitStation
  split
  · exact h
  · exact (foldl_property (P := State.Seated bound capacity) (fun _ o h => h.commitRecord o) _ s h).afterRemoval _

theorem State.Seated.dueAction (h : s.Seated bound capacity) {act : Due → State → State}
    (ha : act ∈ [pairingAction, stayDeadlineAction, escalationAction, limitAction]) (w : Due) :
    (act w s).Seated bound capacity := by
  have overstay (o : Occupant) (l : Level) :
      (s.updateRecord o.credential (fun x => { x with overstay := l })).Seated bound capacity :=
    h.updateRecord _ fun _ => ⟨rfl, rfl, rfl, id⟩
  simp only [List.mem_cons, List.not_mem_nil, or_false] at ha
  rcases ha with rfl | rfl | rfl | rfl
  · unfold pairingAction State.expireGroup
    (repeat' split)
    · exact h
    · rename_i n _ g _
      exact (h.dropGroup n).of_same (by simp) (by simp)
    all_goals exact h
  · unfold stayDeadlineAction State.raiseOverstay
    dsimp only
    (repeat' split)
    · rename_i o _ _ _ _ _
      exact (overstay o .raised).of_same (by simp) (by simp)
    · rename_i o _ _ _
      exact (overstay o .raised).of_same (by simp) (by simp)
    all_goals exact h
  · unfold escalationAction State.escalateOverstay
    (repeat' split)
    · rename_i o _
      exact (overstay o .escalated).of_same (by simp) (by simp)
    all_goals exact h
  · unfold limitAction State.escalateAlert
    (repeat' split)
    all_goals exact h.of_same (by simp) (by simp)

/-! ### Decisions -/

theorem insertGroup_sorted {g : Group} {l : List Group} (hl : l.Pairwise (fun x y => x.station < y.station))
    (hg : ∀ x ∈ l, x.station ≠ g.station) : (insertGroup g l).Pairwise (fun x y => x.station < y.station) := by
  induction l with
  | nil => exact List.pairwise_singleton ..
  | cons x l ih =>
    obtain ⟨hx, hl'⟩ := List.pairwise_cons.1 hl
    have hne := hg x List.mem_cons_self
    unfold insertGroup
    split
    · rename_i hlt
      refine List.pairwise_cons.2 ⟨fun y hy => ?_, hl⟩
      rcases List.mem_cons.1 hy with rfl | hy
      · exact hlt
      · exact hlt.trans (hx y hy)
    · refine List.pairwise_cons.2 ⟨fun y hy => ?_, ih hl' fun y hy => hg y (List.mem_cons_of_mem _ hy)⟩
      rcases List.mem_cons.1 ((insertGroup_perm g l).mem_iff.1 hy) with rfl | hy
      · omega
      · exact hx y hy

section
variable {p : Presentation} {q : Permit}

theorem State.Seated.conclude (h : s.Seated bound capacity) (o : VerdictOutcome) (r : Reason) (n : Nat)
    (x : TrailRecord) : (s.conclude p o r n x).Seated bound capacity := h.of_same (by simp) (by simp)

theorem State.Seated.refuse (h : s.Seated bound capacity) (r : Reason) (n v : Nat) :
    (s.refuse p r n v).Seated bound capacity := h.of_same (by simp) (by simp)

section
variable (hb : bound p.station = (s.station p.station).room)
  (hnew : Housed capacity ((p.credential, (s.station p.station).room) :: s.places))
include hb hnew

/-- R61: a presenter granted holds a new place. -/
theorem State.Seated.grant (h : s.Seated bound capacity) : (s.grant p q).Seated bound capacity := by
  have h1 : State.Seated bound capacity
      { s with pool := s.pool ++ [newRecord s p.station (s.station p.station).room p.credential q] } :=
    { h with
      housed := by
        refine hnew.subperm (List.Perm.subperm ?_)
        simp only [State.places, List.map_append, List.map_cons, List.map_nil, List.append_assoc]
        exact List.perm_middle
      entrances := fun o ho ha => by
        rcases List.mem_append.1 ho with ho | ho
        · exact h.entrances o ho ha
        · cases List.mem_singleton.1 ho
          exact hb.symm }
  exact (h1.conclude _ _ _ _).afterRemoval _

/-- R72: a presenter who founds a group holds a new place. -/
theorem State.Seated.found (h : s.Seated bound capacity) (hg : s.groupAt p.station = none) :
    (s.found p q).Seated bound capacity := by
  have apart : ∀ x ∈ s.groups, x.station ≠ p.station := by simpa [State.groupAt] using hg
  unfold State.found
  dsimp only
  generalize s.now + (s.room (s.station p.station).room).pairingWindow = expiry
  have perm := insertGroup_perm ⟨p.station, (s.station p.station).room, [s.newMember p q], expiry⟩ s.groups
  have h1 : State.Seated bound capacity { s with
      groups := insertGroup ⟨p.station, (s.station p.station).room, [s.newMember p q], expiry⟩ s.groups } :=
    { h with
      housed := by
        refine hnew.subperm (List.Perm.subperm ?_)
        refine ((perm.flatMap_right _).append_left _).trans ?_
        exact List.perm_middle
      stations := insertGroup_sorted h.stations apart
      sizes := fun x hx => by
        rcases List.mem_cons.1 (perm.mem_iff.1 hx) with rfl | hx
        · exact ⟨List.cons_ne_nil _ _, by simp⟩
        · exact h.sizes x hx
      groupRooms := fun x hx => by
        rcases List.mem_cons.1 (perm.mem_iff.1 hx) with rfl | hx
        · exact hb.symm
        · exact h.groupRooms x hx }
  exact (h1.of_same (by simp) (by simp) : State.Seated bound capacity (State.schedule _ _ _)).conclude _ _ _ _

/-- R73: a presenter who joins a group holds a new place. -/
theorem State.Seated.join (h : s.Seated bound capacity) {g : Group} (hg : g ∈ s.groups) (hs : g.station = p.station)
    (hsize : g.members.length < 4) : (s.join p g q).Seated bound capacity := by
  have hroom : g.room = (s.station p.station).room := (h.groupRooms g hg).trans (hs ▸ hb)
  have h1 : (s.setMembers g.station (g.members ++ [s.newMember p q])).Seated bound capacity := by
    refine h.setMembers hg (hnew.subperm (List.Perm.subperm ?_)) ⟨by simp, by simpa using hsize⟩
    rw [List.map_append, List.append_assoc, ← hroom]
    exact List.perm_middle.trans ((h.places_split hg).symm.cons _)
  unfold State.join
  dsimp only
  split
  · have h2 := h1.completeGroup (mem_setMembers hg (g.members ++ [s.newMember p q])) (some (p.credential, p.taken))
    exact (h2.of_same (by simp) (by simp) : State.Seated bound capacity (State.setLast _ _ _ _)).retest _
  · exact h1.conclude _ _ _ _

theorem State.Seated.admitOrPair (h : s.Seated bound capacity) : (s.admitOrPair p q).Seated bound capacity := by
  unfold State.admitOrPair
  dsimp only
  split
  · rename_i g hg
    split
    · exact h.refuse _ _ _
    · rename_i hsize
      obtain ⟨hm, hs⟩ := groupAt_eq_some hg
      exact h.join hb hnew hm hs (Nat.lt_of_not_le hsize)
  · rename_i hg
    (repeat' split)
    · exact h.grant hb hnew
    · exact h.refuse _ _ _
    · exact h.found hb hnew hg

end

theorem State.Seated.roomChecks (h : s.Seated s.binding s.capacity) (hc : p.credential ∉ s.credentials)
    (hn : 1 ≤ (s.station p.station).room ∧ (s.station p.station).room ≤ 12) :
    (s.roomChecks p q).Seated s.binding s.capacity := by
  unfold State.roomChecks
  dsimp only
  (repeat' split)
  · exact h.refuse _ _ _
  · exact h.refuse _ _ _
  · exact h.refuse _ _ _
  · exact h.refuse _ _ _
  · rename_i hfit htotal
    refine h.admitOrPair rfl (h.housed.cons (places_credentials s ▸ hc) hn ?_ ?_)
    · rw [places_count]; exact Nat.le_of_not_lt hfit
    · rw [places_length]; exact Nat.le_of_not_lt htotal

theorem State.Seated.tryPermits (h : s.Seated s.binding s.capacity) (hps : s.PermitsSound)
    (hc : p.credential ∉ s.credentials) : (s.tryPermits p).Seated s.binding s.capacity := by
  unfold State.tryPermits
  dsimp only
  split
  · rename_i q hq
    have hfail : s.failure (s.station p.station).room q = none := by simpa using List.find?_some hq
    obtain ⟨e, he, rfl, -⟩ := (mem_permitsOf s _ _).1 (List.mem_of_find?_eq_some hq)
    have hroom : (s.station p.station).room ∈ e.2.rooms := by
      by_contra hn
      simp [State.failure, hn] at hfail
    exact h.roomChecks hc ((hps.2.1 e he).2.2.2.2.2.2.1 _ hroom)
  · split <;> exact h.refuse _ _ _

theorem State.Seated.decideEntry (h : s.Seated s.binding s.capacity) (hps : s.PermitsSound) :
    (s.decideEntry p).Seated s.binding s.capacity := by
  unfold State.decideEntry
  split
  · exact h.refuse _ _ _
  split
  · exact h.refuse _ _ _
  split
  · exact h.refuse _ _ _
  split
  · split
    · exact h.conclude _ _ _ _
    · exact h.refuse _ _ _
  · rename_i hr
    split
    · split
      · exact h.conclude _ _ _ _
      · exact h.refuse _ _ _
    · rename_i hm
      exact h.tryPermits hps (not_mem_credentials hr hm)

theorem State.Seated.decideExit (h : s.Seated bound capacity) : (s.decideExit p).Seated bound capacity := by
  unfold State.decideExit State.exitRecord
  dsimp only
  (repeat' split)
  · refine State.Seated.afterRemoval (State.Seated.leave (h.of_same ?_ ?_) _) _ <;> simp [State.offerExit]
  · refine State.Seated.afterRemoval (State.Seated.leave (h.of_same ?_ ?_) _) _ <;> simp [State.offerExit]
  · exact h.conclude _ _ _ _

theorem State.Seated.takePresentation (h : s.Seated s.binding s.capacity) (hps : s.PermitsSound)
    {act : State → Presentation → State} (ha : act ∈ [State.decideEntry, State.decideExit]) :
    (s.takePresentation act).Seated s.binding s.capacity := by
  unfold State.takePresentation
  split
  · exact h
  · rename_i p rest _
    have h1 : State.Seated s.binding s.capacity { s with presentations := rest } := h.of_same rfl rfl
    dsimp only
    split
    · exact h1.of_same (by simp [State.decideSilent]) (by simp [State.decideSilent])
    · simp only [List.mem_cons, List.not_mem_nil, or_false] at ha
      rcases ha with rfl | rfl
      · exact State.Seated.decideEntry (s := { s with presentations := rest }) h1 hps
      · exact h1.decideExit

end

/-! ### Requests -/

theorem State.Seated.recompute (h : s.Seated bound capacity) (o : Occupant) (p : Permit) :
    (s.recompute o p).Seated bound capacity := by
  unfold State.recompute
  split
  · exact h
  · rename_i entry old hp
    dsimp only
    generalize stayDeadline p s.settings.weekdayOffset (entry / 60) = deadline
    have h1 := h.updateRecord o.credential (f := fun x => { x with presence := .inside entry deadline })
      fun _ => ⟨rfl, rfl, rfl, fun hp => nomatch hp⟩
    generalize ht : State.put _ _ = t
    have h2 : t.Seated bound capacity := h1.of_same (by simp [← ht]) (by simp [← ht])
    have cleared : (t.returnToClear o deadline).Seated bound capacity :=
      (h2.updateRecord o.credential (f := fun x => { x with overstay := .clear }) fun _ => ⟨rfl, rfl, rfl, id⟩).of_same
        (by simp [State.returnToClear]) (by simp [State.returnToClear])
    unfold State.relevel
    (repeat' split)
    · exact h2.of_same rfl rfl
    · exact cleared
    · exact h2.of_same rfl rfl
    · exact cleared
    · exact h2

theorem State.Seated.suspendMember (h : s.Seated bound capacity) (n : Nat) :
    (s.suspendMember n).Seated bound capacity := by
  unfold State.suspendMember
  (repeat' split)
  · rename_i hg _ _ _
    exact h.removeMember (List.mem_of_find?_eq_some hg) _ _
  · exact h
  · exact h

theorem State.Seated.actOnHolder (h : s.Seated bound capacity) (p : Permit) (c : PermitAmend) :
    (s.actOnHolder p c).Seated bound capacity := by
  unfold State.actOnHolder
  extract_lets s1
  have h1 : s1.Seated bound capacity := by
    unfold s1
    split
    · exact h.suspendMember _
    · exact h
  (repeat' split)
  · exact h1.recompute _ _
  · exact h1
  · exact h1

theorem State.Seated.markRevoked (h : s.Seated bound capacity) (o : Occupant) (b : Bool) :
    (s.markRevoked o b).Seated bound capacity :=
  (h.updateRecord o.credential (f := fun x => { x with revokedInside := b }) fun _ => ⟨rfl, rfl, rfl, id⟩).of_same
    (by simp [State.markRevoked]) (by simp [State.markRevoked])

theorem State.Seated.actOnRevoked (h : s.Seated bound capacity) (c : Nat) :
    (s.actOnRevoked c).Seated bound capacity := by
  unfold State.actOnRevoked
  (repeat' split)
  · exact h.markRevoked _ _
  · rename_i hm
    exact h.removeMember (membershipOf_eq_some hm).1 _ _
  · exact h

theorem State.Seated.unmark (h : s.Seated bound capacity) (c : Nat) : (s.unmark c).Seated bound capacity := by
  unfold State.unmark
  (repeat' split)
  · exact h.markRevoked _ _
  · exact h
  · exact h

theorem State.Seated.configureRoom (h : s.Seated bound capacity) (c : RoomConfig) :
    (s.configureRoom c).Seated bound capacity := by
  unfold State.configureRoom
  dsimp only
  split
  · exact h.of_same rfl rfl
  · exact State.Seated.retest (h.of_same (by simp) (by simp)) _

/-- R26: the counts derived afresh move nobody. -/
theorem State.Seated.rederive (h : s.Seated bound capacity) (n : Nat) : (s.rederive n).Seated bound capacity := by
  have h1 : State.Seated bound capacity { s with pool := (s.rederive n).pool } := by
    refine h.records (f := fun o =>
      if o.room = n then { o with needsEscort := s.derivedNeeds o.role o.permit n } else o) (fun o => ?_) rfl rfl
    split <;> exact ⟨rfl, rfl, rfl, id⟩
  let derived (g : Group) : Group :=
    if g.room = n then
      { g with members := g.members.map (fun m => { m with needsEscort := s.derivedNeeds m.role m.permit n }) }
    else g
  have kept (g : Group) : (derived g).station = g.station ∧ (derived g).room = g.room
      ∧ (derived g).members.map Member.credential = g.members.map Member.credential := by
    unfold derived
    split
    · exact ⟨rfl, rfl, by simp [Function.comp_def]⟩
    · exact ⟨rfl, rfl, rfl⟩
  have length (g : Group) : (derived g).members.length = g.members.length := by
    simpa using congrArg List.length (kept g).2.2
  refine ⟨?_, ?_, fun g hg => ?_, fun g hg => ?_, h1.entrances⟩
  · have places : (s.rederive n).places = State.places { s with pool := (s.rederive n).pool } := by
      refine congrArg₂ _ rfl ?_
      change (s.groups.map derived).flatMap _ = _
      rw [List.flatMap_map]
      refine List.flatMap_congr fun g _ => ?_
      have := congrArg (List.map (fun c => (c, g.room))) (kept g).2.2
      simpa [(kept g).2.1, Function.comp_def] using this
    rw [places]
    exact h1.housed
  · exact List.pairwise_map.2 (h.stations.imp fun hlt => by rwa [(kept _).1, (kept _).1])
  all_goals obtain ⟨x, hx, rfl⟩ := List.mem_map.1 hg
  · refine ⟨fun hnil => (h.sizes x hx).1 ?_, (length x).le.trans (h.sizes x hx).2⟩
    exact List.length_eq_zero_iff.1 ((length x).symm.trans (List.length_eq_zero_iff.2 hnil))
  · exact (kept x).2.1.trans ((h.groupRooms x hx).trans (congrArg bound (kept x).1.symm))

theorem State.Seated.changeRoomMode (h : s.Seated bound capacity) (n : Nat) (m : RoomMode) :
    (s.changeRoomMode n m).Seated bound capacity := by
  have h1 := h.of_same (t := (s.setRoom n { s.room n with mode := m }).put
    { kind := .roomMode, room := n, value := .pair (s.room n).mode.code m.code }) (by simp) (by simp)
  exact State.Seated.retest ((h1.rederive n).of_same (by simp) (by simp)) n

theorem State.Seated.operatorRelease (h : s.Seated bound capacity) (o : Occupant) :
    (s.operatorRelease o).Seated bound capacity := by
  refine State.Seated.afterRemoval (State.Seated.leave (h.of_same ?_ ?_) o) _ <;> simp

theorem State.Seated.sweep (h : s.Seated bound capacity) (l : List (Nat × Permit)) :
    (l.foldl State.retire s).Seated bound capacity :=
  foldl_property (fun _ _ h => h.of_same (by simp [State.retire]) (by simp [State.retire])) l s h

end

end Sys2Proof.Machine
end

