-- ==== Sys2Proof/Proofs/PlacesStep.lean ====
section
/-! Every step keeps the places of persons (R28, R53, R70): an effect under the bindings and the capacities it finds, and
a write of the layout because its checks leave room for what stands. -/
namespace Sys2Proof.Machine

section
variable {s t : State}

theorem State.SameRecords.binding (h : s.SameRecords t) : t.binding = s.binding := by
  funext n; simp [State.binding, station_congr h.stations]

theorem State.SameRecords.capacity (h : s.SameRecords t) : t.capacity = s.capacity := by
  funext n; simp [State.capacity, room_congr h.rooms]

/-! ### The layout -/

theorem State.SameLayout.binding (h : s.SameLayout t) : t.binding = s.binding := by
  funext n
  have read (u : State) : u.binding n = nth (u.stations.map Station.room) n defaultStation.room := (nth_map ..).symm
  rw [read, read, h.2]

theorem State.SameLayout.capacity (h : s.SameLayout t) : t.capacity = s.capacity := by
  funext n
  exact (congrArg Room.capacity (room_config h.1 n) :)

end

section
variable {bound capacity : Nat → Nat} {s t : State}

theorem State.SameRecords.seated (h : s.SameRecords t) (hs : s.Seated bound capacity) : t.Seated bound capacity :=
  hs.of_same h.2.2.2.2.2.1 h.2.2.2.2.2.2.1

theorem State.SamePersons.seated (h : s.SamePersons t) (hs : s.Seated bound capacity) : t.Seated bound capacity :=
  hs.of_same h.2.2.2.1 h.2.2.2.2.1

/-! ### Start-up -/

theorem State.Seated.warmWork (h : s.Seated bound capacity) : s.warmWork.Seated bound capacity := by
  have entry (o : Occupant) (t : State) (ht : t.Seated bound capacity) : (t.rebuildEntry o).Seated bound capacity := by
    unfold State.rebuildEntry; split <;> exact ht.of_same rfl rfl
  have alert (p : Nat × RoomAlert) (t : State) (ht : t.Seated bound capacity) :
      (t.rebuildAlert p.2 p.1).Seated bound capacity := by
    unfold State.rebuildAlert; split <;> exact ht.of_same (by simp) (by simp)
  obtain ⟨w, hw, hd⟩ := discardGroups_eq s.lapseAll
  have h1 : s.lapseAll.discardGroups.Seated bound capacity := by
    rw [hd]
    exact (hw.seated (h.foldl_lapse _ _)).fewer (.refl _) (List.nil_sublist _)
  rw [warmWork_eq]
  exact foldl_property (fun t p ht => alert p t ht) _ _ (foldl_property (fun t o ht => entry o t ht) _ _ h1)

theorem State.Seated.startUpStep (h : s.Seated bound capacity) (k : RestartKind) (lost : Bool) (rate : Nat)
    (x : StartUpStep) : (s.startUpStep k lost rate x).Seated bound capacity := by
  cases x with
  | kind =>
    cases k with
    | powerOn => exact .of_empty rfl rfl
    | restartClean => exact .of_empty rfl rfl
    | resetLine => exact h.of_same rfl rfl
    | restartWarm => exact h.of_same rfl rfl
  | engine =>
    cases k with
    | powerOn => exact h
    | restartClean => exact h
    | resetLine => exact h.warmWork
    | restartWarm => exact h.warmWork
  | record => exact h.of_same (by simp [State.startUpStep, State.putRestart]) (by simp [State.startUpStep, State.putRestart])
  | unretained => exact h.of_same rfl rfl
  | mode => exact h.of_same rfl rfl
  | ready => exact h.of_same rfl rfl
  | mark => exact h.of_same rfl rfl

theorem State.Seated.startUp (h : s.Seated bound capacity) (event : RestartKind) (inputs : RestartInputs) :
    (s.startUp event inputs).Seated bound capacity := by
  obtain ⟨-, hs⟩ := startUp_property (P := fun _ => State.Seated bound capacity) (fun hr => hr.seated)
    (fun k lost rate v x hv => hv.startUpStep k lost rate x) (fun _ => h) event inputs
  exact hs

/-! ### What a command does first -/

theorem State.Seated.updatePermit (h : s.Seated bound capacity) (n : Nat) (f : Permit → Permit) :
    (s.updatePermit n f).Seated bound capacity := h.of_same rfl rfl

theorem State.Seated.withRevoked (h : s.Seated bound capacity) (l : List Nat) :
    State.Seated bound capacity { s with revoked := l } := h.of_same rfl rfl

theorem State.Seated.takeDoorEvent (h : s.Seated bound capacity) (n : Nat) :
    (s.takeDoorEvent n).Seated bound capacity := h.of_same rfl rfl

theorem State.Seated.dropHead (h : s.Seated bound capacity) : s.dropHead.Seated bound capacity := h.of_same rfl rfl

/-! ### Every effect -/

theorem State.Effect.seated (h : s.Seated s.binding s.capacity) (hps : s.PermitsSound) (he : s.Effect t) :
    t.Seated s.binding s.capacity := by
  cases he with
  | same => exact h
  | tick => exact s.tick_samePersons.seated h
  | clockEnd _ => exact h.of_same rfl rfl
  | setClock _ _ => exact h.of_same (by simp [State.setClock]) (by simp [State.setClock])
  | writeSettings _ _ _ => exact h.of_same rfl rfl
  | addPermit _ _ _ _ _ => exact h.of_same rfl rfl
  | dropPermit _ _ => exact h.of_same rfl rfl
  | amend _ c _ _ _ _ => exact (h.updatePermit _ _).actOnHolder _ c
  | revoke _ c _ _ _ => exact (h.withRevoked _).actOnRevoked c
  | unrevoke c => exact (h.withRevoked _).unmark c
  | roomSet _ c _ => exact h.configureRoom c
  | roomMode _ n m _ => exact h.changeRoomMode n m
  | operatorRelease o _ => exact h.operatorRelease o
  | stationSet _ _ _ _ _ _ _ => exact h.of_same rfl rfl
  | stationChannel _ _ _ => exact h.of_same (by simp) (by simp)
  | flag _ _ => exact h.of_same rfl rfl
  | commit n => exact (h.takeDoorEvent n).commitStation n
  | lapse n silence => exact (h.takeDoorEvent n).lapseStation n silence
  | due act e ha _ => exact h.dropHead.dueAction ha e.what
  | decide act ha => exact h.takePresentation hps ha
  | sweep k => exact h.sweep _
  | call _ => exact h.of_same rfl rfl
  | answer n chars _ => exact (s.takeAnswer_samePersons n _).seated h
  | miss n settle => exact (s.miss_samePersons n settle).seated h
  | corrupt n settle => exact (State.miss_samePersons _ n settle).seated (h.of_same rfl rfl)
  | releaseExpires n => exact (s.releaseExpires_samePersons n).seated h
  | heldExpires n => exact (s.heldExpires_samePersons n).seated h
  | wake c => exact h.of_same (by simp [State.wake, State.restartLine]) (by simp [State.wake, State.restartLine])
  | startUp w k inputs hw => exact (hw.seated h).startUp k inputs

/-! ### Writes of the layout -/

theorem room_setRoom_cases (s : State) (n k : Nat) (r : Room) :
    k = n ∧ (s.setRoom n r).room k = r ∨ (s.setRoom n r).room k = s.room k := by
  by_cases hk : k = n
  · subst hk
    by_cases hin : 1 ≤ k ∧ k ≤ s.rooms.length
    · exact .inl ⟨rfl, room_setRoom_self hin.1 hin.2⟩
    · exact .inr ((nth_out _ _ _ (by simpa using hin)).trans (nth_out _ _ _ hin).symm)
  · exact .inr (room_setRoom_ne hk)

/-- R24 step 4: an accepted ROOM-SET leaves the capacity at or above what stands. -/
theorem State.RoomSet.seated (h : s.Seated s.binding s.capacity) (ht : s.RoomSet t) : t.Seated t.binding t.capacity := by
  obtain ⟨b, c, -, ho, rfl⟩ := ht
  have fits : (s.occupants c.room).length + s.reserved c.room ≤ c.capacity := by
    unfold State.roomSetOccupied at ho
    simpa using (Bool.or_eq_false_iff.1 ho).2
  have h1 : State.Seated (s.setRoom c.room ((s.room c.room).configured c)).binding
      (s.setRoom c.room ((s.room c.room).configured c)).capacity (s.setRoom c.room ((s.room c.room).configured c)) := by
    refine State.Seated.rebind (h.of_same rfl rfl) (fun _ _ => rfl) (fun _ _ _ => rfl) fun n => ?_
    rw [places_congr (s := s) (t := s.setRoom c.room _) rfl rfl]
    obtain ⟨rfl, hr⟩ | hr := room_setRoom_cases s c.room n ((s.room c.room).configured c)
    · rw [State.capacity, hr, places_count]
      exact fits
    · rw [State.capacity, hr]
      exact h.housed.fits n
  have layout : (s.setRoom c.room ((s.room c.room).configured c)).SameLayout (s.configureRoom c) := by
    unfold State.configureRoom
    dsimp only
    split <;> simp [State.SameLayout]
  rw [layout.binding, layout.capacity]
  unfold State.configureRoom
  dsimp only
  split
  · exact h1
  · exact State.Seated.retest (h1.of_same (by simp) (by simp)) _

/-- R131 step 3: nobody waits or enters at a station that is bound anew. -/
theorem State.StationSet.seated (h : s.Seated s.binding s.capacity) (ht : s.StationSet t) :
    t.Seated t.binding t.capacity := by
  obtain ⟨b, n, room, release, held, -, hidle, rfl⟩ := ht
  simp only [State.stationIdle, Bool.and_eq_true, Option.isNone_iff_eq_none, Bool.not_eq_true'] at hidle
  obtain ⟨⟨⟨⟨⟨⟨-, hgroup⟩, hadm⟩, -⟩, -⟩, -⟩, -⟩ := hidle
  have group : ∀ g ∈ s.groups, g.station ≠ n := by simpa [State.groupAt] using hgroup
  have admitting : ∀ o ∈ s.pool, o.presence = .admitting → o.station ≠ n := by
    intro o ho ha hs
    have : s.hasAdmitting n = true := List.any_eq_true.2 ⟨o, ho, by simp [ha, hs]⟩
    rw [hadm] at this
    cases this
  refine State.Seated.rebind (h.of_same rfl rfl) (fun g hg => ?_) (fun o ho ha => ?_) h.housed.fits
  · exact congrArg Station.room (station_setStation_ne (group g hg))
  · exact congrArg Station.room (station_setStation_ne (admitting o ho ha))

theorem State.Acts.seated (h : s.Seated s.binding s.capacity) (hps : s.PermitsSound) (ht : s.Acts t) :
    t.Seated t.binding t.capacity := by
  obtain ht | ht | ⟨he, hl | ⟨-, hp, hg⟩⟩ := ht
  · exact ht.seated h
  · exact ht.seated h
  · rw [hl.binding, hl.capacity]
    exact he.seated h hps
  · exact .of_empty hp hg

end

/-- Settles O57: whatever a step does to the records, everybody stays seated under the layout it leaves. -/
theorem stepKeepsPersonsSound : Obligations.StepKeepsPersonsSound := by
  intro s t htables _ hpersons hcapacity hstep
  obtain ⟨u, v, hu, hact, ht⟩ := step_acts hstep
  have hs : s.Seated s.binding s.capacity := (seated_iff s).2 ⟨hpersons, hcapacity⟩
  have hv : v.Seated v.binding v.capacity :=
    hact.seated (hu.binding ▸ hu.capacity ▸ hu.seated hs) (by simpa [State.PermitsSound, hu.2.2.1] using htables.1)
  exact (seated_iff t).1 (ht.binding ▸ ht.capacity ▸ ht.seated hv)

end Sys2Proof.Machine
end

