-- ==== Sys2Proof/Proofs/Alerts.lean ====
section
/-! The agreement of the room alerts with the lists (R35 to R38): a re-evaluation of a room restores it there, and every
operation moves it in one room at most, whose alerts it re-evaluates after. -/
namespace Sys2Proof.Machine

/-! ### One alert -/

/-- R23: the persons on a room's list. -/
def State.persons (s : State) (n : Nat) : List Person := (s.occupants n).map Occupant.person

theorem persons_congr {s t : State} (h : t.pool = s.pool) (n : Nat) : t.persons n = s.persons n := by
  simp [State.persons, State.occupants, h]

section
variable {s t : State} {a b : RoomAlert} {n k : Nat}

theorem alertAgrees_congr (hq : (t.room n).quiet = (s.room n).quiet) (hl : a.level (t.room n) = a.level (s.room n))
    (hp : t.persons n = s.persons n) (h : s.AlertAgrees a n) : t.AlertAgrees a n := by
  have stands : a.stands (t.room n) (t.persons n) = a.stands (s.room n) (s.persons n) := by
    rw [← stands_quiet, hq, hp, stands_quiet]
  exact (congrArg (· = Level.clear) hl).to_iff.trans (h.trans (congrArg (· = false) stands.symm).to_iff)

/-- R35: the level of an alert re-evaluated is that of its condition, level 1 and level 2 being kept while it stands. -/
def State.Settled (s t : State) (a : RoomAlert) (n : Nat) : Prop :=
  t.rooms = (s.setRoom n (a.setLevel (s.room n) (s.rebuiltLevel a n))).rooms ∧ t.pool = s.pool

theorem reevaluate_settled (s : State) (a : RoomAlert) (n : Nat) : s.Settled (s.reevaluate a n) a n := by
  have moved (l : Level) : (s.moveRoomAlert a n l).rooms = (s.setRoom n (a.setLevel (s.room n) l)).rooms :=
    moveRoomAlert_rooms s a n l
  have unmoved : s.rooms = (s.setRoom n (a.setLevel (s.room n) (a.level (s.room n)))).rooms := by
    rw [setLevel_level]
    exact (setNth_nth _ _ _).symm
  refine ⟨?_, by simp⟩
  unfold State.reevaluate State.rebuiltLevel
  split <;> rename_i hl hst <;> rw [hl] at unmoved ⊢ <;> rw [hst]
  · exact moved .raised
  · exact unmoved
  · exact unmoved
  · exact unmoved
  · exact moved .clear
  · exact moved .clear

theorem rebuildAlert_settled (s : State) (a : RoomAlert) (n : Nat) : s.Settled (s.rebuildAlert a n) a n := by
  unfold State.rebuildAlert
  split
  · rename_i h
    refine ⟨?_, rfl⟩
    have level : s.rebuiltLevel a n = a.level (s.room n) := by simp [State.rebuiltLevel, h]
    rw [level, setLevel_level]
    exact (setNth_nth _ _ _).symm
  · exact reevaluate_settled s a n

theorem State.Settled.agrees (h : s.Settled t a n) (h1 : 1 ≤ n) (hn : n ≤ s.rooms.length) : t.AlertAgrees a n := by
  have room : t.room n = a.setLevel (s.room n) (s.rebuiltLevel a n) := (room_congr h.1 n).trans (room_setRoom_self h1 hn)
  have persons : t.persons n = s.persons n := persons_congr h.2 n
  have stands : a.stands (t.room n) (t.persons n) = a.stands (s.room n) (s.persons n) := by
    rw [← stands_quiet, room, setLevel_quiet, persons, stands_quiet]
  change a.level (t.room n) = .clear ↔ a.stands (t.room n) (t.persons n) = false
  rw [stands, room, level_setLevel]
  change (if a.stands (s.room n) (s.persons n) then _ else _) = _ ↔ _
  cases a.stands (s.room n) (s.persons n) <;> cases hl : a.level (s.room n) <;> simp

theorem State.Settled.other (h : s.Settled t a n) (hne : k ≠ n ∨ b ≠ a) (hb : s.AlertAgrees b k) : t.AlertAgrees b k := by
  refine alertAgrees_congr (s := s) ?_ ?_ (persons_congr h.2 k) hb
  all_goals
    rw [room_congr h.1]
    obtain ⟨rfl, hr⟩ | hr := room_setRoom_cases s n k (a.setLevel (s.room n) (s.rebuiltLevel a n))
    all_goals rw [hr]
  · exact setLevel_quiet a _ _
  · exact level_setLevel_ne (hne.resolve_left (fun h => h rfl)) _ _

theorem State.Settled.length (h : s.Settled t a n) : t.rooms.length = s.rooms.length := by rw [h.1]; simp

end

/-! ### All alerts but those of one room -/

/-- Both alerts of every room but room `k` agree with its list; of every room where `k` is 0. -/
structure State.AgreesOff (s : State) (k : Nat) : Prop where
  length : s.rooms.length = 12
  agrees : ∀ n, 1 ≤ n → n ≤ 12 → n ≠ k → ∀ a, s.AlertAgrees a n

theorem agreesOff_zero_iff {s : State} : s.AgreesOff 0 ↔ s.rooms.length = 12 ∧ s.AlertsAgree := by
  constructor
  · exact fun h => ⟨h.length, fun n h1 h12 => ⟨h.agrees n h1 h12 (by omega) _, h.agrees n h1 h12 (by omega) _⟩⟩
  · rintro ⟨hl, h⟩
    refine ⟨hl, fun n h1 h12 _ a => ?_⟩
    cases a with
    | lone => exact (h n h1 h12).1
    | unescorted => exact (h n h1 h12).2

section
variable {s t : State} {k : Nat}

theorem State.AgreesOff.weaken (h : s.AgreesOff 0) (k : Nat) : s.AgreesOff k :=
  ⟨h.length, fun n h1 h12 _ => h.agrees n h1 h12 (by omega)⟩

/-- A state with the same rooms, and off room `k` with the same persons. -/
theorem State.AgreesOff.of_persons (h : s.AgreesOff k) (hr : t.rooms = s.rooms)
    (hp : ∀ n, n ≠ k → t.persons n = s.persons n) : t.AgreesOff k :=
  ⟨hr ▸ h.length, fun n h1 h12 hn a => alertAgrees_congr (congrArg Room.quiet (room_congr hr n))
    (congrArg a.level (room_congr hr n)) (hp n hn) (h.agrees n h1 h12 hn a)⟩

theorem State.AgreesOff.of_same (h : s.AgreesOff k) (hr : t.rooms = s.rooms) (hp : t.pool = s.pool) : t.AgreesOff k :=
  h.of_persons hr fun n _ => persons_congr hp n

/-- A room written anew. -/
theorem State.AgreesOff.setRoom (h : s.AgreesOff 0) (n : Nat) (r : Room) : (s.setRoom n r).AgreesOff n :=
  ⟨by simpa using h.length, fun m h1 h12 hm a => alertAgrees_congr (congrArg Room.quiet (room_setRoom_ne hm))
    (congrArg a.level (room_setRoom_ne hm)) (persons_congr rfl m) (h.agrees m h1 h12 (by omega) a)⟩

/-- R36: the re-evaluation of a room restores the agreement there. -/
theorem State.AgreesOff.reevaluateRoom (h : s.AgreesOff k) : (s.reevaluateRoom k).AgreesOff 0 := by
  have first := reevaluate_settled s .lone k
  have second := reevaluate_settled (s.reevaluate .lone k) .unescorted k
  refine ⟨second.length.trans (first.length.trans h.length), fun n h1 h12 _ a => ?_⟩
  have hn : n ≤ s.rooms.length := by rw [h.length]; exact h12
  by_cases hk : n = k
  · subst hk
    cases a with
    | lone => exact second.other (.inr (by simp)) (first.agrees h1 hn)
    | unescorted => exact second.agrees h1 (by rw [first.length]; exact hn)
  · exact second.other (.inl hk) (first.other (.inl hk) (h.agrees n h1 h12 hk a))

/-- Records joining one room's list. -/
theorem State.AgreesOff.join (h : s.AgreesOff k) (hr : t.rooms = s.rooms) {l : List Occupant}
    (hp : t.pool = s.pool ++ l) (hl : ∀ o ∈ l, o.room = k) : t.AgreesOff k := by
  refine h.of_persons hr fun n hn => ?_
  have none : l.filter (fun o => o.room = n) = [] :=
    List.filter_eq_nil_iff.2 fun o ho he => hn ((of_decide_eq_true he).symm.trans (hl o ho))
  simp [State.persons, State.occupants, hp, none]

/-- Records changed in what no alert depends on. -/
theorem State.AgreesOff.records (h : s.AgreesOff k) (hr : t.rooms = s.rooms) {f : Occupant → Occupant}
    (hp : t.pool = s.pool.map f) (hf : ∀ o, (f o).room = o.room ∧ (o.room ≠ k → (f o).person = o.person)) :
    t.AgreesOff k := by
  refine h.of_persons hr fun n hn => ?_
  have room : (fun o => decide (o.room = n)) ∘ f = fun o => decide (o.room = n) := by funext o; simp [(hf o).1]
  unfold State.persons State.occupants
  rw [hp, List.filter_map, room, List.map_map]
  refine List.map_congr_left fun o ho => (hf o).2 ?_
  rw [of_decide_eq_true (List.mem_filter.1 ho).2]
  exact hn

theorem State.AgreesOff.updateRecord (h : s.AgreesOff k) (c : Nat) {f : Occupant → Occupant}
    (hf : ∀ o, (f o).room = o.room ∧ (f o).person = o.person) : (s.updateRecord c f).AgreesOff k := by
  refine h.records rfl (f := fun o => if o.credential = c then f o else o) rfl fun o => ?_
  split
  · exact ⟨(hf o).1, fun _ => (hf o).2⟩
  · exact ⟨rfl, fun _ => rfl⟩

/-- R33: the records of a credential removed, which are of room `k`. -/
theorem State.AgreesOff.leave (h : s.AgreesOff k) {o : Occupant}
    (ho : ∀ x ∈ s.pool, x.credential = o.credential → x.room = k) : (s.leave o).AgreesOff k := by
  refine h.of_persons (by simp) fun n hn => ?_
  unfold State.persons State.occupants
  rw [leave_pool, List.filter_filter]
  congr 1
  refine List.filter_congr fun x hx => ?_
  by_cases hc : x.credential = o.credential
  · have := ho x hx hc
    simp [hc, show x.room ≠ n by omega]
  · simp [hc]

/-! ### Groups -/

theorem State.AgreesOff.completeGroup (h : s.AgreesOff 0) (g : Group) (tap : Option (Nat × Nat)) :
    (s.completeGroup g tap).AgreesOff 0 := by
  unfold State.completeGroup
  refine State.AgreesOff.reevaluateRoom ((h.weaken g.room).join (l := g.members.map (Member.toRecord g)) ?_ ?_ ?_)
  · simp
  · simp
  · intro o ho
    obtain ⟨m, -, rfl⟩ := List.mem_map.1 ho
    rfl

theorem State.AgreesOff.retestFor (n k : Nat) : ∀ {s : State}, s.AgreesOff 0 → (State.retestFor k n s).AgreesOff 0 := by
  induction k with
  | zero => intro s h; exact h
  | succ k ih =>
    intro s h
    unfold State.retestFor
    split
    · exact h
    · exact ih (h.completeGroup _ _)

theorem State.AgreesOff.retest (h : s.AgreesOff 0) (n : Nat) : (s.retest n).AgreesOff 0 := State.AgreesOff.retestFor n _ h

theorem State.AgreesOff.afterRemoval (h : s.AgreesOff k) : (s.afterRemoval k).AgreesOff 0 := h.reevaluateRoom.retest k

theorem State.AgreesOff.retestGroup (h : s.AgreesOff 0) (n : Nat) : (s.retestGroup n).AgreesOff 0 := by
  unfold State.retestGroup
  (repeat' split)
  · exact h
  · exact (h.completeGroup _ _).retest _
  · exact h

theorem State.AgreesOff.removeMember (h : s.AgreesOff 0) (g : Group) (m : Member) (r : Reason) :
    (s.removeMember g m r).AgreesOff 0 := by
  unfold State.removeMember
  dsimp only
  split
  · exact h.of_same (by simp) (by simp)
  · exact State.AgreesOff.retestGroup (h.of_same (by simp) (by simp)) _

/-! ### Door jobs and timer jobs -/

/-- R32: records of room `k` lapsed. -/
theorem State.AgreesOff.foldl_lapse (h : s.AgreesOff k) (hc : (s.pool.map Occupant.credential).Nodup) (r : Reason)
    {l : List Occupant} (hl : ∀ o ∈ l, o ∈ s.pool ∧ o.room = k) : (l.foldl (State.lapse r) s).AgreesOff k := by
  refine (foldl_property_of_mem (P := fun t => t.AgreesOff k ∧ t.pool.Sublist s.pool) l (fun t o ho ⟨ht, hs⟩ => ?_) s
    ⟨h, .refl _⟩).1
  obtain ⟨ho, hk⟩ := hl o ho
  have only : ∀ x ∈ t.pool, x.credential = o.credential → x.room = k := fun x hx hxo =>
    List.inj_on_of_nodup_map hc (hs.subset hx) ho hxo ▸ hk
  refine ⟨State.AgreesOff.leave (ht.of_same (by simp) (by simp)) (by simpa using only), ?_⟩
  rw [State.lapse, leave_pool]
  exact (List.filter_sublist).trans (by simpa using hs)

theorem State.AgreesOff.cancelGroup (h : s.AgreesOff k) (n : Nat) : (s.cancelGroup n).AgreesOff k := by
  unfold State.cancelGroup
  split
  · exact h
  · exact h.of_same (by simp) (by simp)

theorem State.AgreesOff.lapseStation (h : s.AgreesOff 0) (hc : (s.pool.map Occupant.credential).Nodup) {n : Nat}
    (hn : ∀ o ∈ s.admittingAt n, o.room = (s.station n).room) (silence : Bool) :
    (s.lapseStation n silence).AgreesOff 0 := by
  have lapsed {k : Nat} (hk : s.AgreesOff k) (hl : ∀ o ∈ s.admittingAt n, o.room = k) :=
    hk.foldl_lapse hc (if silence then .stationSilent else .releaseExpired)
      fun o ho => ⟨(List.mem_filter.1 ho).1, hl o ho⟩
  have cancelled {k : Nat} {t : State} (ht : t.AgreesOff k) : (if silence then t.cancelGroup n else t).AgreesOff k := by
    split
    · exact ht.cancelGroup n
    · exact ht
  unfold State.lapseStation
  dsimp only
  split
  · rename_i hnil
    exact cancelled (lapsed h fun o ho => by rw [List.isEmpty_iff.1 hnil] at ho; cases ho)
  · exact (cancelled (lapsed (h.weaken _) hn)).afterRemoval

theorem State.AgreesOff.commitRecord (h : s.AgreesOff k) (o : Occupant) : (s.commitRecord o).AgreesOff k :=
  (h.updateRecord o.credential (f := fun x => { x with presence := .inside s.now (s.commitDeadline o) })
    fun _ => ⟨rfl, rfl⟩).of_same (by simp [State.commitRecord]) (by simp [State.commitRecord])

theorem State.AgreesOff.commitStation (h : s.AgreesOff 0) (n : Nat) : (s.commitStation n).AgreesOff 0 := by
  unfold State.commitStation
  split
  · exact h
  · exact ((foldl_property (P := fun t : State => t.AgreesOff 0) (fun _ o h => h.commitRecord o) _ s h).weaken _).afterRemoval

theorem State.AgreesOff.escalateAlert (h : s.AgreesOff 0) (a : RoomAlert) (n : Nat) :
    (s.escalateAlert a n).AgreesOff 0 := by
  unfold State.escalateAlert
  split
  · rename_i hl
    refine ⟨by simpa [moveRoomAlert_rooms] using h.length, fun m h1 h12 h0 b => ?_⟩
    have rooms : (s.moveRoomAlert a n .escalated).rooms = (s.setRoom n (a.setLevel (s.room n) .escalated)).rooms :=
      moveRoomAlert_rooms s a n .escalated
    have hb := h.agrees m h1 h12 h0 b
    have persons : (s.moveRoomAlert a n .escalated).persons m = s.persons m := persons_congr (by simp) m
    obtain ⟨rfl, hr⟩ | hr := room_setRoom_cases s n m (a.setLevel (s.room n) .escalated)
    · have room := (room_congr rooms m).trans hr
      by_cases hba : b = a
      · subst hba
        have stands : b.stands (s.room m) (s.persons m) ≠ false := fun hf => by
          have := hb.2 hf
          rw [hl] at this
          cases this
        unfold State.AlertAgrees
        change _ ↔ b.stands _ (State.persons _ m) = false
        rw [room, level_setLevel, ← stands_quiet, setLevel_quiet, stands_quiet, persons]
        simp [stands]
      · exact alertAgrees_congr (by rw [room, setLevel_quiet]) (by rw [room, level_setLevel_ne hba]) persons hb
    · have room := (room_congr rooms m).trans hr
      exact alertAgrees_congr (by rw [room]) (by rw [room]) persons hb
  · exact h
  · exact h

theorem State.AgreesOff.dueAction (h : s.AgreesOff 0) {act : Due → State → State}
    (ha : act ∈ [pairingAction, stayDeadlineAction, escalationAction, limitAction]) (w : Due) :
    (act w s).AgreesOff 0 := by
  have overstay (o : Occupant) (l : Level) :
      (s.updateRecord o.credential (fun x => { x with overstay := l })).AgreesOff 0 :=
    h.updateRecord _ fun _ => ⟨rfl, rfl⟩
  simp only [List.mem_cons, List.not_mem_nil, or_false] at ha
  rcases ha with rfl | rfl | rfl | rfl
  · unfold pairingAction State.expireGroup
    (repeat' split)
    all_goals exact h.of_same (by simp) (by simp)
  · unfold stayDeadlineAction State.raiseOverstay
    dsimp only
    (repeat' split)
    · rename_i o _ _ _ _ _
      exact (overstay o .raised).of_same (by simp) (by simp)
    · rename_i o _ _ _
      exact (overstay o .raised).of_same (by simp) (by simp)
    all_goals exact h
  · unfold escalationAction State.escalateOverstay
    (repeat' split)
    · rename_i o _
      exact (overstay o .escalated).of_same (by simp) (by simp)
    all_goals exact h
  · cases w with
    | loneLimit n => exact h.escalateAlert .lone n
    | unescortedLimit n => exact h.escalateAlert .unescorted n
    | _ => exact h

/-! ### Decisions -/

section
variable {p : Presentation} {q : Permit}

theorem State.AgreesOff.conclude (h : s.AgreesOff k) (o : VerdictOutcome) (r : Reason) (n : Nat) (x : TrailRecord) :
    (s.conclude p o r n x).AgreesOff k := h.of_same (by simp) (by simp)

theorem State.AgreesOff.refuse (h : s.AgreesOff k) (r : Reason) (n v : Nat) : (s.refuse p r n v).AgreesOff k :=
  h.of_same (by simp) (by simp)

theorem State.AgreesOff.joinGroup (h : s.AgreesOff 0) (g : Group) : (s.join p g q).AgreesOff 0 := by
  have h1 : (s.setMembers g.station (g.members ++ [s.newMember p q])).AgreesOff 0 := h.of_same rfl rfl
  unfold State.join
  dsimp only
  split
  · have h2 := h1.completeGroup { g with members := g.members ++ [s.newMember p q] } (some (p.credential, p.taken))
    exact (h2.of_same (by simp) (by simp) : State.AgreesOff (State.setLast _ _ _ _) 0).retest _
  · exact h1.conclude _ _ _ _

theorem State.AgreesOff.grant (h : s.AgreesOff 0) : (s.grant p q).AgreesOff 0 := by
  have h1 : State.AgreesOff
      { s with pool := s.pool ++ [newRecord s p.station (s.station p.station).room p.credential q] }
      (s.station p.station).room := (h.weaken _).join rfl rfl (by simp [newRecord])
  exact (h1.conclude _ _ _ _).afterRemoval

theorem State.AgreesOff.admitOrPair (h : s.AgreesOff 0) : (s.admitOrPair p q).AgreesOff 0 := by
  unfold State.admitOrPair
  dsimp only
  (repeat' split)
  · exact h.refuse _ _ _
  · exact h.joinGroup _
  · exact h.grant
  · exact h.refuse _ _ _
  · exact h.of_same (by simp [State.found, State.concludeWait]) (by simp [State.found, State.concludeWait])

theorem State.AgreesOff.tryPermits (h : s.AgreesOff 0) : (s.tryPermits p).AgreesOff 0 := by
  unfold State.tryPermits
  dsimp only
  split
  · unfold State.roomChecks
    dsimp only
    (repeat' split)
    · exact h.refuse _ _ _
    · exact h.refuse _ _ _
    · exact h.refuse _ _ _
    · exact h.refuse _ _ _
    · exact h.admitOrPair
  · split <;> exact h.refuse _ _ _

theorem State.AgreesOff.decideEntry (h : s.AgreesOff 0) : (s.decideEntry p).AgreesOff 0 := by
  unfold State.decideEntry
  split
  · exact h.refuse _ _ _
  split
  · exact h.refuse _ _ _
  split
  · exact h.refuse _ _ _
  split
  · split
    · exact h.conclude _ _ _ _
    · exact h.refuse _ _ _
  split
  · split
    · exact h.conclude _ _ _ _
    · exact h.refuse _ _ _
  · exact h.tryPermits

theorem State.AgreesOff.decideExit (h : s.AgreesOff 0) (hc : (s.pool.map Occupant.credential).Nodup) :
    (s.decideExit p).AgreesOff 0 := by
  unfold State.decideExit
  split
  · rename_i o ho
    have hm : o ∈ s.pool := (List.mem_filter.1 (List.mem_of_find?_eq_some ho)).1
    have only : ∀ x ∈ s.pool, x.credential = o.credential → x.room = o.room := fun x hx hxo =>
      List.inj_on_of_nodup_map hc hx hm hxo ▸ rfl
    unfold State.exitRecord
    dsimp only
    split
    all_goals
      refine State.AgreesOff.afterRemoval (State.AgreesOff.leave ((h.weaken _).of_same ?_ ?_) ?_)
      · simp [State.offerExit]
      · simp [State.offerExit]
      · simpa [State.offerExit] using only
  · exact h.conclude _ _ _ _

theorem State.AgreesOff.takePresentation (h : s.AgreesOff 0) (hc : (s.pool.map Occupant.credential).Nodup)
    {act : State → Presentation → State} (ha : act ∈ [State.decideEntry, State.decideExit]) :
    (s.takePresentation act).AgreesOff 0 := by
  unfold State.takePresentation
  split
  · exact h
  · rename_i p rest _
    have h1 : State.AgreesOff { s with presentations := rest } 0 := h.of_same rfl rfl
    dsimp only
    split
    · exact h1.of_same (by simp [State.decideSilent]) (by simp [State.decideSilent])
    · simp only [List.mem_cons, List.not_mem_nil, or_false] at ha
      rcases ha with rfl | rfl
      · exact h1.decideEntry
      · exact h1.decideExit hc

end

/-! ### Requests -/

theorem State.AgreesOff.recompute (h : s.AgreesOff 0) (o : Occupant) (p : Permit) : (s.recompute o p).AgreesOff 0 := by
  unfold State.recompute
  split
  · exact h
  · rename_i entry old hp
    dsimp only
    generalize stayDeadline p s.settings.weekdayOffset (entry / 60) = deadline
    have h1 := h.updateRecord o.credential (f := fun x => { x with presence := .inside entry deadline }) fun _ => ⟨rfl, rfl⟩
    generalize ht : State.put _ _ = t
    have h2 : t.AgreesOff 0 := h1.of_same (by simp [← ht]) (by simp [← ht])
    have cleared : (t.returnToClear o deadline).AgreesOff 0 :=
      (h2.updateRecord o.credential (f := fun x => { x with overstay := .clear }) fun _ => ⟨rfl, rfl⟩).of_same
        (by simp [State.returnToClear]) (by simp [State.returnToClear])
    unfold State.relevel
    (repeat' split)
    · exact h2.of_same rfl rfl
    · exact cleared
    · exact h2.of_same rfl rfl
    · exact cleared
    · exact h2

theorem State.AgreesOff.actOnHolder (h : s.AgreesOff 0) (p : Permit) (c : PermitAmend) :
    (s.actOnHolder p c).AgreesOff 0 := by
  have suspended : (s.suspendMember p.number).AgreesOff 0 := by
    unfold State.suspendMember
    (repeat' split)
    · exact h.removeMember _ _ _
    · exact h
    · exact h
  unfold State.actOnHolder
  extract_lets s1
  have h1 : s1.AgreesOff 0 := by
    unfold s1
    split
    · exact suspended
    · exact h
  (repeat' split)
  · exact h1.recompute _ _
  · exact h1
  · exact h1

theorem State.AgreesOff.markRevoked (h : s.AgreesOff 0) (o : Occupant) (b : Bool) : (s.markRevoked o b).AgreesOff 0 :=
  (h.updateRecord o.credential (f := fun x => { x with revokedInside := b }) fun _ => ⟨rfl, rfl⟩).of_same
    (by simp) (by simp [State.markRevoked])

theorem State.AgreesOff.actOnRevoked (h : s.AgreesOff 0) (c : Nat) : (s.actOnRevoked c).AgreesOff 0 := by
  unfold State.actOnRevoked
  (repeat' split)
  · exact h.markRevoked _ _
  · exact h.removeMember _ _ _
  · exact h

theorem State.AgreesOff.unmark (h : s.AgreesOff 0) (c : Nat) : (s.unmark c).AgreesOff 0 := by
  unfold State.unmark
  (repeat' split)
  · exact h.markRevoked _ _
  · exact h
  · exact h

/-- R25: a room configured, whose class changes only while it is empty. -/
theorem State.AgreesOff.configureRoom (h : s.AgreesOff 0) {c : RoomConfig}
    (hc : c.cls = (s.room c.room).cls ∨ s.occupants c.room = []) : (s.configureRoom c).AgreesOff 0 := by
  have h1 := h.setRoom c.room ((s.room c.room).configured c)
  unfold State.configureRoom
  dsimp only
  split
  · rename_i hratio
    refine ⟨h1.length, fun n n1 n12 n0 a => ?_⟩
    obtain ⟨rfl, hr⟩ | hr := room_setRoom_cases s c.room n ((s.room c.room).configured c)
    · have level : a.level ((s.room c.room).configured c) = a.level (s.room c.room) := by cases a <;> rfl
      have stands : a.stands ((s.room c.room).configured c) (s.persons c.room) = a.stands (s.room c.room) (s.persons c.room) := by
        obtain hcls | hnil := hc
        · cases a with
          | lone => simp [RoomAlert.stands, Room.configured, hcls]
          | unescorted => simp [RoomAlert.stands, Room.configured, escortsCover, hratio]
        · cases a <;> simp [RoomAlert.stands, escortsCover, State.persons, hnil]
      have hb := h.agrees c.room n1 n12 n0 a
      unfold State.AlertAgrees at hb ⊢
      rw [hr, level]
      exact hb.trans (congrArg (· = false) stands.symm).to_iff
    · exact alertAgrees_congr (s := s) (by rw [hr]) (by rw [hr]) (persons_congr rfl n) (h.agrees n n1 n12 n0 a)
  · exact h1.reevaluateRoom.retest _

theorem State.AgreesOff.changeRoomMode (h : s.AgreesOff 0) (n : Nat) (m : RoomMode) :
    (s.changeRoomMode n m).AgreesOff 0 := by
  have h1 := (h.setRoom n { s.room n with mode := m }).of_same
    (t := (s.setRoom n { s.room n with mode := m }).put
      { kind := .roomMode, room := n, value := .pair (s.room n).mode.code m.code }) (by simp) (by simp)
  unfold State.changeRoomMode
  generalize State.put _ _ = t at h1 ⊢
  have h2 : (t.rederive n).AgreesOff n := by
    refine h1.records rfl (f := fun o =>
      if o.room = n then { o with needsEscort := t.derivedNeeds o.role o.permit n } else o) rfl fun o => ?_
    split
    · rename_i ho
      exact ⟨rfl, fun hn => absurd ho hn⟩
    · exact ⟨rfl, fun _ => rfl⟩
  exact h2.reevaluateRoom.retest n

theorem State.AgreesOff.operatorRelease (h : s.AgreesOff 0) (hc : (s.pool.map Occupant.credential).Nodup) {o : Occupant}
    (ho : o ∈ s.pool) : (s.operatorRelease o).AgreesOff 0 := by
  have only : ∀ x ∈ s.pool, x.credential = o.credential → x.room = o.room := fun x hx hxo =>
    List.inj_on_of_nodup_map hc hx ho hxo ▸ rfl
  unfold State.operatorRelease
  refine State.AgreesOff.afterRemoval (State.AgreesOff.leave ((h.weaken _).of_same ?_ ?_) ?_)
  · simp
  · simp
  · simpa using only

theorem State.AgreesOff.sweep (h : s.AgreesOff k) (l : List (Nat × Permit)) : (l.foldl State.retire s).AgreesOff k :=
  foldl_property (P := fun t : State => t.AgreesOff k)
    (fun _ _ h => h.of_same (by simp [State.retire]) (by simp [State.retire])) l s h

end

end Sys2Proof.Machine
end

