-- ==== Sys2Proof/Proofs/AlertsStep.lean ====
section
/-! Every step keeps both alerts of every room in agreement with its list (R35 to R38); a warm start-up restores the
agreement alert by alert (R44 step 3). -/
namespace Sys2Proof.Machine

section
variable {s t : State}

theorem State.SamePersons.agrees (h : s.SamePersons t) (hs : s.AgreesOff 0) : t.AgreesOff 0 :=
  hs.of_same h.2.2.1 h.2.2.2.1

theorem State.SameRecords.agrees (h : s.SameRecords t) (hs : s.AgreesOff 0) : t.AgreesOff 0 := h.samePersons.agrees hs

theorem State.SameRecords.persons (h : s.SameRecords t) (hs : s.PersonsSound) : t.PersonsSound := by
  obtain ⟨-, -, -, -, -, hpool, hgroups, -, -, hstations⟩ := h
  simpa [State.PersonsSound, State.credentials, State.members, State.station, hpool, hgroups, hstations] using hs

/-! ### Start-up -/

/-- R44 step 3: the alerts of a list restored, and with them those that agree already. -/
theorem foldl_rebuildAlert_agrees (l : List (Nat × RoomAlert)) : ∀ s : State, s.rooms.length = 12 →
    (∀ p ∈ l, 1 ≤ p.1 ∧ p.1 ≤ 12) → ∀ q : Nat × RoomAlert, q ∈ l ∨ s.AlertAgrees q.2 q.1 →
    (l.foldl (fun s p => s.rebuildAlert p.2 p.1) s).AlertAgrees q.2 q.1 := by
  induction l with
  | nil => exact fun s _ _ q hq => hq.resolve_left (by simp)
  | cons p l ih =>
    intro s hlen hl q hq
    have hp := hl p List.mem_cons_self
    have settled := rebuildAlert_settled s p.2 p.1
    refine ih _ (settled.length.trans hlen) (fun r hr => hl r (List.mem_cons_of_mem _ hr)) q ?_
    by_cases hqp : q = p
    · subst hqp
      exact .inr (settled.agrees hp.1 (by rw [hlen]; exact hp.2))
    · refine hq.imp (fun hq => (List.mem_cons.1 hq).resolve_left hqp) (settled.other ?_)
      by_cases hn : q.1 = p.1
      · exact .inr fun ha => hqp (Prod.ext hn ha)
      · exact .inl hn

/-- R44: the engine work of a warm start-up leaves every alert in agreement. -/
theorem warmWork_agrees (h : s.rooms.length = 12) : s.warmWork.AgreesOff 0 := by
  have length : s.warmWork.rooms.length = 12 := by
    have kept := congrArg List.length (warmWork_layout s).1
    rw [List.length_map, List.length_map] at kept
    exact kept.trans h
  refine ⟨length, fun n h1 h12 _ a => ?_⟩
  rw [warmWork_eq]
  refine foldl_rebuildAlert_agrees roomAlerts _ ?_ (fun p hp => mem_roomAlerts.1 hp) (n, a)
    (.inl (mem_roomAlerts.2 ⟨h1, h12⟩))
  obtain ⟨u, hu, hd⟩ := discardGroups_eq s.lapseAll
  have rooms : s.lapseAll.discardGroups.rooms = s.rooms := by
    rw [hd]
    exact hu.rooms.trans (by simp [State.lapseAll])
  rw [foldl_keeps State.rooms State.rebuildEntry (fun s o => by unfold State.rebuildEntry; split <;> rfl), rooms, h]

/-- Rooms at their defaults, with nobody in them. -/
theorem State.Blank.agrees (h : s.Blank) : s.AgreesOff 0 := by
  obtain ⟨hrooms, hpool, -⟩ := h
  refine ⟨by rw [hrooms, List.length_replicate], fun n h1 h12 _ a => ?_⟩
  have room : s.room n = defaultRoom :=
    nth_property (P := fun r => r = defaultRoom) n (fun r hr => List.eq_of_mem_replicate (hrooms ▸ hr)) rfl
  unfold State.AlertAgrees State.occupants
  rw [room, hpool]
  cases a <;> simp [RoomAlert.level, RoomAlert.stands, defaultRoom, escortsCover]

theorem State.AgreesOff.startUpStep (h : s.AgreesOff 0) (k : RestartKind) (lost : Bool) (rate : Nat) (x : StartUpStep) :
    (s.startUpStep k lost rate x).AgreesOff 0 := by
  cases x with
  | kind =>
    cases k with
    | powerOn => exact State.Blank.agrees ⟨rfl, rfl, rfl⟩
    | restartClean => exact State.Blank.agrees ⟨rfl, rfl, rfl⟩
    | resetLine => exact h.of_same rfl rfl
    | restartWarm => exact h.of_same rfl rfl
  | engine =>
    cases k with
    | powerOn => exact h
    | restartClean => exact h
    | resetLine => exact warmWork_agrees (s := s) h.length
    | restartWarm => exact warmWork_agrees (s := s) h.length
  | record => exact h.of_same (by simp [State.startUpStep, State.putRestart]) (by simp [State.startUpStep, State.putRestart])
  | unretained => exact h.of_same rfl rfl
  | mode => exact h.of_same rfl rfl
  | ready => exact h.of_same rfl rfl
  | mark => exact h.of_same rfl rfl

theorem State.AgreesOff.startUp (h : s.AgreesOff 0) (event : RestartKind) (inputs : RestartInputs) :
    (s.startUp event inputs).AgreesOff 0 := by
  obtain ⟨-, hs⟩ := startUp_property (P := fun _ v => v.AgreesOff 0) (fun hr => hr.agrees)
    (fun k lost rate v x hv => hv.startUpStep k lost rate x) (fun _ => h) event inputs
  exact hs

/-! ### Every effect -/

theorem State.AgreesOff.withRevoked (h : s.AgreesOff 0) (l : List Nat) :
    State.AgreesOff { s with revoked := l } 0 := h.of_same rfl rfl

/-- R31: taking a station's door event keeps the room it is bound to. -/
theorem takeDoorEvent_binding (s : State) (n k : Nat) : ((s.takeDoorEvent n).station k).room = (s.station k).room :=
  congrFun (State.SameLayout.binding (s := s) (s.takeDoorEvent_layout n)) k

/-- R22, R24: the class a ROOM-SET carries, where the layout is kept. -/
theorem cls_of_layout (hlen : s.rooms.length = 12) {b : List Byte} {c : RoomConfig} (hb : readRoomConfig b = .ok c)
    (hl : s.SameLayout (s.configureRoom c)) : c.cls = (s.room c.room).cls := by
  have range : 1 ≤ c.room ∧ c.room ≤ 12 := by
    unfold readRoomConfig at hb
    (repeat' split at hb) <;> cases hb
    rename_i hr
    simp only [not_or, Config.rooms] at hr
    dsimp only
    omega
  have same : (s.configureRoom c).rooms.map Room.config
      = (s.setRoom c.room ((s.room c.room).configured c)).rooms.map Room.config := by
    unfold State.configureRoom
    dsimp only
    split <;> simp
  have config := room_config (same.symm.trans hl.1) c.room
  rw [room_setRoom_self range.1 (by rw [hlen]; exact range.2)] at config
  exact (congrArg Room.cls config :)

theorem State.Effect.agrees (h : s.AgreesOff 0) (hps : s.PersonsSound) (he : s.Effect t) (hl : s.KeepsLayout t) :
    t.AgreesOff 0 := by
  have hc : (s.pool.map Occupant.credential).Nodup := (List.nodup_append.1 hps.1).1
  cases he with
  | same => exact h
  | tick => exact s.tick_samePersons.agrees h
  | clockEnd _ => exact h.of_same rfl rfl
  | setClock _ _ => exact h.of_same (by simp [State.setClock]) (by simp [State.setClock])
  | writeSettings _ _ _ => exact h.of_same rfl rfl
  | addPermit _ _ _ _ _ => exact h.of_same rfl rfl
  | dropPermit _ _ => exact h.of_same rfl rfl
  | amend _ c _ _ _ _ => exact State.AgreesOff.actOnHolder (s := s.updatePermit _ _) (h.of_same rfl rfl) _ c
  | revoke _ c _ _ _ => exact (h.withRevoked _).actOnRevoked c
  | unrevoke c => exact (h.withRevoked _).unmark c
  | roomSet b c hb =>
    obtain hl | hblank := hl
    · exact h.configureRoom (.inl (cls_of_layout h.length hb hl))
    · exact hblank.agrees
  | roomMode _ n m _ => exact h.changeRoomMode n m
  | operatorRelease o ho => exact h.operatorRelease hc ho
  | stationSet _ _ _ _ _ _ _ => exact h.of_same rfl rfl
  | stationChannel _ _ _ => exact h.of_same (by simp) (by simp)
  | flag _ _ => exact h.of_same rfl rfl
  | commit n => exact State.AgreesOff.commitStation (s := s.takeDoorEvent n) (h.of_same rfl rfl) n
  | lapse n silence =>
    refine State.AgreesOff.lapseStation (s := s.takeDoorEvent n) (h.of_same rfl rfl) hc (fun o ho => ?_) silence
    obtain ⟨ho, ha⟩ := List.mem_filter.1 ho
    obtain ⟨hs, ha⟩ := of_decide_eq_true ha
    rw [takeDoorEvent_binding, ← hs]
    exact hps.2.2.2.2 o ho ha
  | due act e ha _ => exact State.AgreesOff.dueAction (s := s.dropHead) (h.of_same rfl rfl) ha e.what
  | decide act ha => exact h.takePresentation hc ha
  | sweep k => exact h.sweep _
  | call _ => exact h.of_same rfl rfl
  | answer n chars _ => exact (s.takeAnswer_samePersons n _).agrees h
  | miss n settle => exact (s.miss_samePersons n settle).agrees h
  | corrupt n settle => exact (State.miss_samePersons _ n settle).agrees (h.of_same rfl rfl)
  | releaseExpires n => exact (s.releaseExpires_samePersons n).agrees h
  | heldExpires n => exact (s.heldExpires_samePersons n).agrees h
  | wake c => exact h.of_same (by simp) (by simp [State.wake, State.restartLine])
  | startUp w k inputs hw => exact (hw.agrees h).startUp k inputs

theorem State.Acts.agrees (h : s.AgreesOff 0) (hps : s.PersonsSound) (ht : s.Acts t) : t.AgreesOff 0 := by
  obtain ⟨b, c, -, ho, rfl⟩ | ⟨b, n, room, release, held, -, -, rfl⟩ | ⟨he, hl⟩ := ht
  · refine h.configureRoom ?_
    unfold State.roomSetOccupied at ho
    have := (Bool.or_eq_false_iff.1 ho).1
    by_cases hc : c.cls = (s.room c.room).cls
    · exact .inl hc
    · right
      simp [hc] at this
      exact this.1
  · exact h.of_same rfl rfl
  · exact he.agrees h hps hl

end

/-- Settles O58: a step moves the agreement in the rooms whose alerts it re-evaluates, and a start-up restores it. -/
theorem stepKeepsAlertsAgreeing : Obligations.StepKeepsAlertsAgreeing := by
  intro s t htables _ hpersons halerts hstep
  obtain ⟨u, v, hu, hact, ht⟩ := step_acts hstep
  have hs : s.AgreesOff 0 := agreesOff_zero_iff.2 ⟨htables.2.2.1.1, halerts⟩
  have persons : u.PersonsSound := hu.persons hpersons
  exact (agreesOff_zero_iff.1 (ht.agrees (hact.agrees (hu.agrees hs) persons))).2

end Sys2Proof.Machine
end

