-- ==== Sys2Proof/Proofs/Reevaluation.lean ====
section
/-! A room alert re-evaluated by its level and its condition, the re-test of a room's groups by the first that passes
(R35, R75), and the conditions over the persons on a list (R23, R37, R38, R74). -/
namespace Sys2Proof.Machine

section
variable {s : State} {a : RoomAlert} {n : Nat}

/-! ### One alert -/

theorem moveRoomAlert_deadlines (l : Level) : (s.moveRoomAlert a n l).deadlines = s.deadlines := by simp

theorem reevaluate_raises (hl : a.level (s.room n) = .clear)
    (hs : a.stands (s.room n) ((s.occupants n).map Occupant.person) = true) :
    s.reevaluate a n = (s.moveRoomAlert a n .raised).schedule (s.now + a.limit (s.room n)) (a.due n) := by
  unfold State.reevaluate
  rw [hl, hs]

theorem reevaluate_stays_clear (hl : a.level (s.room n) = .clear)
    (hs : a.stands (s.room n) ((s.occupants n).map Occupant.person) = false) : s.reevaluate a n = s := by
  unfold State.reevaluate
  rw [hl, hs]

theorem reevaluate_stays_raised (hl : a.level (s.room n) ≠ .clear)
    (hs : a.stands (s.room n) ((s.occupants n).map Occupant.person) = true) : s.reevaluate a n = s := by
  unfold State.reevaluate
  rw [hs]
  cases h : a.level (s.room n) with
  | clear => exact absurd h hl
  | raised => rfl
  | escalated => rfl

theorem reevaluate_clears (hl : a.level (s.room n) ≠ .clear)
    (hs : a.stands (s.room n) ((s.occupants n).map Occupant.person) = false) :
    s.reevaluate a n = (s.moveRoomAlert a n .clear).unschedule (a.due n) := by
  unfold State.reevaluate
  rw [hs]
  cases h : a.level (s.room n) with
  | clear => exact absurd h hl
  | raised => rfl
  | escalated => rfl

/-! ### The re-test of a room's groups -/

theorem retestFor_settled {k : Nat} (h : (s.groupsOf n).find? s.passes = none) : State.retestFor k n s = s := by
  cases k with
  | zero => rfl
  | succ k => rw [State.retestFor, h]

theorem retestFor_completes {k : Nat} {g : Group} (h : (s.groupsOf n).find? s.passes = some g) :
    State.retestFor (k + 1) n s = State.retestFor k n (s.completeGroup g none) := by
  rw [State.retestFor, h]

/-- R76: a completion ends its group. -/
theorem completeGroup_fewer {g : Group} (hg : g ∈ s.groups) (tap : Option (Nat × Nat)) :
    (s.completeGroup g tap).groups.length < s.groups.length := by
  rw [State.completeGroup_groups]
  exact List.length_filter_lt_length_iff_exists.2 ⟨g, hg, by simp⟩

/-- R75: as each completion ends a group, the number of groups is fuel enough. -/
theorem retestFor_fuel (n k : Nat) : ∀ s : State, s.groups.length ≤ k → State.retestFor k n s = s.retest n := by
  induction k using Nat.strong_induction_on with
  | _ k ih =>
    intro s hk
    cases hf : (s.groupsOf n).find? s.passes with
    | none => rw [retestFor_settled hf, State.retest, retestFor_settled hf]
    | some g =>
      have hg : g ∈ s.groups := List.mem_of_mem_filter (List.mem_of_find?_eq_some hf)
      have fewer := completeGroup_fewer hg none
      obtain ⟨j, rfl⟩ : ∃ j, k = j + 1 := ⟨k - 1, by omega⟩
      obtain ⟨i, hi⟩ : ∃ i, s.groups.length = i + 1 := ⟨s.groups.length - 1, by omega⟩
      rw [retestFor_completes hf, State.retest, hi, retestFor_completes hf, ih j (by omega) _ (by omega),
        ih i (by omega) _ (by omega)]

/-- R75: the first group of the room that passes is completed, and the re-test begins again. -/
theorem retest_completes {g : Group} (h : (s.groupsOf n).find? s.passes = some g) :
    s.retest n = (s.completeGroup g none).retest n := by
  have fewer := completeGroup_fewer (List.mem_of_mem_filter (List.mem_of_find?_eq_some h)) none
  obtain ⟨i, hi⟩ : ∃ i, s.groups.length = i + 1 := ⟨s.groups.length - 1, by omega⟩
  rw [State.retest, hi, retestFor_completes h]
  exact retestFor_fuel n i _ (by omega)

theorem passes_of_room {g : Group} (h : g.room = n) : s.passes g
    = requirementTest (s.room n) ((s.occupants n).map Occupant.person ++ g.members.map Member.person) := by
  subst h; rfl

theorem find_passes_none {l : List Group} (h : ∀ g ∈ l, g.room = n →
      requirementTest (s.room n) ((s.occupants n).map Occupant.person ++ g.members.map Member.person) = false) :
    (l.filter (fun g => g.room = n)).find? s.passes = none :=
  List.find?_eq_none.2 fun g hg => by
    obtain ⟨hg, hn⟩ := List.mem_filter.1 hg
    rw [passes_of_room (of_decide_eq_true hn), h g hg (of_decide_eq_true hn)]
    exact Bool.false_ne_true

/-! ### Conditions over a list -/

theorem lone_stands_iff (r : Room) (ps : List Person) :
    RoomAlert.lone.stands r ps = true ↔ r.cls = .twoPerson ∧ ps.length = 1 := by
  simp [RoomAlert.stands]

theorem unescorted_stands_iff (r : Room) (ps : List Person) : RoomAlert.unescorted.stands r ps = true ↔
    ps.countP (fun p => p.role = .escort) * r.escortRatio < ps.countP (fun p => p.needsEscort) := by
  simp [RoomAlert.stands, escortsCover]

theorem requirementTest_iff (r : Room) (ps : List Person) : requirementTest r ps = true ↔
    (r.cls = .twoPerson → 2 ≤ ps.length)
      ∧ ps.countP (fun p => p.needsEscort) ≤ ps.countP (fun p => p.role = .escort) * r.escortRatio := by
  unfold requirementTest twoPersonPart escortsCover
  cases r.cls <;> simp

end

/-- Settles O25: one equation of `reevaluate` for each case of level and condition, and of `retest` for the first group
that passes. -/
theorem alertReevaluation : Obligations.AlertReevaluation := by
  refine ⟨fun s a n => ⟨fun hl hs => ?_, reevaluate_stays_clear, reevaluate_stays_raised, fun hl hs => ?_⟩,
    fun _ _ => rfl, fun s n => ⟨fun hnone => ?_, fun g before after hsplit hn hp hbefore => ?_⟩, fun s n => ⟨?_, ?_⟩,
    fun _ _ _ => ⟨rfl, rfl, rfl, rfl, rfl, rfl, rfl, rfl, rfl, rfl⟩, requirementTest_iff, fun r list members => ?_⟩
  · rw [reevaluate_raises hl hs, State.schedule, moveRoomAlert_deadlines]
    rfl
  · rw [reevaluate_clears hl hs, State.unschedule, moveRoomAlert_deadlines]
    rfl
  · exact retestFor_settled (find_passes_none hnone)
  · refine retest_completes ?_
    rw [State.groupsOf, hsplit, List.filter_append, List.filter_cons, if_pos (decide_eq_true hn), List.find?_append,
      find_passes_none hbefore]
    exact List.find?_cons_of_pos ((passes_of_room hn).trans hp)
  · rw [lone_stands_iff, List.length_map]
    rfl
  · rw [unescorted_stands_iff, List.countP_map, List.countP_map]
    rfl
  · rw [requirementTest_iff]
    simp only [List.length_append, List.length_map, List.countP_append, List.countP_map]
    rfl

end Sys2Proof.Machine
end

