-- ==== Sys2Proof/Proofs/Status.lean ====
section
/-! STATUS, the kinds that name no request, and the code tables (R164, R169, R179, R185). -/
namespace Sys2Proof.Machine

section
variable {f : Frame}

/-- R164, R179: a kind below 0x01 or above 0x1A names no request, and is answered at acceptance. -/
theorem requestRow_unknownKind (h : f.kind = 0x00 ∨ 0x1A < f.kind.toNat) : requestRow f = .unknownKind := by
  have hk : f.kind.toNat = 0 ∨ 0x1A < f.kind.toNat := h.imp_left fun h => by rw [h]; rfl
  unfold requestRow
  split
  case h_27 => rfl
  all_goals omega

theorem servedAtAcceptance_unknownKind (h : f.kind = 0x00 ∨ 0x1A < f.kind.toNat) : servedAtAcceptance f = true := by
  have hk : f.kind.toNat = 0 ∨ 0x1A < f.kind.toNat := h.imp_left fun h => by rw [h]; rfl
  unfold servedAtAcceptance
  split
  case h_7 => simpa using hk
  all_goals rfl

/-- R179: a reply's kind has its top bit set. -/
theorem replyKind_eq (k : Byte) : replyKind k = if k.toNat < 0x80 then k + 0x80 else 0xFF := by
  unfold replyKind
  by_cases h : k.toNat < 0x80
  · rw [if_pos h, if_neg (Nat.not_le_of_lt h)]
  · rw [if_neg h, if_pos (Nat.le_of_not_lt h)]

theorem acceptedFor_status {s : State} (hr : s.inReset = false) (hu : s.unserved = some f) (hk : f.kind = 0x02) :
    s.acceptedFor .status = some f :=
  acceptedFor_eq hr hu (by simp [servedAtAcceptance, hk]) (by simp [requestRow, hk])

/-- A request served at acceptance is answered, or refused, as its service says. -/
theorem answers_of_accepted {i : Instr} {s t : State} {body : List Byte}
    {serve : List Byte → State → Except ReplyCode (State × List Byte)} (he : exec i s = acceptedRequest i s serve)
    (h : s.acceptedFor i = some f) (hs : serve f.body s = .ok (t, body)) : Answers i s f .ok body t :=
  he.trans (acceptedRequest_answers h hs)

theorem refuses_of_accepted {i : Instr} {s : State} {code : ReplyCode}
    {serve : List Byte → State → Except ReplyCode (State × List Byte)} (he : exec i s = acceptedRequest i s serve)
    (h : s.acceptedFor i = some f) (hs : serve f.body s = .error code) : Refuses i s f code :=
  he.trans (acceptedRequest_refuses h hs)

end

theorem exec_status (s : State) : exec .status s = acceptedRequest .status s
    (fun body s => (readNothing body).map fun _ => (s.clearLineFlags, statusBlock s)) := rfl

theorem exec_unknownKind (s : State) :
    exec .unknownKind s = acceptedRequest .unknownKind s (fun _ _ => .error .unknownKind) := rfl

/-- Settles O10: each reply from what its row serves at acceptance, and each code table by its values. -/
theorem statusAndUnknownKinds : Obligations.StatusAndUnknownKinds := by
  refine ⟨fun s f hr hu hk => ⟨fun hb => ?_, fun hb => ?_⟩, fun s f hr hu hk => ⟨?_, replyKind_eq _⟩, fun _ _ _ => rfl,
    by decide, by decide, fun _ => rfl, fun _ => rfl, fun _ => rfl, by decide, by decide, by decide, by decide, by decide,
    by decide, by decide, by decide, by decide, by decide, fun _ => rfl, by decide, by decide, by decide, by decide,
    by decide, by decide, by decide⟩
  · have ha := acceptedFor_status hr hu hk
    exact answers_of_accepted (exec_status s) ha (by rw [hb]; rfl)
  · have ha := acceptedFor_status hr hu hk
    exact refuses_of_accepted (exec_status s) ha (by simp [readNothing, hb, Except.map])
  · exact refuses_of_accepted (exec_unknownKind s)
      (acceptedFor_eq hr hu (servedAtAcceptance_unknownKind hk) (requestRow_unknownKind hk)) rfl

end Sys2Proof.Machine
end

