-- ==== Sys2Proof/Proofs/RoomRequests.lean ====
section
/-! ROOM-SET and ROOM-MODE served (R24 to R26). -/
namespace Sys2Proof.Machine

theorem clampTo_eq {lo hi : Nat} (n : Nat) (h : lo ≤ hi) : clampTo lo hi n = max lo (min hi n) := by
  unfold clampTo
  (repeat' split) <;> omega

/-! ### ROOM-SET -/

section
variable {b : List Byte}

theorem readRoomConfig_malformed (h : b.length ≠ 12) : readRoomConfig b = .error .malformed := by
  rw [readRoomConfig, if_pos h]

/-- R24 step 2: the values ROOM-SET refuses. -/
def RoomConfigOutOfRange (b : List Byte) : Prop :=
  byteAt b 0 = 0 ∨ 12 < byteAt b 0 ∨ 1 < byteAt b 1 ∨ 1 < byteAt b 11 ∨ byteAt b 2 = 0 ∨ 8 < byteAt b 2

theorem readRoomConfig_range (h : b.length = 12) (hr : RoomConfigOutOfRange b) : readRoomConfig b = .error .range := by
  have out : byteAt b 0 < 1 ∨ Config.rooms < byteAt b 0 ∨ 1 < byteAt b 1 ∨ 1 < byteAt b 11 ∨ byteAt b 2 < 1
      ∨ 8 < byteAt b 2 := by
    simpa only [RoomConfigOutOfRange, Config.rooms, Nat.lt_one_iff] using hr
  rw [readRoomConfig, if_neg (not_not.2 h), if_pos out]

/-- R24, R180: the configuration a ROOM-SET body carries, clamped. -/
def roomConfigOf (b : List Byte) : RoomConfig where
  room := byteAt b 0
  cls := classOf (byteAt b 1)
  capacity := byteAt b 2
  escortRatio := max 1 (min 4 (byteAt b 3))
  minStay := min 60 (byteAt b 4)
  grace := min 60 (byteAt b 5)
  pairingWindow := max 5 (min 120 (byteAt b 6))
  loneLimit := min 600 (valueAt b 7 2)
  unescortedLimit := min 600 (valueAt b 9 2)
  strict := byteAt b 11 == 1

theorem readRoomConfig_ok (h : b.length = 12) (hr : ¬ RoomConfigOutOfRange b) :
    readRoomConfig b = .ok (roomConfigOf b) := by
  have out : ¬ (byteAt b 0 < 1 ∨ Config.rooms < byteAt b 0 ∨ 1 < byteAt b 1 ∨ 1 < byteAt b 11 ∨ byteAt b 2 < 1
      ∨ 8 < byteAt b 2) := by
    simpa only [RoomConfigOutOfRange, Config.rooms, Nat.lt_one_iff] using hr
  rw [readRoomConfig, if_neg (not_not.2 h), if_neg out]
  simp only [clampTo_eq, Nat.one_le_ofNat, Nat.reduceLeDiff, zero_le, sup_of_le_right, roomConfigOf]

theorem classOf_byte (b : Byte) : classOf b.toNat = if b = 0 then .general else .twoPerson := by
  simp [classOf, BitVec.toNat_eq]

theorem byte_beq_one (b : Byte) : (b.toNat == 1) = (b == 1) := by
  rw [Bool.eq_iff_iff, beq_iff_eq, beq_iff_eq, BitVec.toNat_eq]
  rfl

/-- R180: a room with the configuration of a ROOM-SET body, byte by byte. -/
theorem configured_bytes (r : Room) (n cls cap ratio mins grace win lone0 lone1 une0 une1 strict : Byte) :
    r.configured (roomConfigOf [n, cls, cap, ratio, mins, grace, win, lone0, lone1, une0, une1, strict]) =
      { r with
        cls := if cls = 0 then .general else .twoPerson
        capacity := cap.toNat, escortRatio := max 1 (min 4 ratio.toNat), minStay := min 60 mins.toNat
        grace := min 60 grace.toNat, pairingWindow := max 5 (min 120 win.toNat)
        loneLimit := min 600 (lone0.toNat + 256 * lone1.toNat)
        unescortedLimit := min 600 (une0.toNat + 256 * une1.toNat), strict := strict == 1 } := by
  rw [← classOf_byte, ← byte_beq_one]
  rfl

end

section
variable {s : State} {f : Frame} {c : RoomConfig}

theorem serveRoomSet_unread {code : ReplyCode} (h : readRoomConfig f.body = .error code) :
    serveRoomSet f.body s = .error code := by
  unfold serveRoomSet
  rw [h]

theorem serveRoomSet_read (h : readRoomConfig f.body = .ok c) : serveRoomSet f.body s =
    if s.roomSetOccupied c then .error .occupied
    else .ok (s.configureRoom c, roomBlock c.room ((s.room c.room).configured c)) := by
  unfold serveRoomSet
  rw [h]

/-- R24 steps 3 and 4. -/
theorem roomSetOccupied_iff : s.roomSetOccupied c = true ↔
    c.cls ≠ (s.room c.room).cls ∧ (s.occupants c.room ≠ [] ∨ s.groupsOf c.room ≠ [])
      ∨ c.capacity < (s.occupants c.room).length + s.reserved c.room := by
  simp only [State.roomSetOccupied, Bool.or_eq_true, Bool.and_eq_true, bne_iff_ne, decide_eq_true_eq, Bool.not_eq_true',
    Bool.and_eq_false_iff, List.isEmpty_eq_false_iff]

end

/-! ### ROOM-MODE -/

section
variable {s : State} {f : Frame} {n : Nat} {m : RoomMode}

theorem serveRoomMode_unread {code : ReplyCode} (h : readRoomMode f.body = .error code) :
    serveRoomMode f.body s = .error code := by
  unfold serveRoomMode
  rw [h]

theorem serveRoomMode_read (h : readRoomMode f.body = .ok (n, m)) : serveRoomMode f.body s =
    if (s.room n).mode = m then .ok (s, []) else .ok (s.changeRoomMode n m, []) := by
  unfold serveRoomMode
  rw [h]

theorem roomModeOf_code {k : Nat} (h : k ≤ 2) : (roomModeOf k).code = k := by
  interval_cases k <;> rfl

/-- R23, R26 step 3: who counts as needing escort in a mode. -/
theorem countsAsNeedingEscort_eq (role : Role) {k : Nat} (h : k ≤ 2) (needs : Bool) :
    countsAsNeedingEscort role (roomModeOf k) needs = (role == .worker && (k == 1 || needs)) := by
  interval_cases k <;> cases role <;> rfl

/-- R26 step 3: the values derived afresh, said by what each holder needs. -/
theorem rederive_eq {w : State} {needs : Role → Nat → Bool} (hp : w.pool = s.pool) (hg : w.groups = s.groups)
    (hn : ∀ role permit, w.derivedNeeds role permit n = needs role permit) : w.rederive n =
      { w with
        pool := s.pool.map (fun o => if o.room = n then { o with needsEscort := needs o.role o.permit } else o)
        groups := s.groups.map (fun g =>
          if g.room = n then
            { g with members := g.members.map (fun x => { x with needsEscort := needs x.role x.permit }) }
          else g) } := by
  simp only [State.rederive, hp, hg, hn]

theorem derivedNeeds_eq {w : State} {k : Nat} (hk : k ≤ 2) (hm : (w.room n).mode = roomModeOf k)
    (hp : w.permits = s.permits) (role : Role) (permit : Nat) : w.derivedNeeds role permit n
      = (role == .worker && (k == 1 || (match s.permit permit with | some (_, p) => p.needsEscort | none => false))) := by
  unfold State.derivedNeeds State.permit
  rw [hm, hp, countsAsNeedingEscort_eq role hk] <;> rfl

end

/-- Settles O22: ROOM-SET by what its body reads as and the two checks of R24, ROOM-MODE by the mode stored. -/
theorem roomConfigured : Obligations.RoomConfigured := by
  refine ⟨fun s f => ⟨fun hf hl => refuses_of_serve rfl hf (serveRoomSet_unread (readRoomConfig_malformed hl)),
    fun hf hl => refuses_of_serve rfl hf (serveRoomMode_unread (by rw [readRoomMode, if_pos hl]))⟩, ?_, ?_⟩
  · intro s f n cls cap ratio mins grace win lone0 lone1 une0 une1 strict hf hb old new
    have written : (s.room n.toNat).configured (roomConfigOf f.body) = new := hb ▸ configured_bytes ..
    have hcls : (roomConfigOf f.body).cls = new.cls := congrArg Room.cls written
    have hratio : (roomConfigOf f.body).escortRatio = new.escortRatio := congrArg Room.escortRatio written
    have hroom : (roomConfigOf f.body).room = n.toNat := by rw [hb]; rfl
    have hcap : (roomConfigOf f.body).capacity = cap.toNat := by rw [hb]; rfl
    have hlen : f.body.length = 12 := by rw [hb]; rfl
    have hrange : RoomConfigOutOfRange f.body ↔
        n.toNat = 0 ∨ 12 < n.toNat ∨ 1 < cls.toNat ∨ 1 < strict.toNat ∨ cap.toNat = 0 ∨ 8 < cap.toNat := by
      rw [hb]; exact Iff.rfl
    refine ⟨fun hr => refuses_of_serve rfl hf (serveRoomSet_unread (readRoomConfig_range hlen (hrange.2 hr))),
      fun n1 n12 c1 s1 cap1 cap8 => ?_⟩
    have read := readRoomConfig_ok hlen (fun hr => by have := hrange.1 hr; omega)
    have served := serveRoomSet_read (s := s) read
    have occupied := roomSetOccupied_iff (s := s) (c := roomConfigOf f.body)
    rw [hroom, hcls, hcap] at occupied
    rw [hroom, written] at served
    refine ⟨fun ho => refuses_of_serve rfl hf (by rw [served, if_pos (occupied.2 ho)]), fun hclass hfit => ?_⟩
    have free : s.roomSetOccupied (roomConfigOf f.body) ≠ true := fun ho => by
      rcases occupied.1 ho with ⟨hne, hin⟩ | hlt
      · rcases hclass with heq | ⟨ho, hg⟩
        · exact hne heq
        · exact hin.elim (· ho) (· hg)
      · omega
    have configured : s.configureRoom (roomConfigOf f.body) =
        if new.escortRatio = (s.room n.toNat).escortRatio then s.setRoom n.toNat new
        else ((s.setRoom n.toNat new).reevaluateRoom n.toNat).retest n.toNat := by
      unfold State.configureRoom
      rw [hroom, hratio, written]
    exact answers_of_serve rfl hf (by rw [served, if_neg free, configured])
  · intro s f n m hf hb written needs derived
    have hlen : ¬ f.body.length ≠ 2 := by rw [hb]; exact not_not.2 rfl
    have h0 : byteAt f.body 0 = n.toNat := by rw [hb]; rfl
    have h1 : byteAt f.body 1 = m.toNat := by rw [hb]; rfl
    refine ⟨fun hr => refuses_of_serve rfl hf (serveRoomMode_unread ?_), fun n1 n12 m2 => ?_⟩
    · rw [readRoomMode, if_neg hlen, h0, h1, if_pos (by simp only [Config.rooms]; omega)]
    have read : readRoomMode f.body = .ok (n.toNat, roomModeOf m.toNat) := by
      rw [readRoomMode, if_neg hlen, h0, h1, if_neg (by simp only [Config.rooms]; omega)]
    have served := serveRoomMode_read (s := s) read
    refine ⟨fun hm => answers_of_serve rfl hf (by rw [served, if_pos hm]), fun hm hrooms => ?_⟩
    have changed : s.changeRoomMode n.toNat (roomModeOf m.toNat) = (derived.reevaluateRoom n.toNat).retest n.toNat := by
      have mode : (written.room n.toNat).mode = roomModeOf m.toNat := by
        rw [room_congr (s := s.setRoom n.toNat { s.room n.toNat with mode := roomModeOf m.toNat }) (by simp [written]),
          room_setRoom_self n1 (by rw [hrooms]; exact n12)]
      have rederived : written.rederive n.toNat = derived :=
        rederive_eq (by simp [written]) (by simp [written]) (derivedNeeds_eq m2 mode (by simp [written]))
      rw [State.changeRoomMode, roomModeOf_code m2, rederived]
    exact answers_of_serve rfl hf (by rw [served, if_neg hm, changed])

end Sys2Proof.Machine
end

