-- ==== Sys2Proof/Proofs/RoomReads.lean ====
section
/-! ROOM-READ and STATION-READ, and their blocks byte by byte (R27, R133, R180). The station report is five parts: the
bytes before the pending verdict, the verdict, the bytes after it, the last presentation and the corrupt answer flag. -/
namespace Sys2Proof.Machine

/-! ### One byte -/

theorem boolByte_toNat (b : Bool) : (boolByte b).toNat = b.toNat := by cases b <;> rfl

theorem bool_mod (b : Bool) : b.toNat % 256 = b.toNat := by cases b <;> rfl

theorem RoomClass.code_mod (c : RoomClass) : c.code % 256 = c.code := by cases c <;> rfl
theorem Role.code_eq (r : Role) : r.code % 256 = if r = .worker then 0 else 1 := by cases r <;> rfl
theorem Level.code_mod (l : Level) : l.code % 256 = l.code := by cases l <;> rfl
theorem Channel.code_mod (c : Channel) : c.code % 256 = c.code := by cases c <;> rfl
theorem Link.code_mod (l : Link) : l.code % 256 = l.code := by cases l <;> rfl
theorem Door.code_mod (d : Door) : d.code % 256 = d.code := by cases d <;> rfl
theorem Side.code_mod (d : Side) : d.code % 256 = d.code := by cases d <;> rfl
theorem VerdictOutcome.code_mod (o : VerdictOutcome) : o.code % 256 = o.code := by cases o <;> rfl
theorem AlertKind.code_lt (k : AlertKind) : k.code ≤ 6 := by cases k <;> decide
theorem ModeCause.code_lt (c : ModeCause) : c.code ≤ 45 := by cases c <;> decide
theorem RestartKind.code_lt (k : RestartKind) : k.code ≤ 51 := by cases k <;> decide

theorem Reason.code_mod (r : Reason) : r.code % 256 = r.code := by
  refine Nat.mod_eq_of_lt ?_
  cases r with
  | alert k => have := k.code_lt; simp only [Reason.code]; omega
  | cause c => have := c.code_lt; simp only [Reason.code]; omega
  | restarted k => have := k.code_lt; simp only [Reason.code]; omega
  | _ => decide

theorem Expected.code_mod (e : Expected) : e.code % 256 = match e with | .toggle t => t.toNat | .adopt => 2 := by
  cases e with
  | toggle t => exact bool_mod t
  | adopt => rfl

/-! ### The room block and the occupant entry -/

theorem roomBlock_layout (n : Nat) (r : Room) :
    (roomBlock n r).length = 12 ∧ byteAt (roomBlock n r) 0 = n % 256 ∧ byteAt (roomBlock n r) 1 = r.cls.code
      ∧ byteAt (roomBlock n r) 2 = r.capacity % 256 ∧ byteAt (roomBlock n r) 3 = r.escortRatio % 256
      ∧ byteAt (roomBlock n r) 4 = r.minStay % 256 ∧ byteAt (roomBlock n r) 5 = r.grace % 256
      ∧ byteAt (roomBlock n r) 6 = r.pairingWindow % 256 ∧ valueAt (roomBlock n r) 7 2 = r.loneLimit % 65536
      ∧ valueAt (roomBlock n r) 9 2 = r.unescortedLimit % 65536 ∧ byteAt (roomBlock n r) 11 = r.strict.toNat := by
  simp [roomBlock, leBytes, byteAt, valueAt, leNat, boolByte_toNat, RoomClass.code_mod]
  omega

/-- R180: the bytes 9 to 18 of an occupant entry: the presence, and where INSIDE the entry second and the deadline. -/
def presenceBlock : Presence → List Byte
  | .admitting => leBytes 1 0 ++ leBytes 5 0 ++ leBytes 4 0
  | .inside entry deadline => leBytes 1 1 ++ leBytes 5 entry ++ leBytes 4 deadline

/-- R180: the bytes 0 to 8 of an occupant entry. -/
def occupantHead (o : Occupant) : List Byte :=
  leBytes 4 o.credential ++ leBytes 2 o.permit ++ leBytes 1 o.role.code ++ [boolByte o.needsEscort]
    ++ leBytes 1 o.station

theorem occupantEntry_parts (o : Occupant) : occupantEntry o
    = occupantHead o ++ (presenceBlock o.presence ++ (leBytes 1 o.overstay.code ++ [boolByte o.revokedInside])) := by
  cases hp : o.presence <;> simp [occupantEntry, occupantHead, presenceBlock, hp]

theorem occupantHead_length (o : Occupant) : (occupantHead o).length = 9 := by simp [occupantHead, leBytes_length]

theorem presenceBlock_length (p : Presence) : (presenceBlock p).length = 10 := by
  cases p <;> simp [presenceBlock, leBytes_length]

theorem occupantEntry_length (o : Occupant) : (occupantEntry o).length = 21 := by
  simp [occupantEntry_parts, occupantHead_length, presenceBlock_length, leBytes_length]

section
variable (o : Occupant)

theorem byteAt_occupantHead {i : Nat} (h : i < 9) : byteAt (occupantEntry o) i = byteAt (occupantHead o) i := by
  rw [occupantEntry_parts, byteAt_append_left _ _ (by rw [occupantHead_length]; exact h)]

theorem valueAt_occupantHead {i w : Nat} (h : i + w ≤ 9) :
    valueAt (occupantEntry o) i w = valueAt (occupantHead o) i w := by
  rw [occupantEntry_parts, valueAt_append_left _ _ (by rw [occupantHead_length]; exact h)]

theorem valueAt_presenceBlock {i w : Nat} (h : i + w ≤ 10) :
    valueAt (occupantEntry o) (9 + i) w = valueAt (presenceBlock o.presence) i w := by
  rw [occupantEntry_parts, valueAt_append_right _ _ (occupantHead_length o),
    valueAt_append_left _ _ (by rw [presenceBlock_length]; exact h)]

theorem byteAt_presenceBlock {i : Nat} (h : i < 10) :
    byteAt (occupantEntry o) (9 + i) = byteAt (presenceBlock o.presence) i := by
  rw [occupantEntry_parts, byteAt_append_right _ _ (occupantHead_length o),
    byteAt_append_left _ _ (by rw [presenceBlock_length]; exact h)]

theorem byteAt_occupantMarks (i : Nat) : byteAt (occupantEntry o) (19 + i)
    = byteAt (leBytes 1 o.overstay.code ++ [boolByte o.revokedInside]) i := by
  rw [occupantEntry_parts, ← List.append_assoc,
    byteAt_append_right _ _ (by simp [occupantHead_length, presenceBlock_length])]

theorem occupantHead_layout : valueAt (occupantHead o) 0 4 = o.credential % 4294967296
    ∧ valueAt (occupantHead o) 4 2 = o.permit % 65536
    ∧ byteAt (occupantHead o) 6 = (if o.role = .worker then 0 else 1) ∧ byteAt (occupantHead o) 7 = o.needsEscort.toNat
    ∧ byteAt (occupantHead o) 8 = o.station % 256 := by
  simp [occupantHead, leBytes, byteAt, valueAt, leNat, boolByte_toNat, Role.code_eq]
  omega

theorem presenceBlock_inside (entry deadline : Nat) : byteAt (presenceBlock (.inside entry deadline)) 0 = 1
    ∧ valueAt (presenceBlock (.inside entry deadline)) 1 5 = entry % 1099511627776
    ∧ valueAt (presenceBlock (.inside entry deadline)) 6 4 = deadline % 4294967296 := by
  simp [presenceBlock, leBytes, byteAt, valueAt, leNat]
  omega

end

/-! ### The station report -/

/-- R180: the bytes 0 to 9 of a station report. -/
def stationHead (n : Nat) (st : Station) : List Byte :=
  leBytes 1 n ++ leBytes 1 st.room ++ leBytes 1 st.releaseTime ++ leBytes 2 st.heldLimit ++ leBytes 1 st.channel.code
    ++ leBytes 1 st.link.code ++ leBytes 1 st.missed ++ leBytes 1 st.expected.code ++ [boolByte st.acknowledge]

/-- R180: the bytes 16 to 20 of a station report. -/
def stationMiddle (st : Station) : List Byte :=
  boolByte st.verdictToggle :: leBytes 1 st.door.code ++ leBytes 2 st.door.remaining ++ leBytes 1 (eventsCode st.events)

theorem stationReport_parts (n : Nat) (st : Station) : stationReport n st
    = stationHead n st ++ (verdictBlock st.verdict ++ (stationMiddle st ++ (lastBlock st.last ++ [boolByte st.corrupt]))) := by
  simp [stationReport, stationHead, stationMiddle]

theorem stationHead_length (n : Nat) (st : Station) : (stationHead n st).length = 10 := by
  simp [stationHead, leBytes_length]

theorem verdictBlock_length (v : Option Verdict) : (verdictBlock v).length = 6 := by
  cases v <;> simp [verdictBlock, leBytes_length]

theorem stationMiddle_length (st : Station) : (stationMiddle st).length = 5 := by simp [stationMiddle, leBytes_length]

theorem lastBlock_length (l : Option LastPresentation) : (lastBlock l).length = 13 := by
  cases l <;> simp [lastBlock, leBytes_length]

theorem stationReport_length (n : Nat) (st : Station) : (stationReport n st).length = 35 := by
  simp [stationReport_parts, stationHead_length, verdictBlock_length, stationMiddle_length, lastBlock_length]

section
variable (n : Nat) (st : Station)

theorem byteAt_stationHead {i : Nat} (h : i < 10) : byteAt (stationReport n st) i = byteAt (stationHead n st) i := by
  rw [stationReport_parts, byteAt_append_left _ _ (by rw [stationHead_length]; exact h)]

theorem valueAt_stationHead {i w : Nat} (h : i + w ≤ 10) :
    valueAt (stationReport n st) i w = valueAt (stationHead n st) i w := by
  rw [stationReport_parts, valueAt_append_left _ _ (by rw [stationHead_length]; exact h)]

theorem byteAt_verdictBlock {i : Nat} (h : i < 6) :
    byteAt (stationReport n st) (10 + i) = byteAt (verdictBlock st.verdict) i := by
  rw [stationReport_parts, byteAt_append_right _ _ (stationHead_length n st),
    byteAt_append_left _ _ (by rw [verdictBlock_length]; exact h)]

theorem valueAt_verdictBlock {i w : Nat} (h : i + w ≤ 6) :
    valueAt (stationReport n st) (10 + i) w = valueAt (verdictBlock st.verdict) i w := by
  rw [stationReport_parts, valueAt_append_right _ _ (stationHead_length n st),
    valueAt_append_left _ _ (by rw [verdictBlock_length]; exact h)]

theorem byteAt_stationMiddle {i : Nat} (h : i < 5) :
    byteAt (stationReport n st) (16 + i) = byteAt (stationMiddle st) i := by
  rw [stationReport_parts, ← List.append_assoc,
    byteAt_append_right _ _ (by simp [stationHead_length, verdictBlock_length]),
    byteAt_append_left _ _ (by rw [stationMiddle_length]; exact h)]

theorem valueAt_stationMiddle {i w : Nat} (h : i + w ≤ 5) :
    valueAt (stationReport n st) (16 + i) w = valueAt (stationMiddle st) i w := by
  rw [stationReport_parts, ← List.append_assoc,
    valueAt_append_right _ _ (by simp [stationHead_length, verdictBlock_length]),
    valueAt_append_left _ _ (by rw [stationMiddle_length]; exact h)]

theorem byteAt_lastBlock {i : Nat} (h : i < 13) :
    byteAt (stationReport n st) (21 + i) = byteAt (lastBlock st.last) i := by
  rw [stationReport_parts, ← List.append_assoc, ← List.append_assoc,
    byteAt_append_right _ _ (by simp [stationHead_length, verdictBlock_length, stationMiddle_length]),
    byteAt_append_left _ _ (by rw [lastBlock_length]; exact h)]

theorem valueAt_lastBlock {i w : Nat} (h : i + w ≤ 13) :
    valueAt (stationReport n st) (21 + i) w = valueAt (lastBlock st.last) i w := by
  rw [stationReport_parts, ← List.append_assoc, ← List.append_assoc,
    valueAt_append_right _ _ (by simp [stationHead_length, verdictBlock_length, stationMiddle_length]),
    valueAt_append_left _ _ (by rw [lastBlock_length]; exact h)]

theorem byteAt_corrupt : byteAt (stationReport n st) 34 = st.corrupt.toNat := by
  rw [stationReport_parts, ← List.append_assoc, ← List.append_assoc, ← List.append_assoc,
    byteAt_append_right _ _
      (by simp [stationHead_length, verdictBlock_length, stationMiddle_length, lastBlock_length]) 0]
  exact boolByte_toNat _

theorem stationHead_layout : byteAt (stationHead n st) 0 = n % 256 ∧ byteAt (stationHead n st) 1 = st.room % 256
    ∧ byteAt (stationHead n st) 2 = st.releaseTime % 256 ∧ valueAt (stationHead n st) 3 2 = st.heldLimit % 65536
    ∧ byteAt (stationHead n st) 5 = st.channel.code ∧ byteAt (stationHead n st) 6 = st.link.code
    ∧ byteAt (stationHead n st) 7 = st.missed % 256
    ∧ byteAt (stationHead n st) 8 = (match st.expected with | .toggle t => t.toNat | .adopt => 2)
    ∧ byteAt (stationHead n st) 9 = st.acknowledge.toNat := by
  simp [stationHead, leBytes, byteAt, valueAt, leNat, boolByte_toNat, Channel.code_mod, Link.code_mod,
    Expected.code_mod]
  omega

theorem verdictBlock_some (v : Verdict) : byteAt (verdictBlock (some v)) 0 = 1
    ∧ byteAt (verdictBlock (some v)) 1 = v.outcome.code ∧ byteAt (verdictBlock (some v)) 2 = v.reason.code
    ∧ byteAt (verdictBlock (some v)) 3 = v.seconds % 256 ∧ byteAt (verdictBlock (some v)) 4 = v.toggle.toNat
    ∧ byteAt (verdictBlock (some v)) 5 = v.sent.toNat := by
  simp [verdictBlock, leBytes, byteAt, boolByte_toNat, VerdictOutcome.code_mod, Reason.code_mod]

theorem stationMiddle_layout : byteAt (stationMiddle st) 0 = st.verdictToggle.toNat
    ∧ byteAt (stationMiddle st) 1 = st.door.code ∧ valueAt (stationMiddle st) 2 2 = st.door.remaining % 65536
    ∧ byteAt (stationMiddle st) 4 = eventsCode st.events % 256 := by
  simp [stationMiddle, leBytes, byteAt, valueAt, leNat, boolByte_toNat, Door.code_mod]
  omega

theorem Door.remaining_mod (d : Door) :
    d.remaining % 65536 = match d with | .released k | .opened k => k % 65536 | _ => 0 := by
  cases d <;> rfl

theorem lastBlock_some (l : LastPresentation) : byteAt (lastBlock (some l)) 0 = 1
    ∧ byteAt (lastBlock (some l)) 1 = l.side.code ∧ valueAt (lastBlock (some l)) 2 4 = l.credential % 4294967296
    ∧ valueAt (lastBlock (some l)) 6 5 = l.taken % 1099511627776 ∧ byteAt (lastBlock (some l)) 11 = l.outcome.code
    ∧ byteAt (lastBlock (some l)) 12 = l.reason.code := by
  simp [lastBlock, leBytes, byteAt, valueAt, leNat, Side.code_mod, VerdictOutcome.code_mod, Reason.code_mod]
  omega

end

/-- R180: the pending door events, in the order they were raised. -/
theorem events_code {p : List DoorEvent × Nat}
    (h : p ∈ [([], 0), ([DoorEvent.commit], 1), ([.lapse false], 2), ([.lapse true], 3), ([.commit, .lapse false], 4),
      ([.commit, .lapse true], 5), ([.lapse false, .commit], 6), ([.lapse true, .commit], 7)]) :
    eventsCode p.1 % 256 = p.2 := by
  revert p
  decide

theorem occupantEntry_layout (o : Occupant) :
    (occupantEntry o).length = 21 ∧ valueAt (occupantEntry o) 0 4 = o.credential % 4294967296
      ∧ valueAt (occupantEntry o) 4 2 = o.permit % 65536
      ∧ byteAt (occupantEntry o) 6 = (if o.role = .worker then 0 else 1)
      ∧ byteAt (occupantEntry o) 7 = o.needsEscort.toNat ∧ byteAt (occupantEntry o) 8 = o.station % 256
      ∧ (o.presence = .admitting → byteAt (occupantEntry o) 9 = 0 ∧ valueAt (occupantEntry o) 10 5 = 0
          ∧ valueAt (occupantEntry o) 15 4 = 0)
      ∧ (∀ entry deadline, o.presence = .inside entry deadline →
          byteAt (occupantEntry o) 9 = 1 ∧ valueAt (occupantEntry o) 10 5 = entry % 1099511627776
            ∧ valueAt (occupantEntry o) 15 4 = deadline % 4294967296)
      ∧ byteAt (occupantEntry o) 19 = o.overstay.code ∧ byteAt (occupantEntry o) 20 = o.revokedInside.toNat := by
  obtain ⟨hc, hp, hr, hn, hs⟩ := occupantHead_layout o
  have b9 := byteAt_presenceBlock o (i := 0) (by decide)
  have v10 := valueAt_presenceBlock o (i := 1) (w := 5) (by decide)
  have v15 := valueAt_presenceBlock o (i := 6) (w := 4) (by decide)
  refine ⟨occupantEntry_length o, (valueAt_occupantHead o (by decide)).trans hc,
    (valueAt_occupantHead o (by decide)).trans hp, (byteAt_occupantHead o (by decide)).trans hr,
    (byteAt_occupantHead o (by decide)).trans hn, (byteAt_occupantHead o (by decide)).trans hs, fun ha => ?_,
    fun entry deadline hi => ?_, ?_, ?_⟩
  · rw [ha] at b9 v10 v15
    exact ⟨b9, v10, v15⟩
  · rw [hi] at b9 v10 v15
    obtain ⟨present, second, due⟩ := presenceBlock_inside entry deadline
    exact ⟨b9.trans present, v10.trans second, v15.trans due⟩
  · exact (byteAt_occupantMarks o 0).trans ((BitVec.toNat_ofNat ..).trans (Level.code_mod _))
  · exact (byteAt_occupantMarks o 1).trans (boolByte_toNat _)

/-! ### Room and station numbers -/

section
variable {b : List Byte}

theorem readRoomNumber_malformed (h : b.length ≠ 1) : readRoomNumber b = .error .malformed := by
  rw [readRoomNumber, if_pos h]

theorem readRoomNumber_range (h : b.length = 1) (hr : byteAt b 0 = 0 ∨ 12 < byteAt b 0) :
    readRoomNumber b = .error .range := by
  rw [readRoomNumber, if_neg (not_not.2 h), if_pos (by simp only [Config.rooms]; omega)]

theorem readRoomNumber_ok (h : b.length = 1) (h1 : 1 ≤ byteAt b 0) (h12 : byteAt b 0 ≤ 12) :
    readRoomNumber b = .ok (byteAt b 0) := by
  rw [readRoomNumber, if_neg (not_not.2 h), if_neg (by simp only [Config.rooms]; omega)]

theorem readStationNumber_malformed (h : b.length ≠ 1) : readStationNumber b = .error .malformed := by
  rw [readStationNumber, if_pos h]

theorem readStationNumber_range (h : b.length = 1) (hr : byteAt b 0 = 0 ∨ 16 < byteAt b 0) :
    readStationNumber b = .error .range := by
  rw [readStationNumber, if_neg (not_not.2 h), if_pos (by simp only [Config.stations]; omega)]

theorem readStationNumber_ok (h : b.length = 1) (h1 : 1 ≤ byteAt b 0) (h16 : byteAt b 0 ≤ 16) :
    readStationNumber b = .ok (byteAt b 0) := by
  rw [readStationNumber, if_neg (not_not.2 h), if_neg (by simp only [Config.stations]; omega)]

end

/-- Settles O23: each report as its request serves it, and each block by its parts. -/
theorem roomAndStationRead : Obligations.RoomAndStationRead := by
  refine ⟨fun s f hf => ⟨fun hl => refuses_of_serve rfl hf ?_, fun hl hr => refuses_of_serve rfl hf ?_,
      fun hl n1 n12 => answers_of_serve rfl hf ?_⟩,
    fun s f hf => ⟨fun hl => refuses_of_serve rfl hf ?_, fun hl hr => refuses_of_serve rfl hf ?_,
      fun hl n1 n16 => answers_of_serve rfl hf ?_⟩,
    roomBlock_layout, occupantEntry_layout, fun n st => ?_⟩
  · rw [serveRoomRead, readRoomNumber_malformed hl]
  · rw [serveRoomRead, readRoomNumber_range hl hr]
  · rw [serveRoomRead, readRoomNumber_ok hl n1 n12]
    rfl
  · rw [serveStationRead, readStationNumber_malformed hl]
  · rw [serveStationRead, readStationNumber_range hl hr]
  · rw [serveStationRead, readStationNumber_ok hl n1 n16]
  · obtain ⟨h0, h1, h2, h3, h5, h6, h7, h8, h9⟩ := stationHead_layout n st
    obtain ⟨m0, m1, m2, m4⟩ := stationMiddle_layout st
    have head {i : Nat} (h : i < 10) := byteAt_stationHead n st h
    have middle {i : Nat} (h : i < 5) := byteAt_stationMiddle n st h
    refine ⟨stationReport_length n st, (head (by decide)).trans h0, (head (by decide)).trans h1,
      (head (by decide)).trans h2, (valueAt_stationHead n st (by decide)).trans h3, (head (by decide)).trans h5,
      (head (by decide)).trans h6, (head (by decide)).trans h7, (head (by decide)).trans h8,
      (head (by decide)).trans h9, fun hv => ?_, fun v hv => ?_, (middle (i := 0) (by decide)).trans m0,
      (middle (i := 1) (by decide)).trans m1,
      (valueAt_stationMiddle n st (i := 2) (by decide)).trans (m2.trans (Door.remaining_mod _)), fun p hp he => ?_,
      fun hl => ?_, fun l hl => ?_, byteAt_corrupt n st⟩
    · have block := valueAt_verdictBlock n st (i := 0) (w := 6) (by decide)
      rw [hv] at block
      exact block
    · have block {i : Nat} (h : i < 6) := byteAt_verdictBlock n st h
      rw [hv] at block
      obtain ⟨v0, v1, v2, v3, v4, v5⟩ := verdictBlock_some v
      exact ⟨(block (i := 0) (by decide)).trans v0, (block (i := 1) (by decide)).trans v1,
        (block (i := 2) (by decide)).trans v2, (block (i := 3) (by decide)).trans v3,
        (block (i := 4) (by decide)).trans v4, (block (i := 5) (by decide)).trans v5⟩
    · exact (middle (i := 4) (by decide)).trans (m4.trans (he ▸ events_code hp))
    · have block := valueAt_lastBlock n st (i := 0) (w := 13) (by decide)
      rw [hl] at block
      exact block
    · have bytes {i : Nat} (h : i < 13) := byteAt_lastBlock n st h
      have values {i w : Nat} (h : i + w ≤ 13) := valueAt_lastBlock n st h
      rw [hl] at bytes values
      obtain ⟨l0, l1, l2, l6, l11, l12⟩ := lastBlock_some l
      exact ⟨(bytes (i := 0) (by decide)).trans l0, (bytes (i := 1) (by decide)).trans l1,
        (values (i := 2) (by decide)).trans l2, (values (i := 6) (by decide)).trans l6,
        (bytes (i := 11) (by decide)).trans l11, (bytes (i := 12) (by decide)).trans l12⟩

end Sys2Proof.Machine
end

