-- ==== Sys2Proof/Proofs/Removal.lean ====
section
/-! The removal of a record, and OCCUPANT-RELEASE (R33, R34, R113, R114). -/
namespace Sys2Proof.Machine

/-! ### What a removal tells the host -/

/-- Host lines that agree but for the notice queue and its flag, one after another. -/
theorem HostLine.but_notices_trans {a b c : HostLine}
    (h : { a with notices := b.notices, noticesDropped := b.noticesDropped } = b)
    (h' : { b with notices := c.notices, noticesDropped := c.noticesDropped } = c) :
    { a with notices := c.notices, noticesDropped := c.noticesDropped } = c :=
  (congrArg (fun x : HostLine => { x with notices := c.notices, noticesDropped := c.noticesDropped }) h).trans h'

section
variable (s : State) (o : Occupant)

/-- R166: a notice offered while there is room is the last of the queue. -/
theorem offer_notices {s : State} (n : Notice) (h : s.host.notices.length ≤ 15) :
    (s.offer n).host.notices = s.host.notices ++ [n] := by
  rcases s.offer_spec n with ⟨-, hn⟩ | ⟨hl, -⟩
  · rw [hn]
  · omega

theorem leave_host : (s.leave o).host = (((s.unscheduleRecord o.credential).clearOverstay o).clearRevoked o).host := rfl

theorem clearOverstay_but_notices : { (s.clearOverstay o).host with
    notices := s.host.notices, noticesDropped := s.host.noticesDropped } = s.host := by
  unfold State.clearOverstay
  split
  · rfl
  · exact s.offer_host _

theorem clearRevoked_but_notices : { (s.clearRevoked o).host with
    notices := s.host.notices, noticesDropped := s.host.noticesDropped } = s.host := by
  unfold State.clearRevoked
  split
  · exact s.offer_host _
  · rfl

theorem leave_but_notices : { (s.leave o).host with
    notices := s.host.notices, noticesDropped := s.host.noticesDropped } = s.host :=
  HostLine.but_notices_trans (clearRevoked_but_notices _ o) (clearOverstay_but_notices (s.unscheduleRecord _) o)

variable {s}

theorem clearOverstay_notices (h : s.host.notices.length ≤ 15) : (s.clearOverstay o).host.notices
    = s.host.notices ++ if o.overstay = .clear then [] else [o.notice .overstay .clear] := by
  unfold State.clearOverstay
  split
  · exact (List.append_nil _).symm
  · exact offer_notices _ h

theorem clearRevoked_notices (h : s.host.notices.length ≤ 15) : (s.clearRevoked o).host.notices
    = s.host.notices ++ if o.revokedInside then [o.notice .revokedInside .clear] else [] := by
  unfold State.clearRevoked
  split
  · exact offer_notices _ h
  · exact (List.append_nil _).symm

/-- R33 step 4: OVERSTAY cleared before REVOKED_INSIDE. -/
theorem leave_notices (h : s.host.notices.length ≤ 14) : (s.leave o).host.notices = s.host.notices
    ++ (if o.overstay = .clear then [] else [o.notice .overstay .clear])
    ++ (if o.revokedInside then [o.notice .revokedInside .clear] else []) := by
  have first := clearOverstay_notices (s := s.unscheduleRecord o.credential) o (Nat.le_succ_of_le h)
  have room : ((s.unscheduleRecord o.credential).clearOverstay o).host.notices.length ≤ 15 := by
    rw [first, List.length_append]
    have : (s.unscheduleRecord o.credential).host.notices.length ≤ 14 := h
    split
    · simp only [List.length_nil]; omega
    · simp only [List.length_singleton]; omega
  rw [leave_host, clearRevoked_notices o room, first]
  rfl

end

/-! ### The debit of a removed record (R113, R114) -/

theorem reportedDebit_eq (s : State) (o : Occupant) : s.reportedDebit o =
    match o.presence, s.permit o.permit with
    | .inside entry _, some (_, p) => if p.allowance = none then 0 else min 65535 (debitMinutes entry s.now)
    | _, _ => 0 := by
  unfold State.reportedDebit
  cases o.presence with
  | admitting => rfl
  | inside entry deadline =>
    rcases s.permit o.permit with _ | ⟨slot, p⟩
    · rfl
    · cases hp : p.allowance <;> simp [hp, Config.count16]

theorem debit_eq (s : State) (o : Occupant) : s.debit o =
    match o.presence with
    | .inside entry _ =>
      { s with
        permits := s.permits.map (fun e =>
          if e.2.number = o.permit then
            (e.1, { e.2 with allowance := e.2.allowance.map (fun a => a - debitMinutes entry s.now) })
          else e) }
    | .admitting => s := by
  unfold State.debit
  cases o.presence <;> rfl

/-! ### OCCUPANT-RELEASE -/

section
variable {b : List Byte}

theorem readRoomCredential_malformed (h : b.length ≠ 5) : readRoomCredential b = .error .malformed := by
  rw [readRoomCredential, if_pos h]

theorem readRoomCredential_range (h : b.length = 5)
    (hr : byteAt b 0 = 0 ∨ 12 < byteAt b 0 ∨ valueAt b 1 4 = 0 ∨ valueAt b 1 4 = 4294967295) :
    readRoomCredential b = .error .range := by
  have out : byteAt b 0 < 1 ∨ Config.rooms < byteAt b 0 ∨ badCredential (valueAt b 1 4) = true := by
    refine hr.imp (by omega) (Or.imp_right fun hc => ?_)
    by_contra hb
    have := (badCredential_eq_false _).1 (by simpa using hb)
    omega
  rw [readRoomCredential, if_neg (not_not.2 h), if_pos out]

theorem readRoomCredential_ok (h : b.length = 5) (h1 : 1 ≤ byteAt b 0) (h12 : byteAt b 0 ≤ 12)
    (hc : valueAt b 1 4 ≠ 0) (hc' : valueAt b 1 4 ≠ 4294967295) :
    readRoomCredential b = .ok (byteAt b 0, valueAt b 1 4) := by
  have good : ¬ (byteAt b 0 < 1 ∨ Config.rooms < byteAt b 0 ∨ badCredential (valueAt b 1 4) = true) := by
    rw [(badCredential_eq_false _).2 ⟨hc, hc'⟩]
    simp only [Config.rooms, Bool.false_eq_true, or_false]
    omega
  rw [readRoomCredential, if_neg (not_not.2 h), if_neg good]

variable {s : State} {n c : Nat}

theorem serveOccupantRelease_unread {code : ReplyCode} (h : readRoomCredential b = .error code) :
    serveOccupantRelease b s = .error code := by
  unfold serveOccupantRelease
  rw [h]

theorem serveOccupantRelease_unset (h : readRoomCredential b = .ok (n, c)) (hu : s.clock.unset = true) :
    serveOccupantRelease b s = .error .clockUnset := by
  simp [serveOccupantRelease, h, hu]

theorem serveOccupantRelease_absent (h : readRoomCredential b = .ok (n, c)) (hu : s.clock.unset = false)
    (ho : (s.occupants n).find? (fun o => o.credential = c) = none) : serveOccupantRelease b s = .error .notFound := by
  simp [serveOccupantRelease, h, hu, ho]

theorem serveOccupantRelease_found (h : readRoomCredential b = .ok (n, c)) (hu : s.clock.unset = false) {o : Occupant}
    (ho : (s.occupants n).find? (fun o => o.credential = c) = some o) :
    serveOccupantRelease b s = .ok (s.operatorRelease o, leBytes 2 (s.reportedDebit o)) := by
  simp [serveOccupantRelease, h, hu, ho]

theorem occupant_found {o : Occupant} (h : (s.occupants n).find? (fun o => o.credential = c) = some o) :
    o.room = n ∧ o.credential = c :=
  ⟨of_decide_eq_true (List.mem_filter.1 (List.mem_of_find?_eq_some h)).2, by simpa using List.find?_some h⟩

theorem occupant_not_found (h : ∀ o ∈ s.pool, o.room = n → o.credential ≠ c) :
    (s.occupants n).find? (fun o => o.credential = c) = none := by
  refine List.find?_eq_none.2 fun o ho => ?_
  obtain ⟨ho, hn⟩ := List.mem_filter.1 ho
  simpa using h o ho (of_decide_eq_true hn)

end

/-- Settles O24: what `leave` removes and tells, and OCCUPANT-RELEASE by what its body reads as. -/
theorem occupantReleaseRemoves : Obligations.OccupantReleaseRemoves := by
  refine ⟨fun s o => ⟨leave_pool s o, ?_, leave_notices o, ?_, leave_but_notices s o⟩,
    fun s f hf => ⟨fun hl => refuses_of_serve rfl hf (serveOccupantRelease_unread (readRoomCredential_malformed hl)),
      fun hl hr => refuses_of_serve rfl hf (serveOccupantRelease_unread (readRoomCredential_range hl hr)),
      fun hl n1 n12 hc hc' => ?_⟩⟩
  · rw [leave_deadlines, unscheduleRecord_deadlines, List.filter_filter]
    refine List.filter_congr fun e _ => ?_
    simp [Bool.and_comm]
  · simp
  · have read := readRoomCredential_ok hl n1 n12 hc hc'
    refine ⟨fun hu => refuses_of_serve rfl hf (serveOccupantRelease_unset read hu), fun hu hnone => ?_, fun o hu ho => ?_⟩
    · exact refuses_of_serve rfl hf (serveOccupantRelease_absent read hu (occupant_not_found hnone))
    · intro reported debited
      obtain ⟨hroom, hcred⟩ := occupant_found ho
      have released : s.operatorRelease o = ((((debited.put
            { kind := .operatorRelease, station := o.station, room := byteAt f.body 0, credential := valueAt f.body 1 4
              permit := o.permit, reason := .operator, value := .number reported }).leave o).reevaluateRoom
            (byteAt f.body 0)).retest (byteAt f.body 0)) := by
        rw [← hroom, ← hcred]
        unfold State.operatorRelease
        rw [reportedDebit_eq, debit_eq]
        rfl
      have served := serveOccupantRelease_found read hu ho
      rw [released, reportedDebit_eq] at served
      exact answers_of_serve rfl hf served

end Sys2Proof.Machine
end

