-- ==== Sys2Proof/Proofs/Jobs.lean ====
section
/-! The DOOR and TIMER jobs (R31, R32, R39 to R41, R78, R80, R94, R118): what each leaves of the state it is granted
in. -/
namespace Sys2Proof.Machine

section
variable {s t : State} {i : Instr}

theorem leaves_of_job {job : State → State} (he : exec i s = whenGranted i s job) (hg : s.granted = some i)
    (hj : job s = t) : Leaves i s t :=
  hj ▸ he.trans (whenGranted_leaves hg)

/-! ### The due entry of a TIMER job -/

theorem requestRow_ne_row (f : Frame) (w : Due) : requestRow f ≠ w.row := by
  unfold requestRow modeRequestRow restartRow
  (repeat' split) <;> cases w <;> exact nofun

/-- R94, R117: only the TIMER class has the row of a due entry waiting. -/
theorem timer_of_work {c : JobClass} {w : Due} (h : s.work c = some w.row) : s.dueHead ≠ none := by
  cases c with
  | timer =>
    obtain ⟨e, he, -⟩ := Option.map_eq_some_iff.1 h
    simp [he]
  | door =>
    unfold State.work at h
    dsimp only at h
    (repeat' split at h) <;> cases w <;> cases h
  | present =>
    unfold State.work at h
    dsimp only at h
    (repeat' split at h) <;> cases w <;> cases h
  | request =>
    unfold State.work at h
    dsimp only at h
    split at h
    · split at h
      · cases h
      · exact absurd (Option.some.inj h) (requestRow_ne_row _ w)
    · cases h
  | sweep =>
    unfold State.work at h
    dsimp only at h
    (repeat' split at h) <;> cases w <;> cases h

/-- R94: a granted TIMER job finds the head of the queue due. -/
theorem dueHead_of_granted {w : Due} {e : DeadlineEntry} {rest : List DeadlineEntry} (hg : s.granted = some w.row)
    (hd : s.deadlines = e :: rest) : s.dueHead = some e := by
  have due : s.dueHead ≠ none := by
    unfold State.granted at hg
    split at hg
    · cases hg
    · obtain ⟨c, -, hc⟩ := List.exists_of_findSome?_eq_some hg
      exact timer_of_work hc
  unfold State.dueHead at due ⊢
  rw [hd] at due ⊢
  dsimp only at due ⊢
  split at due
  · rw [if_pos ‹_›]
  · exact absurd rfl due

theorem takeDue_granted {act : Due → State → State} {due : Nat} {w : Due} {rest : List DeadlineEntry}
    (hg : s.granted = some w.row) (hd : s.deadlines = ⟨due, w⟩ :: rest) :
    s.takeDue act = act w { s with deadlines := rest } := by
  have dropped : s.dropHead = { s with deadlines := rest } := by rw [State.dropHead, hd]; rfl
  rw [State.takeDue, dueHead_of_granted hg hd, dropped]

/-! ### DOOR jobs -/

theorem takeDoorEvent_eq {n : Nat} {e : DoorEvent} {later : List DoorEvent} (h : (s.station n).events = e :: later) :
    s.takeDoorEvent n = { s.setStation n { s.station n with events := later } with lastDoor := n } := by
  rw [State.takeDoorEvent, h]
  rfl

theorem admittingAt_isEmpty {n : Nat} :
    (s.admittingAt n).isEmpty = true ↔ ∀ o ∈ s.pool, o.station = n → o.presence ≠ .admitting := by
  simp [State.admittingAt, List.isEmpty_iff, List.filter_eq_nil_iff]

theorem admittingAt_occupied {n : Nat} (h : ∃ o ∈ s.pool, o.station = n ∧ o.presence = .admitting) :
    (s.admittingAt n).isEmpty ≠ true := fun he => by
  obtain ⟨o, ho, hn, ha⟩ := h
  exact admittingAt_isEmpty.1 he o ho hn ha

theorem exec_doorCommit (s : State) : exec .doorCommit s = whenGranted .doorCommit s (fun s =>
    match s.doorStation with
    | some n => (s.takeDoorEvent n).commitStation n
    | none => s) := rfl

theorem exec_doorLapse (s : State) : exec .doorLapse s = whenGranted .doorLapse s (fun s =>
    match s.doorStation with
    | some n =>
      match (s.station n).events with
      | .lapse silence :: _ => (s.takeDoorEvent n).lapseStation n silence
      | .commit :: _ => s
      | [] => s
    | none => s) := rfl

/-- R31: the deadline of a record committed under its permit. -/
theorem commitDeadline_eq {o : Occupant} {slot : Nat} {p : Permit} (h : s.permit o.permit = some (slot, p)) :
    s.commitDeadline o = stayDeadline p s.settings.weekdayOffset (s.now / 60) := by
  simp [State.commitDeadline, h, State.nowMinute]

/-- R80: the group at a station silenced. -/
theorem cancelGroup_some {n : Nat} {g : Group} (h : s.groups.find? (fun g => g.station = n) = some g) :
    s.cancelGroup n = ((g.members.foldl (State.denyMember g .stationSilent) s).unschedule (.pairing n)).dropGroup n := by
  rw [State.cancelGroup, State.groupAt, h]

theorem cancelGroup_none {n : Nat} (h : s.groups.find? (fun g => g.station = n) = none) : s.cancelGroup n = s := by
  rw [State.cancelGroup, State.groupAt, h]

end

/-- Settles O42: a DOOR job takes the event of the station it serves, and commits or lapses the records waiting there. -/
theorem doorJobs : Obligations.DoorJobs := by
  refine ⟨⟨fun s n later hg hn he => ?_, fun s o slot p hp => ?_⟩, fun s n silence later hg hn he => ?_⟩
  · intro took room
    have htook : s.takeDoorEvent n = took := takeDoorEvent_eq he
    have hroom : (took.station n).room = room := htook ▸ takeDoorEvent_binding s n n
    have job : (match s.doorStation with | some n => (s.takeDoorEvent n).commitStation n | none => s)
        = took.commitStation n := by
      rw [hn, ← htook]
    refine ⟨fun hnone => leaves_of_job (exec_doorCommit s) hg (job.trans ?_),
      fun hsome => leaves_of_job (exec_doorCommit s) hg (job.trans ?_)⟩
    · rw [State.commitStation, if_pos (admittingAt_isEmpty (s := took).2 hnone)]
    · rw [State.commitStation, if_neg (admittingAt_occupied (s := took) hsome), hroom]
      rfl
  · rw [State.commitRecord, commitDeadline_eq hp]
    rfl
  · intro took room lapsed ended
    have htook : s.takeDoorEvent n = took := takeDoorEvent_eq he
    have hroom : (took.station n).room = room := htook ▸ takeDoorEvent_binding s n n
    have hlapsed : (took.admittingAt n).foldl (State.lapse (if silence then .stationSilent else .releaseExpired)) took
        = lapsed := rfl
    have hgroups : lapsed.groups = s.groups := by
      rw [← hlapsed]
      simp [took]
    have hended : (if silence then lapsed.cancelGroup n else lapsed) = ended := by
      cases silence with
      | false => rfl
      | true =>
        cases hgrp : s.groups.find? (fun g => g.station = n) with
        | none =>
          rw [if_pos rfl, cancelGroup_none (hgroups ▸ hgrp)]
          simp only [ended, hgrp]
        | some g =>
          rw [if_pos rfl, cancelGroup_some (hgroups ▸ hgrp)]
          simp only [ended, hgrp]
          rfl
    have job : took.lapseStation n silence
        = if (took.admittingAt n).isEmpty then ended else ended.afterRemoval room := by
      rw [State.lapseStation, hlapsed, hended, hroom]
    have served : (match s.doorStation with
        | some n =>
          match (s.station n).events with
          | .lapse silence :: _ => (s.takeDoorEvent n).lapseStation n silence
          | .commit :: _ => s
          | [] => s
        | none => s) = took.lapseStation n silence := by
      rw [hn]
      dsimp only
      rw [he, ← htook]
    refine ⟨fun hnone => leaves_of_job (exec_doorLapse s) hg (served.trans (job.trans ?_)),
      fun hsome => leaves_of_job (exec_doorLapse s) hg (served.trans (job.trans ?_))⟩
    · rw [if_pos (admittingAt_isEmpty (s := took).2 hnone)]
    · rw [if_neg (admittingAt_occupied (s := took) hsome)]
      rfl

/-! ### TIMER jobs -/

section
variable {s : State}

/-- R78: a group expired, at a station whose record and whose groups the denials leave alone. -/
theorem expireGroup_some {n : Nat} {g : Group} (h : s.groups.find? (fun g => g.station = n) = some g) :
    s.expireGroup n = ({ g.members.foldl (State.denyMember g .pairingTimeout) s with
      groups := s.groups.filter (fun x => x.station ≠ n) } : State).setStation n
        ((s.station n).place .deny .pairingTimeout) := by
  have kept := foldl_denyMember_frame g .pairingTimeout g.members s
  rw [State.expireGroup, State.groupAt, h]
  simp only [State.dropGroup, State.placeVerdict, State.station, kept]

theorem raiseOverstay_inside {o : Occupant} {entry deadline : Nat} (h : o.presence = .inside entry deadline) :
    s.raiseOverstay o = (((s.updateRecord o.credential (fun x => { x with overstay := .raised })).offer
      (o.notice .overstay .raised)).put (o.record .overstay .raised)).schedule
        ((deadline + (s.room o.room).grace) * 60) (.escalation o.credential) := by
  simp only [State.raiseOverstay, h]

theorem limitAction_due (a : RoomAlert) (n : Nat) : limitAction (a.due n) s = s.escalateAlert a n := by cases a <;> rfl

theorem limit_row (a : RoomAlert) (n : Nat) : (a.due n).row = .limitDue := by cases a <;> rfl

theorem escalateAlert_raised {a : RoomAlert} {n : Nat} (h : a.level (s.room n) = .raised) :
    s.escalateAlert a n = s.moveRoomAlert a n .escalated := by
  simp only [State.escalateAlert, h]

theorem escalateAlert_other {a : RoomAlert} {n : Nat} (h : a.level (s.room n) ≠ .raised) : s.escalateAlert a n = s := by
  unfold State.escalateAlert
  cases hl : a.level (s.room n) with
  | raised => exact absurd hl h
  | clear => rfl
  | escalated => rfl

theorem exec_pairingExpiry (s : State) :
    exec .pairingExpiry s = whenGranted .pairingExpiry s (fun s => s.takeDue pairingAction) := rfl

theorem exec_stayDeadlineDue (s : State) :
    exec .stayDeadlineDue s = whenGranted .stayDeadlineDue s (fun s => s.takeDue stayDeadlineAction) := rfl

theorem exec_escalationDue (s : State) :
    exec .escalationDue s = whenGranted .escalationDue s (fun s => s.takeDue escalationAction) := rfl

theorem exec_limitDue (s : State) : exec .limitDue s = whenGranted .limitDue s (fun s => s.takeDue limitAction) := rfl

end

/-- Settles O43: a TIMER job acts on the head of the queue, by what the entry names. -/
theorem timerJobs : Obligations.TimerJobs := by
  refine ⟨fun s due n rest g hg hd hgrp => ?_, fun s due c entry deadline rest o hg hd ho hp => ?_,
    fun s due c rest o hg hd ho => ?_, fun s due n a rest hg hd => ⟨fun hl => ?_, fun hl => ?_⟩⟩
  · refine leaves_of_job (exec_pairingExpiry s) hg ((takeDue_granted (w := .pairing n) hg hd).trans ?_)
    exact expireGroup_some hgrp
  · obtain ⟨-, rfl⟩ := recordOf_eq_some ho
    refine leaves_of_job (exec_stayDeadlineDue s) hg ((takeDue_granted (w := .stayDeadline o.credential) hg hd).trans ?_)
    have found : stayDeadlineAction (.stayDeadline o.credential) { s with deadlines := rest }
        = State.raiseOverstay { s with deadlines := rest } o := by
      change (match s.recordOf o.credential with | some o => _ | none => _) = _
      rw [ho]
    rw [found, raiseOverstay_inside hp]
    rfl
  · obtain ⟨-, rfl⟩ := recordOf_eq_some ho
    refine leaves_of_job (exec_escalationDue s) hg ((takeDue_granted (w := .escalation o.credential) hg hd).trans ?_)
    have found : escalationAction (.escalation o.credential) { s with deadlines := rest }
        = State.escalateOverstay { s with deadlines := rest } o := by
      change (match s.recordOf o.credential with | some o => _ | none => _) = _
      rw [ho]
    rw [found]
    rfl
  · refine leaves_of_job (exec_limitDue s) hg ((takeDue_granted ((limit_row a n).symm ▸ hg) hd).trans ?_)
    rw [limitAction_due, escalateAlert_raised (s := { s with deadlines := rest }) hl]
    rfl
  · refine leaves_of_job (exec_limitDue s) hg ((takeDue_granted ((limit_row a n).symm ▸ hg) hd).trans ?_)
    rw [limitAction_due, escalateAlert_other (s := { s with deadlines := rest }) hl]

end Sys2Proof.Machine
end

