-- ==== Sys2Proof/Proofs/Entry.lean ====
section
/-! The entry decision on its way to a grant or to a pairing group, and the completion of a group (R30, R53, R54, R61,
R62, R70 to R77). -/
namespace Sys2Proof.Machine

section
variable {s t : State} {p : Presentation} {rest : List Presentation} {q : Permit}

/-! ### The presentation taken (R45, R46) -/

theorem exec_entryDecision (s : State) :
    exec .entryDecision s = whenGranted .entryDecision s (fun s => s.takePresentation State.decideEntry) := rfl

theorem takePresentation_online {act : State → Presentation → State} (hp : s.presentations = p :: rest)
    (hl : (s.station p.station).link = .online) : s.takePresentation act = act { s with presentations := rest } p := by
  have online : (State.station { s with presentations := rest } p.station).link ≠ .silent := by
    rw [show State.station { s with presentations := rest } p.station = s.station p.station from rfl, hl]
    exact nofun
  rw [State.takePresentation, hp]
  exact if_neg online

theorem takePresentation_silent {act : State → Presentation → State} (hp : s.presentations = p :: rest)
    (hl : (s.station p.station).link = .silent) :
    s.takePresentation act = State.decideSilent { s with presentations := rest } p := by
  rw [State.takePresentation, hp]
  exact if_pos hl

theorem entry_leaves (hg : s.granted = some .entryDecision) (hp : s.presentations = p :: rest)
    (hl : (s.station p.station).link = .online) (ht : State.decideEntry { s with presentations := rest } p = t) :
    Leaves .entryDecision s t :=
  leaves_of_job (exec_entryDecision s) hg ((takePresentation_online hp hl).trans ht)

/-! ### The checks passed (R50 to R60) -/

/-- R50 to R52: the part, station and credential checks passed, before the presenter's place is looked for. -/
theorem decideEntry_checked (hu : s.clock.unset = false) (hb : (s.station p.station).channel ≠ .barred)
    (hr : p.credential ∉ s.revoked) : s.decideEntry p =
      match s.recordOf p.credential with
      | some o =>
        if o.presence = .admitting ∧ o.station = p.station then s.repeatTap p o else s.refuse p .passback o.permit 0
      | none =>
        match s.membershipOf p.credential with
        | some (g, m) => if g.station = p.station then s.memberTap p g m else s.refuse p .passback m.permit 0
        | none => s.tryPermits p := by
  have unset : ¬ s.clock.unset = true := by simp [hu]
  have kept : ¬ s.revoked.contains p.credential = true := by simpa using hr
  exact (if_neg unset).trans ((if_neg hb).trans (if_neg kept))

theorem decideEntry_chooses (h : s.EntryChooses p q) : s.decideEntry p = s.roomChecks p q := by
  obtain ⟨-, hu, hb, hr, hrec, hmem, hq⟩ := h
  rw [decideEntry_checked hu hb hr, hrec]
  dsimp only
  rw [hmem]
  dsimp only
  rw [State.tryPermits, hq]

theorem roomChecks_admits (h : s.RoomAdmits (s.station p.station).room) : s.roomChecks p q = s.admitOrPair p q := by
  obtain ⟨hmode, hstrict, hroom, hpool⟩ := h
  have trail : ¬ ((s.room (s.station p.station).room).strict && s.trail.full) = true := by
    simpa [Trail.full] using hstrict
  have room : ¬ Config.poolRecords < s.pool.length + s.members.length + 1 := Nat.not_lt.2 hpool
  rw [State.roomChecks, if_neg hmode, if_neg trail, if_neg (Nat.not_lt.2 hroom), if_neg room]

/-- R45 to R60: an entry whose checks all pass is granted, or goes to a pairing group. -/
theorem entry_admitted (hg : s.granted = some .entryDecision) (hp : s.presentations = p :: rest)
    (hc : s.EntryChooses p q) (ha : s.RoomAdmits (s.station p.station).room)
    (ht : State.admitOrPair { s with presentations := rest } p q = t) : Leaves .entryDecision s t :=
  entry_leaves hg hp hc.1 ((decideEntry_chooses (s := { s with presentations := rest }) hc).trans
    ((roomChecks_admits (s := { s with presentations := rest }) ha).trans ht))

/-! ### Granted, founding or joining (R61, R62, R72, R73) -/

theorem admitOrPair_grant (hn : s.groupAt p.station = none)
    (ht : requirementTest (s.room (s.station p.station).room)
      ((s.occupants (s.station p.station).room).map Occupant.person ++ [(s.newMember p q).person]) = true) :
    s.admitOrPair p q = s.grant p q := by
  rw [State.admitOrPair, hn]
  exact if_pos ht

theorem admitOrPair_found (hn : s.groupAt p.station = none)
    (ht : requirementTest (s.room (s.station p.station).room)
      ((s.occupants (s.station p.station).room).map Occupant.person ++ [(s.newMember p q).person]) = false)
    (hl : s.groups.length ≤ 7) : s.admitOrPair p q = s.found p q := by
  rw [State.admitOrPair, hn]
  exact (if_neg (by rw [ht]; exact nofun)).trans (if_neg (by simp only [Config.groups]; omega))

theorem admitOrPair_join {g : Group} (hg : s.groupAt p.station = some g) (hl : g.members.length ≤ 3) :
    s.admitOrPair p q = s.join p g q := by
  rw [State.admitOrPair, hg]
  exact if_neg (by simp only [Config.membersPerGroup]; omega)

theorem countsAsNeedingEscort_worker (role : Role) (mode : RoomMode) (needs : Bool) :
    countsAsNeedingEscort role mode needs = (role == .worker && (mode == .escortedOnly || needs)) := by
  cases role <;> cases mode <;> rfl

theorem newMember_eq (s : State) (p : Presentation) (q : Permit) : s.newMember p q =
    { credential := p.credential, permit := q.number, role := q.role, joined := s.now
      needsEscort := q.role == .worker
        && ((s.room (s.station p.station).room).mode == .escortedOnly || q.needsEscort) } := by
  rw [State.newMember, countsAsNeedingEscort_worker]

/-- R74: a wait for a partner is a wait of too few persons in a TWO_PERSON room. -/
theorem waitReason_eq (r : Room) (ps : List Person) :
    waitReason r ps = if r.cls = .twoPerson ∧ ps.length ≤ 1 then .awaitPartner else .awaitEscort := by
  have part : twoPersonPart r ps = true ↔ ¬ (r.cls = .twoPerson ∧ ps.length ≤ 1) := by
    cases hc : r.cls <;> simp [twoPersonPart, hc]; omega
  unfold waitReason
  by_cases h : r.cls = .twoPerson ∧ ps.length ≤ 1
  · rw [if_pos h, if_neg (part.not.2 (not_not.2 h))]
  · rw [if_neg h, if_pos (part.2 h)]

theorem personsWith_length (s : State) (g : Group) :
    (s.personsWith g).length = (s.occupants g.room).length + g.members.length := by
  simp [State.personsWith]

theorem concludeWait_eq (s : State) (p : Presentation) (g : Group) (n : Nat) : s.concludeWait p g n =
    s.conclude p .wait
      (if (s.room g.room).cls = .twoPerson ∧ (s.occupants g.room).length + g.members.length ≤ 1 then .awaitPartner
        else .awaitEscort) n
      { kind := .wait, station := p.station, room := (s.station p.station).room, credential := p.credential, permit := n
        reason := if (s.room g.room).cls = .twoPerson ∧ (s.occupants g.room).length + g.members.length ≤ 1
          then .awaitPartner else .awaitEscort
        value := .number g.members.length } := by
  rw [State.concludeWait, waitReason_eq, personsWith_length]

theorem grant_eq (s : State) (p : Presentation) (q : Permit) : s.grant p q =
    (((({ s with
        pool := s.pool ++
          [{ credential := p.credential, permit := q.number, role := q.role
             needsEscort := q.role == .worker
               && ((s.room (s.station p.station).room).mode == .escortedOnly || q.needsEscort)
             room := (s.station p.station).room, station := p.station, presence := .admitting, overstay := .clear
             revokedInside := false }] } : State).conclude p .release .granted q.number
      { kind := .grant, station := p.station, room := (s.station p.station).room, credential := p.credential
        permit := q.number, reason := .granted
        value := .number (stayDeadline q s.settings.weekdayOffset s.nowMinute) }).reevaluateRoom
          (s.station p.station).room).retest (s.station p.station).room) := by
  rw [State.grant, newRecord, countsAsNeedingEscort_worker]
  rfl

end

/-- Settles O48: an entry alone in passing the requirement test is granted; a tap of one who has his place changes no
table. -/
theorem entryGrantedOrRepeated : Obligations.EntryGrantedOrRepeated := by
  intro s p rest hg hp n popped
  refine ⟨fun q hc ha hn => ?_, fun hl hu hb hr => ⟨fun o ho hadm hst => ?_, fun g m ho hm hst => ?_⟩⟩
  · intro needs ht
    refine entry_admitted hg hp hc ha ((admitOrPair_grant (s := popped) hn ?_).trans (grant_eq popped p q))
    rw [newMember_eq]
    exact ht
  · refine entry_leaves hg hp hl ((decideEntry_checked (s := popped) hu hb hr).trans ?_)
    rw [show popped.recordOf p.credential = some o from ho]
    exact if_pos ⟨hadm, hst⟩
  · refine entry_leaves hg hp hl ((decideEntry_checked (s := popped) hu hb hr).trans ?_)
    rw [show popped.recordOf p.credential = none from ho]
    dsimp only
    rw [show popped.membershipOf p.credential = some (g, m) from hm]
    refine (if_pos hst).trans ?_
    rw [State.memberTap, waitReason_eq, personsWith_length]
    rfl

end Sys2Proof.Machine
end

