-- ==== Sys2Proof/Proofs/Pairing.lean ====
section
/-! Groups founded, joined and completed (R62, R70 to R77). -/
namespace Sys2Proof.Machine

section
variable {s : State} {p : Presentation} {q : Permit} {g : Group}

/-! ### A group waits, or is completed by a join (R62, R72, R73) -/

theorem found_eq (s : State) (p : Presentation) (q : Permit) : s.found p q =
    State.concludeWait
      { s with
        groups := insertGroup ⟨p.station, (s.station p.station).room, [s.newMember p q],
          s.now + (s.room (s.station p.station).room).pairingWindow⟩ s.groups
        deadlines := insertDeadline ⟨s.now + (s.room (s.station p.station).room).pairingWindow, .pairing p.station⟩
          s.deadlines }
      p ⟨p.station, (s.station p.station).room, [s.newMember p q],
        s.now + (s.room (s.station p.station).room).pairingWindow⟩ q.number := rfl

theorem join_waits
    (ht : (s.setMembers g.station (g.members ++ [s.newMember p q])).passes
      { g with members := g.members ++ [s.newMember p q] } = false) :
    s.join p g q = (s.setMembers g.station (g.members ++ [s.newMember p q])).concludeWait p
      { g with members := g.members ++ [s.newMember p q] } q.number :=
  if_neg (by rw [ht]; exact nofun)

theorem join_completes
    (ht : (s.setMembers g.station (g.members ++ [s.newMember p q])).passes
      { g with members := g.members ++ [s.newMember p q] } = true) :
    s.join p g q = (((s.setMembers g.station (g.members ++ [s.newMember p q])).completeGroup
      { g with members := g.members ++ [s.newMember p q] } (some (p.credential, p.taken))).setLast p .release
        .groupComplete).retest g.room :=
  if_pos ht

/-! ### What a completion tells, and the entries it leaves (R76, R77) -/

/-- R77: members told in the second the completion began in. -/
theorem foldl_grantMember_told {told : State → Member → State} {tap : Option (Nat × Nat)} {now : Nat}
    (h : ∀ s m, s.now = now → State.grantMember g tap s m = told s m) (l : List Member) (hs : s.now = now) :
    l.foldl (State.grantMember g tap) s = l.foldl told s := by
  refine (List.foldl_rel (r := fun x y => x = y ∧ x.now = now) ⟨rfl, hs⟩ fun m _ x y hxy => ?_).1
  obtain ⟨rfl, hx⟩ := hxy
  refine ⟨h x m hx, ?_⟩
  rw [State.now, (State.grantMember_frame g tap x m).1]
  exact hx

theorem mem_deadlines_reevaluate {a : RoomAlert} {n : Nat} {e : DeadlineEntry} (he : e.what ≠ a.due n) :
    e ∈ (s.reevaluate a n).deadlines ↔ e ∈ s.deadlines := by
  have raised (x : Nat) (t : State) (ht : t.deadlines = s.deadlines) :
      e ∈ (t.schedule x (a.due n)).deadlines ↔ e ∈ s.deadlines := by
    refine (mem_insertDeadline ..).trans (ht ▸ or_iff_right ?_)
    rintro rfl
    exact he rfl
  have cleared (t : State) (ht : t.deadlines = s.deadlines) :
      e ∈ (t.unschedule (a.due n)).deadlines ↔ e ∈ s.deadlines := by
    simp [State.unschedule, ht, he]
  unfold State.reevaluate
  split
  · exact raised _ _ (moveRoomAlert_deadlines ..)
  · rfl
  · rfl
  · rfl
  · exact cleared _ (moveRoomAlert_deadlines ..)
  · exact cleared _ (moveRoomAlert_deadlines ..)

theorem mem_deadlines_reevaluateRoom {n : Nat} {e : DeadlineEntry} (hl : e.what ≠ .loneLimit n)
    (hu : e.what ≠ .unescortedLimit n) : e ∈ (s.reevaluateRoom n).deadlines ↔ e ∈ s.deadlines :=
  (mem_deadlines_reevaluate (a := .unescorted) hu).trans (mem_deadlines_reevaluate (a := .lone) hl)

end

/-- Settles O49: a presenter who must wait founds or joins a group; and what a completion leaves, written out. -/
theorem entryFoundsOrJoins : Obligations.EntryFoundsOrJoins := by
  refine ⟨fun s p rest q hg hp hc ha => ?_, fun s g tap => ?_⟩
  · intro n popped member waits
    have hmember : popped.newMember p q = member := newMember_eq popped p q
    refine ⟨fun hn ht hl => ?_, fun g hgrp hl => ?_⟩
    · refine entry_admitted hg hp hc ha ((admitOrPair_found (s := popped) hn (hmember ▸ ht) hl).trans ?_)
      rw [found_eq, concludeWait_eq, hmember]
      rfl
    · intro joined grown test
      obtain ⟨-, hst⟩ := groupAt_eq_some hgrp
      have hgrown : popped.setMembers g.station (g.members ++ [popped.newMember p q]) = grown := by
        rw [hmember, hst]
        rfl
      have hjoined : { g with members := g.members ++ [popped.newMember p q] } = joined := by rw [hmember]
      have passes : grown.passes joined = test := rfl
      have taken := admitOrPair_join (s := popped) (p := p) (q := q) hgrp hl
      refine ⟨fun ht => entry_admitted hg hp hc ha (taken.trans ?_),
        fun ht => entry_admitted hg hp hc ha (taken.trans ?_)⟩
      · rw [join_waits (by rw [hgrown, hjoined, passes, ht]), hgrown, hjoined, concludeWait_eq]
        rfl
      · rw [join_completes (by rw [hgrown, hjoined, passes, ht]), hgrown, hjoined]
  · intro t admitted told
    refine ⟨?_, s.completeGroup_pool g tap, s.completeGroup_groups g tap, (s.completeGroup_frame g tap).2.2.1,
      fun h1 hn => ?_, fun e hl hu => ?_⟩
    · refine congrArg (fun x : State => x.reevaluateRoom g.room) (foldl_grantMember_told (fun x m hx => ?_) g.members rfl)
      simp only [State.grantMember, hx]
      rfl
    · have stations : t.stations = _ := s.completeGroup_stations g tap
      rw [State.station, stations]
      exact station_setStation_self h1 hn
    · refine (mem_deadlines_reevaluateRoom hl hu).trans ?_
      simp

end Sys2Proof.Machine
end

