-- ==== Sys2Proof/Proofs/Exit.lean ====
section
/-! The exit decision (R46, R65 to R67). -/
namespace Sys2Proof.Machine

section
variable {s t : State} {p : Presentation} {rest : List Presentation}

/-! ### The exit taken -/

theorem requestRow_ne_exit (f : Frame) : requestRow f ≠ .exitDecision := by
  unfold requestRow modeRequestRow restartRow
  (repeat' split) <;> exact nofun

/-- R45, R117: only the PRESENT class has an exit decision waiting, and then for a presentation from inside. -/
theorem inside_of_work {c : JobClass} (h : s.work c = some .exitDecision) (hp : s.presentations = p :: rest) :
    p.side = .inside := by
  cases c with
  | present =>
    unfold State.work at h
    rw [hp] at h
    change some (if p.side = .outside then Instr.entryDecision else .exitDecision) = _ at h
    cases hside : p.side with
    | inside => rfl
    | outside => rw [hside] at h; cases h
  | door =>
    unfold State.work at h
    dsimp only at h
    (repeat' split at h) <;> cases h
  | timer =>
    obtain ⟨e, -, he⟩ := Option.map_eq_some_iff.1 h
    cases hw : e.what <;> rw [hw] at he <;> cases he
  | request =>
    unfold State.work at h
    dsimp only at h
    split at h
    · split at h
      · cases h
      · exact absurd (Option.some.inj h) (requestRow_ne_exit _)
    · cases h
  | sweep =>
    unfold State.work at h
    dsimp only at h
    split at h <;> cases h

theorem inside_of_granted (hg : s.granted = some .exitDecision) (hp : s.presentations = p :: rest) :
    p.side = .inside := by
  unfold State.granted at hg
  split at hg
  · cases hg
  · obtain ⟨c, -, hc⟩ := List.exists_of_findSome?_eq_some hg
    exact inside_of_work hc hp

theorem exec_exitDecision (s : State) :
    exec .exitDecision s = whenGranted .exitDecision s (fun s => s.takePresentation State.decideExit) := rfl

theorem exit_leaves (hg : s.granted = some .exitDecision) (hp : s.presentations = p :: rest)
    (hl : (s.station p.station).link = .online) (ht : State.decideExit { s with presentations := rest } p = t) :
    Leaves .exitDecision s t :=
  leaves_of_job (exec_exitDecision s) hg ((takePresentation_online hp hl).trans ht)

/-! ### The release and the removal (R48, R49, R65, R66) -/

theorem setNth_setNth {α : Type} (l : List α) (n : Nat) (x y : α) : setNth (setNth l n x) n y = setNth l n y := by
  cases n with
  | zero => rfl
  | succ k => exact List.set_set ..

/-- R48, R49: a verdict placed at a station of the table, with the presentation it decides. -/
theorem placed_last (o : VerdictOutcome) (r : Reason) (h1 : 1 ≤ p.station) (hn : p.station ≤ s.stations.length) :
    (s.placeVerdict p.station o r).setLast p o r = s.setStation p.station
      { (s.station p.station).place o r with last := some ⟨p.side, p.credential, p.taken, o, r⟩ } := by
  rw [State.setLast, State.placeVerdict, station_setStation_self h1 hn]
  exact congrArg (fun l => ({ s with stations := l } : State)) (setNth_setNth ..)

/-- R65: the notice of an exit after the record of it, which leaves the second and the stations alone. -/
theorem offerExit_put {room : Nat} (hside : p.side = .inside) (hroom : (s.station p.station).room = room)
    (r : TrailRecord) (n : Nat) : (s.put r).offerExit p n = (s.put r).offerDecision
      { station := p.station, side := .inside, credential := p.credential, taken := p.taken, decided := s.now
        outcome := .release, reason := .exit, permit := n, room := room } := by
  have now : (s.put r).now = s.now := by simp [State.now]
  have station : (s.put r).station p.station = s.station p.station := by simp [State.station]
  rw [State.offerExit, now, station, hside, hroom]

theorem debit_inside {o : Occupant} {entry deadline : Nat} (h : o.presence = .inside entry deadline) : s.debit o =
    { s with
      permits := s.permits.map (fun e =>
        if e.2.number = o.permit then
          (e.1, { e.2 with allowance := e.2.allowance.map (fun a => a - debitMinutes entry s.now) })
        else e) } := by
  rw [debit_eq, h]

theorem reportedDebit_inside {o : Occupant} {entry deadline : Nat} (h : o.presence = .inside entry deadline) :
    s.reportedDebit o = match s.permit o.permit with
      | some (_, q) => if q.allowance = none then 0 else min 65535 (debitMinutes entry s.now)
      | none => 0 := by
  rw [reportedDebit_eq, h]
  rcases s.permit o.permit with _ | ⟨slot, q⟩ <;> rfl

theorem decideExit_found {o : Occupant}
    (ho : (s.occupants (s.station p.station).room).find? (fun o => o.credential = p.credential) = some o) :
    s.decideExit p = s.exitRecord p o := by
  rw [State.decideExit, ho]

theorem decideExit_absent
    (ho : (s.occupants (s.station p.station).room).find? (fun o => o.credential = p.credential) = none) :
    s.decideExit p = s.conclude p .release .exit 0
      { kind := .exitUnmatched, station := p.station, room := (s.station p.station).room, credential := p.credential
        reason := .exit } := by
  rw [State.decideExit, ho]

theorem exitRecord_inside {o : Occupant} {entry deadline : Nat} (h : o.presence = .inside entry deadline) :
    s.exitRecord p o = ((((((s.placeVerdict p.station .release .exit).setLast p .release .exit).debit o).put
      { kind := .exit, station := p.station, room := o.room, credential := o.credential, permit := o.permit
        reason := .exit, value := .number (s.reportedDebit o) }).offerExit p o.permit).leave o).afterRemoval o.room := by
  simp only [State.exitRecord, h]

theorem exitRecord_admitting {o : Occupant} (h : o.presence = .admitting) :
    s.exitRecord p o = (((((s.placeVerdict p.station .release .exit).setLast p .release .exit).put
      { kind := .lapse, station := o.station, room := o.room, credential := o.credential, permit := o.permit
        reason := .earlyExit }).offerExit p o.permit).leave o).afterRemoval o.room := by
  simp only [State.exitRecord, h]

end

/-- Settles O50: an exit is released, or at a SILENT station left without a verdict; its matching record is removed. -/
theorem exitReleasesAndRemoves : Obligations.ExitReleasesAndRemoves := by
  intro s p rest hg hp st popped notice unmatched released
  have side := inside_of_granted hg hp
  refine ⟨fun hl => ?_, fun hl h1 hn => ?_⟩
  · refine leaves_of_job (exec_exitDecision s) hg ((takePresentation_silent hp hl).trans ?_)
    simp only [State.decideSilent, State.setLast, side]
    rfl
  have hreleased : (popped.placeVerdict p.station .release .exit).setLast p .release .exit = released :=
    placed_last .release .exit h1 hn
  have bound : (released.station p.station).room = st.room :=
    (congrArg Station.room (station_setStation_self h1 hn)).trans (place_room ..)
  refine ⟨fun hnone => exit_leaves hg hp hl ?_, fun o entry deadline ho hin => ?_, fun o ho hadm => ?_⟩
  · refine (decideExit_absent (s := popped) (occupant_not_found hnone)).trans ?_
    rw [State.conclude, hreleased, side]
    rfl
  · intro reported debited
    obtain ⟨hroom, hcred⟩ := occupant_found ho
    have hreported : popped.reportedDebit o = reported := reportedDebit_inside hin
    have hdebited : released.debit o = debited := debit_inside hin
    refine exit_leaves hg hp hl ((decideExit_found (s := popped) ho).trans ?_)
    rw [exitRecord_inside hin, hreleased, hreported, hdebited, offerExit_put (s := debited) side bound, hroom, hcred]
    rfl
  · obtain ⟨hroom, hcred⟩ := occupant_found ho
    refine exit_leaves hg hp hl ((decideExit_found (s := popped) ho).trans ?_)
    rw [exitRecord_admitting hadm, hreleased, offerExit_put side bound, hroom, hcred]
    rfl

end Sys2Proof.Machine
end

