-- ==== Sys2Proof/Proofs/Awaiting.lean ====
section
/-! The stations of ADMITTING records await their entries (R48, R148): what each operation on the records keeps of it, the
supply being given. A station may be left out, whose entries are being committed, lapsed or told to its door. -/
namespace Sys2Proof.Machine

/-! ### Stations that await an entry -/

/-- R48: a verdict placed leaves a pending RELEASE, the door and the events as they are. -/
theorem place_awaits {st : Station} (h : st.AwaitsEntry) (o : VerdictOutcome) (r : Reason) :
    (st.place o r).AwaitsEntry := by
  unfold Station.place
  rcases h with ⟨v, hv, hrel⟩ | hdoor | hevents
  · rw [hv]
    dsimp only
    split
    · exact .inl ⟨v, hv, hrel⟩
    · rename_i hkept
      have ho : o = .release := by
        by_contra ho
        exact hkept ⟨hrel, ho⟩
      split <;> exact .inl ⟨_, rfl, ho⟩
  · (repeat' split) <;> exact .inr (.inl hdoor)
  · (repeat' split) <;> exact .inr (.inr hevents)

/-- R48: after a RELEASE is placed a RELEASE is pending. -/
theorem place_release_awaits (st : Station) (r : Reason) : (st.place .release r).AwaitsEntry := by
  unfold Station.place
  dsimp only
  split
  · exact .inl ⟨_, rfl, rfl⟩
  split
  · rename_i hkept
    exact absurd rfl hkept.2
  split <;> exact .inl ⟨_, rfl, rfl⟩

theorem raiseCommit_ne_nil (l : List DoorEvent) : raiseCommit l ≠ [] := by
  unfold raiseCommit
  split
  · rintro rfl
    simp_all
  · simp

theorem raiseLapse_ne_nil (c : Bool) (l : List DoorEvent) : raiseLapse c l ≠ [] := by
  unfold raiseLapse
  split <;> simp

/-- A station that reads other than an address outside the table does is one of the table. -/
theorem station_of_ne_default {s : State} {n : Nat} (h : s.station n ≠ defaultStation) :
    1 ≤ n ∧ n ≤ s.stations.length := by
  by_contra hn
  exact h (nth_out _ _ _ hn)

theorem station_setStation_cases (s : State) (n k : Nat) (st : Station) :
    k = n ∧ (s.setStation n st).station k = st ∨ (s.setStation n st).station k = s.station k := by
  by_cases hk : k = n
  · subst hk
    by_cases hin : 1 ≤ k ∧ k ≤ s.stations.length
    · exact .inl ⟨rfl, station_setStation_self hin.1 hin.2⟩
    · exact .inr ((nth_out _ _ _ (by simpa using hin)).trans (nth_out _ _ _ hin).symm)
  · exact .inr (station_setStation_ne hk)

theorem hasAdmitting_iff {s : State} {n : Nat} :
    s.hasAdmitting n = true ↔ ∃ o ∈ s.pool, o.station = n ∧ o.presence = .admitting := by
  simp [State.hasAdmitting]

/-! ### The invariant -/

/-- R48, R148: outside reset each ADMITTING record's station awaits its entry, one station perhaps left out; every group
waits at a station of the table. The supply is as given. -/
structure State.Expects (p : Supply) (out : Option Nat) (s : State) : Prop where
  awaited : s.inReset = false → ∀ o ∈ s.pool, o.presence = .admitting → some o.station ≠ out →
    (s.station o.station).AwaitsEntry
  posts : ∀ g ∈ s.groups, 1 ≤ g.station ∧ g.station ≤ s.stations.length
  supply : s.supply = p

section
variable {p : Supply} {out : Option Nat} {s t : State} {n : Nat}

theorem State.Expects.admittingAwaited (h : s.Expects p none) : s.AdmittingAwaited :=
  fun hr o ho ha => h.awaited hr o ho ha nofun

/-- Fewer entries, at stations that still await them. -/
theorem State.Expects.fewer (h : s.Expects p out)
    (hp : ∀ o ∈ t.pool, o.presence = .admitting → ∃ x ∈ s.pool, x.presence = .admitting ∧ x.station = o.station)
    (hg : ∀ g ∈ t.groups, ∃ x ∈ s.groups, x.station = g.station) (hst : t.stations = s.stations)
    (hs : t.supply = s.supply) : t.Expects p out where
  awaited hr o ho ha hne := by
    obtain ⟨x, hx, hxa, hxo⟩ := hp o ho ha
    have hr' : s.inReset = false := by rw [← hr, State.inReset, State.inReset, hs]
    rw [station_congr hst, ← hxo]
    exact h.awaited hr' x hx hxa (hxo ▸ hne)
  posts g hgt := by
    obtain ⟨x, hx, hxg⟩ := hg g hgt
    rw [hst, ← hxg]
    exact h.posts x hx
  supply := hs.trans h.supply

theorem State.Expects.of_same (h : s.Expects p out) (hp : t.pool = s.pool) (hg : t.groups = s.groups)
    (hst : t.stations = s.stations) (hs : t.supply = s.supply) : t.Expects p out :=
  h.fewer (fun o ho ha => ⟨o, hp ▸ ho, ha, rfl⟩) (fun g hgt => ⟨g, hg ▸ hgt, rfl⟩) hst hs

theorem State.Expects.of_records (h : s.Expects p out) (hr : s.SameRecords t) (hs : t.supply = s.supply) :
    t.Expects p out := by
  obtain ⟨-, -, -, -, -, hpool, hgroups, -, -, hstations⟩ := hr
  exact h.of_same hpool hgroups hstations hs

/-- Stations changed in what still awaits an entry where the station did. -/
theorem State.Expects.restation (h : s.Expects p out) (hst : ∀ k, (s.station k).AwaitsEntry → (t.station k).AwaitsEntry)
    (hl : t.stations.length = s.stations.length) (hp : t.pool = s.pool) (hg : t.groups = s.groups)
    (hs : t.supply = s.supply) : t.Expects p out where
  awaited hr o ho ha hne := by
    have hr' : s.inReset = false := by rw [← hr, State.inReset, State.inReset, hs]
    exact hst _ (h.awaited hr' o (hp ▸ ho) ha hne)
  posts := by rw [hg, hl]; exact h.posts
  supply := hs.trans h.supply

theorem State.Expects.setStation (h : s.Expects p out) {st : Station}
    (hst : (s.station n).AwaitsEntry → st.AwaitsEntry) : (s.setStation n st).Expects p out := by
  refine h.restation (fun k hk => ?_) (by simp) rfl rfl rfl
  obtain ⟨rfl, he⟩ | he := station_setStation_cases s n k st
  · rw [he]; exact hst hk
  · rw [he]; exact hk

theorem State.Expects.leaveOut (h : s.Expects p none) (n : Nat) : s.Expects p (some n) :=
  ⟨fun hr o ho ha _ => h.awaited hr o ho ha nofun, h.posts, h.supply⟩

/-- The station left out may be written. -/
theorem State.Expects.setOut (h : s.Expects p (some n)) (st : Station) : (s.setStation n st).Expects p (some n) where
  awaited hr o ho ha hne := by
    rw [station_setStation_ne fun he => hne (congrArg some he)]
    exact h.awaited hr o ho ha hne
  posts := by simpa using h.posts
  supply := h.supply

/-- The station left out awaits its entries, or has none. -/
theorem State.Expects.takeIn (h : s.Expects p (some n))
    (hn : (∃ o ∈ s.pool, o.station = n ∧ o.presence = .admitting) → (s.station n).AwaitsEntry) : s.Expects p none where
  awaited hr o ho ha _ := by
    by_cases ho' : o.station = n
    · rw [ho']
      exact hn ⟨o, ho, ho', ha⟩
    · exact h.awaited hr o ho ha fun he => ho' (Option.some.inj he)
  posts := h.posts
  supply := h.supply

/-- A write of the station left out that awaits an entry where there is one. -/
theorem State.Expects.setIn (h : s.Expects p (some n)) (hn : 1 ≤ n ∧ n ≤ s.stations.length) {st : Station}
    (hst : (∃ o ∈ s.pool, o.station = n ∧ o.presence = .admitting) → st.AwaitsEntry) :
    (s.setStation n st).Expects p none :=
  (h.setOut st).takeIn fun hex => by
    rw [station_setStation_self hn.1 hn.2]
    exact hst hex

/-! ### What is handed to the trail and offered -/

theorem State.Expects.put (h : s.Expects p out) (r : TrailRecord) : (s.put r).Expects p out :=
  h.of_same (by simp) (by simp) (by simp) (by simp)

theorem State.Expects.offer (h : s.Expects p out) (x : Notice) : (s.offer x).Expects p out :=
  h.of_same (by simp) (by simp) (by simp) (by simp)

theorem State.Expects.schedule (h : s.Expects p out) (due : Nat) (w : Due) : (s.schedule due w).Expects p out :=
  h.of_same rfl rfl rfl rfl

theorem State.Expects.unschedule (h : s.Expects p out) (w : Due) : (s.unschedule w).Expects p out :=
  h.of_same rfl rfl rfl rfl

theorem State.Expects.reevaluateRoom (h : s.Expects p out) (n : Nat) : (s.reevaluateRoom n).Expects p out :=
  h.of_same (by simp) (by simp) (by simp) (by simp)

theorem State.Expects.placeVerdict (h : s.Expects p out) (n : Nat) (o : VerdictOutcome) (r : Reason) :
    (s.placeVerdict n o r).Expects p out :=
  h.setStation fun ha => place_awaits ha o r

theorem State.Expects.setLast (h : s.Expects p out) (x : Presentation) (o : VerdictOutcome) (r : Reason) :
    (s.setLast x o r).Expects p out :=
  h.setStation id

theorem State.Expects.updateRecord (h : s.Expects p out) (c : Nat) {f : Occupant → Occupant}
    (hf : ∀ o, (f o).station = o.station ∧ ((f o).presence = .admitting → o.presence = .admitting)) :
    (s.updateRecord c f).Expects p out := by
  refine h.fewer (fun o ho ha => ?_) (fun g hg => ⟨g, hg, rfl⟩) rfl rfl
  obtain ⟨x, hx, rfl⟩ := List.mem_map.1 ho
  by_cases hc : x.credential = c
  · rw [if_pos hc] at ha ⊢
    exact ⟨x, hx, (hf x).2 ha, (hf x).1.symm⟩
  · rw [if_neg hc] at ha ⊢
    exact ⟨x, hx, ha, rfl⟩

theorem State.Expects.leave (h : s.Expects p out) (o : Occupant) : (s.leave o).Expects p out :=
  h.fewer (fun x hx ha => ⟨x, List.mem_of_mem_filter (leave_pool s o ▸ hx), ha, rfl⟩) (fun g hg => ⟨g, by simpa using hg, rfl⟩)
    (by simp) (by simp)

/-! ### Groups -/

theorem State.Expects.dropGroup (h : s.Expects p out) (n : Nat) : (s.dropGroup n).Expects p out :=
  h.fewer (fun o ho ha => ⟨o, ho, ha, rfl⟩) (fun g hg => ⟨g, List.mem_of_mem_filter hg, rfl⟩) rfl rfl

theorem State.Expects.setMembers (h : s.Expects p out) (n : Nat) (l : List Member) :
    (s.setMembers n l).Expects p out := by
  refine h.fewer (fun o ho ha => ⟨o, ho, ha, rfl⟩) (fun g hg => ?_) rfl rfl
  obtain ⟨x, hx, rfl⟩ := List.mem_map.1 hg
  refine ⟨x, hx, ?_⟩
  split <;> rfl

/-- R76: the members of a completed group enter under the RELEASE of their station. -/
theorem State.Expects.completeGroup (h : s.Expects p none) {g : Group} (hg : g ∈ s.groups) (tap : Option (Nat × Nat)) :
    (s.completeGroup g tap).Expects p none := by
  have placed : (s.placeVerdict g.station .release .groupComplete).Expects p none := h.placeVerdict ..
  have station (k : Nat) : (s.completeGroup g tap).station k
      = (s.placeVerdict g.station .release .groupComplete).station k :=
    station_congr (s.completeGroup_stations g tap) k
  have supply : (s.completeGroup g tap).supply = s.supply := by simp
  refine ⟨fun hr o ho ha _ => ?_, fun x hx => ?_, supply.trans h.supply⟩
  · rw [station]
    rcases List.mem_append.1 (s.completeGroup_pool g tap ▸ ho) with ho | ho
    · exact placed.awaited (by rw [← hr, State.inReset, State.inReset, supply]; rfl) o ho ha nofun
    · obtain ⟨m, -, rfl⟩ := List.mem_map.1 ho
      obtain ⟨h1, hn⟩ := h.posts g hg
      refine (station_setStation_self h1 hn).symm ▸ ?_
      exact place_release_awaits _ _
  · rw [s.completeGroup_groups g tap] at hx
    rw [s.completeGroup_stations g tap]
    exact placed.posts x (List.mem_of_mem_filter hx)

theorem State.Expects.retestFor (n k : Nat) :
    ∀ {s : State}, s.Expects p none → (State.retestFor k n s).Expects p none := by
  induction k with
  | zero => intro s h; exact h
  | succ k ih =>
    intro s h
    unfold State.retestFor
    split
    · exact h
    · rename_i g hg
      exact ih (h.completeGroup (List.mem_of_mem_filter (List.mem_of_find?_eq_some hg)) _)

theorem State.Expects.retest (h : s.Expects p none) (n : Nat) : (s.retest n).Expects p none :=
  State.Expects.retestFor n _ h

theorem State.Expects.afterRemoval (h : s.Expects p none) (n : Nat) : (s.afterRemoval n).Expects p none :=
  (h.reevaluateRoom n).retest n

theorem State.Expects.retestGroup (h : s.Expects p none) (n : Nat) : (s.retestGroup n).Expects p none := by
  unfold State.retestGroup
  split
  · exact h
  · rename_i g hg
    split
    · exact (h.completeGroup (groupAt_eq_some hg).1 _).retest _
    · exact h

theorem State.Expects.foldl_denyMember (h : s.Expects p out) (g : Group) (r : Reason) (l : List Member) :
    (l.foldl (State.denyMember g r) s).Expects p out :=
  h.of_same (by simp) (by simp) (by simp) (by simp)

theorem State.Expects.removeMember (h : s.Expects p none) (g : Group) (m : Member) (r : Reason) :
    (s.removeMember g m r).Expects p none := by
  have denied := ((h.setMembers g.station (g.members.filter (fun x => x.credential ≠ m.credential))).foldl_denyMember g r
    [m]).placeVerdict g.station .deny r
  rw [List.foldl_cons, List.foldl_nil] at denied
  unfold State.removeMember
  dsimp only
  split
  · exact (denied.unschedule _).dropGroup _
  · exact denied.retestGroup _

/-! ### Door jobs -/

/-- Records removed one after the other. -/
theorem mem_foldl_lapse {r : Reason} (l : List Occupant) : ∀ {s : State} {o : Occupant},
    o ∈ (l.foldl (State.lapse r) s).pool → o ∈ s.pool ∧ o ∉ l := by
  induction l with
  | nil => exact fun ho => ⟨ho, nofun⟩
  | cons x l ih =>
    intro s o ho
    obtain ⟨hx, hl⟩ := ih ho
    obtain ⟨hs, hne⟩ := List.mem_filter.1 (leave_pool _ x ▸ hx)
    refine ⟨by simpa using hs, fun hmem => ?_⟩
    rcases List.mem_cons.1 hmem with rfl | hmem
    · simp at hne
    · exact hl hmem

theorem State.Expects.foldl_lapse (h : s.Expects p out) (r : Reason) (l : List Occupant) :
    (l.foldl (State.lapse r) s).Expects p out :=
  foldl_property (P := State.Expects p out) (fun _ o h => (h.put _).leave o) l s h

theorem State.Expects.cancelGroup (h : s.Expects p out) (n : Nat) : (s.cancelGroup n).Expects p out := by
  unfold State.cancelGroup
  split
  · exact h
  · exact ((h.foldl_denyMember _ _ _).unschedule _).dropGroup n

/-- R32: after a lapse nobody enters at the station. -/
theorem State.Expects.lapseStation (h : s.Expects p (some n)) (silence : Bool) :
    (s.lapseStation n silence).Expects p none := by
  have lapsed (r : Reason) : ((s.admittingAt n).foldl (State.lapse r) s).Expects p none :=
    (h.foldl_lapse r (s.admittingAt n)).takeIn fun ⟨o, ho, hn, ha⟩ => by
      obtain ⟨hs, hl⟩ := mem_foldl_lapse _ ho
      exact absurd (List.mem_filter.2 ⟨hs, by simp [hn, ha]⟩) hl
  unfold State.lapseStation
  extract_lets s1 s2
  have h2 : s2.Expects p none := by
    unfold s2
    split
    · exact (lapsed _).cancelGroup n
    · exact lapsed _
  split
  · exact h2
  · exact h2.afterRemoval _

/-- Records committed one after the other. -/
theorem mem_foldl_commitRecord (l : List Occupant) : ∀ {s : State} {o : Occupant},
    o ∈ (l.foldl State.commitRecord s).pool → o.presence = .admitting → o ∈ s.pool ∧ o ∉ l := by
  induction l with
  | nil => exact fun ho _ => ⟨ho, nofun⟩
  | cons x l ih =>
    intro s o ho ha
    obtain ⟨hx, hl⟩ := ih ho ha
    have pool : (s.commitRecord x).pool = (s.updateRecord x.credential
        (fun y => { y with presence := .inside s.now (s.commitDeadline x) })).pool := by simp [State.commitRecord]
    obtain ⟨y, hy, hyo⟩ := List.mem_map.1 (pool ▸ hx)
    by_cases hc : y.credential = x.credential
    · rw [if_pos hc] at hyo
      subst hyo
      cases ha
    · rw [if_neg hc] at hyo
      subst hyo
      refine ⟨hy, fun hmem => ?_⟩
      rcases List.mem_cons.1 hmem with rfl | hmem
      · exact hc rfl
      · exact hl hmem

theorem State.Expects.commitRecord (h : s.Expects p out) (o : Occupant) : (s.commitRecord o).Expects p out := by
  have committed := h.updateRecord o.credential
    (f := fun x => { x with presence := .inside s.now (s.commitDeadline o) }) fun _ => ⟨rfl, nofun⟩
  exact (committed.schedule _ _).put _

/-- R31: after a commit nobody enters at the station. -/
theorem State.Expects.commitStation (h : s.Expects p (some n)) : (s.commitStation n).Expects p none := by
  unfold State.commitStation
  split
  · rename_i hnone
    refine h.takeIn fun ⟨o, ho, hn, ha⟩ => absurd ha ?_
    exact admittingAt_isEmpty.1 hnone o ho hn
  · have committed : ((s.admittingAt n).foldl State.commitRecord s).Expects p (some n) :=
      foldl_property (fun _ o h => h.commitRecord o) _ s h
    refine (committed.takeIn fun ⟨o, ho, hn, ha⟩ => ?_).afterRemoval _
    obtain ⟨hs, hl⟩ := mem_foldl_commitRecord _ ho ha
    exact absurd (List.mem_filter.2 ⟨hs, by simp [hn, ha]⟩) hl

theorem State.Expects.takeDoorEvent (h : s.Expects p none) (n : Nat) : (s.takeDoorEvent n).Expects p (some n) :=
  ((h.leaveOut n).setOut _).of_same rfl rfl rfl rfl

/-! ### Timer jobs and sweep steps -/

theorem State.Expects.dueAction (h : s.Expects p out) {act : Due → State → State}
    (ha : act ∈ [pairingAction, stayDeadlineAction, escalationAction, limitAction]) (w : Due) :
    (act w s).Expects p out := by
  have overstay (o : Occupant) (l : Level) :
      (s.updateRecord o.credential (fun x => { x with overstay := l })).Expects p out :=
    h.updateRecord _ fun _ => ⟨rfl, id⟩
  simp only [List.mem_cons, List.not_mem_nil, or_false] at ha
  rcases ha with rfl | rfl | rfl | rfl
  · unfold pairingAction State.expireGroup
    (repeat' split)
    · exact h
    · exact ((h.foldl_denyMember _ _ _).dropGroup _).placeVerdict _ _ _
    all_goals exact h
  · unfold stayDeadlineAction State.raiseOverstay
    dsimp only
    (repeat' split)
    · exact (((overstay _ .raised).offer _).put _).schedule _ _
    · exact ((overstay _ .raised).offer _).put _
    all_goals exact h
  · unfold escalationAction State.escalateOverstay
    (repeat' split)
    · exact ((overstay _ .escalated).offer _).put _
    all_goals exact h
  · unfold limitAction State.escalateAlert
    (repeat' split)
    all_goals exact h.of_same (by simp) (by simp) (by simp) (by simp)

theorem State.Expects.takeDue (h : s.Expects p out) {act : Due → State → State}
    (ha : act ∈ [pairingAction, stayDeadlineAction, escalationAction, limitAction]) : (s.takeDue act).Expects p out := by
  unfold State.takeDue
  split
  · exact State.Expects.dueAction (s := s.dropHead) (h.of_same rfl rfl rfl rfl) ha _
  · exact h

theorem State.Expects.sweep (h : s.Expects p out) (l : List (Nat × Permit)) : (l.foldl State.retire s).Expects p out :=
  foldl_property (fun _ _ h => h.of_same (by simp [State.retire]) (by simp [State.retire]) (by simp [State.retire])
    (by simp [State.retire])) l s h

/-! ### Decisions -/

section
variable {x : Presentation} {q : Permit}

theorem conclude_stations (s : State) (x : Presentation) (o : VerdictOutcome) (r : Reason) (n : Nat) (e : TrailRecord) :
    (s.conclude x o r n e).stations = ((s.placeVerdict x.station o r).setLast x o r).stations := by
  simp [State.conclude]

theorem conclude_release_awaits (hx : 1 ≤ x.station ∧ x.station ≤ s.stations.length) (r : Reason) (n : Nat)
    (e : TrailRecord) : ((s.conclude x .release r n e).station x.station).AwaitsEntry := by
  rw [station_congr (conclude_stations ..), placed_last _ _ hx.1 hx.2, station_setStation_self hx.1 hx.2]
  exact place_release_awaits ..

theorem State.Expects.conclude (h : s.Expects p out) (o : VerdictOutcome) (r : Reason) (n : Nat) (e : TrailRecord) :
    (s.conclude x o r n e).Expects p out :=
  ((h.placeVerdict x.station o r).setLast x o r).of_same (by simp) (by simp) (conclude_stations ..) (by simp)

/-- R48: a RELEASE decided is awaited by the entry it lets in. -/
theorem State.Expects.concludeRelease (h : s.Expects p (some x.station))
    (hx : 1 ≤ x.station ∧ x.station ≤ s.stations.length) (r : Reason) (n : Nat) (e : TrailRecord) :
    (s.conclude x .release r n e).Expects p none :=
  (h.conclude ..).takeIn fun _ => conclude_release_awaits hx ..

theorem State.Expects.refuse (h : s.Expects p out) (r : Reason) (n v : Nat) : (s.refuse x r n v).Expects p out :=
  h.conclude ..

section
variable (hx : 1 ≤ x.station ∧ x.station ≤ s.stations.length)
include hx

/-- R61: a presenter granted enters under the RELEASE of his station. -/
theorem State.Expects.grant (h : s.Expects p none) : (s.grant x q).Expects p none := by
  have joined : State.Expects p (some x.station)
      { s with pool := s.pool ++ [newRecord s x.station (s.station x.station).room x.credential q] } :=
    { posts := h.posts, supply := h.supply
      awaited := fun hr o ho ha hne => by
        rcases List.mem_append.1 ho with ho | ho
        · exact h.awaited hr o ho ha nofun
        · cases List.mem_singleton.1 ho
          exact absurd rfl hne }
  exact (joined.concludeRelease hx ..).afterRemoval _

theorem State.Expects.found (h : s.Expects p none) : (s.found x q).Expects p none := by
  unfold State.found
  dsimp only
  generalize s.now + (s.room (s.station x.station).room).pairingWindow = expiry
  have founded : State.Expects p none { s with
      groups := insertGroup ⟨x.station, (s.station x.station).room, [s.newMember x q], expiry⟩ s.groups } :=
    { h with
      posts := fun g hg => by
        rcases List.mem_cons.1 ((insertGroup_perm _ _).mem_iff.1 hg) with rfl | hg
        · exact hx
        · exact h.posts g hg }
  exact (founded.schedule _ _).conclude ..

omit hx in
theorem State.Expects.join (h : s.Expects p none) {g : Group} (hg : g ∈ s.groups) : (s.join x g q).Expects p none := by
  have grown := h.setMembers g.station (g.members ++ [s.newMember x q])
  unfold State.join
  dsimp only
  split
  · exact ((grown.completeGroup (mem_setMembers hg _) (some (x.credential, x.taken))).setLast ..).retest _
  · exact grown.conclude ..

theorem State.Expects.admitOrPair (h : s.Expects p none) : (s.admitOrPair x q).Expects p none := by
  unfold State.admitOrPair
  dsimp only
  split
  · rename_i g hg
    split
    · exact h.refuse ..
    · exact h.join (groupAt_eq_some hg).1
  · (repeat' split)
    · exact h.grant hx
    · exact h.refuse ..
    · exact h.found hx

theorem State.Expects.roomChecks (h : s.Expects p none) : (s.roomChecks x q).Expects p none := by
  unfold State.roomChecks
  dsimp only
  (repeat' split)
  · exact h.refuse ..
  · exact h.refuse ..
  · exact h.refuse ..
  · exact h.refuse ..
  · exact h.admitOrPair hx

theorem State.Expects.tryPermits (h : s.Expects p none) : (s.tryPermits x).Expects p none := by
  unfold State.tryPermits
  dsimp only
  split
  · exact h.roomChecks hx
  · split <;> exact h.refuse ..

theorem State.Expects.decideEntry (h : s.Expects p none) : (s.decideEntry x).Expects p none := by
  unfold State.decideEntry
  split
  · exact h.refuse ..
  split
  · exact h.refuse ..
  split
  · exact h.refuse ..
  split
  · split
    · exact h.conclude ..
    · exact h.refuse ..
  · split
    · split
      · exact h.conclude ..
      · exact h.refuse ..
    · exact h.tryPermits hx

end

theorem State.Expects.decideExit (h : s.Expects p none) : (s.decideExit x).Expects p none := by
  have released := (h.placeVerdict x.station .release .exit).setLast x .release .exit
  have removed (t : State) (o : Occupant) (n : Nat) (ht : t.Expects p none) :
      (((t.offerExit x n).leave o).afterRemoval o.room).Expects p none :=
    State.Expects.afterRemoval (State.Expects.leave (ht.of_same (by simp [State.offerExit]) (by simp [State.offerExit])
      (by simp [State.offerExit]) (by simp [State.offerExit])) o) _
  unfold State.decideExit State.exitRecord
  dsimp only
  (repeat' split)
  · exact removed _ _ _ (State.Expects.put (released.of_same (by simp) (by simp) (by simp) (by simp)) _)
  · exact removed _ _ _ (released.put _)
  · exact h.conclude ..

/-- R45: the head of the queue decided, every presentation being of a station of the table. -/
theorem State.Expects.takePresentation (h : s.Expects p none)
    (hq : ∀ x ∈ s.presentations, 1 ≤ x.station ∧ x.station ≤ s.stations.length) {act : State → Presentation → State}
    (ha : act ∈ [State.decideEntry, State.decideExit]) : (s.takePresentation act).Expects p none := by
  unfold State.takePresentation
  split
  · exact h
  · rename_i x rest hs
    have popped : State.Expects p none { s with presentations := rest } := h.of_same rfl rfl rfl rfl
    dsimp only
    split
    · exact (popped.setLast x .deny .stationSilent).of_same (by simp [State.decideSilent]) (by simp [State.decideSilent])
        (by simp [State.decideSilent]) (by simp [State.decideSilent])
    · simp only [List.mem_cons, List.not_mem_nil, or_false] at ha
      rcases ha with rfl | rfl
      · exact State.Expects.decideEntry (s := { s with presentations := rest }) (hq x (hs ▸ List.mem_cons_self)) popped
      · exact popped.decideExit

end

/-! ### Requests -/

theorem State.Expects.recompute (h : s.Expects p out) (o : Occupant) (q : Permit) : (s.recompute o q).Expects p out := by
  unfold State.recompute
  split
  · exact h
  · rename_i entry old hp
    dsimp only
    generalize stayDeadline q s.settings.weekdayOffset (entry / 60) = deadline
    have unscheduled : (s.unscheduleRecord o.credential).Expects p out := h.of_same (by simp) (by simp) (by simp) (by simp)
    have moved := (unscheduled.updateRecord o.credential (f := fun x => { x with presence := .inside entry deadline })
      fun _ => ⟨rfl, nofun⟩).put
        { kind := .recompute, station := o.station, room := o.room, credential := o.credential, permit := o.permit
          value := .number deadline }
    generalize State.put _ _ = t at moved ⊢
    have cleared : (t.returnToClear o deadline).Expects p out :=
      (((moved.updateRecord o.credential (f := fun x => { x with overstay := .clear })
        fun _ => ⟨rfl, id⟩).put (o.record .overstay .clear)).offer (o.notice .overstay .clear)).schedule _ _
    unfold State.relevel
    (repeat' split)
    · exact moved.schedule _ _
    · exact cleared
    · exact moved.schedule _ _
    · exact cleared
    · exact moved

theorem State.Expects.suspendMember (h : s.Expects p none) (n : Nat) : (s.suspendMember n).Expects p none := by
  unfold State.suspendMember
  (repeat' split)
  · exact h.removeMember ..
  · exact h
  · exact h

theorem State.Expects.actOnHolder (h : s.Expects p none) (q : Permit) (c : PermitAmend) :
    (s.actOnHolder q c).Expects p none := by
  unfold State.actOnHolder
  extract_lets s1
  have h1 : s1.Expects p none := by
    unfold s1
    split
    · exact h.suspendMember _
    · exact h
  (repeat' split)
  · exact h1.recompute _ _
  · exact h1
  · exact h1

theorem State.Expects.markRevoked (h : s.Expects p out) (o : Occupant) (b : Bool) : (s.markRevoked o b).Expects p out :=
  ((h.updateRecord o.credential (f := fun x => { x with revokedInside := b }) fun _ => ⟨rfl, id⟩).offer _).put _

theorem State.Expects.actOnRevoked (h : s.Expects p none) (c : Nat) : (s.actOnRevoked c).Expects p none := by
  unfold State.actOnRevoked
  (repeat' split)
  · exact h.markRevoked ..
  · exact h.removeMember ..
  · exact h

theorem State.Expects.unmark (h : s.Expects p out) (c : Nat) : (s.unmark c).Expects p out := by
  unfold State.unmark
  (repeat' split)
  · exact h.markRevoked ..
  · exact h
  · exact h

theorem State.Expects.configureRoom (h : s.Expects p none) (c : RoomConfig) : (s.configureRoom c).Expects p none := by
  have written : (s.setRoom c.room ((s.room c.room).configured c)).Expects p none := h.of_same rfl rfl rfl rfl
  unfold State.configureRoom
  dsimp only
  split
  · exact written
  · exact (written.reevaluateRoom _).retest _

/-- R26: the counts derived afresh move nobody. -/
theorem State.Expects.rederive (h : s.Expects p out) (n : Nat) : (s.rederive n).Expects p out := by
  refine h.fewer (fun o ho ha => ?_) (fun g hg => ?_) rfl rfl
  · obtain ⟨x, hx, rfl⟩ := List.mem_map.1 ho
    by_cases hn : x.room = n
    · rw [if_pos hn] at ha ⊢
      exact ⟨x, hx, ha, rfl⟩
    · rw [if_neg hn] at ha ⊢
      exact ⟨x, hx, ha, rfl⟩
  · obtain ⟨x, hx, rfl⟩ := List.mem_map.1 hg
    exact ⟨x, hx, by split <;> rfl⟩

theorem State.Expects.changeRoomMode (h : s.Expects p none) (n : Nat) (m : RoomMode) :
    (s.changeRoomMode n m).Expects p none := by
  have written : (s.setRoom n { s.room n with mode := m }).Expects p none := h.of_same rfl rfl rfl rfl
  exact (((written.put _).rederive n).reevaluateRoom n).retest n

theorem State.Expects.operatorRelease (h : s.Expects p none) (o : Occupant) : (s.operatorRelease o).Expects p none :=
  State.Expects.afterRemoval (State.Expects.leave
    (State.Expects.put (h.of_same (by simp) (by simp) (by simp) (by simp)) _) o) _

end

end Sys2Proof.Machine
end

