-- ==== Sys2Proof/Proofs/AwaitingLine.lean ====
section
/-! The station line keeps the stations of ADMITTING records awaiting their entries (R48, R141, R142, R144 to R148): a
RELEASE delivered leaves the door RELEASED or raises a commit, and a release that ends otherwise raises a lapse. -/
namespace Sys2Proof.Machine

section
variable {p : Supply} {out : Option Nat} {s : State} {n : Nat}

/-! ### A station of the table, and its address -/

/-- The station is one of the table. -/
def State.Listed (s : State) (n : Nat) : Prop := 1 ≤ n ∧ n ≤ s.stations.length

theorem listed_of_bound (h : (s.station n).room ≠ 0) : s.Listed n :=
  station_of_ne_default fun he => h (by rw [he]; rfl)

theorem listed_of_door (h : (s.station n).door ≠ .unknown) : s.Listed n :=
  station_of_ne_default fun he => h (by rw [he]; rfl)

theorem State.Listed.of_length {t : State} (h : s.Listed n) (hl : t.stations.length = s.stations.length) : t.Listed n :=
  ⟨h.1, hl ▸ h.2⟩

theorem State.Listed.setStation (h : s.Listed n) (st : Station) : (s.setStation n st).Listed n :=
  h.of_length (by simp)

/-! ### Doors -/

theorem State.Expects.doorAlert (h : s.Expects p out) (k : Nat) (a : AlertKind) (l : Level) :
    (s.doorAlert k a l).Expects p out := (h.put _).offer _

/-- A door written whose station does not wait for it to be released. -/
theorem State.Expects.setDoor (h : s.Expects p out) {d : Door} (hd : ∀ k, (s.station n).door ≠ .released k) :
    (s.setDoor n d).Expects p out := by
  refine h.setStation fun ha => ?_
  rcases ha with hv | ⟨k, hk⟩ | he
  · exact .inl hv
  · exact absurd hk (hd k)
  · exact .inr (.inr he)

/-- R148: a commit raised where an entry is under way. -/
theorem State.Expects.commitIfAdmitting (h : s.Expects p (some n)) (hn : s.Listed n) :
    (s.commitIfAdmitting n).Expects p none := by
  unfold State.commitIfAdmitting
  split
  · exact h.setIn hn fun _ => .inr (.inr (raiseCommit_ne_nil _))
  · rename_i hnone
    exact h.takeIn fun hex => absurd (hasAdmitting_iff.2 hex) hnone

theorem State.Expects.raiseLapseAt (h : s.Expects p (some n)) (hn : s.Listed n) (silence : Bool) :
    (s.raiseLapseAt n silence).Expects p none :=
  h.setIn hn fun _ => .inr (.inr (raiseLapse_ne_nil _ _))

theorem State.Expects.writeChannel (h : s.Expects p out) (k : Nat) (c : Channel) (r : Reason) :
    (s.writeChannel k c r).Expects p out :=
  have written : (s.setStation k { s.station k with channel := c }).Expects p out := h.setStation id
  written.put _

/-- R144: a released door that opens lets the entries under way commit. -/
theorem State.Expects.doorOpened (h : s.Expects p none) : (s.doorOpened n).Expects p none := by
  unfold State.doorOpened
  split
  · rename_i hd
    exact h.setDoor (by simp [hd])
  · rename_i hd
    have forced : (s.setDoor n .forcedOpen).Expects p none := h.setDoor (by simp [hd])
    unfold State.raiseForced
    dsimp only
    split
    · exact (forced.writeChannel ..).doorAlert ..
    · exact forced.doorAlert ..
  · rename_i hd
    exact ((h.leaveOut n).setOut _).commitIfAdmitting ((listed_of_door (by simp [hd])).setStation _)
  all_goals exact h

theorem State.Expects.doorClosed (h : s.Expects p none) : (s.doorClosed n).Expects p none := by
  unfold State.doorClosed
  split
  · rename_i hd
    exact h.setDoor (by simp [hd])
  · exact h
  · exact h
  · rename_i hd
    exact h.setDoor (by simp [hd])
  · rename_i hd
    exact (h.setDoor (by simp [hd])).doorAlert ..
  · rename_i hd
    exact (h.setDoor (by simp [hd])).doorAlert ..

/-- R145: a delivered RELEASE leaves the door RELEASED, or raises a commit at an open door. -/
theorem State.Expects.doorReleased (h : s.Expects p (some n)) (hn : s.Listed n) (k : Nat) :
    (s.doorReleased n k).Expects p none := by
  have released : (s.setDoor n (.released k)).Expects p none := h.setIn hn fun _ => .inr (.inl ⟨k, rfl⟩)
  have opened (d : Door) : (s.setDoor n d).Expects p (some n) := h.setOut _
  unfold State.doorReleased
  split
  · exact released
  · exact released
  · exact released
  · exact (opened _).commitIfAdmitting (hn.setStation _)
  · exact ((opened _).doorAlert ..).commitIfAdmitting (hn.of_length (by simp [State.setDoor]))
  · exact h.commitIfAdmitting hn

/-! ### Answers -/

theorem State.Expects.linkStep (h : s.Expects p out) : (s.linkStep n).Expects p out := by
  have written : (s.setStation n { s.station n with missed := 0, link := .online }).Expects p out := h.setStation id
  unfold State.linkStep
  dsimp only
  split
  · exact (written.put _).offer _
  · exact written

/-- R141: a verdict delivered that is no RELEASE was not what the station awaited an entry by. -/
theorem State.Expects.verdictStep (h : s.Expects p none) (hn : s.Listed n) (t : Toggle) :
    (s.verdictStep n t).Expects p none := by
  unfold State.verdictStep
  split
  · exact h
  · rename_i v hv
    split
    · dsimp only
      split
      · exact ((h.leaveOut n).setOut _).doorReleased (hn.setStation _) _
      · rename_i hrel
        refine h.setStation fun ha => ?_
        rcases ha with ⟨w, hw, hwrel⟩ | hd | he
        · cases hv.symm.trans hw
          exact absurd hwrel hrel
        · exact .inr (.inl hd)
        · exact .inr (.inr he)
    · exact h

theorem State.Expects.contactStep (h : s.Expects p none) (o l : Bool) : (s.contactStep n o l).Expects p none := by
  unfold State.contactStep
  (repeat' split)
  · exact h.doorOpened
  · exact h.doorOpened.doorClosed
  · exact h.doorClosed

theorem State.Expects.reportStep (h : s.Expects p out) (t : Toggle) (d : Side) (c : Nat) :
    (s.reportStep n t d c).Expects p out := by
  have acknowledged : (s.setStation n ((s.station n).acknowledged t)).Expects p out := h.setStation id
  unfold State.reportStep
  (repeat' split)
  · exact h.setStation id
  · exact acknowledged.of_same rfl rfl rfl rfl
  · refine h.setStation fun ha => ?_
    unfold Station.heldBack
    split <;> exact ha
  · exact h

theorem State.Expects.takeAnswer (h : s.Expects p none) (a : StationAnswer) : (s.takeAnswer n a).Expects p none := by
  unfold State.takeAnswer
  split
  · exact h
  · rename_i hroom
    have listed : (s.linkStep n).Listed n := (listed_of_bound hroom).of_length (by
      unfold State.linkStep; split <;> simp)
    have judged := h.linkStep.verdictStep listed a.seen
    unfold State.contactAndReport
    dsimp only
    (repeat' split)
    · exact judged
    · exact (judged.contactStep ..).reportStep ..
    · exact judged.contactStep ..

/-! ### Misses and timers -/

theorem silenceDoor_length (s : State) (n : Nat) : (s.silenceDoor n).stations.length = s.stations.length := by
  unfold State.silenceDoor
  split <;> simp [State.setDoor]

/-- R142: a station that goes SILENT with an entry under way raises a lapse. -/
theorem State.Expects.silence (h : s.Expects p none) (hn : s.Listed n) : (s.silence n).Expects p none := by
  have door {t : State} (ht : t.Expects p (some n)) : (t.silenceDoor n).Expects p (some n) := by
    unfold State.silenceDoor
    split
    · exact State.Expects.doorAlert (ht.setOut _) ..
    · exact State.Expects.doorAlert (ht.setOut _) ..
    all_goals exact ht.setOut _
  unfold State.silence
  extract_lets _ s1 _ s2 _ s3
  have silent : (s.setStation n { s.station n with link := .silent }).Expects p none := h.setStation id
  have h1 : s1.Expects p none := (silent.put _).offer _
  have h3 : s3.Expects p (some n) := (door ((h1.leaveOut n).setOut _)).setOut _
  split
  · refine h3.raiseLapseAt (hn.of_length ?_) _
    simp [s3, s2, s1, silenceDoor_length]
  · rename_i hnone
    refine h3.takeIn fun hex => absurd (hasAdmitting_iff.2 hex) fun ha => hnone ?_
    rw [ha]
    rfl

theorem State.Expects.miss (h : s.Expects p none) (settle : Bool) : (s.miss n settle).Expects p none := by
  have counted (k : Nat) : (s.setStation n { s.station n with missed := k }).Expects p none := h.setStation id
  unfold State.miss
  split
  · exact h
  · rename_i hbound
    have listed : s.Listed n := listed_of_bound (by simp at hbound; exact hbound.2)
    unfold State.countMiss
    dsimp only
    split
    · exact (counted _).silence (listed.setStation _)
    · exact counted _

/-- R146: a release that runs out raises a lapse where an entry is under way. -/
theorem State.Expects.releaseExpires (h : s.Expects p none) : (s.releaseExpires n).Expects p none := by
  have secured : (s.setDoor n .secure).Expects p (some n) := (h.leaveOut n).setOut _
  unfold State.releaseExpires
  split
  · rename_i hd
    have listed : (s.setDoor n .secure).Listed n := (listed_of_door (by simp [hd])).setStation _
    dsimp only
    split
    · exact secured.raiseLapseAt listed _
    · rename_i hnone
      exact secured.takeIn fun hex => absurd (hasAdmitting_iff.2 hex) hnone
  all_goals exact h

theorem State.Expects.heldExpires (h : s.Expects p none) : (s.heldExpires n).Expects p none := by
  unfold State.heldExpires
  split
  · rename_i hd
    have held : ((s.setDoor n .heldOpen).doorAlert n .held .raised).Expects p none :=
      (h.setDoor (by simp [hd])).doorAlert ..
    exact held.of_same rfl rfl rfl rfl
  all_goals exact h

theorem doorTick_awaits {st : Station} (h : st.AwaitsEntry) :
    ({ st with door := st.door.tick } : Station).AwaitsEntry := by
  rcases h with hv | ⟨k, hk⟩ | he
  · exact .inl hv
  · exact .inr (.inl ⟨k - 1, by simp [hk, Door.tick]⟩)
  · exact .inr (.inr he)

theorem State.Expects.tick (h : s.Expects p none) : s.tick.Expects p none := by
  unfold State.tick
  split
  · exact h.of_same rfl rfl rfl rfl
  · refine h.restation (fun k hk => ?_) (by simp) rfl rfl rfl
    have ticked : (nth (s.stations.map fun st => { st with door := st.door.tick }) k defaultStation)
        = { s.station k with door := (s.station k).door.tick } :=
      nth_map (fun st : Station => { st with door := st.door.tick }) s.stations k defaultStation
    rw [State.station, ticked]
    exact doorTick_awaits hk

/-! ### Stations bound and called -/

/-- R131 step 3: nobody enters at a station that is bound anew. -/
theorem State.Expects.bindStation (h : s.Expects p none) (hidle : s.stationIdle n = true) (st : Station) :
    (s.setStation n st).Expects p none := by
  simp only [State.stationIdle, Bool.and_eq_true, Bool.not_eq_true'] at hidle
  obtain ⟨⟨⟨⟨⟨⟨-, -⟩, hadm⟩, -⟩, -⟩, -⟩, -⟩ := hidle
  exact ((h.leaveOut n).setOut st).takeIn fun hex =>
    absurd ((hasAdmitting_iff (s := s)).2 hex) (by rw [hadm]; exact nofun)

theorem called_awaits {st : Station} (h : st.AwaitsEntry) : st.called.AwaitsEntry := by
  rcases h with ⟨v, hv, hrel⟩ | hd | he
  · exact .inl ⟨{ v with sent := true }, by simp [Station.called, hv], hrel⟩
  · exact .inr (.inl hd)
  · exact .inr (.inr he)

end

end Sys2Proof.Machine
end

