-- ==== Sys2Proof/Proofs/Standby.lean ====
section
/-! STANDBY stays empty (R123, R171, R174): what the part keeps watch of (the supply, the presentation queue, the receiver,
the outstanding request and the sweep interval timer) under the commands that leave it alone, and under a start-up. -/
namespace Sys2Proof.Machine

/-! ### What is kept watch of -/

/-- The supply, the presentation queue, the receiver, the outstanding request and the sweep interval timer's count are as
they were. -/
structure State.SameWatch (s t : State) : Prop where
  supply : t.supply = s.supply
  presentations : t.presentations = s.presentations
  receiving : t.host.receiving = s.host.receiving
  outstanding : t.host.outstanding = s.host.outstanding
  count : t.sweep.count = s.sweep.count

/-- Watch is kept, and nobody comes or goes. -/
structure State.Rests (s t : State) : Prop extends s.SameWatch t where
  pool : t.pool = s.pool
  groups : t.groups = s.groups

section
variable {s t u : State}

theorem State.SameWatch.refl (s : State) : s.SameWatch s := ⟨rfl, rfl, rfl, rfl, rfl⟩

theorem State.SameWatch.trans (h : s.SameWatch t) (h' : t.SameWatch u) : s.SameWatch u :=
  ⟨h'.supply.trans h.supply, h'.presentations.trans h.presentations, h'.receiving.trans h.receiving,
    h'.outstanding.trans h.outstanding, h'.count.trans h.count⟩

theorem State.Rests.refl (s : State) : s.Rests s := ⟨.refl s, rfl, rfl⟩

theorem State.Rests.trans (h : s.Rests t) (h' : t.Rests u) : s.Rests u :=
  ⟨h.toSameWatch.trans h'.toSameWatch, h'.pool.trans h.pool, h'.groups.trans h.groups⟩

/-- A change of tables that nobody's place and no watched field stands in. -/
theorem State.Rests.of_tables (h : { t with
    clock := s.clock, settings := s.settings, permits := s.permits, revoked := s.revoked, rooms := s.rooms
    deadlines := s.deadlines, stations := s.stations, line := s.line, trail := s.trail, lastDoor := s.lastDoor
    pending := s.pending } = s) : s.Rests t := by
  rw [← h]
  exact ⟨⟨rfl, rfl, rfl, rfl, rfl⟩, rfl, rfl⟩

theorem State.rests_offer (s : State) (n : Notice) : s.Rests (s.offer n) := by
  unfold State.offer
  split <;> exact ⟨⟨rfl, rfl, rfl, rfl, rfl⟩, rfl, rfl⟩

theorem State.rests_put (s : State) (r : TrailRecord) : s.Rests (s.put r) := by
  have written : s.Rests { s with trail := (s.trail.put (s.stamp r)).1 } := .of_tables rfl
  unfold State.put State.offerSome
  split
  · exact written
  · exact written.trans (State.rests_offer _ _)

theorem State.rests_pump (s : State) : s.Rests s.pump := by
  obtain ⟨receiving, outstanding, -⟩ := s.host.begin_keeps
  exact ⟨⟨rfl, rfl, receiving, outstanding, rfl⟩, rfl, rfl⟩

theorem State.rests_doorAlert (s : State) (n : Nat) (k : AlertKind) (l : Level) : s.Rests (s.doorAlert n k l) :=
  (s.rests_put _).trans (State.rests_offer _ _)

theorem State.rests_moveRoomAlert (s : State) (a : RoomAlert) (n : Nat) (l : Level) : s.Rests (s.moveRoomAlert a n l) :=
  (State.Rests.of_tables rfl : s.Rests (s.setRoom n (a.setLevel (s.room n) l))).trans
    ((State.rests_offer _ _).trans (State.rests_put _ _))

theorem State.rests_setStation (s : State) (n : Nat) (st : Station) : s.Rests (s.setStation n st) := .of_tables rfl

theorem State.rests_setDoor (s : State) (n : Nat) (d : Door) : s.Rests (s.setDoor n d) := .of_tables rfl

theorem State.rests_commitIfAdmitting (s : State) (n : Nat) : s.Rests (s.commitIfAdmitting n) := by
  unfold State.commitIfAdmitting
  split
  · exact s.rests_setStation _ _
  · exact .refl s

/-! ### A part in STANDBY -/

/-- R123, R174: outside STANDBY, with no stop to come, nothing is asked. -/
theorem standbyEmpty_of_awake (hm : s.supply.mode ≠ .standby) (hs : s.supply.stopPending = false) : s.StandbyEmpty :=
  ⟨fun h => absurd h (by simp [hs]), fun h => absurd h hm⟩

theorem State.StandbyEmpty.stop_of_awake (h : s.StandbyEmpty) (hm : s.supply.mode ≠ .standby) :
    s.supply.stopPending = false := by
  by_contra hs
  exact hm (h.1 (by simpa using hs)).1

theorem State.Rests.standbyEmpty (h : s.Rests t) (hs : s.StandbyEmpty) : t.StandbyEmpty := by
  obtain ⟨⟨supply, presentations, receiving, outstanding, count⟩, pool, groups⟩ := h
  simpa [State.StandbyEmpty, State.unserved, supply, presentations, receiving, outstanding, count, pool, groups] using hs

/-- What holds of a part in STANDBY. -/
structure State.Dormant (s : State) : Prop where
  mode : s.supply.mode = .standby
  pool : s.pool = []
  groups : s.groups = []
  presentations : s.presentations = []
  unserved : s.unserved = none

theorem State.StandbyEmpty.dormant (h : s.StandbyEmpty) (hm : s.supply.mode = .standby) : s.Dormant := by
  obtain ⟨hp, hg, hpr, hu, -⟩ := h.2 hm
  exact ⟨hm, hp, hg, hpr, hu⟩

/-! ### Jobs in STANDBY -/

theorem State.Dormant.commitStation (h : s.Dormant) (n : Nat) : s.Rests ((s.takeDoorEvent n).commitStation n) := by
  have none : (s.takeDoorEvent n).admittingAt n = [] := by simp [State.admittingAt, State.takeDoorEvent, h.pool]
  rw [State.commitStation, none]
  exact .of_tables rfl

theorem State.Dormant.lapseStation (h : s.Dormant) (n : Nat) (silence : Bool) :
    s.Rests ((s.takeDoorEvent n).lapseStation n silence) := by
  have none : (s.takeDoorEvent n).admittingAt n = [] := by simp [State.admittingAt, State.takeDoorEvent, h.pool]
  have kept : (s.takeDoorEvent n).cancelGroup n = s.takeDoorEvent n :=
    cancelGroup_none (by simp [State.takeDoorEvent, h.groups])
  rw [State.lapseStation, none]
  cases silence
  · exact .of_tables rfl
  · rw [List.foldl_nil, if_pos rfl, kept]
    exact .of_tables rfl

theorem State.Dormant.takeDue (h : s.Dormant) {act : Due → State → State}
    (ha : act ∈ [pairingAction, stayDeadlineAction, escalationAction, limitAction]) : s.Rests (s.takeDue act) := by
  have dropped : s.Rests s.dropHead := .of_tables rfl
  have noGroup (n : Nat) : s.dropHead.groupAt n = none := by simp [State.groupAt, h.groups]
  have noRecord (c : Nat) : s.dropHead.recordOf c = none := by simp [State.recordOf, h.pool]
  have alert (a : RoomAlert) (n : Nat) : s.Rests (s.dropHead.escalateAlert a n) := by
    unfold State.escalateAlert
    split
    · exact dropped.trans (State.rests_moveRoomAlert ..)
    · exact dropped
    · exact dropped
  unfold State.takeDue
  split
  · rename_i e _
    simp only [List.mem_cons, List.not_mem_nil, or_false] at ha
    rcases ha with rfl | rfl | rfl | rfl
    · cases hw : e.what <;> simpa [pairingAction, State.expireGroup, noGroup] using dropped
    · cases hw : e.what <;> simpa [stayDeadlineAction, noRecord] using dropped
    · cases hw : e.what <;> simpa [escalationAction, noRecord] using dropped
    · cases hw : e.what with
      | loneLimit n => exact alert .lone n
      | unescortedLimit n => exact alert .unescorted n
      | pairing _ => exact dropped
      | stayDeadline _ => exact dropped
      | escalation _ => exact dropped
  · exact .refl s

theorem State.Dormant.takePresentation (h : s.Dormant) (act : State → Presentation → State) :
    s.takePresentation act = s := by
  rw [State.takePresentation, h.presentations]

theorem State.rests_retire (s : State) (e : Nat × Permit) : s.Rests (s.retire e) :=
  (State.Rests.of_tables rfl : s.Rests (s.dropPermit e.2.number)).trans
    ((State.rests_put _ _).trans (State.rests_offer _ _))

theorem advance_count (w : Sweep) : w.advance.count = w.count := by
  unfold Sweep.advance
  split <;> rfl

theorem State.rests_sweepStep (s : State) : s.Rests
    { (s.toRetire s.sweep.position).foldl State.retire s with
      sweep := ((s.toRetire s.sweep.position).foldl State.retire s).sweep.advance } := by
  obtain ⟨⟨supply, presentations, receiving, outstanding, count⟩, pool, groups⟩ :=
    foldl_property (P := s.Rests) (fun v e hv => hv.trans (v.rests_retire e)) (s.toRetire s.sweep.position) s (.refl s)
  exact ⟨⟨supply, presentations, receiving, outstanding, (advance_count _).trans count⟩, pool, groups⟩

theorem rests_of_job {i : Instr} {job : State → State} (hj : s.Rests (job s)) (h : whenGranted i s job = .next t) :
    s.Rests t := by
  unfold whenGranted at h
  split at h <;> cases h
  · exact hj.trans (State.rests_pump _)
  · exact .refl s

/-! ### Requests in STANDBY -/

/-- R164: without a request to serve no REQUEST job takes place, and none is served at acceptance. -/
theorem requestJob_unasked {i : Instr} {serve : List Byte → State → Except ReplyCode (State × List Byte)}
    (hu : s.unserved = none) (h : requestJob i s serve = .next t) : t = s := by
  unfold requestJob at h
  rw [hu] at h
  split at h <;> cases h <;> rfl

theorem acceptedRequest_unasked {i : Instr} {serve : List Byte → State → Except ReplyCode (State × List Byte)}
    (hu : s.unserved = none) (h : acceptedRequest i s serve = .next t) : t = s := by
  have none : s.acceptedFor i = none := by
    unfold State.acceptedFor
    rw [hu]
    split <;> rfl
  unfold acceptedRequest at h
  rw [none] at h
  cases h
  rfl

/-! ### The station line in STANDBY -/

theorem State.rests_endTurn (s : State) : s.Rests s.endTurn := by
  unfold State.endTurn
  split
  · exact .of_tables rfl
  · exact .refl s

theorem State.rests_doorReleased (s : State) (n k : Nat) : s.Rests (s.doorReleased n k) := by
  unfold State.doorReleased
  split
  · exact s.rests_setDoor _ _
  · exact s.rests_setDoor _ _
  · exact s.rests_setDoor _ _
  · exact (s.rests_setDoor _ _).trans (State.rests_commitIfAdmitting _ _)
  · exact ((s.rests_setDoor _ _).trans (State.rests_doorAlert ..)).trans (State.rests_commitIfAdmitting _ _)
  · exact s.rests_commitIfAdmitting _

theorem State.rests_linkStep (s : State) (n : Nat) : s.Rests (s.linkStep n) := by
  unfold State.linkStep
  dsimp only
  split
  · exact ((s.rests_setStation _ _).trans (State.rests_put _ _)).trans (State.rests_offer _ _)
  · exact s.rests_setStation _ _

theorem State.rests_verdictStep (s : State) (n : Nat) (t : Toggle) : s.Rests (s.verdictStep n t) := by
  unfold State.verdictStep
  (repeat' split)
  · exact .refl s
  · exact (s.rests_setStation _ _).trans (State.rests_doorReleased ..)
  · exact s.rests_setStation _ _
  · exact .refl s

/-- R174: in STANDBY an answer is processed for the link and the verdict alone. -/
theorem State.rests_takeAnswer (hm : s.supply.mode = .standby) (n : Nat) (a : StationAnswer) :
    s.Rests (s.takeAnswer n a) := by
  have judged := (s.rests_linkStep n).trans (State.rests_verdictStep _ n a.seen)
  have standby : ((s.linkStep n).verdictStep n a.seen).supply.mode = .standby := by rw [judged.supply, hm]
  unfold State.takeAnswer
  split
  · exact .refl s
  · rw [State.contactAndReport, if_pos standby]
    exact judged

theorem State.rests_silence (s : State) (n : Nat) : s.Rests (s.silence n) := by
  have door (t : State) : t.Rests (t.silenceDoor n) := by
    unfold State.silenceDoor
    split
    · exact (t.rests_setDoor _ _).trans (State.rests_doorAlert ..)
    · exact (t.rests_setDoor _ _).trans (State.rests_doorAlert ..)
    all_goals exact t.rests_setDoor _ _
  unfold State.silence
  extract_lets _ s1 _ s2 _ s3
  have h1 : s.Rests s1 := ((s.rests_setStation _ _).trans (State.rests_put _ _)).trans (State.rests_offer _ _)
  have h3 : s.Rests s3 := ((h1.trans (State.rests_setStation ..)).trans (door _)).trans (State.rests_setStation ..)
  split
  · exact h3.trans (State.rests_setStation ..)
  · exact h3

theorem State.rests_miss (s : State) (n : Nat) (settle : Bool) : s.Rests (s.miss n settle) := by
  unfold State.miss State.countMiss
  dsimp only
  (repeat' split)
  · exact .refl s
  · exact (s.rests_setStation _ _).trans (State.rests_silence _ _)
  · exact s.rests_setStation _ _

theorem State.rests_releaseExpires (s : State) (n : Nat) : s.Rests (s.releaseExpires n) := by
  unfold State.releaseExpires
  split
  · dsimp only
    split
    · exact (s.rests_setDoor _ _).trans (State.rests_setStation ..)
    · exact s.rests_setDoor _ _
  all_goals exact .refl s

theorem State.rests_heldExpires (s : State) (n : Nat) : s.Rests (s.heldExpires n) := by
  unfold State.heldExpires
  split
  · exact ((s.rests_setDoor _ _).trans (State.rests_doorAlert ..)).trans (State.rests_pump _)
  all_goals exact .refl s

/-! ### Frames, the sweep interval timer and a second passed -/

/-- R161, R171: a frame given up leaves the receiver hunting. -/
theorem State.StandbyEmpty.discardFrame (h : s.StandbyEmpty) : s.discardFrame.StandbyEmpty := by
  refine ⟨h.1, fun hm => ?_⟩
  obtain ⟨hp, hg, hpr, hu, hstop⟩ := h.2 hm
  exact ⟨hp, hg, hpr, hu, fun hs => ⟨rfl, (hstop hs).2⟩⟩

/-- R163, R174: between an accepted STANDBY and its stop its request is outstanding, and a frame joins the BUSY list. -/
theorem State.StandbyEmpty.acceptFrame (h : s.StandbyEmpty) (hr : s.host.receiving = true) (f : Frame) :
    (s.acceptFrame f).StandbyEmpty := by
  unfold State.acceptFrame
  split
  · rename_i hnone
    have stop : s.supply.stopPending = false := by
      by_contra hs
      exact (h.1 (by simpa using hs)).2 hnone
    refine standbyEmpty_of_awake (fun hm => ?_) stop
    obtain ⟨-, -, -, -, hstop⟩ := h.2 hm
    rw [(hstop stop).1] at hr
    cases hr
  · rename_i o hsome
    split
    · refine ⟨h.1, fun hm => ?_⟩
      obtain ⟨hp, hg, hpr, hu, hstop⟩ := h.2 hm
      exact ⟨hp, hg, hpr, hu, fun hs => ⟨rfl, (hstop hs).2⟩⟩
    · exact h.discardFrame

/-- R98, R174: in STANDBY the timer runs until the stop alone. -/
theorem sweepRuns_stopPending (hm : s.supply.mode = .standby) (hs : s.sweepRuns = true) : s.supply.stopPending = true :=
  (((State.sweepRuns_iff s).1 hs).2).resolve_left fun hne => hne hm

theorem State.StandbyEmpty.expireSweep (h : s.StandbyEmpty) : State.StandbyEmpty { s with sweep := s.sweep.expired } := by
  refine ⟨h.1, fun hm => ?_⟩
  obtain ⟨hp, hg, hpr, hu, hstop⟩ := h.2 hm
  exact ⟨hp, hg, hpr, hu, fun hs => ⟨(hstop hs).1, rfl⟩⟩

theorem State.StandbyEmpty.tick (h : s.StandbyEmpty) : s.tick.StandbyEmpty := by
  unfold State.tick
  split
  · exact h
  · refine ⟨h.1, fun hm => ?_⟩
    obtain ⟨hp, hg, hpr, hu, hstop⟩ := h.2 hm
    refine ⟨hp, hg, hpr, hu, fun hs => ⟨(hstop hs).1, ?_⟩⟩
    have stands : ¬ s.sweepRuns = true := fun hr => by
      rw [show s.supply.stopPending = true from sweepRuns_stopPending hm hr] at hs
      cases hs
    exact (congrArg Sweep.count (if_neg stands)).trans (hstop hs).2

end

end Sys2Proof.Machine
end

