-- ==== Sys2Proof/Proofs/AwaitingStep.lean ====
section
/-! The commands that leave the supply alone (R48, R123, R148, R171, R174): each keeps the stations of ADMITTING records
awaiting their entries, and what is asked of a part in STANDBY. -/
namespace Sys2Proof.Machine

/-- The commands that can move the supply: a mode request, a restart, a wake, a line of the supply. -/
def movesSupply : Instr → Bool
  | .frameSent _ | .startByteReceived | .modeRequestRun | .modeRequestReserve | .modeRequestStandby
  | .restartWarmRequest | .restartCleanRequest | .supplyFall | .supplyRise | .attention _ | .resetLineActive
  | .resetLineReleased _ | .mainSupplyLoss | .mainSupplyUp _ => true
  | _ => false

section
variable {p : Supply} {s t : State} {i : Instr} {serve : List Byte → State → Except ReplyCode (State × List Byte)}

/-! ### Requests and jobs -/

theorem State.Expects.answer (h : s.Expects p none) {f : Frame} {x : Except ReplyCode (State × List Byte)}
    (hx : ∀ u r, x = .ok (u, r) → u.Expects p none) : (s.answer f x).Expects p none := by
  unfold State.answer
  split
  · exact h.of_same rfl rfl rfl rfl
  · exact (hx _ _ rfl).of_same rfl rfl rfl rfl

/-- A request keeps what its service keeps. -/
theorem expects_of_request (h : s.Expects p none) (he : requestJob i s serve = .next t)
    (hs : ∀ b u r, serve b s = .ok (u, r) → u.Expects p none) : t.Expects p none := by
  unfold requestJob at he
  (repeat' split at he) <;> cases he
  · exact h.answer (hs _)
  · exact h
  · exact h

theorem expects_of_accepted (h : s.Expects p none) (he : acceptedRequest i s serve = .next t)
    (hs : ∀ b u r, serve b s = .ok (u, r) → u.Expects p none) : t.Expects p none := by
  unfold acceptedRequest at he
  split at he <;> cases he
  · exact h.answer (hs _)
  · exact h

theorem expects_of_job {job : State → State} (h : s.Expects p none) (he : whenGranted i s job = .next t)
    (hj : (job s).Expects p none) : t.Expects p none := by
  unfold whenGranted at he
  split at he <;> cases he
  · exact hj.of_same rfl rfl rfl rfl
  · exact h

/-- A service that reads a body and answers a state of one kind. -/
theorem expects_of_read {α : Type} {x : Except ReplyCode α} {f : α → State × List Byte} {u : State} {r : List Byte}
    (hf : ∀ a, (f a).1.Expects p none) (h : x.map f = .ok (u, r)) : u.Expects p none := by
  obtain ⟨a, -, ha⟩ := except_map_ok h
  simpa [ha] using hf a

/-! ### The services of the engine's requests -/

section
variable {u : State} {b r : List Byte} (h : s.Expects p none)
include h

theorem serveClockSet_expects (hs : serveClockSet b s = .ok (u, r)) : u.Expects p none := by
  unfold serveClockSet at hs
  (repeat' split at hs) <;> cases hs
  rename_i day second _ _
  have written : State.Expects p none { s with clock := clockAt day second } := h.of_same rfl rfl rfl rfl
  exact written.put _

theorem servePermitAdd_expects (hs : servePermitAdd b s = .ok (u, r)) : u.Expects p none := by
  unfold servePermitAdd at hs
  (repeat' split at hs) <;> cases hs
  exact h.of_same rfl rfl rfl rfl

theorem servePermitAmend_expects (hs : servePermitAmend b s = .ok (u, r)) : u.Expects p none := by
  unfold servePermitAmend at hs
  (repeat' split at hs) <;> cases hs
  rename_i c _ _ _ _ _ _ _
  have written : (s.updatePermit c.number (fun q => q.amended c)).Expects p none := h.of_same rfl rfl rfl rfl
  exact written.actOnHolder _ _

theorem servePermitRemove_expects (hs : servePermitRemove b s = .ok (u, r)) : u.Expects p none := by
  unfold servePermitRemove at hs
  (repeat' split at hs) <;> cases hs
  exact h.of_same rfl rfl rfl rfl

theorem servePermitRead_expects (hs : servePermitRead b s = .ok (u, r)) : u.Expects p none := by
  unfold servePermitRead at hs
  (repeat' split at hs) <;> cases hs
  exact h

theorem servePermitFind_expects (hs : servePermitFind b s = .ok (u, r)) : u.Expects p none := by
  unfold servePermitFind at hs
  (repeat' split at hs) <;> cases hs
  exact h

theorem serveRevoke_expects (hs : serveRevoke b s = .ok (u, r)) : u.Expects p none := by
  unfold serveRevoke at hs
  (repeat' split at hs) <;> cases hs
  · exact h
  · rename_i c _ _ _
    have written : State.Expects p none { s with revoked := s.revoked ++ [c] } := h.of_same rfl rfl rfl rfl
    exact written.actOnRevoked _

theorem serveUnrevoke_expects (hs : serveUnrevoke b s = .ok (u, r)) : u.Expects p none := by
  unfold serveUnrevoke at hs
  (repeat' split at hs) <;> cases hs
  rename_i c _ _
  have written : State.Expects p none { s with revoked := s.revoked.filter (fun x => x ≠ c) } :=
    h.of_same rfl rfl rfl rfl
  exact written.unmark _

theorem serveRoomSet_expects (hs : serveRoomSet b s = .ok (u, r)) : u.Expects p none := by
  obtain ⟨_, c, -, -, rfl⟩ := serveRoomSet_ok hs
  exact h.configureRoom c

theorem serveRoomMode_expects (hs : serveRoomMode b s = .ok (u, r)) : u.Expects p none := by
  unfold serveRoomMode at hs
  (repeat' split at hs) <;> cases hs
  · exact h
  · exact h.changeRoomMode ..

theorem serveRoomRead_expects (hs : serveRoomRead b s = .ok (u, r)) : u.Expects p none := by
  unfold serveRoomRead at hs
  split at hs <;> cases hs
  exact h

theorem serveOccupantRelease_expects (hs : serveOccupantRelease b s = .ok (u, r)) : u.Expects p none := by
  unfold serveOccupantRelease at hs
  (repeat' split at hs) <;> cases hs
  exact h.operatorRelease _

theorem serveStationSet_expects (hs : serveStationSet b s = .ok (u, r)) : u.Expects p none := by
  obtain ⟨_, n, room, release, held, -, hidle, rfl⟩ := serveStationSet_ok hs
  exact h.bindStation hidle _

theorem serveStationChannel_expects (hs : serveStationChannel b s = .ok (u, r)) : u.Expects p none := by
  unfold serveStationChannel at hs
  (repeat' split at hs) <;> cases hs
  · exact h
  · exact h.writeChannel ..

theorem serveStationRead_expects (hs : serveStationRead b s = .ok (u, r)) : u.Expects p none := by
  unfold serveStationRead at hs
  split at hs <;> cases hs
  exact h.setStation id

theorem serveTrailRead_expects (hs : serveTrailRead b s = .ok (u, r)) : u.Expects p none := by
  unfold serveTrailRead at hs
  split at hs <;> cases hs
  exact h

theorem serveTrailClose_expects (hs : serveTrailClose b s = .ok (u, r)) : u.Expects p none := by
  unfold serveTrailClose at hs
  (repeat' split at hs) <;> cases hs
  · exact h
  · exact h.of_same (by simp [State.closeTrail]) (by simp [State.closeTrail]) (by simp [State.closeTrail])
      (by simp [State.closeTrail])

theorem serveTrailFree_expects (hs : serveTrailFree b s = .ok (u, r)) : u.Expects p none := by
  have supply (half : HalfId) : (s.freeHalf half).supply = s.supply := by unfold State.freeHalf; split <;> rfl
  unfold serveTrailFree at hs
  (repeat' split at hs) <;> cases hs
  exact h.of_records (State.freeHalf_same _ _) (supply _)

end

/-! ### Jobs and the station line -/

section
variable (h : s.Expects p none)
include h

theorem execDoorCommit_expects (he : execDoorCommit s = .next t) : t.Expects p none := by
  refine expects_of_job h he ?_
  split
  · exact (h.takeDoorEvent _).commitStation
  · exact h

theorem execDoorLapse_expects (he : execDoorLapse s = .next t) : t.Expects p none := by
  refine expects_of_job h he ?_
  (repeat' split)
  · exact (h.takeDoorEvent _).lapseStation _
  all_goals exact h

theorem execSweepStep_expects (he : execSweepStep s = .next t) : t.Expects p none :=
  expects_of_job h he ((h.sweep (s.toRetire s.sweep.position)).of_same rfl rfl rfl rfl)

theorem execFrameReceived_expects {bytes : List Byte} (he : execFrameReceived bytes s = .next t) :
    t.Expects p none := by
  have accepted (f : Frame) : (s.acceptFrame f).supply = s.supply := by
    unfold State.acceptFrame; (repeat' split) <;> rfl
  unfold execFrameReceived at he
  (repeat' split at he) <;> cases he
  · exact h
  · exact (h.of_records (State.acceptFrame_same ..) (accepted _)).of_same rfl rfl rfl rfl
  · exact h.of_same rfl rfl rfl rfl

theorem discard_expects {b : Bool}
    (he : (if b then Host.Outcome.next s else .next s.discardFrame : Host.Outcome State Fault Refusal) = .next t) :
    t.Expects p none := by
  split at he <;> cases he
  · exact h
  · exact h.of_same rfl rfl rfl rfl

theorem State.Expects.endTurn : s.endTurn.Expects p none :=
  h.of_records s.endTurn_same s.rests_endTurn.supply

theorem execCall_expects (he : execCall s = .next t) : t.Expects p none := by
  unfold execCall at he
  (repeat' split at he) <;> cases he
  · exact h
  · exact (h.setStation called_awaits).of_same rfl rfl rfl rfl
  all_goals exact h

theorem execGoodAnswer_expects {chars : List StationChar} (he : execGoodAnswer chars s = .next t) :
    t.Expects p none := by
  unfold execGoodAnswer at he
  (repeat' split at he) <;> cases he
  · exact (h.takeAnswer _).endTurn.of_same rfl rfl rfl rfl
  · exact h

theorem execMissingAnswer_expects (he : execMissingAnswer s = .next t) : t.Expects p none := by
  unfold execMissingAnswer at he
  split at he <;> cases he
  · exact (h.miss _).endTurn.of_same rfl rfl rfl rfl
  · exact h

theorem execCorruptAnswer_expects {chars : List StationChar} (he : execCorruptAnswer chars s = .next t) :
    t.Expects p none := by
  have flagged (n : Nat) : (s.setStation n { s.station n with corrupt := true }).Expects p none := h.setStation id
  unfold execCorruptAnswer at he
  (repeat' split at he) <;> cases he
  · exact ((flagged _).miss _).endTurn.of_same rfl rfl rfl rfl
  · exact h

/-! ### Every command that leaves the supply alone -/

/-- R48, R148: a command that leaves the supply alone keeps the stations of ADMITTING records awaiting their entries. -/
theorem exec_expects (hq : ∀ x ∈ s.presentations, 1 ≤ x.station ∧ x.station ≤ s.stations.length)
    (hi : movesSupply i = false) (he : exec i s = .next t) : t.Expects p none := by
  cases i <;> dsimp only [exec] at he
  case frameSent | startByteReceived | modeRequestRun | modeRequestReserve | modeRequestStandby | restartWarmRequest
      | restartCleanRequest | supplyFall | supplyRise | attention | resetLineActive | resetLineReleased
      | mainSupplyLoss | mainSupplyUp => cases hi
  case frameReceived => exact execFrameReceived_expects h he
  case receiveGap | framingError | lengthOver1024 => exact discard_expects h he
  case identify | settingsRead => exact expects_of_accepted h he fun _ _ _ => expects_of_read fun _ => h
  case status => exact expects_of_accepted h he fun _ _ _ => expects_of_read fun _ => h.of_same rfl rfl rfl rfl
  case unknownKind => exact expects_of_accepted h he fun _ _ _ hs => nomatch hs
  case settingsWrite => exact expects_of_request h he fun _ _ _ => expects_of_read fun _ => h.of_same rfl rfl rfl rfl
  case clockRead | revokeList => exact expects_of_request h he fun _ _ _ => expects_of_read fun _ => h
  case clockSet => exact expects_of_request h he fun _ _ _ => serveClockSet_expects h
  case permitAdd => exact expects_of_request h he fun _ _ _ => servePermitAdd_expects h
  case permitAmend => exact expects_of_request h he fun _ _ _ => servePermitAmend_expects h
  case permitRemove => exact expects_of_request h he fun _ _ _ => servePermitRemove_expects h
  case permitRead => exact expects_of_request h he fun _ _ _ => servePermitRead_expects h
  case permitFind => exact expects_of_request h he fun _ _ _ => servePermitFind_expects h
  case revoke => exact expects_of_request h he fun _ _ _ => serveRevoke_expects h
  case unrevoke => exact expects_of_request h he fun _ _ _ => serveUnrevoke_expects h
  case roomSet => exact expects_of_request h he fun _ _ _ => serveRoomSet_expects h
  case roomMode => exact expects_of_request h he fun _ _ _ => serveRoomMode_expects h
  case roomRead => exact expects_of_request h he fun _ _ _ => serveRoomRead_expects h
  case occupantRelease => exact expects_of_request h he fun _ _ _ => serveOccupantRelease_expects h
  case stationSet => exact expects_of_request h he fun _ _ _ => serveStationSet_expects h
  case stationChannel => exact expects_of_request h he fun _ _ _ => serveStationChannel_expects h
  case stationRead => exact expects_of_request h he fun _ _ _ => serveStationRead_expects h
  case trailRead => exact expects_of_accepted h he fun _ _ _ => serveTrailRead_expects h
  case trailClose => exact expects_of_accepted h he fun _ _ _ => serveTrailClose_expects h
  case trailFree => exact expects_of_accepted h he fun _ _ _ => serveTrailFree_expects h
  case doorCommit => exact execDoorCommit_expects h he
  case doorLapse => exact execDoorLapse_expects h he
  case pairingExpiry | stayDeadlineDue | escalationDue | limitDue => exact expects_of_job h he (h.takeDue (by simp))
  case entryDecision | exitDecision => exact expects_of_job h he (h.takePresentation hq (by simp))
  case sweepStep => exact execSweepStep_expects h he
  case sweepIntervalExpiry =>
    unfold execSweepIntervalExpiry at he
    split at he <;> cases he
    · exact h.of_same rfl rfl rfl rfl
    · exact h
  case clockEnd =>
    unfold execClockEnd at he
    split at he <;> cases he
    · exact h.of_same rfl rfl rfl rfl
    · exact h
  case pollRoundStart =>
    unfold execPollRoundStart at he
    split at he <;> cases he
    · exact h.of_same rfl rfl rfl rfl
    · exact h
  case call => exact execCall_expects h he
  case goodAnswer => exact execGoodAnswer_expects h he
  case missingAnswer => exact execMissingAnswer_expects h he
  case corruptAnswer => exact execCorruptAnswer_expects h he
  case releaseTimerExpiry =>
    unfold execReleaseTimerExpiry at he
    (repeat' split at he) <;> cases he
    · exact h
    · exact h.releaseExpires
  case heldTimerExpiry =>
    unfold execHeldTimerExpiry at he
    (repeat' split at he) <;> cases he
    · exact h
    · exact h.heldExpires

end

/-! ### STANDBY under them -/

theorem execFrameReceived_standbyEmpty (h : s.StandbyEmpty) {bytes : List Byte}
    (he : execFrameReceived bytes s = .next t) : t.StandbyEmpty := by
  unfold execFrameReceived at he
  (repeat' split at he) <;> cases he
  · exact h
  · rename_i hr _
    have receiving : s.host.receiving = true := by simp only [Bool.or_eq_true, not_or] at hr; simpa using hr.2
    exact (State.rests_pump _).standbyEmpty (h.acceptFrame receiving _)
  · exact h.discardFrame

theorem discard_standbyEmpty (h : s.StandbyEmpty) {b : Bool}
    (he : (if b then Host.Outcome.next s else .next s.discardFrame : Host.Outcome State Fault Refusal) = .next t) :
    t.StandbyEmpty := by
  split at he <;> cases he
  · exact h
  · exact h.discardFrame

/-- R123, R171, R174: in STANDBY a command that leaves the supply alone brings nobody and nothing to serve. -/
theorem exec_dormant (hs : s.StandbyEmpty) (hm : s.supply.mode = .standby) (hi : movesSupply i = false)
    (he : exec i s = .next t) : t.StandbyEmpty := by
  have dormant := hs.dormant hm
  have turned {v : State} (hv : s.Rests v) : v.endTurn.pump.StandbyEmpty :=
    ((hv.trans (State.rests_endTurn v)).trans (State.rests_pump _)).standbyEmpty hs
  cases i <;> dsimp only [exec] at he
  case frameSent | startByteReceived | modeRequestRun | modeRequestReserve | modeRequestStandby | restartWarmRequest
      | restartCleanRequest | supplyFall | supplyRise | attention | resetLineActive | resetLineReleased
      | mainSupplyLoss | mainSupplyUp => cases hi
  case frameReceived => exact execFrameReceived_standbyEmpty hs he
  case receiveGap | framingError | lengthOver1024 => exact discard_standbyEmpty hs he
  case identify | status | settingsRead | unknownKind | trailRead | trailClose | trailFree =>
    exact acceptedRequest_unasked dormant.unserved he ▸ hs
  case settingsWrite | clockSet | clockRead | permitAdd | permitAmend | permitRemove | permitRead | permitFind | revoke
      | unrevoke | revokeList | roomSet | roomMode | roomRead | occupantRelease | stationSet | stationChannel
      | stationRead =>
    exact requestJob_unasked dormant.unserved he ▸ hs
  case doorCommit =>
    refine (rests_of_job ?_ he).standbyEmpty hs
    split
    · exact dormant.commitStation _
    · exact .refl s
  case doorLapse =>
    refine (rests_of_job ?_ he).standbyEmpty hs
    (repeat' split)
    · exact dormant.lapseStation _ _
    all_goals exact .refl s
  case pairingExpiry | stayDeadlineDue | escalationDue | limitDue =>
    exact (rests_of_job (dormant.takeDue (by simp)) he).standbyEmpty hs
  case entryDecision | exitDecision =>
    exact (rests_of_job (by rw [dormant.takePresentation]; exact .refl s) he).standbyEmpty hs
  case sweepStep => exact (rests_of_job s.rests_sweepStep he).standbyEmpty hs
  case sweepIntervalExpiry =>
    unfold execSweepIntervalExpiry at he
    split at he <;> cases he
    · exact hs.expireSweep
    · exact hs
  case clockEnd =>
    unfold execClockEnd at he
    split at he <;> cases he <;> exact hs
  case pollRoundStart =>
    unfold execPollRoundStart at he
    split at he <;> cases he <;> exact hs
  case call =>
    unfold execCall at he
    (repeat' split at he) <;> cases he <;> exact hs
  case goodAnswer =>
    unfold execGoodAnswer at he
    (repeat' split at he) <;> cases he
    · exact turned (State.rests_takeAnswer hm _ _)
    · exact hs
  case missingAnswer =>
    unfold execMissingAnswer at he
    split at he <;> cases he
    · exact turned (s.rests_miss _ _)
    · exact hs
  case corruptAnswer =>
    unfold execCorruptAnswer at he
    (repeat' split at he) <;> cases he
    · exact turned ((s.rests_setStation _ _).trans (State.rests_miss _ _ _))
    · exact hs
  case releaseTimerExpiry =>
    unfold execReleaseTimerExpiry at he
    (repeat' split at he) <;> cases he
    · exact hs
    · exact (s.rests_releaseExpires _).standbyEmpty hs
  case heldTimerExpiry =>
    unfold execHeldTimerExpiry at he
    (repeat' split at he) <;> cases he
    · exact hs
    · exact (s.rests_heldExpires _).standbyEmpty hs

end

end Sys2Proof.Machine
end

