-- ==== Sys2Proof/Proofs/AwaitingSupply.lean ====
section
/-! The commands that move the supply (R172 to R178): a mode request, a stop, a wake and a start-up keep the stations of
ADMITTING records awaiting their entries, and STANDBY empty. -/
namespace Sys2Proof.Machine

/-- What the step invariant keeps: the stations of ADMITTING records await their entries, and STANDBY is empty. -/
def State.Poised (s : State) : Prop := s.AdmittingAwaited ∧ s.StandbyEmpty

section
variable {s t : State}

/-! ### Poised parts -/

theorem State.AdmittingAwaited.of_same (h : s.AdmittingAwaited) (hp : t.pool = s.pool) (hst : t.stations = s.stations)
    (hr : t.inReset = s.inReset) : t.AdmittingAwaited := by
  simpa [State.AdmittingAwaited, State.station, hp, hst, hr] using h

theorem admittingAwaited_of_nobody (h : ∀ o ∈ s.pool, o.presence ≠ .admitting) : s.AdmittingAwaited :=
  fun _ o ho ha => absurd ha (h o ho)

theorem admittingAwaited_of_inReset (h : s.inReset = true) : s.AdmittingAwaited := fun hr => by
  rw [h] at hr
  cases hr

theorem State.Poised.of_rests (h : s.Poised) (hr : s.Rests t) (hst : t.stations = s.stations) : t.Poised :=
  ⟨h.1.of_same hr.pool hst (by rw [State.inReset, State.inReset, hr.supply]), hr.standbyEmpty h.2⟩

theorem State.Poised.pump (h : s.Poised) : s.pump.Poised := h.of_rests s.rests_pump rfl

/-- A mode other than STANDBY entered, with no stop to come. -/
theorem poised_of_awake (ha : s.AdmittingAwaited) (hm : s.supply.mode ≠ .standby) (hs : s.supply.stopPending = false) :
    s.Poised := ⟨ha, standbyEmpty_of_awake hm hs⟩

theorem changeMode_supply (s : State) (m : SupplyMode) (b : Bool) (c : ModeCause) :
    (s.changeMode m b c).supply = { s.supply with mode := m, byRequest := b } := by
  simp [State.changeMode]

theorem State.AdmittingAwaited.changeMode (h : s.AdmittingAwaited) (m : SupplyMode) (b : Bool) (c : ModeCause) :
    (s.changeMode m b c).AdmittingAwaited :=
  h.of_same (by simp) (by simp) (by rw [State.inReset, changeMode_supply]; rfl)

theorem State.Poised.changeMode (h : s.Poised) (hm : s.supply.mode ≠ .standby) {m : SupplyMode} (hne : m ≠ .standby)
    (b : Bool) (c : ModeCause) : (s.changeMode m b c).Poised :=
  poised_of_awake (h.1.changeMode m b c) (by rwa [changeMode_supply])
    (by rw [changeMode_supply]; exact h.2.stop_of_awake hm)

/-- R98 item 1: the count of the sweep interval timer settled. -/
theorem State.Poised.settleSweep (h : s.Poised) : s.settleSweep.Poised := by
  refine ⟨h.1.of_same (by simp) (by simp) (by simp [State.inReset]), ?_⟩
  unfold State.settleSweep
  split
  · exact h.2.expireSweep
  · exact h.2

theorem State.rests_restartLine (s : State) : s.Rests s.restartLine := .of_tables rfl

/-! ### Wakes (R174, R175) -/

/-- What is asked of a part in STANDBY, the receiver and the sweep interval timer apart. -/
def State.Vacant (s : State) : Prop :=
  (s.supply.stopPending = true → s.supply.mode = .standby ∧ s.host.outstanding ≠ none)
    ∧ (s.supply.mode = .standby → s.pool = [] ∧ s.groups = [] ∧ s.presentations = [] ∧ s.unserved = none)

theorem State.StandbyEmpty.vacant (h : s.StandbyEmpty) : s.Vacant := by
  refine ⟨h.1, fun hm => ?_⟩
  obtain ⟨hp, hg, hpr, hu, -⟩ := h.2 hm
  exact ⟨hp, hg, hpr, hu⟩

theorem wake_poised (hp : s.pool = []) (hs : s.supply.stopPending = false) (c : ModeCause) : (s.wake c).Poised := by
  have pool : (s.wake c).pool = [] := by simp [State.wake, State.restartLine, hp]
  refine poised_of_awake (admittingAwaited_of_nobody (by simp [pool])) ?_ ?_
  · rw [State.wake_supply]
    exact Supply.modeOfLine_ne_standby _
  · rw [State.wake_supply]
    exact hs

/-- R174, R175: a wake event wakes a part in STANDBY, which is empty, or is held until the stop. -/
theorem wakeEvent_poised (ha : s.AdmittingAwaited) (hv : s.Vacant) (c : ModeCause) : (s.wakeEvent c).Poised := by
  unfold State.wakeEvent
  split
  · rename_i hm
    refine poised_of_awake ha hm ?_
    by_contra hs
    exact hm (hv.1 (by simpa using hs)).1
  · rename_i hm
    have standby : s.supply.mode = .standby := not_not.1 hm
    obtain ⟨hp, hg, hpr, hu⟩ := hv.2 standby
    split
    · rename_i hs
      exact ⟨ha.of_same rfl rfl rfl, hv.1, fun _ => ⟨hp, hg, hpr, hu, fun hno => by rw [hs] at hno; cases hno⟩⟩
    · rename_i hs
      exact wake_poised hp (by simpa using hs) c

/-- R174: at the stop the receiver hunts and the timer stands at 0, or the part wakes at once. -/
theorem stop_poised (ha : s.AdmittingAwaited) (hp : s.pool = []) (hg : s.groups = [])
    (hpr : s.presentations = []) (hu : s.unserved = none) : s.stop.Poised := by
  unfold State.stop
  dsimp only
  split
  · refine wake_poised ?_ ?_ _
    · exact hp
    · rfl
  · exact ⟨ha.of_same rfl rfl rfl, nofun, fun _ => ⟨hp, hg, hpr, hu, fun _ => ⟨rfl, rfl⟩⟩⟩

/-! ### Start-ups (R178) -/

/-- The part in the course of a start-up, from its first step on. -/
structure State.Restarting (s : State) : Prop where
  stop : s.supply.stopPending = false
  vacant : s.supply.mode = .standby → s.pool = [] ∧ s.groups = []
  presentations : s.presentations = []
  receiving : s.host.receiving = false
  outstanding : s.host.outstanding = none
  count : s.sweep.count = 0

theorem State.Restarting.standbyEmpty (h : s.Restarting) : s.StandbyEmpty := by
  obtain ⟨stop, vacant, presentations, receiving, outstanding, count⟩ := h
  refine ⟨fun hs => ?_, fun hm => ?_⟩
  · rw [stop] at hs
    cases hs
  · obtain ⟨hp, hg⟩ := vacant hm
    exact ⟨hp, hg, presentations, by rw [State.unserved, outstanding], fun _ => ⟨receiving, count⟩⟩

theorem State.Restarting.of_watch (h : s.Restarting) (hw : s.SameWatch t)
    (hv : s.pool = [] ∧ s.groups = [] → t.pool = [] ∧ t.groups = []) : t.Restarting where
  stop := by rw [hw.supply]; exact h.stop
  vacant hm := hv (h.vacant (by rw [← hw.supply]; exact hm))
  presentations := hw.presentations.trans h.presentations
  receiving := hw.receiving.trans h.receiving
  outstanding := hw.outstanding.trans h.outstanding
  count := hw.count.trans h.count

theorem State.Restarting.of_rests (h : s.Restarting) (hr : s.Rests t) : t.Restarting :=
  h.of_watch hr.toSameWatch fun ⟨hp, hg⟩ => ⟨hr.pool.trans hp, hr.groups.trans hg⟩

theorem resetUnretained_restarting (h : s.supply.mode = .standby → s.pool = [] ∧ s.groups = []) :
    s.resetUnretained.Restarting := ⟨rfl, h, rfl, rfl, rfl, rfl⟩

/-- R44, R81, R97: the engine work of a warm start-up leaves the watched fields alone. -/
theorem warmWork_watch (s : State) : s.SameWatch s.warmWork := by
  have left (v : State) (o : Occupant) : v.SameWatch (v.leave o) := by
    have cleared : v.Rests (((v.unscheduleRecord o.credential).clearOverstay o).clearRevoked o) := by
      have overstay (w : State) : w.Rests (w.clearOverstay o) := by
        unfold State.clearOverstay
        split
        · exact .refl w
        · exact w.rests_offer _
      have revoked (w : State) : w.Rests (w.clearRevoked o) := by
        unfold State.clearRevoked
        split
        · exact w.rests_offer _
        · exact .refl w
      exact ((State.Rests.of_tables rfl : v.Rests (v.unscheduleRecord o.credential)).trans (overstay _)).trans (revoked _)
    obtain ⟨supply, presentations, receiving, outstanding, count⟩ := cleared.toSameWatch
    exact ⟨supply, presentations, receiving, outstanding, count⟩
  have lapsed : s.SameWatch s.lapseAll :=
    foldl_property (P := s.SameWatch) (fun v o hv => (hv.trans (v.rests_put _).toSameWatch).trans (left _ o)) _ s (.refl s)
  have discarded : s.SameWatch s.lapseAll.discardGroups := by
    obtain ⟨supply, presentations, receiving, outstanding, count⟩ := lapsed.trans
      (foldl_property (P := s.lapseAll.Rests) (fun v g hv => foldl_property (P := s.lapseAll.Rests)
        (fun v m hv => hv.trans (v.rests_put _)) g.members v hv) s.lapseAll.groups s.lapseAll (.refl _)).toSameWatch
    exact ⟨supply, presentations, receiving, outstanding, count⟩
  have entry (v : State) (o : Occupant) : v.SameWatch (v.rebuildEntry o) := by
    unfold State.rebuildEntry
    split <;> exact ⟨rfl, rfl, rfl, rfl, rfl⟩
  have alert (v : State) (a : RoomAlert) (n : Nat) : v.SameWatch (v.rebuildAlert a n) := by
    unfold State.rebuildAlert State.reevaluate
    (repeat' split)
    · exact ⟨rfl, rfl, rfl, rfl, rfl⟩
    · exact ((v.rests_moveRoomAlert a n _).toSameWatch).trans ⟨rfl, rfl, rfl, rfl, rfl⟩
    · exact .refl v
    · exact .refl v
    · exact .refl v
    · exact ((v.rests_moveRoomAlert a n _).toSameWatch).trans ⟨rfl, rfl, rfl, rfl, rfl⟩
    · exact ((v.rests_moveRoomAlert a n _).toSameWatch).trans ⟨rfl, rfl, rfl, rfl, rfl⟩
  rw [warmWork_eq]
  exact foldl_property (P := s.SameWatch) (fun v x hv => hv.trans (alert v x.2 x.1)) _ _
    (foldl_property (P := s.SameWatch) (fun v o hv => hv.trans (entry v o)) _ _ discarded)

theorem warmWork_groups (s : State) : s.warmWork.groups = [] := by
  have entry (v : State) (o : Occupant) : (v.rebuildEntry o).groups = v.groups := by
    unfold State.rebuildEntry
    split <;> rfl
  have alert (v : State) (x : Nat × RoomAlert) : (v.rebuildAlert x.2 x.1).groups = v.groups := by
    unfold State.rebuildAlert
    split <;> simp
  rw [warmWork_eq, foldl_keeps State.groups _ alert, foldl_keeps State.groups _ entry]
  rfl

theorem warmWork_pool (s : State) : s.warmWork.pool = s.lapseAll.pool := by
  have entry (v : State) (o : Occupant) : (v.rebuildEntry o).pool = v.pool := by
    unfold State.rebuildEntry
    split <;> rfl
  have alert (v : State) (x : Nat × RoomAlert) : (v.rebuildAlert x.2 x.1).pool = v.pool := by
    unfold State.rebuildAlert
    split <;> simp
  obtain ⟨v, ⟨-, -, -, -, -, hpool, -⟩, hd⟩ := discardGroups_eq s.lapseAll
  rw [warmWork_eq, foldl_keeps State.pool _ alert, foldl_keeps State.pool _ entry, hd]
  exact hpool

theorem State.Restarting.warmWork (h : s.Restarting) : s.warmWork.Restarting := by
  refine h.of_watch (warmWork_watch s) fun ⟨hp, _⟩ => ⟨?_, warmWork_groups s⟩
  rw [warmWork_pool, State.lapseAll, foldl_lapse_pool, hp]
  rfl

/-- R178: each numbered step keeps the part so. -/
theorem State.Restarting.startUpStep (h : s.Restarting) (k : RestartKind) (lost : Bool) (rate : Nat) (x : StartUpStep) :
    (s.startUpStep k lost rate x).Restarting := by
  cases x with
  | unretained => exact resetUnretained_restarting h.vacant
  | kind =>
    obtain ⟨stop, vacant, presentations, receiving, outstanding, count⟩ := h
    cases k with
    | powerOn => exact ⟨stop, fun _ => ⟨rfl, rfl⟩, presentations, receiving, outstanding, count⟩
    | restartClean => exact ⟨stop, fun _ => ⟨rfl, rfl⟩, presentations, receiving, outstanding, count⟩
    | resetLine => exact ⟨stop, vacant, presentations, receiving, outstanding, count⟩
    | restartWarm => exact ⟨stop, vacant, presentations, receiving, outstanding, count⟩
  | mode =>
    obtain ⟨stop, -, presentations, receiving, outstanding, count⟩ := h
    exact ⟨stop, fun hm => absurd hm (Supply.modeOfLine_ne_standby _), presentations, receiving, outstanding, count⟩
  | record => exact h.of_rests (s.rests_put _)
  | ready =>
    obtain ⟨stop, vacant, presentations, receiving, outstanding, count⟩ := h
    exact ⟨stop, vacant, presentations, receiving, outstanding, count⟩
  | engine =>
    cases k with
    | powerOn => exact h
    | restartClean => exact h
    | resetLine => exact h.warmWork
    | restartWarm => exact h.warmWork
  | mark =>
    obtain ⟨stop, vacant, presentations, receiving, outstanding, count⟩ := h
    exact ⟨stop, vacant, presentations, receiving, outstanding, count⟩

/-- R178: every start-up carries out its first step. -/
theorem stepsTaken_first (cut : Option StartUpCut) : ∃ l, stepsTaken cut = .unretained :: l := by
  cases cut with
  | none => exact ⟨_, rfl⟩
  | some c =>
    obtain ⟨after, hold⟩ := c
    cases after <;> exact ⟨_, rfl⟩

/-- R176, R178: after the steps of a start-up nobody is entering. -/
theorem startUpSteps_nobody (hc : (s.pool.map Occupant.credential).Nodup) (hr : ∀ o ∈ s.pool, 1 ≤ o.room ∧ o.room ≤ 12)
    (k : RestartKind) (lost : Bool) (rate : Nat) :
    ∀ o ∈ (startUpSteps.foldl (State.startUpStep k lost rate) s).pool, o.presence ≠ .admitting := by
  have warm (v : State) (hv : v.pool = s.pool) : ∀ o ∈ v.warmWork.pool, o.presence ≠ .admitting := fun o ho => by
    rw [warmWork_pool, lapseAll_pool (hv ▸ hc) (hv ▸ hr)] at ho
    exact of_decide_eq_true (List.mem_filter.1 ho).2
  have began (v : State) : (((v.takeMode rate).putRestart k lost).offerReady k lost).pool = v.pool := by
    simp [State.putRestart, State.offerReady, State.takeMode]
  have steps : (startUpSteps.foldl (State.startUpStep k lost rate) s).pool =
      (((((s.resetUnretained.takeKind k lost).takeMode rate).putRestart k lost).offerReady k lost).engineWork k).pool := rfl
  rw [steps]
  cases k with
  | powerOn =>
    rw [State.engineWork, began]
    exact fun o ho => absurd ho List.not_mem_nil
  | restartClean =>
    rw [State.engineWork, began]
    exact fun o ho => absurd ho List.not_mem_nil
  | resetLine =>
    rw [State.engineWork]
    exact warm _ (began _)
  | restartWarm =>
    rw [State.engineWork]
    exact warm _ (began _)

/-- R178: a start-up, whole or cut short, leaves a poised part. -/
theorem startUp_poised (hc : (s.pool.map Occupant.credential).Nodup) (hr : ∀ o ∈ s.pool, 1 ≤ o.room ∧ o.room ≤ 12)
    (hv : s.supply.mode = .standby → s.pool = [] ∧ s.groups = []) (event : RestartKind) (inputs : RestartInputs) :
    (s.startUp event inputs).Poised := by
  have mode (p : Supply) (b : Backup) (k : RestartKind) : ((p.backedUp b).startingUp k).mode = p.mode := by
    cases b <;> unfold Supply.startingUp <;> split <;> rfl
  unfold State.startUp
  dsimp only
  generalize (s.supply.backedUp inputs.backup).decideKind event = kind
  generalize hw : ({ s with supply := (s.supply.backedUp inputs.backup).startingUp kind.1 } : State) = w
  have taken : ((stepsTaken inputs.cut).foldl (State.startUpStep kind.1 kind.2 (rateOfStraps inputs)) w).Restarting := by
    obtain ⟨l, hl⟩ := stepsTaken_first inputs.cut
    rw [hl, List.foldl_cons]
    refine foldl_property (P := State.Restarting) (fun v x hv => hv.startUpStep _ _ _ x) l _
      (resetUnretained_restarting fun hm => ?_)
    subst hw
    exact hv (mode _ _ _ ▸ hm)
  split
  · rename_i hcut
    rw [hcut] at taken ⊢
    have nobody := startUpSteps_nobody (s := w) (hw ▸ hc) (hw ▸ hr) kind.1 kind.2 (rateOfStraps inputs)
    refine ⟨admittingAwaited_of_nobody nobody, ?_⟩
    exact ((taken.of_rests (State.rests_restartLine _)).of_rests (State.rests_pump _)).standbyEmpty
  · refine ⟨admittingAwaited_of_inReset (State.holdAgain_spec _ _).1, ?_⟩
    refine State.Restarting.standbyEmpty ⟨?_, fun hm => taken.vacant ?_, taken.presentations, rfl, rfl, taken.count⟩
    · rename_i c _
      cases hh : c.hold <;> simpa [State.holdAgain, hh] using taken.stop
    · rename_i c _
      cases hh : c.hold <;> simpa [State.holdAgain, hh] using hm

end

end Sys2Proof.Machine
end

