-- ==== Sys2Proof/Proofs/AwaitingKept.lean ====
section
/-! O60: every step keeps the stations of ADMITTING records awaiting their entries, and what is asked of STANDBY. A
command that moves the supply keeps both by its own rule; every other command leaves the supply as it is. -/
namespace Sys2Proof.Machine

section
variable {s t : State} {i : Instr} {serve : List Byte → State → Except ReplyCode (State × List Byte)}

/-! ### The mode and the restart requests (R173, R174, R177) -/

/-- A request that is served is served outside STANDBY. -/
theorem State.Poised.awake_of_unserved (h : s.Poised) {f : Frame} (hu : s.unserved = some f) : s.supply.mode ≠ .standby :=
  fun hm => by
    rw [(h.2.dormant hm).unserved] at hu
    cases hu

/-- A reply handed outside STANDBY, with no stop to come. -/
theorem State.Poised.hand (h : s.Poised) (hm : s.supply.mode ≠ .standby) (f : Frame) (code : ReplyCode) (r : List Byte) :
    (s.hand f code r).Poised :=
  poised_of_awake (h.1.of_same rfl rfl rfl) hm (h.2.stop_of_awake hm)

/-- R164: a request leaves the part poised when its service, outside STANDBY, gives a state whose reply can be handed. -/
theorem poised_of_request (h : s.Poised) (he : requestJob i s serve = .next t)
    (hs : s.supply.mode ≠ .standby → ∀ b u r, serve b s = .ok (u, r) → ∀ f, (u.hand f .ok r).Poised) : t.Poised := by
  unfold requestJob at he
  (repeat' split at he) <;> cases he
  · rename_i f hu
    have awake := h.awake_of_unserved hu
    unfold State.answer
    split
    · exact (h.hand awake _ _ _).pump
    · rename_i hx
      exact (hs awake _ _ _ hx f).pump
  · exact h
  · exact h

/-- R173: RUN. -/
theorem State.Poised.requestRun (h : s.Poised) : s.requestRun.Poised := by
  unfold State.requestRun
  split
  · rename_i hm
    exact (h.changeMode (by simp [hm]) (by simp) ..).settleSweep
  · exact h

/-- R173: RESERVE. -/
theorem State.Poised.requestReserve (h : s.Poised) : s.requestReserve.Poised := by
  unfold State.requestReserve
  split
  · rename_i hm
    exact h.changeMode (by simp [hm]) (by simp) ..
  · exact ⟨h.1.of_same rfl rfl rfl, h.2⟩
  · exact h

theorem requestRun_awake (hm : s.supply.mode ≠ .standby) : s.requestRun.supply.mode ≠ .standby := by
  unfold State.requestRun
  split
  · simp [changeMode_supply]
  · exact hm

theorem requestReserve_awake (hm : s.supply.mode ≠ .standby) : s.requestReserve.supply.mode ≠ .standby := by
  unfold State.requestReserve
  split
  · simp [changeMode_supply]
  · exact hm
  · exact hm

/-- R174: an accepted STANDBY, its reply handed: the part is empty, and its request is outstanding until the stop. -/
theorem requestStandby_poised (hm : s.supply.mode ≠ .standby) (hp : s.pool = []) (hg : s.groups = [])
    (hpr : s.presentations = []) (f : Frame) (code : ReplyCode) (r : List Byte) :
    (s.requestStandby.hand f code r).Poised := by
  have pool : s.requestStandby.pool = [] := by simp [State.requestStandby, hm, hp]
  refine ⟨admittingAwaited_of_nobody fun o ho => ?_, ?_, fun _ => ⟨pool, ?_, ?_, rfl, fun hs => ?_⟩⟩
  · rw [show (s.requestStandby.hand f code r).pool = [] from pool] at ho
    cases ho
  · intro _
    exact ⟨by simp [State.requestStandby, hm, State.hand, changeMode_supply], nofun⟩
  · simp [State.requestStandby, hm, State.hand, hg]
  · simp [State.requestStandby, hm, State.hand, hpr]
  · simp [State.requestStandby, hm, State.hand] at hs

/-! ### The lines of the supply (R172, R175, R176) -/

/-- A change of the supply in which the mode and the stop to come stand. -/
theorem State.Poised.withSupply (h : s.Poised) {p : Supply} (hr : ({ s with supply := p } : State).inReset = s.inReset)
    (hm : p.mode = s.supply.mode) (hs : p.stopPending = s.supply.stopPending) :
    State.Poised { s with supply := p } := by
  refine ⟨h.1.of_same rfl rfl hr, ?_⟩
  simpa [State.StandbyEmpty, State.unserved, hm, hs] using h.2

theorem State.Poised.setSupplyGood (h : s.Poised) (level : Bool) : (s.setSupplyGood level).Poised :=
  h.withSupply rfl rfl rfl

theorem State.Poised.setAttention (h : s.Poised) (level : Bool) : (s.setAttention level).Poised :=
  h.withSupply rfl rfl rfl

theorem State.Poised.wakeEvent (h : s.Poised) (c : ModeCause) : (s.wakeEvent c).Poised :=
  wakeEvent_poised h.1 h.2.vacant c

theorem State.Poised.supplyFell (h : s.Poised) : s.supplyFell.Poised := by
  unfold State.supplyFell
  split
  · rename_i hm
    exact h.changeMode (by simp [hm]) (by simp) ..
  · exact h
  · exact h.wakeEvent _

theorem State.Poised.supplyRose (h : s.Poised) : s.supplyRose.Poised := by
  unfold State.supplyRose
  split
  · exact h
  · rename_i hm
    split
    · exact h
    · exact (h.changeMode (by simp [hm]) (by simp) ..).settleSweep
  · exact h.wakeEvent _

/-- R176: the supply of a part held in reset, in its mode and with its stop to come. -/
theorem State.StandbyEmpty.poised_inReset (h : s.StandbyEmpty) {p : Supply}
    (hr : ({ s with supply := p } : State).inReset = true) (hm : p.mode = s.supply.mode)
    (hs : p.stopPending = s.supply.stopPending) : State.Poised { s with supply := p } := by
  refine ⟨admittingAwaited_of_inReset hr, ?_⟩
  simpa [State.StandbyEmpty, State.unserved, hm, hs] using h

/-- What a start-up asks of the part. -/
structure State.Bootable (s : State) : Prop where
  credentials : (s.pool.map Occupant.credential).Nodup
  rooms : ∀ o ∈ s.pool, 1 ≤ o.room ∧ o.room ≤ 12
  vacant : s.supply.mode = .standby → s.pool = [] ∧ s.groups = []

theorem State.PersonsSound.bootable (h : s.PersonsSound) (hs : s.StandbyEmpty) : s.Bootable := by
  obtain ⟨credentials, -, -, rooms, -⟩ := h
  exact ⟨(List.nodup_append.1 credentials).1, rooms, fun hm => ⟨(hs.2 hm).1, (hs.2 hm).2.1⟩⟩

theorem State.Bootable.startUp (h : s.Bootable) (event : RestartKind) (inputs : RestartInputs) :
    (s.startUp event inputs).Poised := startUp_poised h.credentials h.rooms h.vacant event inputs

theorem backedUp_mode (p : Supply) (b : Backup) : (p.backedUp b).mode = p.mode := by
  cases b <;> rfl

theorem backedUp_stopPending (p : Supply) (b : Backup) : (p.backedUp b).stopPending = p.stopPending := by
  cases b <;> rfl

/-- R176: a hold in reset ended, the other standing or not. -/
theorem leaveReset_poised (hb : s.Bootable) (hs : s.StandbyEmpty) (inputs : RestartInputs) :
    (s.leaveReset inputs).Poised := by
  unfold State.leaveReset
  dsimp only
  split
  · rename_i hr
    exact hs.poised_inReset hr (backedUp_mode ..) (backedUp_stopPending ..)
  · exact State.Bootable.startUp (s := { s with supply := s.supply.backedUp inputs.backup })
      ⟨hb.credentials, hb.rooms, fun hm => hb.vacant ((backedUp_mode ..).symm.trans hm)⟩ _ _

/-! ### The last byte of a frame (R165, R174, R177) -/

/-- R165, R174, R177: after its reply the part restarts, stops, or goes on. -/
theorem replySent_poised (ha : s.AdmittingAwaited) (hb : s.Bootable) (hv : s.supply.mode = .standby → s.presentations = [])
    (ho : s.host.outstanding = none) (hstop : s.supply.stopPending = true → s.supply.mode = .standby)
    (hrun : s.supply.stopPending = false → s.StandbyEmpty) (inputs : RestartInputs) : (s.replySent inputs).Poised := by
  unfold State.replySent
  split
  · exact hb.startUp ..
  · exact hb.startUp ..
  · split
    · rename_i hs
      have standby := hstop hs
      obtain ⟨hp, hg⟩ := hb.vacant standby
      exact (stop_poised ha hp hg (hv standby) (by rw [State.unserved, ho])).pump
    · rename_i hs
      exact State.Poised.pump ⟨ha, hrun (by simpa using hs)⟩

theorem execFrameSent_poised (h : s.Poised) (hb : s.Bootable) {inputs : RestartInputs}
    (he : execFrameSent inputs s = .next t) : t.Poised := by
  have freed : State.Poised { s with host := { s.host with sending := none } } := ⟨h.1.of_same rfl rfl rfl, h.2⟩
  unfold execFrameSent at he
  (repeat' split at he) <;> cases he
  · exact h
  · exact h
  · refine replySent_poised (s := { s with host := { s.host with sending := none, outstanding := none } })
      (h.1.of_same rfl rfl rfl) ⟨hb.credentials, hb.rooms, hb.vacant⟩ (fun hm => (h.2.dormant hm).presentations) rfl
      (fun hs => (h.2.1 hs).1) (fun hs => ?_) inputs
    refine ⟨fun hs' => absurd hs (by rw [hs']; nofun), fun hm => ?_⟩
    obtain ⟨hp, hg, hpr, -, hstop⟩ := h.2.2 hm
    exact ⟨hp, hg, hpr, rfl, hstop⟩
  · exact freed.pump
  · exact freed.pump

/-! ### Every command that moves the supply -/

/-- R171, R175: a start byte. In STANDBY it wakes the part, or is held until the stop. -/
theorem execStartByteReceived_poised (h : s.Poised) (he : execStartByteReceived s = .next t) : t.Poised := by
  unfold execStartByteReceived at he
  split at he <;> cases he
  · exact h
  · exact State.Poised.pump (wakeEvent_poised (s := { s with host := { s.host with receiving := true } })
      (h.1.of_same rfl rfl rfl) h.2.vacant _)

/-- A command that moves the supply keeps both. -/
theorem exec_poised (h : s.Poised) (hb : s.Bootable) (hi : movesSupply i = true) (he : exec i s = .next t) :
    t.Poised := by
  cases i <;> simp only [movesSupply, Bool.false_eq_true] at hi <;> dsimp only [exec] at he
  case frameSent => exact execFrameSent_poised h hb he
  case startByteReceived => exact execStartByteReceived_poised h he
  case modeRequestRun =>
    refine poised_of_request h he fun hm b u r hs f => ?_
    unfold serveModeRun at hs
    (repeat' split at hs) <;> cases hs
    exact h.requestRun.hand (requestRun_awake hm) ..
  case modeRequestReserve =>
    refine poised_of_request h he fun hm b u r hs f => ?_
    unfold serveModeReserve at hs
    split at hs <;> cases hs
    exact h.requestReserve.hand (requestReserve_awake hm) ..
  case modeRequestStandby =>
    refine poised_of_request h he fun hm b u r hs f => ?_
    unfold serveModeStandby at hs
    (repeat' split at hs) <;> cases hs
    rename_i hoccupied hbusy
    simp at hoccupied
    simp [State.lineBusy] at hbusy
    exact requestStandby_poised hm hoccupied.1 hoccupied.2 hbusy.1.1.1 ..
  case restartWarmRequest | restartCleanRequest =>
    refine poised_of_request h he fun hm b u r hs f => ?_
    obtain ⟨_, -, ha⟩ := except_map_ok hs
    cases ha
    exact (h.withSupply rfl rfl rfl).hand hm ..
  case supplyFall =>
    unfold execSupplyFall at he
    (repeat' split at he) <;> cases he
    · exact h
    · exact h.setSupplyGood false
    · exact (h.setSupplyGood false).supplyFell.pump
  case supplyRise =>
    unfold execSupplyRise at he
    (repeat' split at he) <;> cases he
    · exact h
    · exact h.setSupplyGood true
    · exact (h.setSupplyGood true).supplyRose.pump
  case attention =>
    unfold execAttention at he
    split at he <;> cases he
    · exact h.setAttention _
    · exact ((h.setAttention _).wakeEvent _).pump
  case resetLineActive =>
    cases he
    exact h.2.poised_inReset (p := { s.supply with resetActive := true }) rfl rfl rfl
  case mainSupplyLoss =>
    cases he
    exact h.2.poised_inReset (p := { s.supply with mainLost := true }) (by simp [State.inReset]) rfl rfl
  case resetLineReleased =>
    unfold execResetLineReleased at he
    split at he <;> cases he
    · exact leaveReset_poised (s := { s with supply := { s.supply with resetActive := false } })
        ⟨hb.credentials, hb.rooms, hb.vacant⟩ h.2 _
    · exact h
  case mainSupplyUp =>
    unfold execMainSupplyUp at he
    split at he <;> cases he
    · exact leaveReset_poised (s := { s with supply := { s.supply with mainLost := false } })
        ⟨hb.credentials, hb.rooms, hb.vacant⟩ h.2 _
    · exact h

/-! ### The step -/

/-- R70: every group waits at a station of the table. -/
theorem State.Poised.expects (h : s.Poised) (hp : s.PersonsSound) : s.Expects s.supply none := by
  obtain ⟨-, -, groups, -, -⟩ := hp
  refine ⟨fun hr o ho ha _ => h.1 hr o ho ha, fun g hg => ?_, rfl⟩
  obtain ⟨-, -, hroom, hlow, -⟩ := groups g hg
  exact listed_of_bound (by omega)

theorem exec_keeps_poised (h : s.Poised) (hp : s.PersonsSound)
    (hq : ∀ x ∈ s.presentations, 1 ≤ x.station ∧ x.station ≤ s.stations.length) (he : exec i s = .next t) : t.Poised := by
  cases hi : movesSupply i with
  | true => exact exec_poised h (hp.bootable h.2) hi he
  | false =>
    have kept := exec_expects (h.expects hp) hq hi he
    refine ⟨kept.admittingAwaited, ?_⟩
    by_cases hm : s.supply.mode = .standby
    · exact exec_dormant h.2 hm hi he
    · exact standbyEmpty_of_awake (by rwa [kept.supply]) (by rw [kept.supply]; exact h.2.stop_of_awake hm)

/-- Settles O60: a command that moves the supply keeps both by its own rule; every other command, and a second passed,
leaves the supply, so that STANDBY is entered by none of them. -/
theorem stepKeepsAdmittingAwaited : Obligations.StepKeepsAdmittingAwaited := by
  intro s t ⟨_, _, _, _, _, _, hpres⟩ ⟨hlen, _⟩ hp ha hs he
  have poised : s.Poised := ⟨ha, hs⟩
  have stations : ∀ x ∈ s.presentations, 1 ≤ x.station ∧ x.station ≤ s.stations.length := fun x hx => by
    obtain ⟨hlow, hhigh, -⟩ := hpres x hx
    exact ⟨hlow, hlen ▸ hhigh⟩
  unfold step at he
  split at he
  · rename_i c rest _
    exact exec_keeps_poised (s := { s with pending := rest }) poised hp stations he
  · split at he
    · exact exec_keeps_poised poised hp stations he
    · cases he
      exact ⟨(poised.expects hp).tick.admittingAwaited, hs.tick⟩

end

end Sys2Proof.Machine
end

