-- ==== Sys2Proof/Proofs/Verdicts.lean ====
section
/-! Verdicts and refusals of the entry decision (R45 to R64, R140). -/
namespace Sys2Proof.Machine

section
variable {s : State} {st : Station} {outcome : VerdictOutcome} {reason : Reason} {old : Verdict}

/-! ### The slot of a station (R48, R140) -/

/-- R47: the seconds of a verdict. -/
def Station.secondsFor (st : Station) (outcome : VerdictOutcome) : Nat :=
  if outcome = .release then st.releaseTime else 0

theorem place_empty (h : st.verdict = none) : st.place outcome reason =
    { st with verdict := some ⟨outcome, reason, st.secondsFor outcome, st.verdictToggle, false⟩ } := by
  rw [Station.place, h]
  rfl

/-- R48: an undelivered RELEASE keeps its slot against a verdict that is none. -/
theorem place_behind_release (h : st.verdict = some old) (ho : old.outcome = .release) (hn : outcome ≠ .release) :
    st.place outcome reason = st := by
  rw [Station.place, h]
  exact if_pos ⟨ho, hn⟩

theorem place_over_unsent (h : st.verdict = some old) (ho : old.outcome ≠ .release ∨ outcome = .release)
    (hs : old.sent = false) : st.place outcome reason =
      { st with verdict := some ⟨outcome, reason, st.secondsFor outcome, old.toggle, false⟩ } := by
  have yields : ¬ (old.outcome = .release ∧ outcome ≠ .release) := fun hk => ho.elim (· hk.1) hk.2
  rw [Station.place, h]
  exact (if_neg yields).trans (if_neg (by simp [hs]))

/-- R140: a verdict in the place of one already sent is a new one, so the toggle turns. -/
theorem place_over_sent (h : st.verdict = some old) (ho : old.outcome ≠ .release ∨ outcome = .release)
    (hs : old.sent = true) : st.place outcome reason =
      { st with
        verdictToggle := !st.verdictToggle
        verdict := some ⟨outcome, reason, st.secondsFor outcome, !st.verdictToggle, false⟩ } := by
  have yields : ¬ (old.outcome = .release ∧ outcome ≠ .release) := fun hk => ho.elim (· hk.1) hk.2
  rw [Station.place, h]
  exact (if_neg yields).trans (if_pos hs)

/-! ### A decision concluded (R45, R49, R63, R64) -/

theorem conclude_eq {p : Presentation} (h1 : 1 ≤ p.station) (hn : p.station ≤ s.stations.length) (permit : Nat)
    (record : TrailRecord) : s.conclude p outcome reason permit record =
      ((s.setStation p.station { (s.station p.station).place outcome reason with
        last := some ⟨p.side, p.credential, p.taken, outcome, reason⟩ }).put record).offerDecision
        { station := p.station, side := p.side, credential := p.credential, taken := p.taken, decided := s.now
          outcome := outcome, reason := reason, permit := permit, room := (s.station p.station).room } := by
  rw [State.conclude, placed_last outcome reason h1 hn]

end

/-- Settles O45, by the cases of the slot; the notice is offered under the setting as the decision found it. -/
theorem verdictsPlaced : Obligations.VerdictsPlaced := by
  refine ⟨fun st outcome reason => ⟨place_empty, fun old => place_behind_release, fun old => place_over_unsent,
    fun old => place_over_sent⟩, fun s p outcome reason permit record h1 hn => ?_, ?_⟩
  · intro st recorded
    have settings : recorded.settings = s.settings := by simp [recorded]
    rw [conclude_eq h1 hn, State.offerDecision, show (State.put _ record).settings = s.settings from settings]
  · simp [Reason.cls]

end Sys2Proof.Machine
end

