-- ==== Sys2Proof/Proofs/Refusals.lean ====
section
/-! The refusals of an entry (R46, R50 to R60, R62): before the room checks, and by them. -/
namespace Sys2Proof.Machine

section
variable {s t : State} {p : Presentation} {rest : List Presentation} {q : Permit}

/-! ### A presentation from outside (R45, R117) -/

theorem requestRow_ne_entry (f : Frame) : requestRow f ≠ .entryDecision := by
  unfold requestRow modeRequestRow restartRow
  (repeat' split) <;> exact nofun

/-- R45, R117: only the PRESENT class has an entry decision waiting, and then for a presentation from outside. -/
theorem outside_of_work {c : JobClass} (h : s.work c = some .entryDecision) (hp : s.presentations = p :: rest) :
    p.side = .outside := by
  cases c with
  | present =>
    unfold State.work at h
    rw [hp] at h
    change some (if p.side = .outside then Instr.entryDecision else .exitDecision) = _ at h
    by_contra hside
    rw [if_neg hside] at h
    cases h
  | door =>
    unfold State.work at h
    dsimp only at h
    (repeat' split at h) <;> cases h
  | timer =>
    obtain ⟨e, -, he⟩ := Option.map_eq_some_iff.1 h
    cases hw : e.what <;> rw [hw] at he <;> cases he
  | request =>
    unfold State.work at h
    dsimp only at h
    split at h
    · split at h
      · cases h
      · exact absurd (Option.some.inj h) (requestRow_ne_entry _)
    · cases h
  | sweep =>
    unfold State.work at h
    dsimp only at h
    split at h <;> cases h

theorem outside_of_granted (hg : s.granted = some .entryDecision) (hp : s.presentations = p :: rest) :
    p.side = .outside := by
  unfold State.granted at hg
  split at hg
  · cases hg
  · obtain ⟨c, -, hc⟩ := List.exists_of_findSome?_eq_some hg
    exact outside_of_work hc hp

/-! ### The checks of one permit (R56) -/

theorem failure_eq (s : State) (n : Nat) (p : Permit) : s.failure n p =
    if n ∉ p.rooms then some (1, .roomNotPermitted)
    else if p.status = .suspended then some (2, .suspended)
    else if s.nowMinute < p.validFrom then some (3, .notYetValid)
    else if p.validUntil ≤ s.nowMinute then some (3, .expired)
    else if occurrence p.window s.settings.weekdayOffset s.nowMinute = .outside then some (4, .outsideHours)
    else if p.allowance = some 0 then some (5, .allowanceSpent)
    else if stayDeadline p s.settings.weekdayOffset s.nowMinute < s.nowMinute + (s.room n).minStay then some (6, .tooLate)
    else none := by
  have listed : (!p.rooms.contains n) = true ↔ n ∉ p.rooms := by simp
  rw [State.failure, if_congr listed rfl rfl]
  rfl

/-! ### The permits tried, and the worst failure (R56 to R58) -/

theorem insertByNumber_ascending (p : Permit) (l : List Permit) (h : l.Pairwise (fun p q => p.number ≤ q.number)) :
    (insertByNumber p l).Pairwise (fun p q => p.number ≤ q.number) := by
  induction l with
  | nil => simp [insertByNumber]
  | cons q qs ih =>
    obtain ⟨hq, hqs⟩ := List.pairwise_cons.1 h
    rw [insertByNumber]
    split
    · rename_i hlt
      refine List.pairwise_cons.2 ⟨fun x hx => ?_, h⟩
      rcases List.mem_cons.1 hx with rfl | hx
      · exact hlt.le
      · exact hlt.le.trans (hq x hx)
    · rename_i hge
      refine List.pairwise_cons.2 ⟨fun x hx => ?_, ih hqs⟩
      rcases List.mem_cons.1 ((insertByNumber_perm p qs).mem_iff.1 hx) with rfl | hx
      · exact Nat.not_lt.1 hge
      · exact hq x hx

/-- R56: the permits of a credential are tried in ascending number. -/
theorem permitsOf_ascending (s : State) (c : Nat) : (s.permitsOf c).Pairwise (fun p q => p.number ≤ q.number) := by
  unfold State.permitsOf
  induction (s.permits.map Prod.snd).filter (fun p => p.credential = c) with
  | nil => exact .nil
  | cons p l ih => exact insertByNumber_ascending p _ ih

/-- The failure of `p` is the worst of the list, and no permit of a lower number in it fails as badly. -/
def WorstOf (fails : Permit → Option (Nat × Reason)) (l : List Permit) (p : Permit) (rank : Nat) (reason : Reason) : Prop :=
  p ∈ l ∧ fails p = some (rank, reason)
    ∧ ∀ x ∈ l, ∃ rank' reason', fails x = some (rank', reason') ∧ rank' ≤ rank ∧ (rank' = rank → p.number ≤ x.number)

/-- R58: where every permit fails, the failure reported is the worst of them. -/
theorem worstFailure_worst {fails : Permit → Option (Nat × Reason)} {l : List Permit} (hne : l ≠ [])
    (hl : l.Pairwise (fun p q => p.number ≤ q.number)) (hf : ∀ x ∈ l, fails x ≠ none) :
    ∃ p rank reason, worstFailure fails l = some (p, rank, reason) ∧ WorstOf fails l p rank reason := by
  induction l with
  | nil => exact absurd rfl hne
  | cons p ps ih =>
    obtain ⟨⟨rank, reason⟩, hp⟩ := Option.ne_none_iff_exists'.1 (hf p List.mem_cons_self)
    obtain ⟨lowest, ascending⟩ := List.pairwise_cons.1 hl
    have own : ∃ rank' reason', fails p = some (rank', reason') ∧ rank' ≤ rank ∧ (rank' = rank → p.number ≤ p.number) :=
      ⟨rank, reason, hp, le_rfl, fun _ => le_rfl⟩
    by_cases hps : ps = []
    · subst hps
      exact ⟨p, rank, reason, by simp [worstFailure, hp], List.mem_cons_self, hp, by simpa using own⟩
    · obtain ⟨q, worst, cause, hw, hq, hfq, hall⟩ := ih hps ascending fun x hx => hf x (List.mem_cons_of_mem _ hx)
      rw [worstFailure, hp, hw]
      by_cases hrank : rank < worst
      · refine ⟨q, worst, cause, if_pos hrank, List.mem_cons_of_mem _ hq, hfq, fun x hx => ?_⟩
        rcases List.mem_cons.1 hx with rfl | hx
        · exact ⟨rank, reason, hp, hrank.le, fun he => absurd he hrank.ne⟩
        · exact hall x hx
      · refine ⟨p, rank, reason, if_neg hrank, List.mem_cons_self, hp, fun x hx => ?_⟩
        rcases List.mem_cons.1 hx with rfl | hx
        · exact own
        · obtain ⟨rank', reason', hx', hle, -⟩ := hall x hx
          exact ⟨rank', reason', hx', hle.trans (Nat.not_lt.1 hrank), fun _ => lowest x hx⟩

theorem permitsOf_nil {c : Nat} (h : ∀ e ∈ s.permits, e.2.credential ≠ c) : s.permitsOf c = [] := by
  refine List.eq_nil_iff_forall_not_mem.2 fun q hq => ?_
  obtain ⟨e, he, rfl, hc⟩ := (mem_permitsOf s c q).1 hq
  exact h e he hc

/-- R55: a credential that no permit names. -/
theorem tryPermits_unnamed (h : ∀ e ∈ s.permits, e.2.credential ≠ p.credential) :
    s.tryPermits p = s.refuse p .noPermit 0 0 := by
  rw [State.tryPermits, permitsOf_nil h]
  rfl

/-- R58: the refusal names the worst failure and its permit. -/
theorem tryPermits_fails (hex : ∃ e ∈ s.permits, e.2.credential = p.credential)
    (hf : ∀ e ∈ s.permits, e.2.credential = p.credential → s.failure (s.station p.station).room e.2 ≠ none) :
    ∃ q rank reason, WorstOf (s.failure (s.station p.station).room) (s.permitsOf p.credential) q rank reason
      ∧ s.tryPermits p = s.refuse p reason q.number (if reason = .tooLate then s.provisional q else 0) := by
  have named (x : Permit) (hx : x ∈ s.permitsOf p.credential) : s.failure (s.station p.station).room x ≠ none := by
    obtain ⟨e, he, rfl, hc⟩ := (mem_permitsOf s _ x).1 hx
    exact hf e he hc
  obtain ⟨e, he, hc⟩ := hex
  obtain ⟨q, rank, reason, hw, worst⟩ := worstFailure_worst
    (List.ne_nil_of_mem ((mem_permitsOf s _ e.2).2 ⟨e, he, rfl, hc⟩)) (permitsOf_ascending s _) named
  have unfit : (s.permitsOf p.credential).find? (fun q => s.failure (s.station p.station).room q = none) = none :=
    List.find?_eq_none.2 fun x hx => by simpa using named x hx
  refine ⟨q, rank, reason, worst, ?_⟩
  rw [State.tryPermits, unfit]
  dsimp only
  rw [hw]

/-! ### The room checks and the group checks (R59, R60, R62) -/

theorem roomChecks_closed (h : (s.room (s.station p.station).room).mode = .closed) :
    s.roomChecks p q = s.refuse p .roomClosed q.number 0 := if_pos h

/-- R59: a strict room while no half is FILLING. -/
theorem roomChecks_trailFull (hm : (s.room (s.station p.station).room).mode ≠ .closed)
    (hs : (s.room (s.station p.station).room).strict = true) (hf : s.trail.filling = none) :
    s.roomChecks p q = s.refuse p .trailFull q.number 0 :=
  (if_neg hm).trans (if_pos (by simp [hs, Trail.full, hf]))

/-- R59: the room open, and its trail kept where it must be. -/
theorem roomChecks_open (hm : (s.room (s.station p.station).room).mode ≠ .closed)
    (hs : (s.room (s.station p.station).room).strict = true → s.trail.filling ≠ none) : s.roomChecks p q =
      if (s.room (s.station p.station).room).capacity
          < (s.occupants (s.station p.station).room).length + s.reserved (s.station p.station).room + 1 then
        s.refuse p .roomFull q.number 0
      else if Config.poolRecords < s.pool.length + s.members.length + 1 then s.refuse p .occupancyFull q.number 0
      else s.admitOrPair p q :=
  (if_neg hm).trans (if_neg (by simpa [Trail.full] using hs))

theorem admitOrPair_groupFull {g : Group} (hg : s.groupAt p.station = some g) (hl : 4 ≤ g.members.length) :
    s.admitOrPair p q = s.refuse p .groupFull q.number 0 := by
  rw [State.admitOrPair, hg]
  exact if_pos hl

theorem admitOrPair_pairingFull (hn : s.groupAt p.station = none)
    (ht : requirementTest (s.room (s.station p.station).room)
      ((s.occupants (s.station p.station).room).map Occupant.person ++ [(s.newMember p q).person]) = false)
    (hl : 8 ≤ s.groups.length) : s.admitOrPair p q = s.refuse p .pairingFull q.number 0 := by
  rw [State.admitOrPair, hn]
  exact (if_neg (by rw [ht]; exact nofun)).trans (if_pos hl)

/-- R45 to R58: an entry that passes to the room checks leaves what they leave. -/
theorem entry_roomChecked (hg : s.granted = some .entryDecision) (hp : s.presentations = p :: rest)
    (hc : s.EntryChooses p q) (ht : State.roomChecks { s with presentations := rest } p q = t) :
    Leaves .entryDecision s t :=
  entry_leaves hg hp hc.1 ((decideEntry_chooses (s := { s with presentations := rest }) hc).trans ht)

end

/-- Settles O46: each check in its order refuses by its own reason, and of the permit failures the worst is told. -/
theorem entryRefusedBeforeRoom : Obligations.EntryRefusedBeforeRoom := by
  refine ⟨failure_eq, fun s p rest hg hp => ?_⟩
  intro st popped denied
  refine ⟨fun hl => ?_, fun hl hu => ?_, fun hl hu hb => ?_, fun hl hu hb hr => ?_, fun hl hu hb hr => ?_⟩
  · refine leaves_of_job (exec_entryDecision s) hg ((takePresentation_silent hp hl).trans ?_)
    simp only [State.decideSilent, State.setLast, outside_of_granted hg hp]
    rfl
  · exact entry_leaves hg hp hl (if_pos hu)
  · exact entry_leaves hg hp hl ((if_neg (by simp [hu])).trans (if_pos hb))
  · exact entry_leaves hg hp hl ((if_neg (by simp [hu])).trans ((if_neg hb).trans (if_pos (by simpa using hr))))
  have checked := decideEntry_checked (s := popped) (p := p) hu hb hr
  refine ⟨fun o ho hne => ?_, fun g m ho hm hne => ?_, fun ho hm => ?_⟩
  · refine entry_leaves hg hp hl (checked.trans ?_)
    rw [show popped.recordOf p.credential = some o from ho]
    exact if_neg fun hk => hne.elim (· hk.1) (· hk.2)
  · refine entry_leaves hg hp hl (checked.trans ?_)
    rw [show popped.recordOf p.credential = none from ho]
    dsimp only
    rw [show popped.membershipOf p.credential = some (g, m) from hm]
    exact if_neg hne
  have tried : popped.decideEntry p = popped.tryPermits p := by
    rw [checked, show popped.recordOf p.credential = none from ho]
    dsimp only
    rw [show popped.membershipOf p.credential = none from hm]
  refine ⟨fun hnone => entry_leaves hg hp hl (tried.trans (tryPermits_unnamed (s := popped) hnone)), fun hex hf => ?_⟩
  obtain ⟨q, rank, reason, ⟨hq, hfail, worst⟩, refused⟩ := tryPermits_fails (s := popped) hex hf
  obtain ⟨e, he, rfl, hc⟩ := (mem_permitsOf popped _ q).1 hq
  refine ⟨e, he, rank, reason, hc, hfail, fun x hx hxc => ?_, entry_leaves hg hp hl (tried.trans refused)⟩
  exact worst x.2 ((mem_permitsOf popped _ x.2).2 ⟨x, hx, rfl, hxc⟩)

/-- Settles O47: the room checks and the group checks in their order, each with its own reason. -/
theorem entryRefusedByRoom : Obligations.EntryRefusedByRoom := by
  intro s p rest q hg hp hc n denied alone
  refine ⟨fun hm => ?_, fun hm hs hf => ?_, fun hm hs => ⟨fun hfull => ?_, fun hfits hfull => ?_⟩,
    fun ha => ⟨fun g hgrp hl => ?_, fun hn ht hl => ?_⟩⟩
  · exact entry_roomChecked hg hp hc (roomChecks_closed (s := { s with presentations := rest }) hm)
  · exact entry_roomChecked hg hp hc (roomChecks_trailFull (s := { s with presentations := rest }) hm hs hf)
  · exact entry_roomChecked hg hp hc
      ((roomChecks_open (s := { s with presentations := rest }) hm hs).trans (if_pos hfull))
  · exact entry_roomChecked hg hp hc ((roomChecks_open (s := { s with presentations := rest }) hm hs).trans
      ((if_neg (Nat.not_lt.2 hfits)).trans (if_pos hfull)))
  · exact entry_admitted hg hp hc ha (admitOrPair_groupFull (s := { s with presentations := rest }) hgrp hl)
  · refine entry_admitted hg hp hc ha (admitOrPair_pairingFull (s := { s with presentations := rest }) hn ?_ hl)
    rw [newMember_eq]
    exact ht

end Sys2Proof.Machine
end

