-- ==== Sys2Proof/Proofs/Stays.lean ====
section
/-! The stay deadline and the debit of a stay (R57, R104, R105, R113). -/
namespace Sys2Proof.Machine

/-! ### The end of an occurrence (R100 to R103) -/

/-- R100 to R103: the end of an occurrence is after every minute inside it. -/
theorem lt_of_occurrence_inside {window : Option Window} {offset minute fin : Nat}
    (h : occurrence window offset minute = .inside (some fin)) : minute < fin := by
  have today : minute / 1440 * 1440 + minute % 1440 = minute := Nat.div_add_mod' ..
  have below : minute % 1440 < 1440 := Nat.mod_lt _ (by omega)
  cases window with
  | none => cases h
  | some w =>
    unfold occurrence at h
    dsimp only [Config.dayMinutes] at h
    split at h
    · cases h
    split at h
    · split at h <;> cases h
      omega
    split at h
    · split at h
      · cases h
        omega
      · split at h <;> cases h
        omega
    split at h
    · split at h <;> cases h
      rename_i k hk
      have later : 1 ≤ k := (List.mem_range'_1.1 (List.mem_of_find?_eq_some hk)).1
      have midnight : (minute / 1440 + 1) * 1440 ≤ (minute / 1440 + k) * 1440 := Nat.mul_le_mul_right _ (by omega)
      omega
    · cases h

/-! ### The least of the bounds (R104, R105) -/

theorem boundedBy_choice (d : Nat) (b : Option Nat) : boundedBy d b = d ∨ boundedBy d b ∈ b := by
  cases b with
  | none => exact .inl rfl
  | some b => exact (min_choice d b).imp_right fun h => congrArg some h.symm

theorem le_boundedBy_iff {k d : Nat} {b : Option Nat} : k ≤ boundedBy d b ↔ k ≤ d ∧ ∀ x ∈ b, k ≤ x := by
  cases b <;> simp [boundedBy]

/-- R104: the bounds of a stay, the last estate minute among them. -/
def stayBounds (p : Permit) (offset e : Nat) : List Nat :=
  [94371839, e + p.maxStay, p.validUntil] ++ (occurrence p.window offset e).bound.toList
    ++ (p.allowance.map (fun a => e + a)).toList

/-- R104: the deadline is one of its bounds. -/
theorem stayDeadline_mem (p : Permit) (offset e : Nat) : stayDeadline p offset e ∈ stayBounds p offset e := by
  have last : Config.lastMinute ∈ stayBounds p offset e := List.mem_cons_self
  have bounded {d : Nat} {b : Option Nat} (hd : d ∈ stayBounds p offset e) (hb : ∀ x ∈ b, x ∈ stayBounds p offset e) :
      boundedBy d b ∈ stayBounds p offset e :=
    (boundedBy_choice d b).elim (fun h => h.symm ▸ hd) (hb _)
  have least {d b : Nat} (hd : d ∈ stayBounds p offset e) (hb : b ∈ stayBounds p offset e) :
      min d b ∈ stayBounds p offset e := bounded (b := some b) hd (by simpa using hb)
  refine least last (bounded (bounded (least ?_ ?_) fun x hx => ?_) fun x hx => ?_)
  · simp [stayBounds]
  · simp [stayBounds]
  · exact List.mem_append_left _ (List.mem_append_right _ (Option.mem_toList.2 hx))
  · exact List.mem_append_right _ (Option.mem_toList.2 hx)

/-- R104: a minute is no later than the deadline exactly when it is no later than any bound. -/
theorem le_stayDeadline_iff {p : Permit} {offset e k : Nat} :
    k ≤ stayDeadline p offset e ↔ ∀ b ∈ stayBounds p offset e, k ≤ b := by
  rw [stayDeadline, le_min_iff, le_boundedBy_iff, le_boundedBy_iff, le_min_iff]
  simp [stayBounds, Config.lastMinute, or_imp, forall_and, and_assoc]

/-! ### The provisional deadline (R57) -/

theorem nowMinute_le {s : State} (h : s.clock.Sound) : s.nowMinute ≤ 94371839 := by
  obtain ⟨hday, hsecond, -⟩ := h
  simp only [State.nowMinute, State.now, Clock.estateSecond, Config.daySeconds]
  omega

/-- R56: a permit past its end fails at rank 3 at the latest. -/
theorem failure_expired {s : State} {n : Nat} {p : Permit} (h : p.validUntil ≤ s.nowMinute) :
    ∃ rank reason, s.failure n p = some (rank, reason) ∧ rank ≤ 3 := by
  rw [failure_eq, if_pos h]
  split_ifs
  all_goals exact ⟨_, _, rfl, by omega⟩

theorem tooLate_of_failure {s : State} {n : Nat} {p : Permit} (h : s.failure n p = some (6, .tooLate)) :
    stayDeadline p s.settings.weekdayOffset s.nowMinute < s.nowMinute + (s.room n).minStay := by
  rw [failure_eq] at h
  split_ifs at h <;> cases h
  assumption

/-- R57: the provisional deadline of a permit that passes ranks 1 to 5 is not past. -/
theorem le_provisional {s : State} {n : Nat} {p : Permit} (hc : s.clock.Sound)
    (h : s.failure n p = none ∨ s.failure n p = some (6, .tooLate)) :
    s.nowMinute ≤ stayDeadline p s.settings.weekdayOffset s.nowMinute := by
  have valid : s.nowMinute < p.validUntil := by
    by_contra hv
    obtain ⟨rank, reason, hf, hle⟩ := failure_expired (n := n) (Nat.not_lt.1 hv)
    rcases h with h | h <;> rw [h] at hf <;> cases hf
    omega
  refine le_stayDeadline_iff.2 fun b hb => ?_
  simp only [stayBounds, List.mem_append, List.mem_cons, List.not_mem_nil, or_false, Option.mem_toList,
    Option.map_eq_some_iff] at hb
  rcases hb with ((rfl | rfl | rfl) | hb) | ⟨a, -, rfl⟩
  · exact nowMinute_le hc
  · omega
  · exact valid.le
  · cases ho : occurrence p.window s.settings.weekdayOffset s.nowMinute with
    | outside => rw [ho] at hb; cases hb
    | inside fin =>
      rw [ho] at hb
      exact (lt_of_occurrence_inside (ho.trans (congrArg _ hb))).le
  · omega

/-! ### The debit (R113) -/

/-- R113: beyond its first minute a stay is debited every minute it has started. -/
theorem debitMinutes_started {entry now : Nat} (h : entry + 60 < now) :
    now ≤ entry + 60 * debitMinutes entry now ∧ entry + 60 * (debitMinutes entry now - 1) < now := by
  rw [debitMinutes, if_neg (Nat.not_le.2 h)]
  omega

/-- Settles O53: the deadline is the least of its bounds, none of them past at an entry; the debit is of started
minutes. -/
theorem stayDeadlineAndDebit : Obligations.StayDeadlineAndDebit := by
  refine ⟨fun p offset e => ?_, fun s n p hc _ h => ?_, fun entry now => ⟨?_, fun h => if_pos h, debitMinutes_started⟩⟩
  · intro bounds
    have listed : bounds = stayBounds p offset e := by
      unfold bounds stayBounds
      rcases occurrence p.window offset e with _ | _ | _ <;> rcases p.allowance with _ | _ <;> rfl
    rw [listed]
    exact ⟨stayDeadline_mem p offset e, le_stayDeadline_iff.1 le_rfl⟩
  · have kept := le_provisional hc h
    refine ⟨kept, fun hroom => h.resolve_right fun hlate => ?_⟩
    have := tooLate_of_failure hlate
    omega
  · by_cases h : now ≤ entry + 60
    · rw [debitMinutes, if_pos h]
    · have := debitMinutes_started (Nat.not_le.1 h)
      omega

end Sys2Proof.Machine
end

