-- ==== Sys2Proof/Proofs/Silence.lean ====
section
/-! A station gone SILENT (R135, R142, R147, R148): a miss, of a missing or a corrupt answer, and all that follows where
it reaches the silence threshold. Records and notices do not touch a station, so what the miss tells is taken before the
writes of the station here, and those become one. -/
namespace Sys2Proof.Machine

section
variable {s : State} {n : Nat} {st x : Station}

/-! ### A station written, and what is told around it -/

theorem setStation_station (s : State) (n : Nat) : s.setStation n (s.station n) = s :=
  congrArg (fun l => ({ s with stations := l } : State)) (setNth_nth ..)

theorem setStation_setStation (s : State) (n : Nat) (st x : Station) :
    (s.setStation n st).setStation n x = s.setStation n x :=
  congrArg (fun l => ({ s with stations := l } : State)) (setNth_setNth ..)

/-- A station of the table changed again: its last contents alone are written. -/
theorem setStation_again {t : State} (hn : s.Listed n) (ht : t = s.setStation n st) (f : Station → Station) :
    t.setStation n (f (t.station n)) = s.setStation n (f st) := by
  rw [ht, setStation_setStation, station_setStation_self hn.1 hn.2]

theorem offer_setStation (s : State) (n : Nat) (st : Station) (note : Notice) :
    (s.setStation n st).offer note = (s.offer note).setStation n st := by
  unfold State.offer
  rw [State.setStation_host]
  split <;> rfl

theorem put_setStation (s : State) (n : Nat) (st : Station) (r : TrailRecord) :
    (s.setStation n st).put r = (s.put r).setStation n st := by
  have stamp : (s.setStation n st).stamp r = s.stamp r := rfl
  unfold State.put State.offerSome
  rw [stamp, State.setStation_trail]
  split
  · rfl
  · exact offer_setStation { s with trail := (s.trail.put (s.stamp r)).1 } n st _

theorem State.Listed.of_stations {t : State} (hn : s.Listed n) (h : t.stations = s.stations) : t.Listed n :=
  hn.of_length (congrArg List.length h)

/-- R147: a door alert names the station's room and channel alone. -/
theorem doorAlert_setStation (hn : s.Listed n) (hroom : x.room = (s.station n).room)
    (hchannel : x.channel = (s.station n).channel) (kind : AlertKind) (l : Level) :
    (s.setStation n x).doorAlert n kind l = (s.doorAlert n kind l).setStation n x := by
  unfold State.doorAlert
  rw [station_setStation_self hn.1 hn.2, hroom, hchannel, put_setStation, offer_setStation]

/-! ### The door and the link (R142, R147) -/

/-- R142 step 4, R147: a standing alert of a door cleared, with its record and notice. -/
def State.clearDoorAlert (s : State) (n : Nat) : Door → State
  | .forcedOpen => s.doorAlert n .forced .clear
  | .heldOpen => s.doorAlert n .held .clear
  | .unknown | .secure | .released _ | .opened _ => s

theorem clearDoorAlert_frame (s : State) (n : Nat) (d : Door) :
    (s.clearDoorAlert n d).pool = s.pool ∧ (s.clearDoorAlert n d).groups = s.groups
      ∧ (s.clearDoorAlert n d).stations = s.stations ∧ (s.clearDoorAlert n d).line = s.line := by
  cases d <;> simp [State.clearDoorAlert, State.doorAlert]

theorem silenceDoor_setStation (hn : s.Listed n) (hroom : x.room = (s.station n).room)
    (hchannel : x.channel = (s.station n).channel) :
    (s.setStation n x).silenceDoor n = (s.clearDoorAlert n x.door).setStation n { x with door := .unknown } := by
  have written : (s.setStation n x).setDoor n .unknown = s.setStation n { x with door := .unknown } :=
    setStation_again hn rfl fun st => { st with door := .unknown }
  have cleared (kind : AlertKind) : (s.setStation n { x with door := .unknown }).doorAlert n kind .clear
      = (s.doorAlert n kind .clear).setStation n { x with door := .unknown } :=
    doorAlert_setStation (x := { x with door := .unknown }) hn hroom hchannel kind .clear
  unfold State.silenceDoor
  rw [written, station_setStation_self hn.1 hn.2]
  cases x.door with
  | forcedOpen => exact cleared .forced
  | heldOpen => exact cleared .held
  | unknown | secure | released | opened => rfl

/-- R142: the LINK record and notice of a station gone SILENT. -/
def State.tellSilent (s : State) (n room : Nat) : State :=
  (s.put { kind := .link, station := n, room := room, reason := .stationSilent, value := .number 0 }).offer
    (.link n .silent)

theorem tellSilent_frame (s : State) (n room : Nat) :
    (s.tellSilent n room).pool = s.pool ∧ (s.tellSilent n room).groups = s.groups
      ∧ (s.tellSilent n room).stations = s.stations ∧ (s.tellSilent n room).line = s.line := by
  simp [State.tellSilent]

theorem tellSilent_setStation (s : State) (n : Nat) (st : Station) (room : Nat) :
    (s.setStation n st).tellSilent n room = (s.tellSilent n room).setStation n st := by
  rw [State.tellSilent, put_setStation, offer_setStation, State.tellSilent]

/-! ### The station gone SILENT (R142, R148) -/

/-- R142: all that a station tells when it goes SILENT. -/
def State.tellSilence (s : State) (n : Nat) (d : Door) : State :=
  (s.tellSilent n (s.station n).room).clearDoorAlert n d

theorem tellSilence_frame (s : State) (n : Nat) (d : Door) :
    (s.tellSilence n d).pool = s.pool ∧ (s.tellSilence n d).groups = s.groups
      ∧ (s.tellSilence n d).stations = s.stations ∧ (s.tellSilence n d).line = s.line := by
  simp only [State.tellSilence, clearDoorAlert_frame, tellSilent_frame, and_self]

/-- R148: an ADMITTING record or a pairing group is at the station. -/
def State.entryAt (s : State) (n : Nat) : Bool := s.hasAdmitting n || (s.groupAt n).isSome

theorem entryAt_iff (s : State) (n : Nat) :
    s.entryAt n = true ↔ s.hasAdmitting n = true ∨ ∃ g ∈ s.groups, g.station = n := by
  simp [State.entryAt, State.groupAt]

theorem entryAt_congr {t : State} (hp : t.pool = s.pool) (hg : t.groups = s.groups) : t.entryAt n = s.entryAt n := by
  unfold State.entryAt State.hasAdmitting State.groupAt
  rw [hp, hg]

/-- R142, R148: a station gone SILENT, with the lapse of an entry at it. -/
def Station.silenced (st : Station) (entry : Bool) : Station :=
  { st with
    link := .silent, verdict := none, door := .unknown, expected := .adopt
    events := if entry then raiseLapse true st.events else st.events }

/-- R142: a station that goes SILENT tells it, and is written once. -/
theorem silence_setStation (hn : s.Listed n) (hroom : x.room = (s.station n).room)
    (hchannel : x.channel = (s.station n).channel) :
    (s.setStation n x).silence n = (s.tellSilence n x.door).setStation n (x.silenced (s.entryAt n)) := by
  obtain ⟨-, -, hlinked, -⟩ := tellSilent_frame s n (s.station n).room
  obtain ⟨hpool, hgroups, htold, -⟩ := tellSilence_frame s n x.door
  have linked : (s.tellSilent n (s.station n).room).Listed n := hn.of_stations hlinked
  have told : (s.tellSilence n x.door).Listed n := hn.of_stations htold
  have same := station_congr hlinked n
  have room : ((s.setStation n x).station n).room = (s.station n).room := by
    rw [station_setStation_self hn.1 hn.2, hroom]
  unfold State.silence
  extract_lets _ s1 _ s2 _ s3
  have h1 : s1 = (s.tellSilent n (s.station n).room).setStation n { x with link := .silent } :=
    (congrArg₂ (State.tellSilent · n ·) (setStation_again hn rfl fun st => { st with link := .silent }) room).trans
      (tellSilent_setStation ..)
  have h2 : s2 = (s.tellSilence n x.door).setStation n
      { x with link := .silent, verdict := none, door := .unknown } :=
    (congrArg (State.silenceDoor · n) (setStation_again linked h1 fun st => { st with verdict := none })).trans
      (silenceDoor_setStation linked (hroom.trans (congrArg Station.room same.symm))
        (hchannel.trans (congrArg Station.channel same.symm)))
  have h3 : s3 = (s.tellSilence n x.door).setStation n
      { x with link := .silent, verdict := none, door := .unknown, expected := .adopt } :=
    setStation_again told h2 fun st => { st with expected := .adopt }
  have entry : (s3.hasAdmitting n || (s3.groupAt n).isSome) = s.entryAt n := by
    rw [h3]
    exact entryAt_congr hpool hgroups
  rw [entry, Station.silenced]
  cases s.entryAt n with
  | false => exact h3
  | true => exact setStation_again told h3 fun st => { st with events := raiseLapse true st.events }

/-! ### A miss (R135, R142) -/

/-- R142: the miss that reaches the silence threshold. -/
theorem miss_silences (hn : s.Listed n) (hroom : x.room = (s.station n).room)
    (hchannel : x.channel = (s.station n).channel) (hbound : x.room ≠ 0) (hlink : x.link = .online)
    (hmiss : s.settings.silenceThreshold ≤ min 15 (x.missed + 1)) :
    (s.setStation n x).miss n false = (s.tellSilence n x.door).setStation n
      (Station.silenced { x with missed := min 15 (x.missed + 1) } (s.entryAt n)) := by
  have counted : (s.setStation n x).miss n false = (s.setStation n x).countMiss n := by
    unfold State.miss
    rw [station_setStation_self hn.1 hn.2]
    simp [hbound]
  have reached : (s.setStation n x).countMiss n
      = (s.setStation n { x with missed := min 15 (x.missed + 1) }).silence n := by
    unfold State.countMiss
    extract_lets missed _ s1
    have same : (s.setStation n x).station n = x := station_setStation_self hn.1 hn.2
    have hm : missed = min 15 (x.missed + 1) := congrArg (fun st : Station => min 15 (st.missed + 1)) same
    have written : s1 = s.setStation n { x with missed := min 15 (x.missed + 1) } := by
      rw [← hm]
      exact setStation_again hn rfl fun st => { st with missed := missed }
    rw [written, hm, same]
    exact if_pos ⟨hmiss, hlink⟩
  rw [counted, reached]
  exact silence_setStation (x := { x with missed := min 15 (x.missed + 1) }) hn hroom hchannel

theorem turn_of_round {turn : Turn} {rest : List Nat} {settle : Bool} (hr : s.inReset = false)
    (ht : s.line.round = some ⟨rest, some turn, settle⟩) : s.turn = some (turn, settle) := by
  simp [State.turn, hr, ht]

theorem endTurn_of_round {turn : Option Turn} {rest : List Nat} {settle : Bool}
    (ht : s.line.round = some ⟨rest, turn, settle⟩) : s.endTurn =
      { s with line := { s.line with round := if rest = [] then none else some ⟨rest, none, settle⟩ } } := by
  rw [State.endTurn, ht]

/-- R135: a missing or a corrupt answer is a miss; a corrupt one sets its flag first. -/
theorem leaves_of_miss {c : Instr} {turn : Turn} {settle : Bool}
    (hc : c = .missingAnswer ∨ ∃ chars, chars ≠ [] ∧ isGoodAnswer chars = false ∧ c = .corruptAnswer chars)
    (ht : s.turn = some (turn, settle)) :
    Leaves c s ((s.setStation turn.station { s.station turn.station with
      corrupt := if c = .missingAnswer then (s.station turn.station).corrupt else true }).miss
        turn.station settle).endTurn := by
  obtain rfl | ⟨chars, hne, hbad, rfl⟩ := hc
  · have same : s.setStation turn.station { s.station turn.station with
        corrupt := if Instr.missingAnswer = .missingAnswer then (s.station turn.station).corrupt else true } = s :=
      setStation_station s turn.station
    change execMissingAnswer s = _
    rw [same, execMissingAnswer, ht]
    rfl
  · change execCorruptAnswer chars s = _
    have bad : (chars.isEmpty || isGoodAnswer chars) = false := by simp [hne, hbad]
    rw [execCorruptAnswer, bad, ht]
    rfl

end

/-- Settles O31: the commands are misses, and the miss that reaches the threshold is told and written once. -/
theorem silenceAtThreshold : Obligations.SilenceAtThreshold := by
  intro c s turn rest hc hr hround hlen h1 h16 n st hroom hlink hmiss linked cleared told
  have hn : s.Listed n := ⟨h1, hlen ▸ h16⟩
  have same : linked.station n = st := station_congr (tellSilent_frame s n st.room).2.2.1 n
  have alert (kind : AlertKind) : linked.doorAlert n kind .clear
      = cleared kind (if kind = .forced then some st.channel else none) := by
    rw [State.doorAlert, same]
    rfl
  have htold : s.tellSilence n st.door = told := by
    change linked.clearDoorAlert n st.door = told
    dsimp only [told]
    cases st.door with
    | forcedOpen => exact alert .forced
    | heldOpen => exact alert .held
    | unknown | secure | released | opened => rfl
  have line : told.line = s.line := htold ▸ (tellSilence_frame s n st.door).2.2.2
  have silent := miss_silences (x := { st with corrupt := if c = .missingAnswer then st.corrupt else true })
    hn rfl rfl hroom hlink hmiss
  have miss := leaves_of_miss hc (turn_of_round hr hround)
  rw [silent, htold, endTurn_of_round (line ▸ hround), State.setStation_line, line] at miss
  by_cases entry : s.hasAdmitting n = true ∨ ∃ g ∈ s.groups, g.station = n
  · rw [if_pos entry]
    rwa [(entryAt_iff s n).2 entry] at miss
  · rw [if_neg entry]
    rwa [Bool.eq_false_iff.2 (mt (entryAt_iff s n).1 entry)] at miss

end Sys2Proof.Machine
end

