-- ==== Sys2Proof/Proofs/Arbiter.lean ====
section
/-! The engine arbiter (R117 to R121): the work each class has waiting, the DOOR round, and the grant. -/
namespace Sys2Proof.Machine

section
variable {s : State} {i : Instr}

/-! ### The DOOR round (R121 item 1) -/

/-- The steps from the last DOOR station, going up and wrapping from 16 to 1, before a station is reached. -/
def doorDistance (last n : Nat) : Nat := (n + 15 - last) % 16

theorem mem_doorOrder {last n : Nat} : n ∈ doorOrder last ↔ 1 ≤ n ∧ n ≤ 16 := by
  simp only [doorOrder, Config.stations, List.mem_append, List.mem_filter, List.mem_range'_1, decide_eq_true_eq]
  omega

/-- The round takes the stations in the order of their distance from the last DOOR station. -/
theorem doorOrder_sorted {last : Nat} (h1 : 1 ≤ last) (h16 : last ≤ 16) :
    (doorOrder last).Pairwise (fun n m => doorDistance last n ≤ doorDistance last m) := by
  have ascending : (List.range' 1 Config.stations).Pairwise (· < ·) := List.pairwise_lt_range'
  have apart (p : Nat → Bool) (hp : ∀ n m, n < m → 1 ≤ n → m ≤ 16 → p n → p m → doorDistance last n ≤ doorDistance last m) :
      ((List.range' 1 Config.stations).filter p).Pairwise (fun n m => doorDistance last n ≤ doorDistance last m) := by
    refine (ascending.filter p).imp_of_mem fun {n m} hn hm hlt => ?_
    simp only [List.mem_filter, List.mem_range'_1, Config.stations] at hn hm
    exact hp n m hlt hn.1.1 (by omega) hn.2 hm.2
  refine List.pairwise_append.2 ⟨apart _ fun n m hlt _ _ hn hm => ?_, apart _ fun n m hlt _ _ hn hm => ?_,
    fun n hn m hm => ?_⟩
  · simp only [decide_eq_true_eq] at hn hm
    unfold doorDistance
    omega
  · simp only [decide_eq_true_eq] at hn hm
    unfold doorDistance
    omega
  · simp only [List.mem_filter, List.mem_range'_1, Config.stations, decide_eq_true_eq] at hn hm
    unfold doorDistance
    omega

theorem doorStation_eq_some {n : Nat} (h : s.doorStation = some n) :
    1 ≤ n ∧ n ≤ 16 ∧ (s.station n).events ≠ [] := by
  obtain ⟨h1, h16⟩ := mem_doorOrder.1 (List.mem_of_find?_eq_some h)
  exact ⟨h1, h16, by simpa using List.find?_some h⟩

theorem doorStation_eq_none : s.doorStation = none ↔ ∀ m, 1 ≤ m → m ≤ 16 → (s.station m).events = [] := by
  unfold State.doorStation
  rw [List.find?_eq_none]
  constructor
  · intro h m h1 h16
    simpa using h m (mem_doorOrder.2 ⟨h1, h16⟩)
  · intro h m hm
    obtain ⟨h1, h16⟩ := mem_doorOrder.1 hm
    simp [h m h1 h16]

/-- R121 item 1: no station with a pending event stands before the one that the round serves. -/
theorem doorStation_nearest {n m : Nat} (h1 : 1 ≤ s.lastDoor) (h16 : s.lastDoor ≤ 16) (hn : s.doorStation = some n)
    (hm : 1 ≤ m ∧ m ≤ 16) (he : (s.station m).events ≠ []) : doorDistance s.lastDoor n ≤ doorDistance s.lastDoor m := by
  obtain ⟨-, before, after, hsplit, hbefore⟩ := List.find?_eq_some_iff_append.1 hn
  have sorted := doorOrder_sorted h1 h16
  have mem : m ∈ doorOrder s.lastDoor := mem_doorOrder.2 hm
  rw [hsplit] at sorted mem
  rcases List.mem_append.1 mem with hb | ha
  · have := hbefore m hb
    simp [he] at this
  · rcases List.mem_cons.1 ha with rfl | ha
    · exact Nat.le_refl _
    · exact (List.pairwise_cons.1 (List.pairwise_append.1 sorted).2.1).1 m ha

/-! ### The work of each class (R117, R121) -/

/-- R118: the row of a door event. -/
def DoorEvent.row : DoorEvent → Instr
  | .commit => .doorCommit
  | .lapse _ => .doorLapse

theorem work_door_iff : s.work .door = some i ↔
    ∃ n e later, s.doorStation = some n ∧ (s.station n).events = e :: later ∧ i = e.row := by
  unfold State.work
  cases hn : s.doorStation with
  | none => simp
  | some n =>
    cases he : (s.station n).events with
    | nil => simp [he]
    | cons e later => cases e <;> simp [he, DoorEvent.row, eq_comm]

theorem work_timer_iff : s.work .timer = some i ↔
    ∃ e rest, s.deadlines = e :: rest ∧ e.due ≤ s.now ∧ i = e.what.row := by
  unfold State.work State.dueHead
  cases hd : s.deadlines with
  | nil => simp
  | cons e rest =>
    by_cases hdue : e.due ≤ s.now
    · simpa [hdue] using eq_comm
    · simp [hdue]

theorem work_present_iff : s.work .present = some i ↔
    ∃ p rest, s.presentations = p :: rest ∧ i = if p.side = .outside then .entryDecision else .exitDecision := by
  unfold State.work
  cases hp : s.presentations with
  | nil => simp
  | cons p rest => simp [eq_comm]

theorem work_request_iff : s.work .request = some i ↔
    ∃ f, s.unserved = some f ∧ servedAtAcceptance f = false ∧ i = requestRow f := by
  unfold State.work
  cases hu : s.unserved with
  | none => simp
  | some f =>
    cases hf : servedAtAcceptance f
    · simpa [hf] using eq_comm
    · simp [hf]

theorem work_sweep_iff : s.work .sweep = some i ↔ 0 < s.sweep.owed ∧ i = .sweepStep := by
  unfold State.work
  by_cases ho : 0 < s.sweep.owed <;> simp [ho, eq_comm]

theorem unserved_iff {f : Frame} : s.unserved = some f ↔ s.host.outstanding = some ⟨f, false⟩ :=
  ⟨unserved_spec, fun h => by simp [State.unserved, h]⟩

/-- R164, R180: the kinds that go to the engine. -/
theorem servedAtAcceptance_eq_false {f : Frame} : servedAtAcceptance f = false ↔
    f.kind.toNat ∉ [0x00, 0x01, 0x02, 0x04, 0x16, 0x17, 0x18] ∧ f.kind.toNat ≤ 0x1A := by
  unfold servedAtAcceptance
  generalize f.kind.toNat = k
  split <;> simp_all

/-- R121: a DOOR job waits while a station holds a pending door event. -/
theorem work_door_ne_none : s.work .door ≠ none ↔ ∃ n, 1 ≤ n ∧ n ≤ 16 ∧ (s.station n).events ≠ [] := by
  rw [Option.ne_none_iff_exists']
  constructor
  · rintro ⟨i, hi⟩
    obtain ⟨n, _, _, hn, -⟩ := work_door_iff.1 hi
    exact ⟨n, doorStation_eq_some hn⟩
  · rintro ⟨m, h1, h16, hm⟩
    cases hn : s.doorStation with
    | none => exact absurd (doorStation_eq_none.1 hn m h1 h16) hm
    | some n =>
      obtain ⟨-, -, he⟩ := doorStation_eq_some hn
      obtain ⟨e, later, he⟩ := List.exists_cons_of_ne_nil he
      exact ⟨e.row, work_door_iff.2 ⟨n, e, later, hn, he, rfl⟩⟩

/-! ### The grant (R119, R120) -/

theorem granted_eq (hr : s.inReset = false) (hq : s.supply.restartRequested = none) :
    s.granted = s.order.findSome? s.work := by
  simp [State.granted, hr, hq]

/-- A job granted is the work of a class. -/
theorem work_of_granted (h : s.granted = some i) : ∃ c, s.work c = some i := by
  unfold State.granted at h
  split at h
  · cases h
  · obtain ⟨c, -, hc⟩ := List.exists_of_findSome?_eq_some h
    exact ⟨c, hc⟩

theorem requestRow_ne_sweep (f : Frame) : requestRow f ≠ .sweepStep := by
  unfold requestRow modeRequestRow restartRow
  (repeat' split) <;> exact nofun

/-- R117: a SWEEP job is granted while a sweep is owed, for no other class has its row. -/
theorem owed_of_granted (h : s.granted = some .sweepStep) : 0 < s.sweep.owed := by
  obtain ⟨c, hc⟩ := work_of_granted h
  cases c with
  | sweep => exact (work_sweep_iff.1 hc).1
  | door =>
    obtain ⟨_, e, _, -, -, he⟩ := work_door_iff.1 hc
    cases e <;> cases he
  | timer =>
    obtain ⟨e, _, -, -, he⟩ := work_timer_iff.1 hc
    cases hw : e.what <;> rw [hw] at he <;> cases he
  | present =>
    obtain ⟨p, _, -, hp⟩ := work_present_iff.1 hc
    split at hp <;> cases hp
  | request =>
    obtain ⟨f, -, -, hf⟩ := work_request_iff.1 hc
    exact absurd hf.symm (requestRow_ne_sweep f)

end

/-- Settles O41: the grant is the first work in the order; the DOOR round goes by distance; the work of each class. -/
theorem arbiterGrantsInOrder : Obligations.ArbiterGrantsInOrder := by
  refine ⟨?_, ?_, ?_, ?_, ?_, ?_⟩
  · intro s hr hq settled order
    have order_eq : s.order = order := by
      have settled_eq : settingsOrder s.settings = settled := by
        dsimp only [settled]
        cases hf : s.settings.requestFirst <;> cases he : s.settings.sweepEarly <;> simp [settingsOrder, hf, he]
      rw [State.order, settled_eq]
      rfl
    rw [granted_eq hr hq, order_eq]
    refine ⟨fun before c after i hsplit hbefore hc => ?_, fun hnone => List.findSome?_eq_none_iff.2 fun c _ => hnone c⟩
    rw [hsplit, List.findSome?_append, List.findSome?_eq_none_iff.2 hbefore, List.findSome?_cons, hc]
    rfl
  · refine fun s h1 h16 => ⟨fun n hn => ?_, doorStation_eq_none.1⟩
    obtain ⟨hn1, hn16, he⟩ := doorStation_eq_some hn
    exact ⟨hn1, hn16, he, fun m hm1 hm16 hm => doorStation_nearest h1 h16 hn ⟨hm1, hm16⟩ hm⟩
  · refine fun s i => ⟨work_door_iff, work_timer_iff, work_present_iff, ?_, work_sweep_iff⟩
    rw [work_request_iff]
    simp only [unserved_iff, servedAtAcceptance_eq_false, and_assoc]
  · refine fun s => ⟨work_door_ne_none, fun hrefs hwork => ?_⟩
    obtain ⟨i, hi⟩ := Option.ne_none_iff_exists'.1 hwork
    obtain ⟨e, rest, hd, -, -⟩ := work_timer_iff.1 hi
    obtain ⟨-, -, -, -, -, -, hunset⟩ := hrefs
    by_contra hset
    obtain ⟨-, -, hnil⟩ := hunset (by simpa using hset)
    rw [hd] at hnil
    cases hnil
  · intro p hp f hk
    simp only [List.mem_cons, List.not_mem_nil, or_false] at hp
    rcases hp with rfl | rfl | rfl | rfl | rfl | rfl | rfl | rfl | rfl | rfl | rfl | rfl | rfl | rfl | rfl | rfl | rfl
      | rfl <;> simp [requestRow, hk]
  · exact fun tag => ⟨rfl, rfl, rfl, rfl, rfl⟩

end Sys2Proof.Machine
end

