-- ==== Sys2Proof/Proofs/Counters.lean ====
section
/-! The bounds of the clock, the trail and the host line (R84, R87, R150, R163 to R166), each under what a step does to
it: a second passed, a record handed, a half closed or freed, a reply handed or sent, the transmitter looking at what
waits. -/
namespace Sys2Proof.Machine

/-! ### The clock (R84, R87, R89) -/

section
variable {c : Clock}

theorem Clock.atEnd_sound (hu : c.unset = false) : c.atEnd.Sound :=
  ⟨Nat.le_refl _, Nat.le_refl _, fun h1 => by simp [Clock.atEnd, hu] at h1, rfl⟩

/-- R84, R87: a second keeps the clock in its range, and CLOCK_END stands at the last second alone. -/
theorem Clock.Sound.tick (h : c.Sound) : c.tick.Sound := by
  obtain ⟨hd, hs, hu, he⟩ := id h
  unfold Clock.tick
  split
  · exact h
  · rename_i hrun
    simp only [Bool.or_eq_true, not_or, Bool.not_eq_true] at hrun
    rw [hrun.2, eq_comm, decide_eq_false_iff_not] at he
    split
    · exact Clock.atEnd_sound hrun.1
    · rename_i hlast
      simp only [Config.lastSecond, Clock.estateSecond, Config.daySeconds] at hlast
      split
      · rename_i hday
        simp only [Config.daySeconds] at hday
        refine ⟨hd, by dsimp only; omega, fun h1 => by simp [hrun.1] at h1, ?_⟩
        rw [show ({ c with second := c.second + 1 } : Clock).ended = false from hrun.2, eq_comm, decide_eq_false_iff_not]
        dsimp only
        omega
      · rename_i hday
        simp only [Config.daySeconds] at hday
        refine ⟨by dsimp only; omega, Nat.zero_le _, fun h1 => by simp [hrun.1] at h1, ?_⟩
        rw [show ({ c with day := c.day + 1, second := 0 } : Clock).ended = false from hrun.2, eq_comm,
          decide_eq_false_iff_not]
        dsimp only
        omega

theorem clockAt_sound {day second : Nat} (hd : day ≤ 65535) (hs : second ≤ 86399) : (clockAt day second).Sound :=
  ⟨hd, hs, nofun, rfl⟩

theorem unsetClock_sound : unsetClock.Sound := ⟨by decide, by decide, fun _ => ⟨rfl, rfl⟩, rfl⟩

end

/-! ### The trail (R150, R153, R154, R156, R157) -/

section
variable {t : Trail}

theorem Trail.filling_eq_none (h : t.Sound) : t.filling = none ↔ t.a.state = .closed ∧ t.b.state = .closed := by
  obtain ⟨-, -, hstates, -⟩ := h
  unfold Trail.filling
  (repeat' split) <;> simp_all

theorem Trail.filling_eq_some {x : HalfId} (h : t.filling = some x) : (t.half x).state = .filling := by
  unfold Trail.filling at h
  (repeat' split at h) <;> cases h <;> assumption

/-- R150: of a sound trail one half is FILLING, its records below 64, the other not; and no record is lost. -/
theorem Trail.Sound.of_filling (h : t.Sound) {x : HalfId} (hx : t.filling = some x) :
    (t.half x).state = .filling ∧ (t.half x).records.length ≤ 63 ∧ (t.half x.other).Sound
      ∧ (t.half x.other).state ≠ .filling ∧ t.lost = 0 := by
  have hf := Trail.filling_eq_some hx
  obtain ⟨ha, hb, hstates, hlost, -, -⟩ := h
  cases x with
  | a =>
    simp only [Trail.half, HalfId.other] at hf ⊢
    refine ⟨hf, by simpa [Half.Sound, hf] using ha, hb, by simpa [hf] using hstates, hlost (.inl hf)⟩
  | b =>
    simp only [Trail.half, HalfId.other] at hf ⊢
    refine ⟨hf, by simpa [Half.Sound, hf] using hb, ha, by simpa [hf] using hstates, hlost (.inr hf)⟩

/-- R150: a trail with a FILLING half of at most 63 records. -/
theorem Trail.sound_of_filling {x : HalfId} (hf : (t.half x).state = .filling) (hr : (t.half x).records.length ≤ 63)
    (ho : (t.half x.other).Sound) (hn : (t.half x.other).state ≠ .filling) (hlost : t.lost = 0)
    (hlast : (t.half x.other).state = .closed → t.lastClosed ≠ none) : t.Sound := by
  cases x <;> simp only [Trail.half, HalfId.other] at hf hr ho hn hlast
  · exact ⟨by simpa [Half.Sound, hf] using hr, ho, .inl ⟨hf, hn⟩, fun _ => hlost, hlost ▸ Nat.zero_le _,
      fun h => h.elim (by simp [hf]) hlast⟩
  · exact ⟨ho, by simpa [Half.Sound, hf] using hr, .inr (.inl ⟨hn, hf⟩), fun _ => hlost, hlost ▸ Nat.zero_le _,
      fun h => h.elim hlast (by simp [hf])⟩

theorem Trail.Sound.lastClosed (h : t.Sound) {x : HalfId} (hx : (t.half x).state = .closed) : t.lastClosed ≠ none := by
  obtain ⟨-, -, -, -, -, hlast⟩ := h
  cases x
  · exact hlast (.inl hx)
  · exact hlast (.inr hx)

@[simp] theorem Trail.half_setHalf (t : Trail) (x : HalfId) (y : Half) : (t.setHalf x y).half x = y := by
  cases x <;> rfl

@[simp] theorem Trail.half_setHalf_other (t : Trail) (x : HalfId) (y : Half) :
    (t.setHalf x y).half x.other = t.half x.other := by
  cases x <;> rfl

@[simp] theorem Trail.half_setHalf_of_other (t : Trail) (x : HalfId) (y : Half) :
    (t.setHalf x.other y).half x = t.half x := by
  cases x <;> rfl

@[simp] theorem Trail.setHalf_lost (t : Trail) (x : HalfId) (y : Half) : (t.setHalf x y).lost = t.lost := by
  cases x <;> rfl

@[simp] theorem Trail.setHalf_lastClosed (t : Trail) (x : HalfId) (y : Half) :
    (t.setHalf x y).lastClosed = t.lastClosed := by
  cases x <;> rfl

/-- R150: the FILLING half with other records, still below 64. -/
theorem Trail.Sound.refill (h : t.Sound) {x : HalfId} (hx : t.filling = some x) {l : List TrailRecord}
    (hl : l.length ≤ 63) : (t.setHalf x ⟨.filling, l⟩).Sound := by
  obtain ⟨-, -, ho, hn, hlost⟩ := h.of_filling hx
  exact Trail.sound_of_filling (x := x) (by simp) (by simpa using hl) (by simpa using ho) (by simpa using hn)
    (by simpa using hlost) fun hc => by simpa using h.lastClosed (x := x.other) (by simpa using hc)

/-- R153, R156: the FILLING half closed; a FREE other half begins to fill. -/
theorem Trail.Sound.close (h : t.Sound) {x : HalfId} (hx : t.filling = some x) {l : List TrailRecord}
    (hne : 1 ≤ l.length) (hl : l.length ≤ 64) : (t.close x l).Sound := by
  obtain ⟨-, -, ho, hn, hlost⟩ := h.of_filling hx
  unfold Trail.close
  dsimp only
  split
  · cases x
    · exact Trail.sound_of_filling (x := .b) rfl (Nat.zero_le _) ⟨hne, hl⟩ nofun hlost fun _ => nofun
    · exact Trail.sound_of_filling (x := .a) rfl (Nat.zero_le _) ⟨hne, hl⟩ nofun hlost fun _ => nofun
  · rename_i hfree
    have hclosed : (t.half x.other).state = .closed := by
      cases hst : (t.half x.other).state <;> simp_all
    have hle : t.lost ≤ 65535 := hlost ▸ Nat.zero_le _
    cases x
    · exact ⟨⟨hne, hl⟩, ho, .inr (.inr ⟨rfl, hclosed⟩), fun _ => hlost, hle, fun _ => nofun⟩
    · exact ⟨ho, ⟨hne, hl⟩, .inr (.inr ⟨hclosed, rfl⟩), fun _ => hlost, hle, fun _ => nofun⟩

/-- R153, R154: a record handed to the trail keeps it sound, written or lost. -/
theorem Trail.Sound.put (h : t.Sound) (r : TrailRecord) : (t.put r).1.Sound := by
  obtain ⟨hnone, he⟩ | ⟨x, hx, hlen, he⟩ | ⟨x, hx, -, he⟩ := t.put_spec r
  · obtain ⟨hca, hcb⟩ := (Trail.filling_eq_none h).1 hnone
    obtain ⟨ha, hb, -, -, -, hlast⟩ := h
    rw [he]
    exact ⟨ha, hb, .inr (.inr ⟨hca, hcb⟩), fun hf => by simp [hca, hcb] at hf, Nat.min_le_left .., hlast⟩
  · rw [he]
    exact h.refill hx (by simp; omega)
  · rw [he]
    obtain ⟨-, hr, -⟩ := h.of_filling hx
    exact h.close hx (by simp) (by simp; omega)

/-- R157: a CLOSED half freed. Out of FULL it fills at once. -/
theorem Trail.Sound.free (h : t.Sound) {x : HalfId} (hx : (t.half x).state = .closed) (hf : t.full = false) :
    (t.setHalf x ⟨.free, []⟩).Sound := by
  obtain ⟨y, hy⟩ : ∃ y, t.filling = some y := by
    cases hfill : t.filling <;> simp_all [Trail.full]
  obtain ⟨hstate, hr, -, -, hlost⟩ := h.of_filling hy
  have other : x = y.other := by cases x <;> cases y <;> simp_all [HalfId.other]
  subst other
  exact Trail.sound_of_filling (x := y) (by simpa using hstate) (by simpa using hr) (by simp [Half.Sound]) (by simp)
    (by simpa using hlost) (by simp)

/-- R157: out of FULL the half freed fills at once, with a GAP record at most, and no record is lost any more. -/
theorem Trail.Sound.refreshed (h : t.Sound) {x : HalfId} (hf : t.full = true) {l : List TrailRecord} (hl : l.length ≤ 1) :
    Trail.Sound { t.setHalf x ⟨.filling, l⟩ with lost := 0 } := by
  obtain ⟨hca, hcb⟩ := (Trail.filling_eq_none h).1 (by simpa [Trail.full] using hf)
  obtain ⟨ha, hb, -, -, -, hlast⟩ := h
  cases x
  · exact Trail.sound_of_filling (x := .a) rfl (show l.length ≤ 63 by omega) hb
      (by simp [Trail.half, HalfId.other, Trail.setHalf, hcb]) rfl fun _ => hlast (.inr hcb)
  · exact Trail.sound_of_filling (x := .b) rfl (show l.length ≤ 63 by omega) ha
      (by simp [Trail.half, HalfId.other, Trail.setHalf, hca]) rfl fun _ => hlast (.inl hca)

theorem defaultTrail_sound : defaultTrail.Sound :=
  Trail.sound_of_filling (x := .a) rfl (Nat.zero_le _) rfl nofun rfl nofun

end

/-! ### The host line (R163 to R166) -/

/-- The bounds of the host line before the transmitter looks at what waits: a request served has its one reply waiting or
being sent, and without one no reply waits or is sent. -/
structure HostLine.Bounded (h : HostLine) : Prop where
  busy : h.busy.length ≤ 4
  notices : h.notices.length ≤ 16
  rate : h.rateCode ≤ 3
  served : ∀ f, h.outstanding = some ⟨f, true⟩ → h.reply.isSome ≠ h.sendingReply
  unserved : (∀ f, h.outstanding ≠ some ⟨f, true⟩) → h.reply = none ∧ h.sendingReply = false

section
variable {h : HostLine}

theorem HostLine.sound_iff : h.Sound ↔
    h.Bounded ∧ (h.sending = none → h.reply = none ∧ h.busy = [] ∧ h.notices = []) := by
  have clause : (match h.outstanding with
        | none => h.reply = none ∧ h.sendingReply = false
        | some o => if o.served then h.reply.isSome ≠ h.sendingReply else h.reply = none ∧ h.sendingReply = false)
      ↔ (∀ f, h.outstanding = some ⟨f, true⟩ → h.reply.isSome ≠ h.sendingReply)
        ∧ ((∀ f, h.outstanding ≠ some ⟨f, true⟩) → h.reply = none ∧ h.sendingReply = false) := by
    obtain ho | ⟨⟨f, served⟩, ho⟩ := Option.eq_none_or_eq_some h.outstanding
    · simp [ho]
    · cases served <;> simp [ho]
  constructor
  · rintro ⟨busy, notices, rate, free, replies⟩
    obtain ⟨served, unserved⟩ := clause.1 replies
    exact ⟨⟨busy, notices, rate, served, unserved⟩, free⟩
  · rintro ⟨⟨busy, notices, rate, served, unserved⟩, free⟩
    exact ⟨busy, notices, rate, free, clause.2 ⟨served, unserved⟩⟩

/-- R165: once the transmitter has looked at what waits, a free one has nothing to send. -/
theorem HostLine.Bounded.begin_sound (hb : h.Bounded) : h.begin.Sound := by
  obtain ⟨busy, notices, rate, served, unserved⟩ := id hb
  rw [HostLine.sound_iff]
  unfold HostLine.begin
  split
  · rename_i x hx
    exact ⟨hb, fun hn => by rw [hx] at hn; cases hn⟩
  · rename_i hfree
    have idle : h.sendingReply = false := by simp [HostLine.sendingReply, hfree]
    split
    · rename_i f hf
      refine ⟨⟨busy, notices, rate, fun _ _ => by simp [HostLine.sendingReply], fun hu => ?_⟩, nofun⟩
      rw [(unserved hu).1] at hf
      cases hf
    · rename_i hreply
      have answered (f : Frame) : h.outstanding ≠ some ⟨f, true⟩ := fun ho => served f ho (by rw [hreply, idle]; rfl)
      split
      · rename_i b bs hbusy
        refine ⟨⟨?_, notices, rate, fun f ho => absurd ho (answered f), fun _ => ⟨hreply, rfl⟩⟩, nofun⟩
        rw [hbusy, List.length_cons] at busy
        exact Nat.le_of_succ_le busy
      · rename_i hbusy
        split
        · rename_i n ns hnotices
          refine ⟨⟨busy, ?_, rate, fun f ho => absurd ho (answered f), fun _ => ⟨hreply, rfl⟩⟩, nofun⟩
          rw [hnotices, List.length_cons] at notices
          exact Nat.le_of_succ_le notices
        · rename_i hnotices
          exact ⟨hb, fun _ => ⟨hreply, hbusy, hnotices⟩⟩

/-- R164: a reply handed for the request that is outstanding and not yet served. -/
theorem HostLine.Bounded.hand {f : Frame} (hb : h.Bounded) (ho : h.outstanding = some ⟨f, false⟩) (r : Frame) :
    HostLine.Bounded { h with outstanding := some ⟨f, true⟩, reply := some r } := by
  obtain ⟨-, idle⟩ := hb.unserved fun g hg => by rw [ho] at hg; cases hg
  refine ⟨hb.busy, hb.notices, hb.rate, fun _ _ => ?_, fun hu => absurd rfl (hu f)⟩
  show true ≠ h.sendingReply
  simp [idle]

/-- R165: the reply's last byte sent. -/
theorem HostLine.Bounded.replySent {f : Frame} (hb : h.Bounded) (hs : h.sending = some ⟨f, .reply⟩) :
    HostLine.Bounded { h with sending := none, outstanding := none } := by
  have sent : h.sendingReply = true := by simp [HostLine.sendingReply, hs]
  have replied : h.reply = none := by
    by_contra hr
    by_cases ho : ∃ g, h.outstanding = some ⟨g, true⟩
    · obtain ⟨g, hg⟩ := ho
      exact hb.served g hg (by rw [sent]; exact Option.isSome_iff_ne_none.2 hr)
    · exact hr (hb.unserved fun g hg => ho ⟨g, hg⟩).1
  exact ⟨hb.busy, hb.notices, hb.rate, nofun, fun _ => ⟨replied, rfl⟩⟩

/-- R165: a BUSY reply or a notice sent. -/
theorem HostLine.Bounded.otherSent (hb : h.Bounded) (hs : h.sendingReply = false) :
    HostLine.Bounded { h with sending := none } where
  busy := hb.busy
  notices := hb.notices
  rate := hb.rate
  served f ho := by
    have replies := hb.served f ho
    rwa [hs] at replies
  unserved hu := ⟨(hb.unserved hu).1, rfl⟩

theorem restartedHost_bounded {rate : Nat} (hr : rate ≤ 3) : (restartedHost rate).Bounded :=
  ⟨Nat.zero_le _, Nat.zero_le _, hr, nofun, fun _ => ⟨rfl, rfl⟩⟩

end

end Sys2Proof.Machine
end

