-- ==== Sys2Proof/Proofs/CountersJobs.lean ====
section
/-! The bounds of O55 in the course of a step, before the transmitter looks at what waits (R165): every operation of the
engine, of the station line and of the supply keeps them, and leaves the outstanding request as it is. -/
namespace Sys2Proof.Machine

/-- The clock, the trail, the sweep and the host line are in their bounds, the deadline queue is in order, and this is the
outstanding request. -/
def State.Counting (o : Option Outstanding) (s : State) : Prop :=
  s.clock.Sound ∧ s.trail.Sound ∧ s.sweep.Sound ∧ s.DeadlinesSorted ∧ s.host.Bounded ∧ s.host.outstanding = o

section
variable {s : State} {o : Option Outstanding}

theorem State.CountersSound.counting (h : s.CountersSound) : s.Counting s.host.outstanding := by
  obtain ⟨clock, trail, host, sweep, deadlines⟩ := h
  exact ⟨clock, trail, sweep, deadlines, (HostLine.sound_iff.1 host).1, rfl⟩

/-- R165: once the transmitter has looked at what waits, all the bounds hold. -/
theorem State.Counting.pump (h : s.Counting o) : s.pump.CountersSound := by
  obtain ⟨clock, trail, sweep, deadlines, host, -⟩ := h
  exact ⟨clock, trail, host.begin_sound, sweep, deadlines⟩

/-- R164: the reply handed for the request outstanding. -/
theorem State.Counting.hand {f : Frame} (h : s.Counting (some ⟨f, false⟩)) (code : ReplyCode) (r : List Byte) :
    (s.hand f code r).Counting (some ⟨f, true⟩) := by
  obtain ⟨clock, trail, sweep, deadlines, host, ho⟩ := h
  exact ⟨clock, trail, sweep, deadlines, host.hand ho _, rfl⟩

/-! ### Records, notices and the deadline queue -/

theorem State.Counting.offer (h : s.Counting o) (n : Notice) : (s.offer n).Counting o := by
  obtain ⟨clock, trail, sweep, deadlines, ⟨busy, notices, rate, served, unserved⟩, ho⟩ := h
  unfold State.offer
  split
  · rename_i hlen
    refine ⟨clock, trail, sweep, deadlines, ⟨busy, ?_, rate, served, unserved⟩, ho⟩
    simp only [Config.notices] at hlen
    simp only [List.length_append, List.length_singleton]
    omega
  · exact ⟨clock, trail, sweep, deadlines, ⟨busy, notices, rate, served, unserved⟩, ho⟩

theorem State.Counting.put (h : s.Counting o) (r : TrailRecord) : (s.put r).Counting o := by
  have written : State.Counting o { s with trail := (s.trail.put (s.stamp r)).1 } := by
    obtain ⟨clock, trail, rest⟩ := h
    exact ⟨clock, trail.put _, rest⟩
  unfold State.put State.offerSome
  split
  · exact written
  · exact written.offer _

theorem State.Counting.offerDecision (h : s.Counting o) (d : DecisionNotice) : (s.offerDecision d).Counting o := by
  unfold State.offerDecision
  split
  · exact h.offer _
  · exact h

theorem State.Counting.schedule (h : s.Counting o) (due : Nat) (w : Due) : (s.schedule due w).Counting o := by
  obtain ⟨clock, trail, sweep, deadlines, rest⟩ := h
  exact ⟨clock, trail, sweep, insertDeadline_sorted _ _ deadlines, rest⟩

/-- R93, R94: entries removed leave the others in their order. -/
theorem State.Counting.fewer (h : s.Counting o) {l : List DeadlineEntry} (hl : l.Sublist s.deadlines) :
    State.Counting o { s with deadlines := l } := by
  obtain ⟨clock, trail, sweep, deadlines, rest⟩ := h
  exact ⟨clock, trail, sweep, deadlines.sublist hl, rest⟩

theorem State.Counting.unschedule (h : s.Counting o) (w : Due) : (s.unschedule w).Counting o :=
  h.fewer List.filter_sublist

theorem State.Counting.dropHead (h : s.Counting o) : s.dropHead.Counting o := h.fewer (List.tail_sublist _)

theorem State.Counting.expireSweep (h : s.Counting o) : State.Counting o { s with sweep := s.sweep.expired } := by
  obtain ⟨clock, trail, ⟨-, low, high, owed⟩, rest⟩ := h
  refine ⟨clock, trail, ⟨Nat.min_le_left _ _, low, high, fun hp => ?_⟩, rest⟩
  have := owed hp
  show 1 ≤ min 4 (s.sweep.owed + 1)
  omega

/-! ### Records leaving, room alerts and groups -/

theorem State.Counting.debit (h : s.Counting o) (x : Occupant) : (s.debit x).Counting o := by
  unfold State.debit
  split <;> exact h

theorem State.Counting.leave (h : s.Counting o) (x : Occupant) : (s.leave x).Counting o := by
  have h1 : (s.unscheduleRecord x.credential).Counting o := (h.unschedule _).unschedule _
  have h2 : ((s.unscheduleRecord x.credential).clearOverstay x).Counting o := by
    unfold State.clearOverstay
    split
    · exact h1
    · exact h1.offer _
  have h3 : (((s.unscheduleRecord x.credential).clearOverstay x).clearRevoked x).Counting o := by
    unfold State.clearRevoked
    split
    · exact h2.offer _
    · exact h2
  exact h3

theorem State.Counting.lapse (h : s.Counting o) (r : Reason) (x : Occupant) : (State.lapse r s x).Counting o :=
  (h.put _).leave x

theorem State.Counting.foldl_lapse (h : s.Counting o) (r : Reason) (l : List Occupant) :
    (l.foldl (State.lapse r) s).Counting o :=
  foldl_property (P := State.Counting o) (fun _ x h => h.lapse r x) l s h

theorem State.Counting.denyMember (h : s.Counting o) (g : Group) (r : Reason) (m : Member) :
    (State.denyMember g r s m).Counting o :=
  (h.put _).offerDecision _

theorem State.Counting.foldl_denyMember (h : s.Counting o) (g : Group) (r : Reason) (l : List Member) :
    (l.foldl (State.denyMember g r) s).Counting o :=
  foldl_property (P := State.Counting o) (fun _ m h => h.denyMember g r m) l s h

theorem State.Counting.foldl_grantMember (h : s.Counting o) (g : Group) (t : Option (Nat × Nat)) (l : List Member) :
    (l.foldl (State.grantMember g t) s).Counting o :=
  foldl_property (P := State.Counting o) (fun _ _ h => (h.put _).offerDecision _) l s h

theorem State.Counting.moveRoomAlert (h : s.Counting o) (a : RoomAlert) (n : Nat) (l : Level) :
    (s.moveRoomAlert a n l).Counting o :=
  (State.Counting.offer (s := s.setRoom n (a.setLevel (s.room n) l)) h _).put _

theorem State.Counting.reevaluate (h : s.Counting o) (a : RoomAlert) (n : Nat) : (s.reevaluate a n).Counting o := by
  unfold State.reevaluate
  split
  · exact (h.moveRoomAlert ..).schedule ..
  · exact h
  · exact h
  · exact h
  · exact (h.moveRoomAlert ..).unschedule _
  · exact (h.moveRoomAlert ..).unschedule _

theorem State.Counting.reevaluateRoom (h : s.Counting o) (n : Nat) : (s.reevaluateRoom n).Counting o :=
  (h.reevaluate _ _).reevaluate _ _

theorem State.Counting.completeGroup (h : s.Counting o) (g : Group) (t : Option (Nat × Nat)) :
    (s.completeGroup g t).Counting o := by
  have placed : State.Counting o ((({ s.unschedule (.pairing g.station) with
      pool := s.pool ++ g.members.map (Member.toRecord g) } : State).dropGroup g.station).placeVerdict g.station .release
        .groupComplete) := h.unschedule (.pairing g.station)
  exact (placed.foldl_grantMember g t g.members).reevaluateRoom _

theorem State.Counting.retestFor (n k : Nat) : ∀ {s : State}, s.Counting o → (State.retestFor k n s).Counting o := by
  induction k with
  | zero => exact fun h => h
  | succ k ih =>
    intro s h
    unfold State.retestFor
    split
    · exact h
    · exact ih (h.completeGroup _ _)

theorem State.Counting.retest (h : s.Counting o) (n : Nat) : (s.retest n).Counting o := State.Counting.retestFor n _ h

theorem State.Counting.afterRemoval (h : s.Counting o) (n : Nat) : (s.afterRemoval n).Counting o :=
  (h.reevaluateRoom n).retest n

theorem State.Counting.removeMember (h : s.Counting o) (g : Group) (m : Member) (r : Reason) :
    (s.removeMember g m r).Counting o := by
  have placed : State.Counting o ((State.denyMember g r (s.setMembers g.station
      (g.members.filter (fun x => x.credential ≠ m.credential))) m).placeVerdict g.station .deny r) :=
    State.Counting.denyMember (s := s.setMembers g.station _) h g r m
  unfold State.removeMember
  dsimp only
  split
  · exact placed.unschedule _
  · unfold State.retestGroup
    (repeat' split)
    · exact placed
    · exact (placed.completeGroup _ _).retest _
    · exact placed

/-! ### Doors and the station line -/

theorem State.Counting.doorAlert (h : s.Counting o) (n : Nat) (k : AlertKind) (l : Level) :
    (s.doorAlert n k l).Counting o :=
  (h.put _).offer _

theorem State.Counting.commitIfAdmitting (h : s.Counting o) (n : Nat) : (s.commitIfAdmitting n).Counting o := by
  unfold State.commitIfAdmitting
  split <;> exact h

theorem State.Counting.writeChannel (h : s.Counting o) (n : Nat) (c : Channel) (r : Reason) :
    (s.writeChannel n c r).Counting o :=
  State.Counting.put (s := s.setStation n { s.station n with channel := c }) h _

theorem State.Counting.doorOpened (h : s.Counting o) (n : Nat) : (s.doorOpened n).Counting o := by
  have door (d : Door) : (s.setDoor n d).Counting o := h
  unfold State.doorOpened
  split
  · exact door _
  · unfold State.raiseForced
    dsimp only
    split
    · exact ((door _).writeChannel _ _ _).doorAlert ..
    · exact (door _).doorAlert ..
  · exact (door _).commitIfAdmitting _
  all_goals exact h

theorem State.Counting.doorClosed (h : s.Counting o) (n : Nat) : (s.doorClosed n).Counting o := by
  have door : (s.setDoor n .secure).Counting o := h
  unfold State.doorClosed
  split
  · exact door
  · exact h
  · exact h
  · exact door
  · exact door.doorAlert ..
  · exact door.doorAlert ..

theorem State.Counting.doorReleased (h : s.Counting o) (n k : Nat) : (s.doorReleased n k).Counting o := by
  have door (d : Door) : (s.setDoor n d).Counting o := h
  unfold State.doorReleased
  split
  · exact door _
  · exact door _
  · exact door _
  · exact (door _).commitIfAdmitting _
  · exact ((door _).doorAlert ..).commitIfAdmitting _
  · exact h.commitIfAdmitting _

theorem State.Counting.linkStep (h : s.Counting o) (n : Nat) : (s.linkStep n).Counting o := by
  have online : (s.setStation n { s.station n with missed := 0, link := .online }).Counting o := h
  unfold State.linkStep
  dsimp only
  split
  · exact (online.put _).offer _
  · exact online

theorem State.Counting.verdictStep (h : s.Counting o) (n : Nat) (t : Toggle) : (s.verdictStep n t).Counting o := by
  have delivered : (s.setStation n (s.station n).delivered).Counting o := h
  unfold State.verdictStep
  (repeat' split)
  · exact h
  · exact delivered.doorReleased ..
  · exact delivered
  · exact h

theorem State.Counting.contactStep (h : s.Counting o) (n : Nat) (a l : Bool) : (s.contactStep n a l).Counting o := by
  unfold State.contactStep
  (repeat' split)
  · exact h.doorOpened n
  · exact (h.doorOpened n).doorClosed n
  · exact h.doorClosed n

theorem State.Counting.reportStep (h : s.Counting o) (n : Nat) (t : Toggle) (d : Side) (c : Nat) :
    (s.reportStep n t d c).Counting o := by
  unfold State.reportStep
  (repeat' split) <;> exact h

theorem State.Counting.takeAnswer (h : s.Counting o) (n : Nat) (a : StationAnswer) : (s.takeAnswer n a).Counting o := by
  have judged := (h.linkStep n).verdictStep n a.seen
  unfold State.takeAnswer State.contactAndReport
  dsimp only
  (repeat' split)
  · exact h
  · exact judged
  · exact (judged.contactStep ..).reportStep ..
  · exact judged.contactStep ..

theorem State.Counting.silence (h : s.Counting o) (n : Nat) : (s.silence n).Counting o := by
  have door {t : State} (ht : t.Counting o) : (t.silenceDoor n).Counting o := by
    have unknown : (t.setDoor n .unknown).Counting o := ht
    unfold State.silenceDoor
    split
    · exact unknown.doorAlert ..
    · exact unknown.doorAlert ..
    all_goals exact unknown
  unfold State.silence
  extract_lets _ s1 _ s2 _ s3
  have h1 : s1.Counting o :=
    (State.Counting.put (s := s.setStation n { s.station n with link := .silent }) h _).offer _
  have h2 : s2.Counting o := door (t := s1.setStation n { s1.station n with verdict := none }) h1
  split <;> exact h2

theorem State.Counting.miss (h : s.Counting o) (n : Nat) (settle : Bool) : (s.miss n settle).Counting o := by
  unfold State.miss State.countMiss
  dsimp only
  (repeat' split)
  · exact h
  · exact State.Counting.silence (s := s.setStation n _) h n
  · exact h

theorem State.Counting.releaseExpires (h : s.Counting o) (n : Nat) : (s.releaseExpires n).Counting o := by
  unfold State.releaseExpires
  dsimp only
  (repeat' split) <;> exact h

/-! ### The supply -/

theorem State.Counting.changeMode (h : s.Counting o) (m : SupplyMode) (b : Bool) (c : ModeCause) :
    (s.changeMode m b c).Counting o :=
  (State.Counting.put (s := { s with supply := { s.supply with mode := m, byRequest := b } }) h _).offer _

theorem State.Counting.settleSweep (h : s.Counting o) : s.settleSweep.Counting o := by
  unfold State.settleSweep
  split
  · exact h.expireSweep
  · exact h

theorem State.Counting.wake (h : s.Counting o) (c : ModeCause) : (s.wake c).Counting o :=
  h.changeMode s.supply.modeOfLine false c

theorem State.Counting.wakeEvent (h : s.Counting o) (c : ModeCause) : (s.wakeEvent c).Counting o := by
  unfold State.wakeEvent
  (repeat' split)
  · exact h
  · exact h
  · exact h.wake c

/-- R171, R174: the receiver begins a frame, or hunts. -/
theorem State.Counting.receive (h : s.Counting o) (b : Bool) :
    State.Counting o { s with host := { s.host with receiving := b } } := by
  obtain ⟨clock, trail, sweep, deadlines, ⟨busy, notices, rate, served, unserved⟩, ho⟩ := h
  exact ⟨clock, trail, sweep, deadlines, ⟨busy, notices, rate, served, unserved⟩, ho⟩

theorem State.Counting.stop (h : s.Counting o) : s.stop.Counting o := by
  unfold State.stop
  dsimp only
  split
  · exact State.Counting.wake (s := { s with
      line := _, sweep := { s.sweep with count := 0 }, supply := _ }) h _
  · exact h.receive false

theorem State.Counting.requestRun (h : s.Counting o) : s.requestRun.Counting o := by
  unfold State.requestRun
  split
  · exact (h.changeMode ..).settleSweep
  · exact h

theorem State.Counting.requestReserve (h : s.Counting o) : s.requestReserve.Counting o := by
  unfold State.requestReserve
  split
  · exact h.changeMode ..
  · exact h
  · exact h

theorem State.Counting.requestStandby (h : s.Counting o) : s.requestStandby.Counting o := by
  unfold State.requestStandby
  split
  · exact h
  · exact h.changeMode .standby false .request

/-! ### Permit amendments, revocations and rooms -/

theorem State.Counting.recompute (h : s.Counting o) (x : Occupant) (p : Permit) : (s.recompute x p).Counting o := by
  have cleared {t : State} (ht : t.Counting o) (d : Nat) : (t.returnToClear x d).Counting o :=
    ((State.Counting.put (s := t.updateRecord x.credential _) ht _).offer _).schedule _ _
  have releveled {t : State} (ht : t.Counting o) (d : Nat) : (t.relevel x d).Counting o := by
    unfold State.relevel
    (repeat' split)
    · exact ht.schedule _ _
    · exact cleared ht _
    · exact ht.schedule _ _
    · exact cleared ht _
    · exact ht
  unfold State.recompute
  split
  · exact h
  · exact releveled (State.Counting.put (s := (s.unscheduleRecord x.credential).updateRecord x.credential _)
      ((h.unschedule _).unschedule _) _) _

theorem State.Counting.actOnHolder (h : s.Counting o) (p : Permit) (c : PermitAmend) :
    (s.actOnHolder p c).Counting o := by
  have suspended : (if c.status = some .suspended then s.suspendMember p.number else s).Counting o := by
    unfold State.suspendMember
    (repeat' split)
    · exact h.removeMember ..
    all_goals exact h
  unfold State.actOnHolder
  generalize (if c.status = some .suspended then s.suspendMember p.number else s) = s1 at suspended ⊢
  dsimp only
  (repeat' split)
  · exact suspended.recompute ..
  · exact suspended
  · exact suspended

theorem State.Counting.markRevoked (h : s.Counting o) (x : Occupant) (b : Bool) : (s.markRevoked x b).Counting o :=
  (State.Counting.offer (s := s.updateRecord x.credential _) h _).put _

theorem State.Counting.actOnRevoked (h : s.Counting o) (c : Nat) : (s.actOnRevoked c).Counting o := by
  unfold State.actOnRevoked
  (repeat' split)
  · exact h.markRevoked ..
  · exact h.removeMember ..
  · exact h

theorem State.Counting.unmark (h : s.Counting o) (c : Nat) : (s.unmark c).Counting o := by
  unfold State.unmark
  (repeat' split)
  · exact h.markRevoked ..
  · exact h
  · exact h

theorem State.Counting.configureRoom (h : s.Counting o) (c : RoomConfig) : (s.configureRoom c).Counting o := by
  have written : (s.setRoom c.room ((s.room c.room).configured c)).Counting o := h
  unfold State.configureRoom
  dsimp only
  split
  · exact written
  · exact (written.reevaluateRoom _).retest _

theorem State.Counting.changeRoomMode (h : s.Counting o) (n : Nat) (m : RoomMode) : (s.changeRoomMode n m).Counting o :=
  (State.Counting.reevaluateRoom (s := State.rederive _ n)
    (State.Counting.put (s := s.setRoom n { s.room n with mode := m }) h _) n).retest n

theorem State.Counting.operatorRelease (h : s.Counting o) (x : Occupant) : (s.operatorRelease x).Counting o :=
  (((h.debit x).put _).leave x).afterRemoval _

/-! ### Jobs -/

theorem State.Counting.commitStation (h : s.Counting o) (n : Nat) : (s.commitStation n).Counting o := by
  have record {t : State} (ht : t.Counting o) (x : Occupant) : (t.commitRecord x).Counting o :=
    (State.Counting.schedule (s := t.updateRecord x.credential _) ht _ _).put _
  unfold State.commitStation
  split
  · exact h
  · exact (foldl_property (P := State.Counting o) (fun _ x ht => record ht x) _ s h).afterRemoval _

theorem State.Counting.cancelGroup (h : s.Counting o) (n : Nat) : (s.cancelGroup n).Counting o := by
  unfold State.cancelGroup
  split
  · exact h
  · exact (h.foldl_denyMember ..).unschedule _

theorem State.Counting.lapseStation (h : s.Counting o) (n : Nat) (silence : Bool) :
    (s.lapseStation n silence).Counting o := by
  have lapsed := h.foldl_lapse (if silence then .stationSilent else .releaseExpired) (s.admittingAt n)
  unfold State.lapseStation
  generalize (s.admittingAt n).foldl (State.lapse (if silence then .stationSilent else .releaseExpired)) s = s1 at lapsed ⊢
  have cancelled : (if silence then s1.cancelGroup n else s1).Counting o := by
    split
    · exact lapsed.cancelGroup n
    · exact lapsed
  dsimp only
  generalize (if silence then s1.cancelGroup n else s1) = s2 at cancelled ⊢
  split
  · exact cancelled
  · exact cancelled.afterRemoval _

theorem State.Counting.expireGroup (h : s.Counting o) (n : Nat) : (s.expireGroup n).Counting o := by
  unfold State.expireGroup
  split
  · exact h
  · exact h.foldl_denyMember ..

theorem State.Counting.raiseOverstay (h : s.Counting o) (x : Occupant) : (s.raiseOverstay x).Counting o := by
  have raised : State.Counting o (((s.updateRecord x.credential (fun x => { x with overstay := .raised })).offer
      (x.notice .overstay .raised)).put (x.record .overstay .raised)) :=
    (State.Counting.offer (s := s.updateRecord x.credential _) h _).put _
  unfold State.raiseOverstay
  dsimp only
  split
  · exact raised.schedule _ _
  · exact raised

theorem State.Counting.escalateOverstay (h : s.Counting o) (x : Occupant) : (s.escalateOverstay x).Counting o :=
  (State.Counting.offer (s := s.updateRecord x.credential _) h _).put _

theorem State.Counting.escalateAlert (h : s.Counting o) (a : RoomAlert) (n : Nat) : (s.escalateAlert a n).Counting o := by
  unfold State.escalateAlert
  split
  · exact h.moveRoomAlert ..
  · exact h
  · exact h

/-- R94: the four actions on a due entry. -/
theorem State.Counting.takeDue (h : s.Counting o) {act : Due → State → State}
    (ha : act ∈ [pairingAction, stayDeadlineAction, escalationAction, limitAction]) : (s.takeDue act).Counting o := by
  have dropped := h.dropHead
  unfold State.takeDue
  split
  · rename_i e _
    simp only [List.mem_cons, List.not_mem_nil, or_false] at ha
    rcases ha with rfl | rfl | rfl | rfl
    · unfold pairingAction
      split
      · exact dropped.expireGroup _
      all_goals exact dropped
    · unfold stayDeadlineAction
      (repeat' split)
      · exact dropped.raiseOverstay _
      all_goals exact dropped
    · unfold escalationAction
      (repeat' split)
      · exact dropped.escalateOverstay _
      all_goals exact dropped
    · unfold limitAction
      split
      · exact dropped.escalateAlert ..
      · exact dropped.escalateAlert ..
      all_goals exact dropped
  · exact h

theorem State.Counting.retire (h : s.Counting o) (e : Nat × Permit) : (s.retire e).Counting o :=
  (State.Counting.put (s := s.dropPermit e.2.number) h _).offer _

/-! ### Decisions -/

theorem State.Counting.conclude (h : s.Counting o) (p : Presentation) (x : VerdictOutcome) (r : Reason) (n : Nat)
    (t : TrailRecord) : (s.conclude p x r n t).Counting o :=
  (State.Counting.put (s := (s.placeVerdict p.station x r).setLast p x r) h _).offerDecision _

theorem State.Counting.refuse (h : s.Counting o) (p : Presentation) (r : Reason) (n v : Nat) :
    (s.refuse p r n v).Counting o :=
  h.conclude ..

theorem State.Counting.decideSilent (h : s.Counting o) (p : Presentation) : (s.decideSilent p).Counting o :=
  (State.Counting.put (s := s.setLast p .deny .stationSilent) h _).offerDecision _

theorem State.Counting.grant (h : s.Counting o) (p : Presentation) (q : Permit) : (s.grant p q).Counting o :=
  (State.Counting.conclude (s := { s with
    pool := s.pool ++ [newRecord s p.station (s.station p.station).room p.credential q] }) h ..).afterRemoval _

theorem State.Counting.found (h : s.Counting o) (p : Presentation) (q : Permit) : (s.found p q).Counting o := by
  have founded (l : List Group) : State.Counting o { s with groups := l } := h
  exact ((founded _).schedule _ _).conclude ..

theorem State.Counting.join (h : s.Counting o) (p : Presentation) (g : Group) (q : Permit) : (s.join p g q).Counting o := by
  have joined : (s.setMembers g.station (g.members ++ [s.newMember p q])).Counting o := h
  unfold State.join
  dsimp only
  split
  · exact State.Counting.retest (s := State.setLast _ p .release .groupComplete) (joined.completeGroup ..) _
  · exact joined.conclude ..

theorem State.Counting.admitOrPair (h : s.Counting o) (p : Presentation) (q : Permit) :
    (s.admitOrPair p q).Counting o := by
  unfold State.admitOrPair
  dsimp only
  (repeat' split)
  · exact h.refuse ..
  · exact h.join ..
  · exact h.grant ..
  · exact h.refuse ..
  · exact h.found ..

theorem State.Counting.roomChecks (h : s.Counting o) (p : Presentation) (q : Permit) : (s.roomChecks p q).Counting o := by
  unfold State.roomChecks
  dsimp only
  (repeat' split)
  · exact h.refuse ..
  · exact h.refuse ..
  · exact h.refuse ..
  · exact h.refuse ..
  · exact h.admitOrPair ..

theorem State.Counting.tryPermits (h : s.Counting o) (p : Presentation) : (s.tryPermits p).Counting o := by
  unfold State.tryPermits
  dsimp only
  split
  · exact h.roomChecks ..
  · split
    · exact h.refuse ..
    · exact h.refuse ..

theorem State.Counting.decideEntry (h : s.Counting o) (p : Presentation) : (s.decideEntry p).Counting o := by
  unfold State.decideEntry
  (repeat' split)
  · exact h.refuse ..
  · exact h.refuse ..
  · exact h.refuse ..
  · exact h.conclude ..
  · exact h.refuse ..
  · exact h.conclude ..
  · exact h.refuse ..
  · exact h.tryPermits p

theorem State.Counting.decideExit (h : s.Counting o) (p : Presentation) : (s.decideExit p).Counting o := by
  have placed : ((s.placeVerdict p.station .release .exit).setLast p .release .exit).Counting o := h
  unfold State.decideExit State.exitRecord
  dsimp only
  (repeat' split)
  · exact ((((placed.debit _).put _).offerDecision _).leave _).afterRemoval _
  · exact (((placed.put _).offerDecision _).leave _).afterRemoval _
  · exact h.conclude ..

theorem State.Counting.takePresentation (h : s.Counting o) {act : State → Presentation → State}
    (ha : act ∈ [State.decideEntry, State.decideExit]) : (s.takePresentation act).Counting o := by
  unfold State.takePresentation
  split
  · exact h
  · rename_i p rest _
    have taken : State.Counting o { s with presentations := rest } := h
    dsimp only
    split
    · exact taken.decideSilent p
    · simp only [List.mem_cons, List.not_mem_nil, or_false] at ha
      rcases ha with rfl | rfl
      · exact taken.decideEntry p
      · exact taken.decideExit p

end

end Sys2Proof.Machine
end

