-- ==== Sys2Proof/Proofs/CountersKept.lean ====
section
/-! O55: every step keeps the bounds of the clock, the trail, the host line and the sweep, and the order of the deadline
queue. -/
namespace Sys2Proof.Machine

section
variable {s t : State} {o : Option Outstanding}

/-! ### Start-ups (R178) -/

theorem State.Counting.rebuildEntry (h : s.Counting o) (x : Occupant) : (s.rebuildEntry x).Counting o := by
  unfold State.rebuildEntry
  split
  · exact h.schedule _ _
  · exact h.schedule _ _
  · exact h
  · exact h

theorem State.Counting.rebuildAlert (h : s.Counting o) (a : RoomAlert) (n : Nat) : (s.rebuildAlert a n).Counting o := by
  unfold State.rebuildAlert
  split
  · exact h.schedule _ _
  · exact h.reevaluate a n

theorem State.Counting.discardGroups (h : s.Counting o) : s.discardGroups.Counting o := by
  have denied := foldl_property (P := State.Counting o) (f := fun s g => g.members.foldl (State.denyAtRestart g) s)
    (fun _ g h => foldl_property (P := State.Counting o) (fun _ _ h => h.put _) g.members _ h) s.groups s h
  exact denied

theorem State.Counting.warmWork (h : s.Counting o) : s.warmWork.Counting o := by
  have discarded : s.lapseAll.discardGroups.Counting o := (h.foldl_lapse .restart _).discardGroups
  rw [warmWork_eq]
  exact foldl_property (P := State.Counting o) (fun _ p h => h.rebuildAlert p.2 p.1) _ _
    (foldl_property (P := State.Counting o) (fun _ x h => h.rebuildEntry x) _ _ discarded)

theorem restartedSweep_sound : restartedSweep.Sound :=
  ⟨Nat.zero_le _, Nat.le_refl _, by decide, fun hp => absurd rfl hp⟩

theorem resetUnretained_counting (hc : s.clock.Sound) (ht : s.trail.Sound) (hr : s.host.rateCode ≤ 3) :
    s.resetUnretained.Counting none :=
  ⟨hc, ht, restartedSweep_sound, .nil, restartedHost_bounded hr, rfl⟩

theorem State.Counting.takeKind (h : s.Counting o) (k : RestartKind) (lost : Bool) : (s.takeKind k lost).Counting o := by
  cases k with
  | powerOn =>
    obtain ⟨-, -, rest⟩ := h
    exact ⟨unsetClock_sound, defaultTrail_sound, rest⟩
  | restartClean =>
    obtain ⟨clock, -, rest⟩ := h
    exact ⟨clock, defaultTrail_sound, rest⟩
  | resetLine => exact h
  | restartWarm => exact h

theorem State.Counting.takeMode (h : s.Counting o) {rate : Nat} (hr : rate ≤ 3) : (s.takeMode rate).Counting o := by
  obtain ⟨clock, trail, sweep, deadlines, ⟨busy, notices, -, served, unserved⟩, ho⟩ := h
  exact ⟨clock, trail, sweep, deadlines, ⟨busy, notices, hr, served, unserved⟩, ho⟩

theorem State.Counting.offerReady (h : s.Counting o) (hn : s.host.notices.length ≤ 15) (k : RestartKind) (lost : Bool) :
    (s.offerReady k lost).Counting o := by
  obtain ⟨clock, trail, sweep, deadlines, ⟨busy, -, rate, served, unserved⟩, ho⟩ := h
  exact ⟨clock, trail, sweep, deadlines, ⟨busy, Nat.succ_le_succ hn, rate, served, unserved⟩, ho⟩

/-- R153: a record written offers one notice at most. -/
theorem put_notices_length (s : State) (r : TrailRecord) :
    (s.put r).host.notices.length ≤ s.host.notices.length + 1 := by
  unfold State.put State.offerSome State.offer
  (repeat' split) <;> simp

theorem rateOfStraps_le (inputs : RestartInputs) : rateOfStraps inputs ≤ 3 := by
  unfold rateOfStraps
  have := Bool.toNat_le inputs.strap1
  have := Bool.toNat_le inputs.strap0
  omega

/-- R178: the steps that a start-up takes, whole or cut short, leave the bounds standing. -/
theorem stepsTaken_counting (hc : s.clock.Sound) (ht : s.trail.Sound) (hr : s.host.rateCode ≤ 3) (k : RestartKind)
    (lost : Bool) {rate : Nat} (hrate : rate ≤ 3) (cut : Option StartUpCut) :
    ((stepsTaken cut).foldl (State.startUpStep k lost rate) s).Counting none := by
  have unretained := resetUnretained_counting hc ht hr
  have kind := unretained.takeKind k lost
  have mode := kind.takeMode hrate
  have record := mode.put { kind := .restart, reason := .restarted k, value := .number lost.toNat }
  have quiet : ((s.resetUnretained.takeKind k lost).takeMode rate).host.notices = [] := by cases k <;> rfl
  have ready := record.offerReady ((put_notices_length _ _).trans (by rw [quiet]; decide)) k lost
  have engine : ((((s.resetUnretained.takeKind k lost).takeMode rate).putRestart k lost).offerReady k lost).engineWork k
      |>.Counting none := by
    cases k with
    | powerOn => exact ready
    | restartClean => exact ready
    | resetLine => exact ready.warmWork
    | restartWarm => exact ready.warmWork
  obtain _ | ⟨after, hold⟩ := cut
  · exact engine
  · cases after with
    | unretained => exact unretained
    | kind => exact kind
    | mode => exact mode
    | record => exact record
    | ready => exact ready
    | engine => exact engine
    | mark => exact engine

theorem State.Counting.restartLine (h : s.Counting o) : s.restartLine.Counting o := h

theorem startUp_countersSound (hc : s.clock.Sound) (ht : s.trail.Sound) (hr : s.host.rateCode ≤ 3) (event : RestartKind)
    (inputs : RestartInputs) : (s.startUp event inputs).CountersSound := by
  unfold State.startUp
  dsimp only
  generalize (s.supply.backedUp inputs.backup).decideKind event = kind
  have taken := stepsTaken_counting (s := { s with supply := (s.supply.backedUp inputs.backup).startingUp kind.1 })
    hc ht hr kind.1 kind.2 (rateOfStraps_le inputs) inputs.cut
  split
  · rename_i hcut
    rw [hcut] at taken ⊢
    generalize (stepsTaken none).foldl _ _ = u at taken ⊢
    exact taken.restartLine.pump
  · obtain ⟨clock, trail, sweep, deadlines, host, -⟩ := taken
    exact ⟨clock, trail, HostLine.sound_iff.2 ⟨restartedHost_bounded host.rate, fun _ => ⟨rfl, rfl, rfl⟩⟩, sweep, deadlines⟩

theorem State.CountersSound.rate (h : s.CountersSound) : s.host.rateCode ≤ 3 := by
  obtain ⟨-, -, host, -⟩ := h
  exact (HostLine.sound_iff.1 host).1.rate

theorem State.CountersSound.leaveReset (h : s.CountersSound) (inputs : RestartInputs) :
    (s.leaveReset inputs).CountersSound := by
  have rate := h.rate
  obtain ⟨clock, trail, rest⟩ := id h
  unfold State.leaveReset
  dsimp only
  split
  · exact h
  · exact startUp_countersSound (s := { s with supply := s.supply.backedUp inputs.backup }) clock trail rate _ _

/-! ### Requests and jobs -/

section
variable {i : Instr} {serve : List Byte → State → Except ReplyCode (State × List Byte)}

theorem State.CountersSound.answer (h : s.CountersSound) {f : Frame} (hu : s.unserved = some f)
    (hs : ∀ b u r, serve b s = .ok (u, r) → u.Counting s.host.outstanding) :
    (s.answer f (serve f.body s)).CountersSound := by
  have ho := unserved_spec hu
  unfold State.answer
  split
  · exact ((ho ▸ h.counting).hand _ _).pump
  · rename_i hserved
    exact ((ho ▸ hs _ _ _ hserved).hand _ _).pump

theorem requestJob_countersSound (h : s.CountersSound)
    (hs : ∀ b u r, serve b s = .ok (u, r) → u.Counting s.host.outstanding) (he : requestJob i s serve = .next t) :
    t.CountersSound := by
  unfold requestJob at he
  (repeat' split at he) <;> cases he
  · rename_i hu
    exact h.answer hu hs
  · exact h
  · exact h

theorem acceptedRequest_countersSound (h : s.CountersSound)
    (hs : ∀ b u r, serve b s = .ok (u, r) → u.Counting s.host.outstanding) (he : acceptedRequest i s serve = .next t) :
    t.CountersSound := by
  unfold acceptedRequest at he
  split at he <;> cases he
  · rename_i ha
    obtain ⟨-, hu, -, -⟩ := acceptedFor_spec ha
    exact h.answer hu hs
  · exact h

theorem whenGranted_countersSound {job : State → State} (h : s.CountersSound)
    (hj : s.granted = some i → (job s).Counting s.host.outstanding) (he : whenGranted i s job = .next t) :
    t.CountersSound := by
  unfold whenGranted at he
  split at he <;> cases he
  · rename_i hg
    exact (hj hg).pump
  · exact h

/-- A service that reads a body, and moves none of the counters. -/
theorem counting_of_map {α : Type} {x : Except ReplyCode α} {g : α → State × List Byte} {u : State} {r : List Byte}
    (hg : ∀ a, x = .ok a → (g a).1.Counting o) (h : x.map g = .ok (u, r)) : u.Counting o := by
  obtain ⟨a, ha, hga⟩ := except_map_ok h
  have := hg a ha
  rwa [hga] at this

end

/-! ### Services -/

section
variable {b r : List Byte} {u : State}

/-- R89: the day and the second of a CLOCK-SET stand in the clock's ranges. -/
theorem readClockSet_range {day second : Nat} (h : readClockSet b = .ok (day, second)) : day ≤ 65535 ∧ second ≤ 86399 := by
  unfold readClockSet at h
  (repeat' split at h) <;> cases h
  rename_i _ hsecond
  have hday : valueAt b 0 2 < 65536 := valueAt_lt b 0 2
  simp only [Config.daySeconds, not_le] at hsecond
  omega

theorem serveClockSet_counting (h : s.Counting o) (hs : serveClockSet b s = .ok (u, r)) : u.Counting o := by
  unfold serveClockSet at hs
  (repeat' split at hs) <;> cases hs
  rename_i day second hread _
  obtain ⟨hday, hsecond⟩ := readClockSet_range hread
  obtain ⟨-, rest⟩ := h
  exact State.Counting.put (s := { s with clock := clockAt day second }) ⟨clockAt_sound hday hsecond, rest⟩ _

theorem State.Counting.closeTrail (h : s.Counting o) {x : HalfId} (hx : s.trail.filling = some x)
    (hne : (s.trail.half x).records ≠ []) : (s.closeTrail x).Counting o := by
  obtain ⟨clock, trail, rest⟩ := h
  obtain ⟨-, hlen, -⟩ := trail.of_filling hx
  exact State.Counting.offer (s := { s with trail := s.trail.close x (s.trail.half x).records })
    ⟨clock, trail.close hx (List.length_pos_of_ne_nil hne) (by omega), rest⟩ _

theorem serveTrailClose_counting (h : s.Counting o) (hs : serveTrailClose b s = .ok (u, r)) : u.Counting o := by
  unfold serveTrailClose at hs
  (repeat' split at hs) <;> cases hs
  · exact h
  · rename_i hx hne _
    exact h.closeTrail hx hne

theorem State.Counting.freeHalf (h : s.Counting o) {x : HalfId} (hx : (s.trail.half x).state = .closed) :
    (s.freeHalf x).Counting o := by
  obtain ⟨clock, trail, rest⟩ := h
  unfold State.freeHalf
  split
  · rename_i hfull
    exact ⟨clock, trail.refreshed hfull (by split <;> simp), rest⟩
  · rename_i hfull
    exact ⟨clock, trail.free hx (by simpa using hfull), rest⟩

theorem serveTrailFree_counting (h : s.Counting o) (hs : serveTrailFree b s = .ok (u, r)) : u.Counting o := by
  unfold serveTrailFree at hs
  (repeat' split at hs) <;> cases hs
  rename_i hx
  exact h.freeHalf hx

theorem State.Counting.clearLineFlags (h : s.Counting o) : s.clearLineFlags.Counting o := by
  obtain ⟨clock, trail, sweep, deadlines, ⟨busy, notices, rate, served, unserved⟩, ho⟩ := h
  exact ⟨clock, trail, sweep, deadlines, ⟨busy, notices, rate, served, unserved⟩, ho⟩

theorem State.Counting.writeSettings (h : s.Counting o) (x : Settings) : (s.writeSettings x).Counting o := by
  obtain ⟨clock, trail, sweep, rest⟩ := h
  refine ⟨clock, trail, ?_, rest⟩
  unfold State.writeSettings
  dsimp only
  split <;> exact sweep

theorem servePermitAmend_counting (h : s.Counting o) (hs : servePermitAmend b s = .ok (u, r)) : u.Counting o := by
  unfold servePermitAmend at hs
  (repeat' split at hs) <;> cases hs
  exact State.Counting.actOnHolder (s := s.updatePermit _ _) h _ _

theorem State.Counting.withRevoked (h : s.Counting o) (l : List Nat) : State.Counting o { s with revoked := l } := h

theorem serveRevoke_counting (h : s.Counting o) (hs : serveRevoke b s = .ok (u, r)) : u.Counting o := by
  unfold serveRevoke at hs
  (repeat' split at hs) <;> cases hs
  · exact h
  · exact (h.withRevoked _).actOnRevoked _

theorem serveUnrevoke_counting (h : s.Counting o) (hs : serveUnrevoke b s = .ok (u, r)) : u.Counting o := by
  unfold serveUnrevoke at hs
  (repeat' split at hs) <;> cases hs
  exact (h.withRevoked _).unmark _

theorem serveRoomMode_counting (h : s.Counting o) (hs : serveRoomMode b s = .ok (u, r)) : u.Counting o := by
  unfold serveRoomMode at hs
  (repeat' split at hs) <;> cases hs
  · exact h
  · exact h.changeRoomMode _ _

theorem serveStationChannel_counting (h : s.Counting o) (hs : serveStationChannel b s = .ok (u, r)) : u.Counting o := by
  unfold serveStationChannel at hs
  (repeat' split at hs) <;> cases hs
  · exact h
  · exact h.writeChannel _ _ _

theorem servePermitAdd_counting (h : s.Counting o) (hs : servePermitAdd b s = .ok (u, r)) : u.Counting o := by
  unfold servePermitAdd at hs
  (repeat' split at hs) <;> cases hs
  exact h

theorem servePermitRemove_counting (h : s.Counting o) (hs : servePermitRemove b s = .ok (u, r)) : u.Counting o := by
  unfold servePermitRemove at hs
  (repeat' split at hs) <;> cases hs
  exact h

theorem servePermitRead_counting (h : s.Counting o) (hs : servePermitRead b s = .ok (u, r)) : u.Counting o := by
  unfold servePermitRead at hs
  (repeat' split at hs) <;> cases hs
  exact h

theorem servePermitFind_counting (h : s.Counting o) (hs : servePermitFind b s = .ok (u, r)) : u.Counting o := by
  unfold servePermitFind at hs
  (repeat' split at hs) <;> cases hs
  exact h

theorem serveRoomRead_counting (h : s.Counting o) (hs : serveRoomRead b s = .ok (u, r)) : u.Counting o := by
  unfold serveRoomRead at hs
  (repeat' split at hs) <;> cases hs
  exact h

theorem serveStationSet_counting (h : s.Counting o) (hs : serveStationSet b s = .ok (u, r)) : u.Counting o := by
  unfold serveStationSet at hs
  (repeat' split at hs) <;> cases hs
  exact h

theorem serveStationRead_counting (h : s.Counting o) (hs : serveStationRead b s = .ok (u, r)) : u.Counting o := by
  unfold serveStationRead at hs
  (repeat' split at hs) <;> cases hs
  exact h

theorem serveTrailRead_counting (h : s.Counting o) (hs : serveTrailRead b s = .ok (u, r)) : u.Counting o := by
  unfold serveTrailRead at hs
  (repeat' split at hs) <;> cases hs
  exact h

theorem serveRoomSet_counting (h : s.Counting o) (hs : serveRoomSet b s = .ok (u, r)) : u.Counting o := by
  unfold serveRoomSet at hs
  (repeat' split at hs) <;> cases hs
  exact h.configureRoom _

theorem serveOccupantRelease_counting (h : s.Counting o) (hs : serveOccupantRelease b s = .ok (u, r)) : u.Counting o := by
  unfold serveOccupantRelease at hs
  (repeat' split at hs) <;> cases hs
  exact h.operatorRelease _

theorem serveModeRun_counting (h : s.Counting o) (hs : serveModeRun b s = .ok (u, r)) : u.Counting o := by
  unfold serveModeRun at hs
  (repeat' split at hs) <;> cases hs
  exact h.requestRun

theorem serveModeReserve_counting (h : s.Counting o) (hs : serveModeReserve b s = .ok (u, r)) : u.Counting o := by
  unfold serveModeReserve at hs
  (repeat' split at hs) <;> cases hs
  exact h.requestReserve

theorem serveModeStandby_counting (h : s.Counting o) (hs : serveModeStandby b s = .ok (u, r)) : u.Counting o := by
  unfold serveModeStandby at hs
  (repeat' split at hs) <;> cases hs
  exact h.requestStandby

end

/-! ### The other commands -/

/-- R161 to R163: a frame accepted, put on the BUSY list or discarded. -/
theorem State.CountersSound.acceptFrame (h : s.CountersSound) (f : Frame) : (s.acceptFrame f).pump.CountersSound := by
  obtain ⟨clock, trail, sweep, deadlines, ⟨busy, notices, rate, served, unserved⟩, -⟩ := h.counting
  unfold State.acceptFrame
  split
  · rename_i hnone
    exact State.Counting.pump (s := { s with host := _ }) ⟨clock, trail, sweep, deadlines, ⟨busy, notices, rate,
      fun g hg => by (simp at hg), fun _ => unserved (by simp [hnone])⟩, rfl⟩
  · split
    · rename_i hlen
      simp only [Config.busyEntries] at hlen
      refine State.Counting.pump (s := { s with host := _ }) (o := s.host.outstanding)
        ⟨clock, trail, sweep, deadlines, ⟨?_, notices, rate, served, unserved⟩, rfl⟩
      simp only [List.length_append, List.length_singleton]
      omega
    · exact State.Counting.pump (s := s.discardFrame) (o := s.host.outstanding)
        ⟨clock, trail, sweep, deadlines, ⟨busy, notices, rate, served, unserved⟩, rfl⟩

/-- R161: a frame given up moves the receiver and its flag alone. -/
theorem State.CountersSound.discardFrame (h : s.CountersSound) : s.discardFrame.CountersSound := h

theorem discard_countersSound {b : Bool} (h : s.CountersSound)
    (he : (if b then Host.Outcome.next s else .next s.discardFrame : Host.Outcome State Fault Refusal) = .next t) :
    t.CountersSound := by
  split at he <;> cases he
  · exact h
  · exact h.discardFrame

/-- R165, R174, R177: after its reply the part restarts, stops, or goes on. -/
theorem State.Counting.replySent (h : s.Counting o) (inputs : RestartInputs) : (s.replySent inputs).CountersSound := by
  obtain ⟨clock, trail, -, -, host, -⟩ := id h
  unfold State.replySent
  (repeat' split)
  · exact startUp_countersSound clock trail host.rate _ _
  · exact startUp_countersSound clock trail host.rate _ _
  · exact h.stop.pump
  · exact h.pump

theorem execFrameSent_countersSound (h : s.CountersSound) {inputs : RestartInputs}
    (he : execFrameSent inputs s = .next t) : t.CountersSound := by
  obtain ⟨clock, trail, sweep, deadlines, host, -⟩ := h.counting
  unfold execFrameSent at he
  (repeat' split at he) <;> cases he
  · exact h
  · exact h
  · rename_i x hsend _ hsource
    have hreply : s.host.sending = some ⟨x.frame, .reply⟩ := hsource ▸ hsend
    exact State.Counting.replySent (s := { s with host := { s.host with sending := none, outstanding := none } })
      ⟨clock, trail, sweep, deadlines, host.replySent hreply, rfl⟩ inputs
  all_goals
    rename_i x hsend _ hsource
    exact State.Counting.pump (s := { s with host := { s.host with sending := none } })
      ⟨clock, trail, sweep, deadlines, host.otherSent (by simp [HostLine.sendingReply, hsend, hsource]), rfl⟩

theorem execClockEnd_countersSound (h : s.CountersSound) (he : execClockEnd s = .next t) : t.CountersSound := by
  unfold execClockEnd at he
  split at he <;> cases he
  · rename_i hc
    simp only [Bool.and_eq_true, Bool.not_eq_true'] at hc
    obtain ⟨-, rest⟩ := h
    exact ⟨Clock.atEnd_sound hc.1.1, rest⟩
  · exact h

/-- R99, R124, R126: a sweep granted has a sweep owed, which the pass keeps until it completes. -/
theorem advance_sound {w : Sweep} (h : w.Sound) (ho : 0 < w.owed) : w.advance.Sound := by
  obtain ⟨hlow, h1, h16, -⟩ := h
  unfold Sweep.advance
  split
  · rename_i hlt
    simp only [Config.sweepSteps] at hlt
    exact ⟨hlow, by simp, by dsimp only; omega, fun _ => ho⟩
  · exact ⟨by dsimp only; omega, Nat.le_refl _, show 1 ≤ 16 by decide, fun hp => absurd rfl hp⟩

theorem State.CountersSound.tick (h : s.CountersSound) : s.tick.CountersSound := by
  obtain ⟨clock, trail, host, sweep, deadlines⟩ := h
  unfold State.tick
  split
  · exact ⟨clock.tick, trail, host, sweep, deadlines⟩
  · refine ⟨clock.tick, trail, host, ?_, deadlines⟩
    dsimp only
    split <;> exact sweep

theorem foldl_retire_sweep (l : List (Nat × Permit)) (s : State) : (l.foldl State.retire s).sweep = s.sweep :=
  foldl_keeps State.sweep State.retire (fun s e => by simp [State.retire, State.dropPermit]) l s

theorem sweepStep_counting (h : s.Counting o) (hg : s.granted = some .sweepStep) :
    (let s1 := (s.toRetire s.sweep.position).foldl State.retire s
     ({ s1 with sweep := s1.sweep.advance } : State)).Counting o := by
  have retired := foldl_property (P := State.Counting o) (fun _ e h => h.retire e) (s.toRetire s.sweep.position) s h
  have kept := foldl_retire_sweep (s.toRetire s.sweep.position) s
  generalize (s.toRetire s.sweep.position).foldl State.retire s = u at retired kept ⊢
  obtain ⟨clock, trail, sweep, rest⟩ := retired
  exact ⟨clock, trail, advance_sound sweep (kept ▸ owed_of_granted hg), rest⟩

theorem State.CountersSound.startByte (h : s.CountersSound) (he : execStartByteReceived s = .next t) : t.CountersSound := by
  unfold execStartByteReceived at he
  split at he <;> cases he
  · exact h
  · exact ((h.counting.receive true).wakeEvent _).pump

theorem State.Counting.setSupplyGood (h : s.Counting o) (b : Bool) : (s.setSupplyGood b).Counting o := h

theorem State.Counting.supplyFell (h : s.Counting o) : s.supplyFell.Counting o := by
  unfold State.supplyFell
  split
  · exact h.changeMode ..
  · exact h
  · exact h.wakeEvent _

theorem State.Counting.supplyRose (h : s.Counting o) : s.supplyRose.Counting o := by
  unfold State.supplyRose
  (repeat' split)
  · exact h
  · exact h
  · exact (h.changeMode ..).settleSweep
  · exact h.wakeEvent _

theorem execSupplyFall_countersSound (h : s.CountersSound) (he : execSupplyFall s = .next t) : t.CountersSound := by
  unfold execSupplyFall at he
  (repeat' split at he) <;> cases he
  · exact h
  · exact h
  · exact (h.counting.setSupplyGood false).supplyFell.pump

theorem execSupplyRise_countersSound (h : s.CountersSound) (he : execSupplyRise s = .next t) : t.CountersSound := by
  unfold execSupplyRise at he
  (repeat' split at he) <;> cases he
  · exact h
  · exact h
  · exact (h.counting.setSupplyGood true).supplyRose.pump

theorem execAttention_countersSound (h : s.CountersSound) {stays : Bool} (he : execAttention stays s = .next t) :
    t.CountersSound := by
  unfold execAttention at he
  split at he <;> cases he
  · exact h
  · exact (State.Counting.wakeEvent (s := s.setAttention stays) h.counting _).pump

theorem State.Counting.endTurn (h : s.Counting o) : s.endTurn.Counting o := by
  unfold State.endTurn
  split <;> exact h

theorem execReleaseTimerExpiry_countersSound {n : Nat} (h : s.CountersSound)
    (he : execReleaseTimerExpiry n s = .next t) : t.CountersSound := by
  unfold execReleaseTimerExpiry at he
  (repeat' split at he) <;> cases he
  · exact h
  · unfold State.releaseExpires
    dsimp only
    (repeat' split) <;> exact h

theorem execHeldTimerExpiry_countersSound {n : Nat} (h : s.CountersSound)
    (he : execHeldTimerExpiry n s = .next t) : t.CountersSound := by
  unfold execHeldTimerExpiry at he
  (repeat' split at he) <;> cases he
  · exact h
  · unfold State.heldExpires
    split
    · exact (State.Counting.doorAlert (s := s.setDoor n .heldOpen) h.counting n .held .raised).pump
    all_goals exact h

theorem execGoodAnswer_countersSound {chars : List StationChar} (h : s.CountersSound)
    (he : execGoodAnswer chars s = .next t) : t.CountersSound := by
  unfold execGoodAnswer at he
  (repeat' split at he) <;> cases he
  · exact (h.counting.takeAnswer _ _).endTurn.pump
  · exact h

theorem execMissingAnswer_countersSound (h : s.CountersSound) (he : execMissingAnswer s = .next t) :
    t.CountersSound := by
  unfold execMissingAnswer at he
  split at he <;> cases he
  · exact (h.counting.miss _ _).endTurn.pump
  · exact h

theorem execCorruptAnswer_countersSound {chars : List StationChar} (h : s.CountersSound)
    (he : execCorruptAnswer chars s = .next t) : t.CountersSound := by
  unfold execCorruptAnswer at he
  (repeat' split at he) <;> cases he
  · exact (State.Counting.miss (s := s.setStation _ _) h.counting _ _).endTurn.pump
  · exact h

theorem execFrameReceived_countersSound {bytes : List Byte} (h : s.CountersSound)
    (he : execFrameReceived bytes s = .next t) : t.CountersSound := by
  unfold execFrameReceived at he
  (repeat' split at he) <;> cases he
  · exact h
  · exact h.acceptFrame _
  · exact h.discardFrame

theorem execDoorCommit_countersSound (h : s.CountersSound) (he : execDoorCommit s = .next t) : t.CountersSound := by
  refine whenGranted_countersSound h (fun _ => ?_) he
  split
  · exact State.Counting.commitStation (s := s.takeDoorEvent _) h.counting _
  · exact h.counting

theorem execDoorLapse_countersSound (h : s.CountersSound) (he : execDoorLapse s = .next t) : t.CountersSound := by
  refine whenGranted_countersSound h (fun _ => ?_) he
  (repeat' split)
  · exact State.Counting.lapseStation (s := s.takeDoorEvent _) h.counting _ _
  all_goals exact h.counting

theorem execSweepIntervalExpiry_countersSound (h : s.CountersSound) (he : execSweepIntervalExpiry s = .next t) :
    t.CountersSound := by
  unfold execSweepIntervalExpiry at he
  split at he <;> cases he
  · obtain ⟨clock, trail, host, -, deadlines⟩ := id h
    obtain ⟨-, -, sweep, -⟩ := h.counting.expireSweep
    exact ⟨clock, trail, host, sweep, deadlines⟩
  · exact h

theorem execPollRoundStart_countersSound (h : s.CountersSound) (he : execPollRoundStart s = .next t) :
    t.CountersSound := by
  unfold execPollRoundStart at he
  split at he <;> cases he <;> exact h

theorem execCall_countersSound (h : s.CountersSound) (he : execCall s = .next t) : t.CountersSound := by
  unfold execCall at he
  (repeat' split at he) <;> cases he <;> exact h

theorem execResetLineReleased_countersSound {inputs : RestartInputs} (h : s.CountersSound)
    (he : execResetLineReleased inputs s = .next t) : t.CountersSound := by
  unfold execResetLineReleased at he
  split at he <;> cases he
  · exact State.CountersSound.leaveReset (s := { s with supply := { s.supply with resetActive := false } }) h inputs
  · exact h

theorem execMainSupplyUp_countersSound {inputs : RestartInputs} (h : s.CountersSound)
    (he : execMainSupplyUp inputs s = .next t) : t.CountersSound := by
  unfold execMainSupplyUp at he
  split at he <;> cases he
  · exact State.CountersSound.leaveReset (s := { s with supply := { s.supply with mainLost := false } }) h inputs
  · exact h

/-! ### Every command, and the step -/

/-- Every command that completes keeps the bounds. -/
theorem exec_countersSound (c : Instr) (h : s.CountersSound) (he : exec c s = .next t) : t.CountersSound := by
  have kept := h.counting
  cases c <;> dsimp only [exec] at he
  case frameReceived bytes => exact execFrameReceived_countersSound h he
  case receiveGap => exact discard_countersSound h he
  case framingError => exact discard_countersSound h he
  case lengthOver1024 => exact discard_countersSound h he
  case startByteReceived => exact h.startByte he
  case frameSent inputs => exact execFrameSent_countersSound h he
  case identify => exact acceptedRequest_countersSound h (fun _ _ _ => counting_of_map fun _ _ => kept) he
  case status =>
    exact acceptedRequest_countersSound h (fun _ _ _ => counting_of_map fun _ _ => kept.clearLineFlags) he
  case settingsRead => exact acceptedRequest_countersSound h (fun _ _ _ => counting_of_map fun _ _ => kept) he
  case unknownKind => exact acceptedRequest_countersSound h (fun _ _ _ hs => by cases hs) he
  case settingsWrite =>
    exact requestJob_countersSound h (fun _ _ _ => counting_of_map fun x _ => kept.writeSettings x) he
  case clockSet => exact requestJob_countersSound h (fun _ _ _ => serveClockSet_counting kept) he
  case clockRead => exact requestJob_countersSound h (fun _ _ _ => counting_of_map fun _ _ => kept) he
  case permitAdd => exact requestJob_countersSound h (fun _ _ _ => servePermitAdd_counting kept) he
  case permitAmend => exact requestJob_countersSound h (fun _ _ _ => servePermitAmend_counting kept) he
  case permitRemove => exact requestJob_countersSound h (fun _ _ _ => servePermitRemove_counting kept) he
  case permitRead => exact requestJob_countersSound h (fun _ _ _ => servePermitRead_counting kept) he
  case permitFind => exact requestJob_countersSound h (fun _ _ _ => servePermitFind_counting kept) he
  case revoke => exact requestJob_countersSound h (fun _ _ _ => serveRevoke_counting kept) he
  case unrevoke => exact requestJob_countersSound h (fun _ _ _ => serveUnrevoke_counting kept) he
  case revokeList => exact requestJob_countersSound h (fun _ _ _ => counting_of_map fun _ _ => kept) he
  case roomSet => exact requestJob_countersSound h (fun _ _ _ => serveRoomSet_counting kept) he
  case roomMode => exact requestJob_countersSound h (fun _ _ _ => serveRoomMode_counting kept) he
  case roomRead => exact requestJob_countersSound h (fun _ _ _ => serveRoomRead_counting kept) he
  case occupantRelease => exact requestJob_countersSound h (fun _ _ _ => serveOccupantRelease_counting kept) he
  case stationSet => exact requestJob_countersSound h (fun _ _ _ => serveStationSet_counting kept) he
  case stationChannel => exact requestJob_countersSound h (fun _ _ _ => serveStationChannel_counting kept) he
  case stationRead => exact requestJob_countersSound h (fun _ _ _ => serveStationRead_counting kept) he
  case trailRead => exact acceptedRequest_countersSound h (fun _ _ _ => serveTrailRead_counting kept) he
  case trailClose => exact acceptedRequest_countersSound h (fun _ _ _ => serveTrailClose_counting kept) he
  case trailFree => exact acceptedRequest_countersSound h (fun _ _ _ => serveTrailFree_counting kept) he
  case modeRequestRun => exact requestJob_countersSound h (fun _ _ _ => serveModeRun_counting kept) he
  case modeRequestReserve => exact requestJob_countersSound h (fun _ _ _ => serveModeReserve_counting kept) he
  case modeRequestStandby => exact requestJob_countersSound h (fun _ _ _ => serveModeStandby_counting kept) he
  case restartWarmRequest => exact requestJob_countersSound h (fun _ _ _ => counting_of_map fun _ _ => kept) he
  case restartCleanRequest => exact requestJob_countersSound h (fun _ _ _ => counting_of_map fun _ _ => kept) he
  case doorCommit => exact execDoorCommit_countersSound h he
  case doorLapse => exact execDoorLapse_countersSound h he
  case pairingExpiry => exact whenGranted_countersSound h (fun _ => kept.takeDue (by simp)) he
  case stayDeadlineDue => exact whenGranted_countersSound h (fun _ => kept.takeDue (by simp)) he
  case escalationDue => exact whenGranted_countersSound h (fun _ => kept.takeDue (by simp)) he
  case limitDue => exact whenGranted_countersSound h (fun _ => kept.takeDue (by simp)) he
  case entryDecision => exact whenGranted_countersSound h (fun _ => kept.takePresentation (by simp)) he
  case exitDecision => exact whenGranted_countersSound h (fun _ => kept.takePresentation (by simp)) he
  case sweepStep => exact whenGranted_countersSound h (fun hg => sweepStep_counting kept hg) he
  case sweepIntervalExpiry => exact execSweepIntervalExpiry_countersSound h he
  case clockEnd => exact execClockEnd_countersSound h he
  case pollRoundStart => exact execPollRoundStart_countersSound h he
  case call => exact execCall_countersSound h he
  case goodAnswer chars => exact execGoodAnswer_countersSound h he
  case missingAnswer => exact execMissingAnswer_countersSound h he
  case corruptAnswer chars => exact execCorruptAnswer_countersSound h he
  case releaseTimerExpiry n => exact execReleaseTimerExpiry_countersSound h he
  case heldTimerExpiry n => exact execHeldTimerExpiry_countersSound h he
  case supplyFall => exact execSupplyFall_countersSound h he
  case supplyRise => exact execSupplyRise_countersSound h he
  case attention stays => exact execAttention_countersSound h he
  case resetLineActive => cases he; exact h
  case mainSupplyLoss => cases he; exact h
  case resetLineReleased inputs => exact execResetLineReleased_countersSound h he
  case mainSupplyUp inputs => exact execMainSupplyUp_countersSound h he

end

/-- Settles O55: the command at the front of the queue, what the part does of itself, and a second passing each keep the
bounds. -/
theorem stepKeepsCountersSound : Obligations.StepKeepsCountersSound := by
  intro s t h hstep
  unfold step at hstep
  (repeat' split at hstep)
  · rename_i c rest _
    exact exec_countersSound (s := { s with pending := rest }) c h hstep
  · exact exec_countersSound _ h hstep
  · cases hstep
    exact h.tick

end Sys2Proof.Machine
end

