-- ==== Sys2Proof/Proofs/EstateTime.lean ====
section
/-! The step on an empty queue, the estate clock (R84, R87), CLOCK-SET and CLOCK-READ (R89 to R91), and the settings
(R170). -/
namespace Sys2Proof.Machine

/-- Settles O2: the queue is empty, and `step` asks what the part does of itself. -/
theorem idleStepActsOrTicks : Obligations.IdleStepActsOrTicks := by
  intro s hidle
  exact ⟨fun c hact => by simp only [step, hidle, hact], fun hnone => by simp only [step, hidle, hnone]⟩

/-! ### The clock (R84, R86, R87) -/

section
variable {c : Clock}

theorem Clock.estateSecond_eq : c.estateSecond = c.day * 86400 + c.second := rfl

theorem Clock.tick_of_unset (h : c.unset = true) : c.tick = c := by simp [Clock.tick, h]

/-- R87: CLOCK_END stands exactly at the last second. -/
theorem Clock.Sound.ended_iff (h : c.Sound) : c.ended = true ↔ c.estateSecond = 5662310399 := by
  obtain ⟨hday, hsecond, -, hended⟩ := h
  rw [hended, decide_eq_true_iff, Clock.estateSecond_eq]
  omega

/-- R84, R87: the clock advances by one second, and holds at the last. -/
theorem Clock.Sound.tick_estateSecond (h : c.Sound) (hset : c.unset = false) :
    c.tick.estateSecond = min 5662310399 (c.estateSecond + 1) := by
  have last := h.ended_iff
  obtain ⟨hday, hsecond, -, -⟩ := h
  unfold Clock.tick
  by_cases hended : c.ended = true
  · simp [hended, last.1 hended]
  · simp only [hset, hended, Bool.or_self, Bool.false_eq_true, if_false, Config.lastSecond, Config.daySeconds]
    split
    · simp only [Clock.atEnd, Clock.estateSecond_eq] at *
      omega
    · split <;> simp only [Clock.estateSecond_eq] at * <;> omega

end

theorem State.tick_clock (s : State) : s.tick.clock = s.clock.tick := by
  unfold State.tick
  split <;> rfl

/-- Settles O13: a tick by the clock's own second, and CLOCK_END by the condition of its command. -/
theorem clockAdvancesToItsEnd : Obligations.ClockAdvancesToItsEnd := by
  refine ⟨fun s h hset => ?_, fun s _ hunset => ?_, fun s hset hended hlast => ?_⟩
  · have sound := h.tick
    rw [State.now, State.tick_clock]
    exact ⟨h.tick_estateSecond hset, sound, sound.ended_iff⟩
  · rw [State.tick_clock, Clock.tick_of_unset hunset]
  · have arrives : (!s.clock.unset && !s.clock.ended && decide (Config.lastSecond ≤ s.now + 1)) = true := by
      simp [hset, hended, Config.lastSecond, hlast]
    exact if_pos arrives

/-! ### CLOCK-SET and CLOCK-READ (R89 to R91) -/

section
variable {b : List Byte}

theorem readNothing_nil : readNothing [] = .ok () := rfl

theorem readNothing_malformed (h : b ≠ []) : readNothing b = .error .malformed := by
  simp [readNothing, h]

theorem readClockSet_malformed (h : b.length ≠ 6) : readClockSet b = .error .malformed := by
  rw [readClockSet, if_pos h]

theorem readClockSet_range_error (h : b.length = 6) (hs : 86399 < valueAt b 2 4) : readClockSet b = .error .range := by
  rw [readClockSet, if_neg (not_not.2 h), if_pos (show Config.daySeconds ≤ valueAt b 2 4 from hs)]

theorem readClockSet_ok (h : b.length = 6) (hs : valueAt b 2 4 ≤ 86399) :
    readClockSet b = .ok (valueAt b 0 2, valueAt b 2 4) := by
  have inDay : ¬ Config.daySeconds ≤ valueAt b 2 4 := Nat.not_le.2 (Nat.lt_succ_of_le hs)
  rw [readClockSet, if_neg (not_not.2 h), if_neg inDay]

end

/-- R89 steps 3 and 4: a set is accepted while the clock is UNSET, within 300 s, or in an empty building. -/
theorem State.acceptsSet_iff (s : State) (new : Nat) : s.acceptsSet new = true ↔
    s.clock.unset = true ∨ (new ≤ s.now + 300 ∧ s.now ≤ new + 300) ∨ s.pool = [] ∧ s.groups = [] := by
  simp only [State.acceptsSet, smallStep, Bool.or_eq_true, Bool.and_eq_true, decide_eq_true_eq, List.isEmpty_iff,
    or_assoc]
  rfl

theorem exec_clockRead (s : State) : exec .clockRead s = requestJob .clockRead s
    (fun body s => (readNothing body).map fun _ => (s, clockReport s)) := rfl

/-- Settles O12: each request from what its body reads as and, for CLOCK-SET, from the step it takes. -/
theorem clockRequestsServed : Obligations.ClockRequestsServed := by
  refine ⟨fun s f hf => ?_, fun s f hf => ⟨fun hb => ?_, fun hb => ?_⟩⟩
  · have refuses {code : ReplyCode} (h : serveClockSet f.body s = .error code) : Refuses .clockSet s f code :=
      refuses_of_serve rfl hf h
    refine ⟨fun hl => refuses ?_, fun hl hs => refuses ?_, fun hl hs => ⟨fun haccept => ?_, fun hset hstep hbusy => ?_⟩⟩
    · rw [serveClockSet, readClockSet_malformed hl]
    · rw [serveClockSet, readClockSet_range_error hl hs]
    · refine answers_of_serve (serve := serveClockSet) rfl hf ?_
      rw [serveClockSet, readClockSet_ok hl hs]
      exact if_pos ((s.acceptsSet_iff _).2 haccept)
    · refine refuses ?_
      have far : ¬ s.acceptsSet (valueAt f.body 0 2 * 86400 + valueAt f.body 2 4) = true := by
        rw [State.acceptsSet_iff]
        rintro (hunset | ⟨hup, hdown⟩ | ⟨hpool, hgroups⟩)
        · rw [hset] at hunset
          cases hunset
        · omega
        · exact hbusy.elim (· hpool) (· hgroups)
      rw [serveClockSet, readClockSet_ok hl hs]
      exact if_neg far
  · exact answers_of_serve (exec_clockRead s) hf (by rw [hb, readNothing_nil]; rfl)
  · exact refuses_of_serve (exec_clockRead s) hf (by rw [readNothing_malformed hb]; rfl)

/-! ### The settings (R170, R180) -/

theorem readSettings_malformed {b : List Byte} (h : b.length ≠ 10) : readSettings b = .error .malformed := by
  rw [readSettings, if_pos h]

/-- R170, R180: the settings a SETTINGS-WRITE body carries, clamped. -/
def settingsOf (b : List Byte) : Settings where
  pollPeriod := clampTo 50 1000 (valueAt b 0 2)
  reserveFactor := clampTo 2 8 (byteAt b 2)
  silenceThreshold := clampTo 3 15 (byteAt b 3)
  bitRate := rateOf (byteAt b 4)
  sweepInterval := clampTo 1 60 (byteAt b 5)
  requestFirst := byteAt b 6 != 0
  sweepEarly := byteAt b 7 != 0
  decisionNotices := byteAt b 8 != 0
  weekdayOffset := clampTo 0 6 (byteAt b 9)

theorem readSettings_ok {b : List Byte} (h : b.length = 10) : readSettings b = .ok (settingsOf b) := by
  rw [readSettings, if_neg (not_not.2 h)]
  rfl

theorem rateOf_code (n : Nat) : (rateOf n).code = min 2 n := by
  unfold rateOf
  (repeat' split) <;> simp only [LineRate.code] <;> omega

theorem LineRate.code_mod (r : LineRate) : r.code % 256 = r.code := by cases r <;> rfl

theorem settingsBlock_layout (x : Settings) :
    let b := settingsBlock x
    b.length = 10 ∧ valueAt b 0 2 = x.pollPeriod % 65536 ∧ byteAt b 2 = x.reserveFactor % 256
      ∧ byteAt b 3 = x.silenceThreshold % 256 ∧ byteAt b 4 = x.bitRate.code ∧ byteAt b 5 = x.sweepInterval % 256
      ∧ byteAt b 6 = x.requestFirst.toNat ∧ byteAt b 7 = x.sweepEarly.toNat ∧ byteAt b 8 = x.decisionNotices.toNat
      ∧ byteAt b 9 = x.weekdayOffset % 256 := by
  simp [settingsBlock, leBytes, byteAt, valueAt, leNat, boolByte_toNat, LineRate.code_mod]
  omega

theorem exec_settingsWrite (s : State) : exec .settingsWrite s = requestJob .settingsWrite s
    (fun body s => (readSettings body).map fun x => (s.writeSettings x, settingsBlock x)) := rfl

theorem exec_settingsRead (s : State) : exec .settingsRead s = acceptedRequest .settingsRead s
    (fun body s => (readNothing body).map fun _ => (s, settingsBlock s.settings)) := rfl

/-- Settles O11: SETTINGS-WRITE by the values its body carries, SETTINGS-READ by the settings that stand, and the block by
its layout. -/
theorem settingsWrittenAndRead : Obligations.SettingsWrittenAndRead := by
  refine ⟨fun s f hf => ⟨fun hl => ⟨settingsOf f.body, ?_, ?_⟩, fun hl => ?_⟩, fun s f hr hu hk => ?_,
    settingsBlock_layout⟩
  · exact answers_of_serve (exec_settingsWrite s) hf (by rw [readSettings_ok hl]; rfl)
  · simp only [settingsOf, rateOf_code, clampTo_eq, Nat.reduceLeDiff, Nat.one_le_ofNat, bne_iff_ne, zero_le,
      sup_of_le_right, and_self, iff_self]
  · exact refuses_of_serve (exec_settingsWrite s) hf (by rw [readSettings_malformed hl]; rfl)
  · have accepted : s.acceptedFor .settingsRead = some f :=
      acceptedFor_eq hr hu (by simp [servedAtAcceptance, hk]) (by simp [requestRow, hk])
    refine ⟨fun hb => ?_, fun hb => ?_⟩
    · exact answers_of_accepted (exec_settingsRead s) accepted (by rw [hb, readNothing_nil]; rfl)
    · exact refuses_of_accepted (exec_settingsRead s) accepted (by rw [readNothing_malformed hb]; rfl)

end Sys2Proof.Machine
end

