-- ==== Sys2Proof/Proofs/RecordAndNotice.lean ====
section
/-! A record handed and a notice offered depend on the clock, the trail and the host line alone, and move the trail and
the host line alone (R84, R151, R153, R166). -/
namespace Sys2Proof.Machine

section
variable {s t : State} {r : TrailRecord} {n : Notice}

theorem offer_of_same (hh : t.host = s.host) : t.offer n = { t with host := (s.offer n).host } := by
  unfold State.offer
  rw [hh]
  split <;> rfl

theorem put_of_same (hc : t.clock = s.clock) (ht : t.trail = s.trail) (hh : t.host = s.host) :
    t.put r = { t with trail := (s.put r).trail, host := (s.put r).host } := by
  have stamped : t.stamp r = s.stamp r := by simp only [State.stamp, hc]
  unfold State.put State.offerSome State.offer
  rw [stamped, ht]
  dsimp only
  rw [hh]
  (repeat' split) <;> rfl

theorem told_of_same (hc : t.clock = s.clock) (ht : t.trail = s.trail) (hh : t.host = s.host) :
    (t.put r).offer n = { t with trail := (s.put r).trail, host := ((s.put r).offer n).host } := by
  rw [put_of_same hc ht hh]
  exact offer_of_same (s := s.put r) rfl

end

end Sys2Proof.Machine
end

