-- ==== Sys2Proof/Proofs/SweepPasses.lean ====
section
/-! The sweep (R98, R99, R124 to R126): its timer by the mode, the permits a step retires, and the slots of a pass. -/
namespace Sys2Proof.Machine

section
variable {s : State}

/-! ### The sweep interval timer -/

theorem Sweep.expired_eq (w : Sweep) :
    w.expired = { w with count := 0, owed := if w.owed < 4 then w.owed + 1 else 4 } := by
  have owed : min Config.owedSweeps (w.owed + 1) = if w.owed < 4 then w.owed + 1 else 4 := by
    simp only [Config.owedSweeps]
    split <;> omega
  rw [Sweep.expired, owed]

theorem tick_sweep (hr : s.inReset = false) :
    s.tick.sweep = if s.sweepRuns then { s.sweep with count := s.sweep.count + 1 } else s.sweep := by
  simp [State.tick, hr]

theorem sweepRuns_eq_false (hm : s.supply.mode = .standby) (hs : s.supply.stopPending = false) : s.sweepRuns = false := by
  simp [State.sweepRuns, State.lineRuns, hm, hs]

theorem exec_sweepIntervalExpiry (s : State) : exec .sweepIntervalExpiry s =
    if s.sweepRuns then .next { s with sweep := s.sweep.expired } else .next s := rfl

/-- R98: the timer expires of itself when it runs and its count has reached the effective interval. -/
theorem ownSweep_iff : s.ownSweep = some .sweepIntervalExpiry ↔
    s.sweepRuns = true ∧ s.effectiveInterval ≤ s.sweep.count := by
  simp [State.ownSweep]

/-- R98, R174: the interval that the timer runs toward, by the mode. -/
theorem expires_iff (hr : s.inReset = false) : s.sweepRuns = true ∧ s.effectiveInterval ≤ s.sweep.count ↔
    s.supply.mode = .run ∧ s.settings.sweepInterval * 60 ≤ s.sweep.count
      ∨ s.supply.mode = .reserve ∧ s.settings.sweepInterval * 120 ≤ s.sweep.count
      ∨ s.supply.mode = .standby ∧ s.supply.stopPending = true
          ∧ (if s.supply.fromReserve then s.settings.sweepInterval * 120 else s.settings.sweepInterval * 60)
              ≤ s.sweep.count := by
  rw [State.sweepRuns_iff]
  cases hm : s.supply.mode <;> simp [hr, hm, State.effectiveInterval]

/-! ### The permits a step retires -/

/-- R125: a retired permit's record and notice, the table left as it is. -/
def State.tellRetired (s : State) (e : Nat × Permit) : State :=
  (s.put { kind := .retire, credential := e.2.credential, permit := e.2.number, reason := .expired
           value := .number e.2.validUntil }).offer (.retired e.2.number e.2.credential e.1)

theorem tellRetired_of_permits (s : State) (l : List (Nat × Permit)) (e : Nat × Permit) :
    ({ s with permits := l } : State).tellRetired e = { s.tellRetired e with permits := l } := by
  rw [State.tellRetired, State.tellRetired, told_of_same (t := { s with permits := l }) (s := s) rfl rfl rfl,
    told_of_same (t := s) rfl rfl rfl]

theorem retire_eq (s : State) (e : Nat × Permit) :
    s.retire e = { s.tellRetired e with permits := s.permits.filter (fun x => x.2.number ≠ e.2.number) } :=
  tellRetired_of_permits s _ e

theorem foldl_tellRetired_of_permits (l : List (Nat × Permit)) : ∀ (es : List (Nat × Permit)) (s : State),
    es.foldl State.tellRetired { s with permits := l } = { es.foldl State.tellRetired s with permits := l } := by
  intro es
  induction es with
  | nil => exact fun _ => rfl
  | cons e es ih => exact fun s => by rw [List.foldl_cons, tellRetired_of_permits, ih, List.foldl_cons]

/-- R125: the permits retired one after another are told of in turn, and their numbers leave the table. -/
theorem foldl_retire_eq : ∀ (es : List (Nat × Permit)) (s : State), es.foldl State.retire s
    = { es.foldl State.tellRetired s with
        permits := s.permits.filter (fun x => es.all (fun e => x.2.number ≠ e.2.number)) } := by
  intro es
  induction es with
  | nil => exact fun s => by simp
  | cons e es ih =>
    intro s
    rw [List.foldl_cons, ih, retire_eq, foldl_tellRetired_of_permits, List.foldl_cons]
    dsimp only
    rw [List.filter_filter]
    simp only [List.all_cons, Bool.and_comm]

/-- R1: the permits of a sound table that bear none of the numbers of those chosen are those not chosen. -/
theorem filter_unchosen {l : List (Nat × Permit)} (h : l.Pairwise (fun e e' => e.2.number ≠ e'.2.number))
    (p : Nat × Permit → Bool) :
    l.filter (fun x => (l.filter p).all (fun e => x.2.number ≠ e.2.number)) = l.filter (fun x => !p x) := by
  refine List.filter_congr fun x hx => ?_
  have distinct : (l.map fun e => e.2.number).Nodup := List.pairwise_map.2 h
  rw [Bool.eq_iff_iff, Bool.not_eq_true', List.all_eq_true]
  simp only [List.mem_filter, decide_eq_true_eq, and_imp]
  refine ⟨fun hall => ?_, fun hp e he hpe hn => ?_⟩
  · by_contra hp
    exact hall x hx (by simpa using hp) rfl
  · rw [List.inj_on_of_nodup_map distinct hx he hn, hpe] at hp
    cases hp

/-! ### The step and the slots of a pass -/

/-- R124: the permits of the sixteen slots of step `k` that have expired and are not in use. -/
theorem mem_toRetire {k : Nat} {e : Nat × Permit} : e ∈ s.toRetire k ↔
    e ∈ s.permits ∧ 16 * (k - 1) ≤ e.1 ∧ e.1 < 16 * k ∧ e.2.validUntil ≤ s.nowMinute ∧ s.inUse e.2.number = 0 := by
  simp only [State.toRetire, List.mem_filter, Bool.and_eq_true, decide_eq_true_eq, beq_iff_eq, and_assoc]
  rfl

theorem foldl_tellRetired_sweep (l : List (Nat × Permit)) (s : State) : (l.foldl State.tellRetired s).sweep = s.sweep :=
  foldl_keeps State.sweep State.tellRetired (fun s e => by simp [State.tellRetired]) l s

theorem exec_sweepStep (s : State) : exec .sweepStep s = whenGranted .sweepStep s fun s =>
    let s1 := (s.toRetire s.sweep.position).foldl State.retire s
    { s1 with sweep := s1.sweep.advance } := rfl

/-- R124, R125: what a SWEEP job leaves of a state with a sound table. -/
theorem sweepStep_leaves (hg : s.granted = some .sweepStep) (h : s.PermitsSound) {p : Nat × Permit → Bool}
    (hp : s.toRetire s.sweep.position = s.permits.filter p) :
    Leaves .sweepStep s
      { (s.permits.filter p).foldl State.tellRetired s with
        permits := s.permits.filter (fun e => !p e)
        sweep := s.sweep.advance } := by
  obtain ⟨-, -, distinct, -⟩ := h
  refine leaves_of_job (exec_sweepStep s) hg ?_
  dsimp only
  rw [hp, foldl_retire_eq, filter_unchosen distinct, foldl_tellRetired_sweep]

/-- Settles O44: the timer by what `sweepRuns` says, the step by the permits it retires, and a slot by the one step that
visits it. -/
theorem sweepRetiresExpired : Obligations.SweepRetiresExpired := by
  refine ⟨fun s hr => ⟨fun hrun => ?_, fun hm hstop => ?_, ownSweep_iff.trans (expires_iff hr)⟩, fun s hg h => ?_,
    fun s e h he hexpired hfree => ?_⟩
  · have runs : s.sweepRuns = true := s.sweepRuns_iff.2 ⟨hr, hrun⟩
    rw [exec_sweepIntervalExpiry, if_pos runs, tick_sweep hr, if_pos runs, Sweep.expired_eq]
    exact ⟨rfl, rfl⟩
  · rw [exec_sweepIntervalExpiry, tick_sweep hr, sweepRuns_eq_false hm hstop]
    exact ⟨rfl, rfl⟩
  · refine sweepStep_leaves hg h (List.filter_congr fun e _ => ?_)
    rw [Bool.eq_iff_iff]
    simp only [Bool.and_eq_true, decide_eq_true_eq, beq_iff_eq, and_assoc]
    rfl
  · obtain ⟨-, inRange, -⟩ := h
    have slot := (inRange e he).1
    refine ⟨e.1 / 16 + 1, by omega, by omega, mem_toRetire.2 ⟨he, by omega, by omega, hexpired, hfree⟩,
      fun j hj hje => ?_⟩
    obtain ⟨-, low, high, -⟩ := mem_toRetire.1 hje
    omega

end

end Sys2Proof.Machine
end

