-- ==== Sys2Proof/Proofs/SupplyLines.lean ====
section
/-! MODE-REQUEST (R173, R174), the lines of the supply (R172, R175), the stop of STANDBY and the wake (R174, R175). -/
namespace Sys2Proof.Machine

section
variable {s t : State}

/-! ### A change of mode, and a wake -/

/-- R172: the MODE record of a change. -/
def modeRecord (old new : SupplyMode) (cause : ModeCause) : TrailRecord :=
  { kind := .mode, reason := .cause cause, value := .pair old.code new.code }

theorem changeMode_eq (s : State) (m : SupplyMode) (b : Bool) (c : ModeCause) :
    s.changeMode m b c = { s with
      supply := { s.supply with mode := m, byRequest := b }
      trail := (s.put (modeRecord s.supply.mode m c)).trail
      host := ((s.put (modeRecord s.supply.mode m c)).offer (.mode s.supply.mode m c)).host } :=
  told_of_same (t := { s with supply := { s.supply with mode := m, byRequest := b } }) rfl rfl rfl

theorem settleSweep_eq (s : State) : s.settleSweep =
    { s with sweep := if s.effectiveInterval ≤ s.sweep.count then s.sweep.expired else s.sweep } := by
  unfold State.settleSweep
  split <;> rfl

/-- R172, R98 item 1: RUN entered from RESERVE, the count settled against the interval of RUN. -/
theorem changeMode_run_settled (s : State) (c : ModeCause) :
    (s.changeMode .run false c).settleSweep = { s.changeMode .run false c with
      sweep :=
        if s.settings.sweepInterval * 60 ≤ s.sweep.count then
          { s.sweep with count := 0, owed := min 4 (s.sweep.owed + 1) }
        else s.sweep } := by
  rw [settleSweep_eq, changeMode_eq]
  rfl

/-- R149, R172, R175: the state a wake leaves. -/
theorem wake_eq (s : State) (c : ModeCause) : s.wake c =
    { s with
      supply := { s.supply with mode := s.supply.modeOfLine, byRequest := false }
      trail := (s.put (modeRecord s.supply.mode s.supply.modeOfLine c)).trail
      host := ((s.put (modeRecord s.supply.mode s.supply.modeOfLine c)).offer
        (.mode s.supply.mode s.supply.modeOfLine c)).host
      stations := s.stations.map wokenStation
      sweep := { s.sweep with count := 0 }
      line :=
        { round := none, settleNext := true
          periodMs :=
            if s.supply.modeOfLine = .reserve then s.settings.pollPeriod * s.settings.reserveFactor
            else s.settings.pollPeriod
          rate := s.settings.bitRate } } := by
  rw [State.wake, changeMode_eq]
  rfl

/-! ### MODE-REQUEST -/

theorem readCode_of_mem {top : Nat} {x : Byte} (h : x.toNat ≤ top) : readCode top [x] = .ok x.toNat := by
  have hx : byteAt [x] 0 = x.toNat := rfl
  rw [readCode, hx, if_neg (by simp), if_neg (by omega)]

theorem modeReply_of {s : State} {m : SupplyMode} {b : Bool} (hm : s.supply.mode = m) (hb : s.supply.byRequest = b) :
    modeReply s = leBytes 1 m.code ++ [boolByte b] := by
  rw [modeReply, hm, hb]

/-- R174 step 2: the line is busy with a presentation, a verdict, a door event or a door that stands neither SECURE nor
UNKNOWN. -/
theorem lineBusy_iff : s.lineBusy = true ↔
    s.presentations ≠ [] ∨ (∃ st ∈ s.stations, st.verdict ≠ none) ∨ (∃ st ∈ s.stations, st.events ≠ [])
      ∨ (∃ st ∈ s.stations, st.room ≠ 0 ∧ st.door ≠ .secure ∧ st.door ≠ .unknown) := by
  simp only [State.lineBusy, Bool.or_eq_true, List.any_eq_true, Bool.not_eq_true', Bool.and_eq_true, bne_iff_ne, ne_eq,
    List.isEmpty_eq_false_iff, Option.isSome_iff_ne_none, or_assoc, and_assoc]

theorem serveModeRun_eq {b : List Byte} (hb : b = [0]) : serveModeRun b s =
    if s.supply.supplyGood then .ok (s.requestRun, modeReply s.requestRun) else .error .supply := by
  rw [hb, serveModeRun, readCode_of_mem (by decide)]

theorem serveModeReserve_eq {b : List Byte} (hb : b = [1]) :
    serveModeReserve b s = .ok (s.requestReserve, modeReply s.requestReserve) := by
  rw [hb, serveModeReserve, readCode_of_mem (by decide)]

theorem serveModeStandby_eq {b : List Byte} (hb : b = [2]) : serveModeStandby b s =
    if !(s.pool.isEmpty && s.groups.isEmpty) then .error .occupied
    else if s.lineBusy then .error .wrongState
    else .ok (s.requestStandby, modeReply s.requestStandby) := by
  rw [hb, serveModeStandby, readCode_of_mem (by decide)]

/-- R174: the state an accepted STANDBY leaves. -/
theorem requestStandby_eq (hm : s.supply.mode ≠ .standby) : s.requestStandby =
    (({ s with supply :=
          { s.supply with
            mode := .standby, byRequest := false, stopPending := true
            fromReserve := s.supply.mode = .reserve } } : State).put
      (modeRecord s.supply.mode .standby .request)).offer (.mode s.supply.mode .standby .request) := by
  rw [State.requestStandby, if_neg hm, changeMode_eq]
  symm
  exact told_of_same (s := s) rfl rfl rfl

/-- Settles O35: MODE-REQUEST RUN and RESERVE by the mode they are asked in, STANDBY by what is under way. -/
theorem modeRequestsServed : Obligations.ModeRequestsServed := by
  refine ⟨fun s f => ⟨fun hf hb => ⟨fun hline => ?_, fun hline hm => ?_, fun hline hm => ?_⟩,
    fun hf hb => ⟨fun hm => ?_, fun hm => ?_⟩⟩, fun s f hf hb hm => ⟨fun hbusy => ?_, fun hp hg hbusy => ?_,
    fun hp hg hidle => ?_⟩⟩
  · exact refuses_of_serve (serve := serveModeRun) rfl hf (by rw [serveModeRun_eq hb, hline]; rfl)
  · have stays : s.requestRun = s := by simp [State.requestRun, hm]
    refine answers_of_serve (serve := serveModeRun) rfl hf ?_
    rw [serveModeRun_eq hb, hline, if_pos rfl, stays, modeReply_of hm rfl]
    rfl
  · have changes : s.requestRun = (s.changeMode .run false .request).settleSweep := by simp [State.requestRun, hm]
    refine answers_of_serve (serve := serveModeRun) rfl hf ?_
    rw [serveModeRun_eq hb, hline, if_pos rfl, changes, changeMode_run_settled,
      modeReply_of (m := .run) (b := false) (by simp [changeMode_supply]) (by simp [changeMode_supply])]
    rfl
  · have changes : s.requestReserve = s.changeMode .reserve true .request := by simp [State.requestReserve, hm]
    refine answers_of_serve (serve := serveModeReserve) rfl hf ?_
    rw [serveModeReserve_eq hb, changes,
      modeReply_of (m := .reserve) (b := true) (by simp [changeMode_supply]) (by simp [changeMode_supply])]
    rfl
  · have marks : s.requestReserve = { s with supply := { s.supply with byRequest := true } } := by
      simp [State.requestReserve, hm]
    refine answers_of_serve (serve := serveModeReserve) rfl hf ?_
    rw [serveModeReserve_eq hb, modeReply_of (m := .reserve) (b := true) (by simp [marks, hm]) (by simp [marks]), marks]
    rfl
  · have occupied : (!(s.pool.isEmpty && s.groups.isEmpty)) = true := by
      rw [Bool.not_and, Bool.or_eq_true]
      exact hbusy.imp (by simp) (by simp)
    exact refuses_of_serve (serve := serveModeStandby) rfl hf (by rw [serveModeStandby_eq hb, if_pos occupied])
  · exact refuses_of_serve (serve := serveModeStandby) rfl hf
      (by rw [serveModeStandby_eq hb, if_neg (by simp [hp, hg]), if_pos (lineBusy_iff.2 hbusy)])
  · refine answers_of_serve (serve := serveModeStandby) rfl hf ?_
    rw [serveModeStandby_eq hb, if_neg (by simp [hp, hg]), if_neg fun h => hidle (lineBusy_iff.1 h), requestStandby_eq hm,
      modeReply_of (m := .standby) (b := false) (by simp) (by simp)]
    rfl

/-! ### The lines of the supply -/

theorem leaves_supplyFall (hr : s.inReset = false) (hgood : s.supply.supplyGood = true)
    (ht : (s.setSupplyGood false).supplyFell = t) : Leaves .supplyFall s t := by
  have carried : exec .supplyFall s = .next (s.setSupplyGood false).supplyFell.pump := by
    show execSupplyFall s = _
    simp [execSupplyFall, hgood, hr]
  rw [Leaves, carried, ht]
  rfl

theorem leaves_supplyRise (hr : s.inReset = false) (hgood : s.supply.supplyGood = false)
    (ht : (s.setSupplyGood true).supplyRose = t) : Leaves .supplyRise s t := by
  have carried : exec .supplyRise s = .next (s.setSupplyGood true).supplyRose.pump := by
    show execSupplyRise s = _
    simp [execSupplyRise, hgood, hr]
  rw [Leaves, carried, ht]
  rfl

theorem leaves_attention (hr : s.inReset = false) {stays : Bool}
    (ht : (s.setAttention stays).wakeEvent .wakeAttention = t) : Leaves (.attention stays) s t := by
  have carried : exec (.attention stays) s = .next ((s.setAttention stays).wakeEvent .wakeAttention).pump := by
    show execAttention stays s = _
    simp [execAttention, hr]
  rw [Leaves, carried, ht]
  rfl

theorem leaves_startByte (hr : s.inReset = false) (hq : s.host.receiving = false)
    (ht : ({ s with host := { s.host with receiving := true } } : State).wakeEvent .wakeHost = t) :
    Leaves .startByteReceived s t := by
  have carried : exec .startByteReceived s
      = .next (({ s with host := { s.host with receiving := true } } : State).wakeEvent .wakeHost).pump := by
    show execStartByteReceived s = _
    simp [execStartByteReceived, hr, hq]
  rw [Leaves, carried, ht]
  rfl

/-- R165, R174: the reply of an accepted STANDBY sent, and with it the stop made. -/
theorem leaves_stop {inputs : RestartInputs} {frame : Frame} (hr : s.inReset = false)
    (hsend : s.host.sending = some ⟨frame, .reply⟩) (hrestart : s.supply.restartRequested = none)
    (hstop : s.supply.stopPending = true)
    (ht : ({ s with host := { s.host with sending := none, outstanding := none } } : State).stop = t) :
    Leaves (.frameSent inputs) s t := by
  have carried : exec (.frameSent inputs) s
      = .next ({ s with host := { s.host with sending := none, outstanding := none } } : State).stop.pump := by
    show execFrameSent inputs s = _
    simp [execFrameSent, hr, hsend, State.replySent, hrestart, hstop]
  rw [Leaves, carried, ht]
  rfl

theorem wakeEvent_of_awake (hm : s.supply.mode ≠ .standby) (c : ModeCause) : s.wakeEvent c = s := if_pos hm

/-- R174: between an accepted STANDBY and its stop a wake event is held, the first of several. -/
theorem wakeEvent_of_stopPending (hm : s.supply.mode = .standby) (hs : s.supply.stopPending = true) (c : ModeCause) :
    s.wakeEvent c = { s with supply := { s.supply with heldWake := some (s.supply.heldWake.getD c) } } := by
  rw [State.wakeEvent, if_neg (not_not.2 hm), if_pos hs]

theorem supplyFell_of_standby (hm : s.supply.mode = .standby) : s.supplyFell = s.wakeEvent .wakeSupply := by
  rw [State.supplyFell, hm]

theorem supplyRose_of_standby (hm : s.supply.mode = .standby) : s.supplyRose = s.wakeEvent .wakeSupply := by
  rw [State.supplyRose, hm]

/-- Settles O37: a fall and a rise of the line by the mode, and the attention line outside STANDBY. -/
theorem supplyLineInRunAndReserve : Obligations.SupplyLineInRunAndReserve := by
  refine fun s hr => ⟨fun hg hm => leaves_supplyFall hr hg ?_, fun hg hm => leaves_supplyFall hr hg ?_,
    fun hg hm => leaves_supplyRise hr hg ?_, fun hg hm hb => leaves_supplyRise hr hg ?_,
    fun hg hm hb => leaves_supplyRise hr hg ?_,
    fun stays hm => leaves_attention hr (wakeEvent_of_awake (s := s.setAttention stays) hm _)⟩
  · simp only [State.supplyFell, State.setSupplyGood, State.changeMode, hm, SupplyMode.code]
  · simp only [State.supplyFell, State.setSupplyGood, hm]
  · simp only [State.supplyRose, State.setSupplyGood, hm]
  · simp only [State.supplyRose, State.setSupplyGood, hm, hb, if_true]
  · simp only [State.supplyRose, State.setSupplyGood, hm, hb, Bool.false_eq_true, if_false, changeMode_run_settled]
    simp only [State.changeMode, SupplyMode.code]

/-! ### The stop and the wake -/

/-- R172, R175: the MODE record and the MODE notice of a wake out of STANDBY. -/
def State.tellWake (s : State) (c : ModeCause) : State :=
  (s.put (modeRecord .standby s.supply.modeOfLine c)).offer (.mode .standby s.supply.modeOfLine c)

theorem tellWake_of_same (hc : t.clock = s.clock) (ht : t.trail = s.trail) (hh : t.host = s.host)
    (hm : t.supply.modeOfLine = s.supply.modeOfLine) {c : ModeCause} :
    t.tellWake c = { t with trail := (s.tellWake c).trail, host := (s.tellWake c).host } := by
  simp only [State.tellWake, hm, told_of_same hc ht hh, State.offer_frame]

/-- R149, R172, R175: what else a wake of `s` leaves: the mode by the line, and the stations, the sweep and the line
anew. -/
def State.wokenAs (s told : State) (p : Supply) : State :=
  { told with
    supply := { p with mode := p.modeOfLine, byRequest := false }
    stations := s.stations.map wokenStation
    sweep := { s.sweep with count := 0 }
    line :=
      { round := none, settleNext := true
        periodMs :=
          if p.modeOfLine = .reserve then s.settings.pollPeriod * s.settings.reserveFactor else s.settings.pollPeriod
        rate := s.settings.bitRate } }

/-- At the stop the sweep interval timer stands at 0 before the wake. -/
theorem wokenAs_of_sweep {told : State} {p : Supply} (h : told.sweep = { s.sweep with count := 0 }) : s.wokenAs told p =
    { told with
      supply := { p with mode := p.modeOfLine, byRequest := false }
      stations := s.stations.map wokenStation
      line :=
        { round := none, settleNext := true
          periodMs :=
            if p.modeOfLine = .reserve then s.settings.pollPeriod * s.settings.reserveFactor else s.settings.pollPeriod
          rate := s.settings.bitRate } } := by
  rw [State.wokenAs, ← h]

theorem wake_of_standby (hm : s.supply.mode = .standby) (c : ModeCause) :
    s.wake c = s.wokenAs (s.tellWake c) s.supply := by
  rw [wake_eq, hm, State.tellWake, told_of_same (t := s) (s := s) rfl rfl rfl]
  rfl

theorem stopped_eq (l : Line) : l.stopped = { l with
    round := match l.round with
      | some r => if r.turn.isSome then some { r with toCall := [] } else none
      | none => none } := by
  obtain ⟨round, settleNext, periodMs, rate⟩ := l
  cases round <;> rfl

theorem wakeAtStop_eq {cause : ModeCause} (h : s.supply.heldWake = some cause
    ∨ s.supply.heldWake = none ∧ s.supply.attention = true ∧ cause = .wakeAttention) :
    s.supply.wakeAtStop = some cause := by
  unfold Supply.wakeAtStop
  rcases h with hheld | ⟨hnone, hatt, rfl⟩
  · rw [hheld]
  · rw [hnone, hatt]
    rfl

/-- R174, R175: a stop that a wake event waits for. -/
theorem stop_of_wake {c : ModeCause} (hm : s.supply.mode = .standby) (hw : s.supply.wakeAtStop = some c) :
    s.stop = s.wokenAs (({ s with sweep := { s.sweep with count := 0 } } : State).tellWake c)
      { s.supply with stopPending := false, fromReserve := false, heldWake := none } := by
  have wakes : s.stop = ({ s with
      line := s.line.stopped
      sweep := { s.sweep with count := 0 }
      supply := { s.supply with stopPending := false, fromReserve := false, heldWake := none } } : State).wake c := by
    simp only [State.stop, hw]
  rw [wakes, wake_of_standby (by exact hm), tellWake_of_same (s := s) (by rfl) (by rfl) (by rfl) (by rfl),
    tellWake_of_same (t := { s with sweep := { s.sweep with count := 0 } }) (s := s) rfl rfl rfl rfl]
  rfl

/-- R175: a wake event after the stop. -/
theorem wakeEvent_of_stopped (hm : s.supply.mode = .standby) (hs : s.supply.stopPending = false) (c : ModeCause) :
    s.wakeEvent c = s.wokenAs (s.tellWake c) s.supply := by
  rw [State.wakeEvent, if_neg (not_not.2 hm), if_neg (by simp [hs]), wake_of_standby hm]

/-- Settles O38: the stop by whether a wake event waits for it, and a wake event by whether the stop has been made. -/
theorem standbyAndWake : Obligations.StandbyAndWake := by
  refine ⟨fun inputs s frame hr hsend hrestart hstop hheld hatt => leaves_stop hr hsend hrestart hstop ?_,
    fun inputs s frame cause hr hsend hrestart hm hstop hcause => leaves_stop hr hsend hrestart hstop ?_,
    fun s hr hm hstop => ⟨fun stays => leaves_attention hr ?_, fun hq => leaves_startByte hr hq ?_,
      fun hg => leaves_supplyFall hr hg ?_, fun hg => leaves_supplyRise hr hg ?_⟩,
    fun c s noticed cause hr hm hstop hevent => ?_⟩
  · rw [State.stop_spec _ (by simp [Supply.wakeAtStop, hheld, hatt])]
    simp only [stopped_eq, HostLine.hunt, hheld] <;> rfl
  · exact (stop_of_wake (s := { s with host := { s.host with sending := none, outstanding := none } }) hm
      (wakeAtStop_eq hcause)).trans (wokenAs_of_sweep (by simp [State.tellWake]))
  · exact wakeEvent_of_stopPending (s := s.setAttention stays) hm hstop _
  · exact wakeEvent_of_stopPending (s := { s with host := { s.host with receiving := true } }) hm hstop _
  · rw [supplyFell_of_standby (s := s.setSupplyGood false) hm]
    exact wakeEvent_of_stopPending (s := s.setSupplyGood false) hm hstop _
  · rw [supplyRose_of_standby (s := s.setSupplyGood true) hm]
    exact wakeEvent_of_stopPending (s := s.setSupplyGood true) hm hstop _
  · rcases hevent with ⟨rfl, hq, rfl, rfl⟩ | ⟨stays, rfl, rfl, rfl⟩ | ⟨rfl, hg, rfl, rfl⟩ | ⟨rfl, hg, rfl, rfl⟩
    · exact leaves_startByte hr hq
        (wakeEvent_of_stopped (s := { s with host := { s.host with receiving := true } }) hm hstop _)
    · exact leaves_attention hr (wakeEvent_of_stopped (s := s.setAttention stays) hm hstop _)
    · exact leaves_supplyFall hr hg ((supplyFell_of_standby (s := s.setSupplyGood false) hm).trans
        (wakeEvent_of_stopped (s := s.setSupplyGood false) hm hstop _))
    · exact leaves_supplyRise hr hg ((supplyRose_of_standby (s := s.setSupplyGood true) hm).trans
        (wakeEvent_of_stopped (s := s.setSupplyGood true) hm hstop _))

end

end Sys2Proof.Machine
end

