-- ==== Sys2Proof/Proofs/DefaultRestart.lean ====
section
/-! A POWER_ON and a RESTART_CLEAN (R176, R177, R178): the retained domain at its defaults, whole and cut short. -/
namespace Sys2Proof.Machine

/-! ### The start-up of a part at its defaults, step by step -/

/-- The kinds of a restart that set the retained domain to its defaults (R176). -/
def RestartKind.clears (k : RestartKind) : Prop := k = .powerOn ∨ k = .restartClean

/-- R88, R176: the clock after a restart of a clearing kind. -/
def Clock.afterRestart (c : Clock) : RestartKind → Clock
  | .powerOn => unsetClock
  | .resetLine | .restartWarm | .restartClean => c

/-- The supply as steps 1 to 3 leave it. -/
def Supply.cleared (p : Supply) (kind : RestartKind) (lost : Bool) : Supply :=
  { p with
    mode := p.modeOfLine, byRequest := false, stopPending := false, fromReserve := false, heldWake := none
    restartRequested := none, lastKind := kind, retentionLost := lost }

/-- The RESTART record of a clearing kind. -/
def clearedRecord (kind : RestartKind) (lost : Bool) : TrailRecord :=
  { kind := .restart, reason := .restarted kind, value := .number lost.toNat }

section
variable {s : State} {kind : RestartKind}

/-- R176, R178: the steps of the start-up whole leave the defaults, the RESTART record the first of half A and READY the
first notice. -/
theorem foldl_startUpSteps_cleared (hk : kind.clears) (lost : Bool) (rate : Nat) :
    startUpSteps.foldl (State.startUpStep kind lost rate) s =
      { s.defaultDomain with
        clock := s.clock.afterRestart kind
        presentations := [], deadlines := [], sweep := restartedSweep, lastDoor := restartedLastDoor
        trail := { defaultTrail with
          a := ⟨.filling, [({ s with clock := s.clock.afterRestart kind } : State).stamp (clearedRecord kind lost)]⟩ }
        host := { restartedHost rate with notices := [.ready kind lost] }
        supply := { s.supply.cleared kind lost with markPresent := true, checkHolds := true } } := by
  rcases hk with rfl | rfl <;> rfl

/-- R178: the steps up to one of them keep the two lines, and the mark but for step 7. -/
theorem foldl_stepsTaken_supply (hk : kind.clears) (lost : Bool) (rate : Nat) (cut : StartUpCut) :
    let p := ((stepsTaken (some cut)).foldl (State.startUpStep kind lost rate) s).supply
    p.resetActive = s.supply.resetActive ∧ p.mainLost = s.supply.mainLost
      ∧ p.markPresent = (if cut.after = .mark then true else s.supply.markPresent) := by
  obtain ⟨after, hold⟩ := cut
  rcases hk with rfl | rfl <;> cases after <;> exact ⟨rfl, rfl, rfl⟩

/-- R176: the clock is the one given, and the tables stand at their defaults. -/
structure State.AtDefaults (c : Clock) (t : State) : Prop where
  clock : t.clock = c
  settings : t.settings = defaultSettings
  permits : t.permits = []
  revoked : t.revoked = []
  rooms : t.rooms = List.replicate 12 defaultRoom
  pool : t.pool = []
  groups : t.groups = []
  stations : t.stations = List.replicate 16 defaultStation

/-- R178: from step 2 on the retained domain stands at its defaults. -/
theorem foldl_stepsTaken_atDefaults (hk : kind.clears) (lost : Bool) (rate : Nat) (cut : StartUpCut)
    (hcut : cut.after ≠ .unretained) :
    State.AtDefaults (s.clock.afterRestart kind)
      ((stepsTaken (some cut)).foldl (State.startUpStep kind lost rate) s) := by
  obtain ⟨after, hold⟩ := cut
  cases after
  case unretained => exact absurd rfl hcut
  all_goals rcases hk with rfl | rfl <;> exact ⟨rfl, rfl, rfl, rfl, rfl, rfl, rfl, rfl⟩

theorem State.AtDefaults.holdAgain {c : Clock} {t : State} (h : t.AtDefaults c) (hold : ResetHold) :
    (t.holdAgain hold).AtDefaults c :=
  ⟨h.clock, h.settings, h.permits, h.revoked, h.rooms, h.pool, h.groups, h.stations⟩

/-- R176: the line that holds the part again, and no other. -/
theorem holdAgain_supply {t : State} (hr : t.supply.resetActive = false) (hl : t.supply.mainLost = false)
    (hold : ResetHold) :
    (t.holdAgain hold).supply.resetActive = decide (hold = .resetLine)
      ∧ (t.holdAgain hold).supply.mainLost = decide (hold = .mainSupply)
      ∧ (t.holdAgain hold).supply.markPresent = t.supply.markPresent := by
  cases hold
  · exact ⟨rfl, hl, rfl⟩
  · exact ⟨hr, rfl, rfl⟩

end

/-! ### The restart an event begins -/

theorem backedUp_twice (p : Supply) (b : Backup) : (p.backedUp b).backedUp b = p.backedUp b := by cases b <;> rfl

/-- R176: the events that begin a restart: the reset line released, the main supply up, or the reply of a RESTART sent. -/
def Begins (c : Instr) (s : State) (inputs : RestartInputs) : Prop :=
  c = .resetLineReleased inputs ∧ s.supply.resetActive = true ∧ s.supply.mainLost = false
    ∨ c = .mainSupplyUp inputs ∧ s.supply.mainLost = true ∧ s.supply.resetActive = false
    ∨ c = .frameSent inputs ∧ s.inReset = false ∧ s.supply.restartRequested ≠ none
      ∧ ∃ frame, s.host.sending = some ⟨frame, .reply⟩

/-- R163, R165: the reply's last byte sent, no request outstanding any more. -/
def State.replied (s : State) : State := { s with host := { s.host with sending := none, outstanding := none } }

theorem exec_frameSent_reply {s : State} {inputs : RestartInputs} {frame : Frame} (hr : s.inReset = false)
    (hsend : s.host.sending = some ⟨frame, .reply⟩) : exec (.frameSent inputs) s = .next (s.replied.replySent inputs) := by
  show execFrameSent inputs s = _
  simp [execFrameSent, hr, hsend, State.replied]

/-- R176, R177: each of the events begins a start-up with both lines released, the supply being as the backup left it. -/
theorem exec_begins {c : Instr} {s : State} {inputs : RestartInputs} (h : Begins c s inputs) :
    ∃ event host p, exec c s = .next (State.startUp { s with host := host, supply := p } event inputs)
      ∧ p.backedUp inputs.backup = s.supply.released.backedUp inputs.backup := by
  obtain ⟨rfl, hr, hl⟩ | ⟨rfl, hl, hr⟩ | ⟨rfl, hin, hreq, frame, hsend⟩ := h
  · refine ⟨.resetLine, s.host, s.supply.released.backedUp inputs.backup, ?_, backedUp_twice _ _⟩
    show execResetLineReleased inputs s = _
    cases hb : inputs.backup <;>
      simp [execResetLineReleased, State.leaveReset, State.inReset, hr, hl, hb, Supply.backedUp, Supply.released]
  · refine ⟨.resetLine, s.host, s.supply.released.backedUp inputs.backup, ?_, backedUp_twice _ _⟩
    show execMainSupplyUp inputs s = _
    cases hb : inputs.backup <;>
      simp [execMainSupplyUp, State.leaveReset, State.inReset, hr, hl, hb, Supply.backedUp, Supply.released]
  · have free : s.supply.resetActive = false ∧ s.supply.mainLost = false := by simpa [State.inReset] using hin
    rw [released_eq free.1 free.2]
    obtain ⟨request, hreq⟩ := Option.ne_none_iff_exists'.1 hreq
    have requested : s.replied.supply.restartRequested = some request := hreq
    rw [exec_frameSent_reply hin hsend]
    cases request with
    | warm =>
      exact ⟨.restartWarm, s.replied.host, s.supply, by rw [State.replySent, requested]; rfl, rfl⟩
    | clean =>
      exact ⟨.restartClean, s.replied.host, s.supply, by rw [State.replySent, requested]; rfl, rfl⟩

theorem exec_frameSent_clean {s : State} {inputs : RestartInputs} {frame : Frame} (hr : s.inReset = false)
    (hsend : s.host.sending = some ⟨frame, .reply⟩) (hreq : s.supply.restartRequested = some .clean) :
    exec (.frameSent inputs) s = .next (s.replied.startUp .restartClean inputs) := by
  have requested : s.replied.supply.restartRequested = some .clean := hreq
  rw [exec_frameSent_reply hr hsend, State.replySent, requested]

/-- R176: the check failing or the mark absent, the restart is a POWER_ON, the retention being lost where the mark is
present. -/
theorem decideKind_powerOn {p : Supply} {b : Backup} (event : RestartKind)
    (h : b = .disconnected ∨ b = .decayed ∨ p.markPresent = false ∨ p.checkHolds = false) :
    (p.backedUp b).decideKind event = (.powerOn, p.markPresent && b != .disconnected) := by
  cases b <;> cases hm : p.markPresent <;> cases hc : p.checkHolds <;> simp_all [Supply.backedUp, Supply.decideKind]

/-- The state in which the numbered steps of a start-up begin (R176, R178). -/
def State.starting (s : State) (kind : RestartKind) (b : Backup) : State :=
  { s with supply := (s.supply.backedUp b).startingUp kind }

section
variable {s : State} {kind event : RestartKind} {lost : Bool} {inputs : RestartInputs}

theorem startUp_decided_whole (hd : (s.supply.backedUp inputs.backup).decideKind event = (kind, lost))
    (hcut : inputs.cut = none) : s.startUp event inputs =
      (startUpSteps.foldl (State.startUpStep kind lost (rateOfStraps inputs))
        (s.starting kind inputs.backup)).restartLine.pump := by
  simp only [State.startUp, State.starting, hd, hcut, stepsTaken_none]

theorem startUp_decided_cut {cut : StartUpCut}
    (hd : (s.supply.backedUp inputs.backup).decideKind event = (kind, lost)) (hcut : inputs.cut = some cut) :
    s.startUp event inputs =
      ((stepsTaken (some cut)).foldl (State.startUpStep kind lost (rateOfStraps inputs))
        (s.starting kind inputs.backup)).holdAgain cut.hold := by
  simp only [State.startUp, State.starting, hd, hcut]

/-- R178: a start-up of a clearing kind cut short: the line that holds the part, the mark, and the defaults. -/
theorem startUp_cleared_cut {cut : StartUpCut} (hk : kind.clears)
    (hd : (s.supply.backedUp inputs.backup).decideKind event = (kind, lost)) (hcut : inputs.cut = some cut)
    (hr : (s.starting kind inputs.backup).supply.resetActive = false)
    (hl : (s.starting kind inputs.backup).supply.mainLost = false) :
    (s.startUp event inputs).supply.resetActive = decide (cut.hold = .resetLine)
      ∧ (s.startUp event inputs).supply.mainLost = decide (cut.hold = .mainSupply)
      ∧ (s.startUp event inputs).supply.markPresent
          = (if cut.after = .mark then true else (s.starting kind inputs.backup).supply.markPresent)
      ∧ (cut.after ≠ .unretained → (s.startUp event inputs).AtDefaults (s.clock.afterRestart kind)) := by
  rw [startUp_decided_cut hd hcut]
  obtain ⟨reset, main, mark⟩ :=
    foldl_stepsTaken_supply (s := s.starting kind inputs.backup) hk lost (rateOfStraps inputs) cut
  obtain ⟨heldReset, heldMain, heldMark⟩ := holdAgain_supply (reset.trans hr) (main.trans hl) cut.hold
  exact ⟨heldReset, heldMain, heldMark.trans mark,
    fun hne => (foldl_stepsTaken_atDefaults (s := s.starting kind inputs.backup) hk lost (rateOfStraps inputs) cut
      hne).holdAgain cut.hold⟩

/-- R176, R177: a RESTART_CLEAN keeps the clock, cut short after any step. -/
theorem startUp_clean_clock (hd : (s.supply.backedUp inputs.backup).decideKind event = (.restartClean, lost)) :
    (s.startUp event inputs).clock = s.clock := by
  obtain hcut | ⟨cut, hcut⟩ := Option.eq_none_or_eq_some inputs.cut
  · rw [startUp_decided_whole hd hcut, foldl_startUpSteps_cleared (.inr rfl)]
    rfl
  · rw [startUp_decided_cut hd hcut]
    obtain ⟨after, hold⟩ := cut
    cases after <;> rfl

end

/-- R176, R178: the supply after a whole POWER_ON. -/
theorem poweredOn_supply (p : Supply) (b : Backup) (lost : Bool) :
    { ((p.released.backedUp b).startingUp .powerOn).cleared .powerOn lost with markPresent := true, checkHolds := true } =
      { p with
        mode := if p.supplyGood then .run else .reserve
        byRequest := false, stopPending := false, fromReserve := false, heldWake := none, restartRequested := none
        resetActive := false, mainLost := false, markPresent := true, checkHolds := true
        lastKind := .powerOn, retentionLost := lost } := by
  cases b <;> rfl

/-- R178: a POWER_ON under way holds neither line active, and its mark absent. -/
theorem startingUp_powerOn (p : Supply) (b : Backup) :
    ((p.released.backedUp b).startingUp .powerOn).resetActive = false
      ∧ ((p.released.backedUp b).startingUp .powerOn).mainLost = false
      ∧ ((p.released.backedUp b).startingUp .powerOn).markPresent = false := by
  cases b <;> exact ⟨rfl, rfl, rfl⟩

/-- Settles O39: POWER_ON and RESTART CLEAN by the defaults their steps leave, whole and cut short. -/
theorem defaultRestarts : Obligations.DefaultRestarts := by
  refine ⟨fun s => ⟨rfl, rfl, fun hheld => ?_⟩, fun c s inputs hbegins hlost => ?_,
    fun inputs s frame hr hsend hreq hb hm hc => ?_⟩
  · have reset : s.inReset = true := by simpa [State.inReset] using hheld
    simp [State.granted, State.ownAction, reset]
  · obtain ⟨event, host, p, he, hp⟩ := exec_begins (show Begins c s inputs from hbegins)
    have hd : (p.backedUp inputs.backup).decideKind event
        = (.powerOn, s.supply.markPresent && inputs.backup != .disconnected) := by
      rw [hp]
      exact decideKind_powerOn (p := s.supply.released) event hlost
    refine ⟨fun hcut => ?_, fun cut hcut => ⟨_, he, ?_⟩⟩
    · rw [he, startUp_decided_whole hd hcut, foldl_startUpSteps_cleared (.inl rfl)]
      simp only [State.starting]
      rw [hp, poweredOn_supply]
      cases s.supply.supplyGood <;> rfl
    · obtain ⟨noReset, noMain, noMark⟩ := startingUp_powerOn s.supply inputs.backup
      rw [← hp] at noReset noMain noMark
      obtain ⟨reset, main, mark, cleared⟩ := startUp_cleared_cut (s := { s with host := host, supply := p }) (.inl rfl) hd
        hcut noReset noMain
      refine ⟨reset, main, mark.trans ?_, fun hne => ?_⟩
      · exact (congrArg (fun b => if cut.after = .mark then true else b) noMark).trans (by simp)
      · obtain ⟨clock, settings, permits, revoked, rooms, pool, groups, stations⟩ := cleared hne
        exact ⟨clock, settings, permits, revoked, rooms, pool, groups, stations⟩
  · have kept : s.replied.supply.backedUp inputs.backup = s.supply := by rw [hb]; rfl
    have hd : (s.replied.supply.backedUp inputs.backup).decideKind .restartClean = (.restartClean, false) := by
      rw [kept]
      simp [Supply.decideKind, hm, hc]
    have free : s.supply.resetActive = false ∧ s.supply.mainLost = false := by simpa [State.inReset] using hr
    refine ⟨_, exec_frameSent_clean hr hsend hreq, startUp_clean_clock hd, fun cut hcut => ?_, fun hcut => ?_⟩
    · obtain ⟨reset, main, -, cleared⟩ := startUp_cleared_cut (.inr rfl) hd hcut (by rw [hb]; exact free.1)
        (by rw [hb]; exact free.2)
      exact ⟨reset, main, fun hne => ⟨(cleared hne).permits, (cleared hne).pool, (cleared hne).groups⟩⟩
    · rw [startUp_decided_whole hd hcut, foldl_startUpSteps_cleared (.inr rfl)]
      exact ⟨rfl, rfl, rfl, rfl, rfl, rfl, rfl, rfl, rfl, rfl, rfl, rfl, rfl, rfl, rfl, rfl, rfl⟩

end Sys2Proof.Machine
end

