-- ==== Sys2Proof/Proofs/Occurrences.lean ====
section
/-! The occurrence test of a daily window, form by form, and the run of inside minutes an occurrence's end closes (R100
to R103). -/
namespace Sys2Proof.Machine

/-! ### The days of a window's mask (R85, R100) -/

/-- R85: seven days in a row have every weekday. -/
theorem exists_weekday_eq (offset day : Nat) {i : Nat} (hi : i < 7) : ∃ j, j ≤ 6 ∧ weekday offset (day + j) = i :=
  ⟨(i + 7 - weekday offset day) % 7, by omega, by unfold weekday; omega⟩

theorem Window.holds_of_mask_zero {w : Window} (h : w.mask = 0) (offset day : Nat) : w.holds offset day = false := by
  simp [Window.holds, h]

theorem Window.holds_of_all {w : Window} (h : ∀ i, i < 7 → w.mask.getLsbD i = true) (offset day : Nat) :
    w.holds offset day = true :=
  h _ (Nat.mod_lt _ (by decide))

/-- R103: the run of mask days that `day` lies in ends before `day + k`, the first day outside the mask. -/
structure Window.RunEnds (w : Window) (offset day k : Nat) : Prop where
  pos : 1 ≤ k
  le : k ≤ 6
  free : w.holds offset (day + k) = false
  held : ∀ j, j < k → w.holds offset (day + j) = true

/-- R103: "such a k always exists" once a weekday is outside the mask. -/
theorem Window.exists_runEnds {w : Window} {offset day i : Nat} (today : w.holds offset day = true) (hi : i < 7)
    (hfree : w.mask.getLsbD i = false) : ∃ k, w.RunEnds offset day k := by
  obtain ⟨j, inWeek, dayOf⟩ := exists_weekday_eq offset day hi
  have hj : w.holds offset (day + j) = false := by rw [Window.holds, dayOf, hfree]
  have free : ∃ k, w.holds offset (day + k) = false := ⟨j, hj⟩
  have notToday : Nat.find free ≠ 0 := fun hz => by simp [today] at hz
  exact ⟨Nat.find free, Nat.pos_of_ne_zero notToday, (Nat.find_min' free hj).trans inWeek, Nat.find_spec free,
    fun l hl => by simpa using Nat.find_min free hl⟩

/-- A later day of the run ends its run on the same day. -/
theorem Window.RunEnds.later {w : Window} {offset day k i : Nat} (h : w.RunEnds offset day k) (hi : i < k) :
    w.RunEnds offset (day + i) (k - i) where
  pos := by omega
  le := by have := h.le; omega
  free := by rw [Nat.add_assoc, Nat.add_sub_cancel' hi.le]; exact h.free
  held j hj := by rw [Nat.add_assoc]; exact h.held _ (by omega)

/-! ### The occurrence test, form by form (R101 to R103) -/

/-- R101: a window within one day. -/
theorem occurrence_withinDay {w : Window} (h : w.fromMinute < w.toMinute) (offset minute : Nat) :
    occurrence (some w) offset minute =
      if w.fromMinute ≤ minute % 1440 ∧ minute % 1440 < w.toMinute ∧ w.holds offset (minute / 1440) = true then
        .inside (some (minute / 1440 * 1440 + w.toMinute))
      else .outside := by
  by_cases hz : w.mask = 0
  · simp [occurrence, hz, w.holds_of_mask_zero hz]
  · simp only [occurrence, if_neg hz, if_pos h]
    rfl

/-- R102: a window across midnight. -/
theorem occurrence_acrossMidnight {w : Window} (h : w.toMinute < w.fromMinute) (offset minute : Nat) :
    occurrence (some w) offset minute =
      if w.fromMinute ≤ minute % 1440 ∧ w.holds offset (minute / 1440) = true then
        .inside (some ((minute / 1440 + 1) * 1440 + w.toMinute))
      else if minute % 1440 < w.toMinute ∧ 1 ≤ minute / 1440 ∧ w.holds offset (minute / 1440 - 1) = true then
        .inside (some (minute / 1440 * 1440 + w.toMinute))
      else .outside := by
  by_cases hz : w.mask = 0
  · simp [occurrence, hz, w.holds_of_mask_zero hz]
  · simp only [occurrence, if_neg hz, if_neg h.not_gt, if_pos h]
    rfl

/-- R103: a whole-day window; the end is at the first of the six days after that is outside the mask. -/
theorem occurrence_wholeDay {w : Window} (h : w.fromMinute = w.toMinute) (offset minute : Nat) :
    occurrence (some w) offset minute =
      if w.holds offset (minute / 1440) = true then
        .inside (((List.range' 1 6).find? fun k => !w.holds offset (minute / 1440 + k)).map
          fun k => (minute / 1440 + k) * 1440)
      else .outside := by
  by_cases hz : w.mask = 0
  · simp [occurrence, hz, w.holds_of_mask_zero hz]
  · simp only [occurrence, Config.dayMinutes, if_neg hz, if_neg h.not_lt, if_neg h.not_gt]
    cases (List.range' 1 6).find? fun k => !w.holds offset (minute / 1440 + k) <;> rfl

theorem occurrence_wholeDay_outside {w : Window} {offset minute : Nat} (h : w.fromMinute = w.toMinute)
    (hd : w.holds offset (minute / 1440) = false) : occurrence (some w) offset minute = .outside := by
  simp [occurrence_wholeDay h, hd]

theorem occurrence_wholeDay_unlimited {w : Window} (h : w.fromMinute = w.toMinute)
    (hall : ∀ i, i < 7 → w.mask.getLsbD i = true) (offset minute : Nat) :
    occurrence (some w) offset minute = .inside none := by
  simp [occurrence_wholeDay h, w.holds_of_all hall]

/-- The first day outside the mask that R103 looks for is the one the run of mask days ends before. -/
theorem find?_freeDay_eq_some_iff {w : Window} {offset day k : Nat} (today : w.holds offset day = true) :
    ((List.range' 1 6).find? fun k => !w.holds offset (day + k)) = some k ↔ w.RunEnds offset day k := by
  simp only [List.find?_range'_eq_some, List.mem_range'_1, Bool.not_eq_true', Bool.not_not]
  constructor
  · rintro ⟨free, ⟨pos, le⟩, held⟩
    refine ⟨pos, by omega, free, fun j hj => ?_⟩
    cases j with
    | zero => exact today
    | succ j => exact held _ (by omega) hj
  · intro h
    exact ⟨h.free, ⟨h.pos, by have := h.le; omega⟩, fun j _ hj => h.held j hj⟩

/-- R103: a whole-day occurrence ends where the run of mask days ends. -/
theorem occurrence_wholeDay_inside_iff {w : Window} {offset minute fin : Nat} (h : w.fromMinute = w.toMinute) :
    occurrence (some w) offset minute = .inside (some fin) ↔
      ∃ k, w.RunEnds offset (minute / 1440) k ∧ fin = (minute / 1440 + k) * 1440 := by
  rw [occurrence_wholeDay h]
  by_cases today : w.holds offset (minute / 1440) = true
  · simp only [if_pos today, Occurrence.inside.injEq, Option.map_eq_some_iff, find?_freeDay_eq_some_iff today,
      eq_comm (b := fin)]
  · rw [if_neg today]
    refine ⟨nofun, fun ⟨k, run, _⟩ => ?_⟩
    exact absurd (run.held 0 run.pos) today

/-! ### The run of inside minutes (R101 to R103) -/

/-- Every minute from `minute` up to `fin` is inside with the end `fin`, and `fin` itself is outside. -/
def InsideUntil (w : Window) (offset minute fin : Nat) : Prop :=
  (∀ later, minute ≤ later → later < fin → occurrence (some w) offset later = .inside (some fin))
    ∧ occurrence (some w) offset fin = .outside

/-- R101: the run stays within its day and ends at the to minute. -/
theorem insideUntil_withinDay {w : Window} {offset minute fin : Nat} (h : w.fromMinute < w.toMinute)
    (hto : w.toMinute ≤ 1439) (hin : occurrence (some w) offset minute = .inside (some fin)) :
    InsideUntil w offset minute fin := by
  rw [occurrence_withinDay h] at hin
  split at hin
  case isFalse => cases hin
  case isTrue inside =>
    obtain ⟨begun, -, held⟩ := inside
    cases hin
    refine ⟨fun later hle hlt => ?_, ?_⟩
    · have sameDay : later / 1440 = minute / 1440 := by omega
      rw [occurrence_withinDay h, sameDay, if_pos ⟨by omega, by omega, held⟩]
    · rw [occurrence_withinDay h, if_neg fun inside => by omega]

/-- R102: the to minute of any day is outside a window across midnight, in the gap before the from minute. -/
theorem occurrence_acrossMidnight_toMinute {w : Window} (h : w.toMinute < w.fromMinute) (hto : w.toMinute ≤ 1439)
    (offset day : Nat) : occurrence (some w) offset (day * 1440 + w.toMinute) = .outside := by
  have gap : (day * 1440 + w.toMinute) % 1440 = w.toMinute := by omega
  rw [occurrence_acrossMidnight h, gap, if_neg fun evening => by omega, if_neg fun morning => by omega]

/-- R102, case 2: the morning of the day after one in the mask. -/
theorem occurrence_acrossMidnight_morning {w : Window} {offset day minute : Nat} (h : w.toMinute < w.fromMinute)
    (hday : minute / 1440 = day + 1) (hm : minute % 1440 < w.toMinute) (held : w.holds offset day = true) :
    occurrence (some w) offset minute = .inside (some ((day + 1) * 1440 + w.toMinute)) := by
  rw [occurrence_acrossMidnight h, if_neg fun evening => by omega, hday, if_pos ⟨hm, by omega, held⟩]

/-- R102: the run has an evening part, to midnight, and a morning part, to the to minute. -/
theorem insideUntil_acrossMidnight {w : Window} {offset minute fin : Nat} (h : w.toMinute < w.fromMinute)
    (hto : w.toMinute ≤ 1439) (hin : occurrence (some w) offset minute = .inside (some fin)) :
    InsideUntil w offset minute fin := by
  rw [occurrence_acrossMidnight h] at hin
  split at hin
  case isTrue evening =>
    obtain ⟨begun, held⟩ := evening
    cases hin
    refine ⟨fun later hle hlt => ?_, occurrence_acrossMidnight_toMinute h hto ..⟩
    by_cases sameDay : later / 1440 = minute / 1440
    · rw [occurrence_acrossMidnight h, sameDay, if_pos ⟨by omega, held⟩]
    · exact occurrence_acrossMidnight_morning h (by omega) (by omega) held
  case isFalse =>
    split at hin
    case isFalse => cases hin
    case isTrue morning =>
      obtain ⟨before, notFirst, held⟩ := morning
      cases hin
      refine ⟨fun later hle hlt => ?_, occurrence_acrossMidnight_toMinute h hto ..⟩
      have begun : minute / 1440 - 1 + 1 = minute / 1440 := Nat.sub_add_cancel notFirst
      have run := occurrence_acrossMidnight_morning (minute := later) h (by omega) (by omega) held
      rwa [begun] at run

/-- R103: the run covers whole days up to the first day outside the mask. -/
theorem insideUntil_wholeDay {w : Window} {offset minute fin : Nat} (h : w.fromMinute = w.toMinute)
    (hin : occurrence (some w) offset minute = .inside (some fin)) : InsideUntil w offset minute fin := by
  obtain ⟨k, run, rfl⟩ := (occurrence_wholeDay_inside_iff h).1 hin
  refine ⟨fun later hle hlt => ?_, ?_⟩
  · obtain ⟨i, hi⟩ := Nat.exists_eq_add_of_le (Nat.div_le_div_right (c := 1440) hle)
    have before : i < k := by omega
    refine (occurrence_wholeDay_inside_iff h).2 ⟨k - i, ?_, by rw [hi]; omega⟩
    rw [hi]
    exact run.later before
  · refine occurrence_wholeDay_outside h ?_
    rw [Nat.mul_div_cancel _ (by decide)]
    exact run.free

/-! ### The obligations -/

/-- Settles O52: the end ends the run, for each of the three forms of window. -/
theorem occurrenceEndEndsRun : Obligations.OccurrenceEndEndsRun := by
  intro w offset minute fin _ hto hin
  refine ⟨lt_of_occurrence_inside hin, ?_⟩
  rcases Nat.lt_trichotomy w.fromMinute w.toMinute with within | whole | across
  · exact insideUntil_withinDay within hto hin
  · exact insideUntil_wholeDay whole hin
  · exact insideUntil_acrossMidnight across hto hin

/-- Settles O51: R101, R102 and R103, one equation of the occurrence test each. -/
theorem occurrenceTestCases : Obligations.OccurrenceTestCases := by
  refine ⟨fun w offset minute h => occurrence_withinDay h offset minute,
    fun w offset minute h => occurrence_acrossMidnight h offset minute, fun w offset minute h => ⟨fun hd => ?_,
      fun hall => occurrence_wholeDay_unlimited h hall offset minute, fun today ⟨i, hi, hfree⟩ => ?_⟩⟩
  · exact occurrence_wholeDay_outside h (Bool.eq_false_iff.2 hd)
  · obtain ⟨k, run⟩ := Window.exists_runEnds (w := w) today hi hfree
    exact ⟨k, run.pos, run.le, Bool.eq_false_iff.1 run.free, fun j _ hj => run.held j hj,
      (occurrence_wholeDay_inside_iff h).2 ⟨k, run, rfl⟩⟩

end Sys2Proof.Machine
end

