-- ==== Sys2Proof/Proofs/Queue.lean ====
section
/-! The queue of waiting commands, which is the model's own: a step takes its front command, and no command touches the
rest (R116, R119). -/
namespace Sys2Proof.Machine

section
variable (s : State)

/-! ### Groups, alerts and records -/

@[simp] theorem State.retestGroup_pending (n : Nat) : (s.retestGroup n).pending = s.pending := by
  unfold State.retestGroup; (repeat' split) <;> simp

@[simp] theorem State.removeMember_pending (g : Group) (m : Member) (r : Reason) :
    (s.removeMember g m r).pending = s.pending := by
  unfold State.removeMember; dsimp only; split <;> simp

@[simp] theorem State.markRevoked_pending (o : Occupant) (b : Bool) : (s.markRevoked o b).pending = s.pending := by
  simp [State.markRevoked]

@[simp] theorem State.relevel_pending (o : Occupant) (d : Nat) : (s.relevel o d).pending = s.pending := by
  unfold State.relevel State.returnToClear; (repeat' split) <;> simp

@[simp] theorem State.recompute_pending (o : Occupant) (p : Permit) : (s.recompute o p).pending = s.pending := by
  unfold State.recompute; split <;> simp

/-! ### The services of requests -/

@[simp] theorem State.setClock_pending (day second : Nat) : (s.setClock day second).pending = s.pending := by
  simp [State.setClock]

@[simp] theorem State.suspendMember_pending (n : Nat) : (s.suspendMember n).pending = s.pending := by
  unfold State.suspendMember; (repeat' split) <;> simp

@[simp] theorem State.actOnHolder_pending (p : Permit) (c : PermitAmend) : (s.actOnHolder p c).pending = s.pending := by
  unfold State.actOnHolder; dsimp only; (repeat' split) <;> simp

@[simp] theorem State.actOnRevoked_pending (c : Nat) : (s.actOnRevoked c).pending = s.pending := by
  unfold State.actOnRevoked; (repeat' split) <;> simp

@[simp] theorem State.unmark_pending (c : Nat) : (s.unmark c).pending = s.pending := by
  unfold State.unmark; (repeat' split) <;> simp

@[simp] theorem State.configureRoom_pending (c : RoomConfig) : (s.configureRoom c).pending = s.pending := by
  unfold State.configureRoom; dsimp only; split <;> simp

@[simp] theorem State.rederive_pending (n : Nat) : (s.rederive n).pending = s.pending := rfl

@[simp] theorem State.changeRoomMode_pending (n : Nat) (m : RoomMode) :
    (s.changeRoomMode n m).pending = s.pending := by
  simp [State.changeRoomMode]

@[simp] theorem State.operatorRelease_pending (o : Occupant) : (s.operatorRelease o).pending = s.pending := by
  simp [State.operatorRelease]

@[simp] theorem State.closeTrail_pending (h : HalfId) : (s.closeTrail h).pending = s.pending := by
  simp [State.closeTrail]

@[simp] theorem State.freeHalf_pending (h : HalfId) : (s.freeHalf h).pending = s.pending := by
  unfold State.freeHalf; split <;> rfl

@[simp] theorem State.requestRun_pending : s.requestRun.pending = s.pending := by
  unfold State.requestRun; split <;> simp

@[simp] theorem State.requestReserve_pending : s.requestReserve.pending = s.pending := by
  unfold State.requestReserve; split <;> simp

@[simp] theorem State.requestStandby_pending : s.requestStandby.pending = s.pending := by
  unfold State.requestStandby; split <;> simp

/-! ### Jobs -/

@[simp] theorem State.takeDoorEvent_pending (n : Nat) : (s.takeDoorEvent n).pending = s.pending := rfl

@[simp] theorem State.commitStation_pending (n : Nat) : (s.commitStation n).pending = s.pending := by
  have records (l : List Occupant) : (l.foldl State.commitRecord s).pending = s.pending :=
    foldl_keeps _ _ (fun s o => by simp [State.commitRecord]) l s
  unfold State.commitStation; split <;> simp [records]

@[simp] theorem State.cancelGroup_pending (n : Nat) : (s.cancelGroup n).pending = s.pending := by
  unfold State.cancelGroup; split <;> simp

@[simp] theorem State.lapseStation_pending (n : Nat) (silence : Bool) :
    (s.lapseStation n silence).pending = s.pending := by
  unfold State.lapseStation; dsimp only; (repeat' split) <;> simp

/-- R94: the four actions on a due entry. -/
theorem State.takeDue_pending {act : Due → State → State}
    (ha : act ∈ [pairingAction, stayDeadlineAction, escalationAction, limitAction]) :
    (s.takeDue act).pending = s.pending := by
  have acts (w : Due) (s : State) : (act w s).pending = s.pending := by
    simp only [List.mem_cons, List.not_mem_nil, or_false] at ha
    rcases ha with rfl | rfl | rfl | rfl
    · unfold pairingAction State.expireGroup; (repeat' split) <;> simp
    · unfold stayDeadlineAction State.raiseOverstay; dsimp only; (repeat' split) <;> simp
    · unfold escalationAction State.escalateOverstay; (repeat' split) <;> simp
    · unfold limitAction State.escalateAlert; (repeat' split) <;> simp
  unfold State.takeDue; split <;> simp [acts]

@[simp] theorem State.admitOrPair_pending (p : Presentation) (q : Permit) :
    (s.admitOrPair p q).pending = s.pending := by
  unfold State.admitOrPair State.join State.grant State.found State.concludeWait
  dsimp only
  (repeat' split) <;> simp

@[simp] theorem State.decideEntry_pending (p : Presentation) : (s.decideEntry p).pending = s.pending := by
  unfold State.decideEntry State.tryPermits State.roomChecks State.repeatTap State.memberTap
  dsimp only
  (repeat' split) <;> simp

@[simp] theorem State.decideExit_pending (p : Presentation) : (s.decideExit p).pending = s.pending := by
  unfold State.decideExit State.exitRecord State.offerExit
  dsimp only
  (repeat' split) <;> simp

theorem State.takePresentation_pending {act : State → Presentation → State}
    (ha : act ∈ [State.decideEntry, State.decideExit]) : (s.takePresentation act).pending = s.pending := by
  simp only [List.mem_cons, List.not_mem_nil, or_false] at ha
  unfold State.takePresentation State.decideSilent
  dsimp only
  rcases ha with rfl | rfl <;> (repeat' split) <;> simp

@[simp] theorem State.foldl_retire_pending (l : List (Nat × Permit)) : (l.foldl State.retire s).pending = s.pending :=
  foldl_keeps _ _ (fun s e => by simp [State.retire]) l s

/-! ### The lines -/

@[simp] theorem State.acceptFrame_pending (f : Frame) : (s.acceptFrame f).pending = s.pending := by
  unfold State.acceptFrame; (repeat' split) <;> rfl

@[simp] theorem State.takeAnswer_pending (n : Nat) (a : StationAnswer) : (s.takeAnswer n a).pending = s.pending := by
  unfold State.takeAnswer State.contactAndReport
  dsimp only
  (repeat' split) <;> simp

@[simp] theorem State.silence_pending (n : Nat) : (s.silence n).pending = s.pending := by
  have door (s : State) : (s.silenceDoor n).pending = s.pending := by unfold State.silenceDoor; split <;> simp
  unfold State.silence
  dsimp only
  split <;> simp [door]

@[simp] theorem State.miss_pending (n : Nat) (settle : Bool) : (s.miss n settle).pending = s.pending := by
  unfold State.miss State.countMiss
  dsimp only
  (repeat' split) <;> simp

@[simp] theorem State.releaseExpires_pending (n : Nat) : (s.releaseExpires n).pending = s.pending := by
  unfold State.releaseExpires
  dsimp only
  (repeat' split) <;> simp

@[simp] theorem State.heldExpires_pending (n : Nat) : (s.heldExpires n).pending = s.pending := by
  unfold State.heldExpires; split <;> simp

@[simp] theorem State.endTurn_pending : s.endTurn.pending = s.pending := by
  unfold State.endTurn; split <;> rfl

/-! ### Wakes and start-ups -/

@[simp] theorem State.wake_pending (c : ModeCause) : (s.wake c).pending = s.pending := by
  simp [State.wake, State.restartLine]

@[simp] theorem State.wakeEvent_pending (c : ModeCause) : (s.wakeEvent c).pending = s.pending := by
  unfold State.wakeEvent; (repeat' split) <;> simp

@[simp] theorem State.stop_pending : s.stop.pending = s.pending := by
  unfold State.stop; dsimp only; split <;> simp

@[simp] theorem State.supplyFell_pending : s.supplyFell.pending = s.pending := by
  unfold State.supplyFell; split <;> simp

@[simp] theorem State.supplyRose_pending : s.supplyRose.pending = s.pending := by
  unfold State.supplyRose; (repeat' split) <;> simp

@[simp] theorem State.warmWork_pending : s.warmWork.pending = s.pending := by
  have entries (l : List Occupant) (s : State) : (l.foldl State.rebuildEntry s).pending = s.pending :=
    foldl_keeps _ _ (fun s o => by unfold State.rebuildEntry; split <;> simp) l s
  have alerts (l : List (Nat × RoomAlert)) (s : State) :
      (l.foldl (fun s p => s.rebuildAlert p.2 p.1) s).pending = s.pending :=
    foldl_keeps _ _ (fun s p => by unfold State.rebuildAlert; split <;> simp) l s
  have discarded : s.lapseAll.discardGroups.pending = s.pending := by
    obtain ⟨-, -, -, -, -, -, -, -, -, -, queue⟩ := (tells_discardGroups s.lapseAll).around
    rw [queue]
    simp [State.lapseAll]
  rw [warmWork_eq, alerts, entries, discarded]

/-- R178: no numbered step of a start-up touches the queue of waiting commands. -/
theorem State.startUpStep_pending (k : RestartKind) (lost : Bool) (rate : Nat) (x : StartUpStep) :
    (s.startUpStep k lost rate x).pending = s.pending := by
  cases x with
  | kind => cases k <;> rfl
  | record => simp [State.startUpStep, State.putRestart]
  | engine => cases k <;> simp [State.startUpStep, State.engineWork]
  | unretained | mode | ready | mark => rfl

@[simp] theorem State.startUp_pending (event : RestartKind) (inputs : RestartInputs) :
    (s.startUp event inputs).pending = s.pending := by
  unfold State.startUp
  dsimp only
  have taken (k : RestartKind) (lost : Bool) (l : List StartUpStep) (s : State) :
      (l.foldl (State.startUpStep k lost (rateOfStraps inputs)) s).pending = s.pending :=
    foldl_keeps _ _ (fun s x => s.startUpStep_pending k lost _ x) l s
  split
  · exact taken ..
  · exact taken ..

@[simp] theorem State.replySent_pending (inputs : RestartInputs) : (s.replySent inputs).pending = s.pending := by
  unfold State.replySent; (repeat' split) <;> simp

@[simp] theorem State.leaveReset_pending (inputs : RestartInputs) : (s.leaveReset inputs).pending = s.pending := by
  unfold State.leaveReset; dsimp only; split <;> simp

end

/-! ### Every command -/

section
variable {s t u : State} {i : Instr} {serve : List Byte → State → Except ReplyCode (State × List Byte)}

theorem State.answer_pending {f : Frame} (hs : ∀ b u r, serve b s = .ok (u, r) → u.pending = s.pending) :
    (s.answer f (serve f.body s)).pending = s.pending := by
  unfold State.answer
  split
  · simp
  · rename_i hserved
    simpa using hs _ _ _ hserved

theorem requestJob_pending (hs : ∀ b u r, serve b s = .ok (u, r) → u.pending = s.pending)
    (h : requestJob i s serve = .next t) : t.pending = s.pending := by
  unfold requestJob at h
  (repeat' split at h) <;> cases h
  · exact State.answer_pending hs
  · rfl
  · rfl

theorem acceptedRequest_pending (hs : ∀ b u r, serve b s = .ok (u, r) → u.pending = s.pending)
    (h : acceptedRequest i s serve = .next t) : t.pending = s.pending := by
  unfold acceptedRequest at h
  split at h <;> cases h
  · exact State.answer_pending hs
  · rfl

theorem whenGranted_pending {job : State → State} (hj : (job s).pending = s.pending)
    (h : whenGranted i s job = .next t) : t.pending = s.pending := by
  unfold whenGranted at h
  split at h <;> cases h
  · exact hj
  · rfl

/-- A service that reads a body and answers one state. -/
theorem pending_of_read {α : Type} {x : Except ReplyCode α} {f : α → State × List Byte} {r : List Byte}
    (h : x.map f = .ok (u, r)) (hf : ∀ a, (f a).1.pending = s.pending) : u.pending = s.pending := by
  obtain ⟨a, -, ha⟩ := except_map_ok h
  simpa [ha] using hf a

end

/-- Settles O4, by the command: a service, a job, or an event of a line or of the supply. -/
theorem execKeepsQueue : Obligations.ExecKeepsQueue := by
  intro c s t h
  cases c <;> dsimp only [exec] at h
  case identify | status | settingsRead =>
    exact acceptedRequest_pending (fun _ _ _ hs => pending_of_read hs fun _ => rfl) h
  case unknownKind => exact acceptedRequest_pending (fun _ _ _ hs => by cases hs) h
  case settingsWrite | clockRead | revokeList | restartWarmRequest | restartCleanRequest =>
    exact requestJob_pending (fun _ _ _ hs => pending_of_read hs fun _ => rfl) h
  case trailRead | trailClose | trailFree =>
    refine acceptedRequest_pending (fun b u r hs => ?_) h
    simp only [serveTrailRead, serveTrailClose, serveTrailFree] at hs
    (repeat' split at hs) <;> cases hs
    all_goals simp
  case clockSet | permitAdd | permitAmend | permitRemove | permitRead | permitFind | revoke | unrevoke | roomSet
      | roomMode | roomRead | occupantRelease | stationSet | stationChannel | stationRead | modeRequestRun | modeRequestReserve
      | modeRequestStandby =>
    refine requestJob_pending (fun b u r hs => ?_) h
    simp only [serveClockSet, servePermitAdd, servePermitAmend, servePermitRemove, servePermitRead, servePermitFind,
      serveRevoke, serveUnrevoke, serveRoomSet, serveRoomMode, serveRoomRead, serveOccupantRelease, serveStationSet,
      serveStationChannel, serveStationRead, serveModeRun, serveModeReserve, serveModeStandby] at hs
    (repeat' split at hs) <;> cases hs
    all_goals simp
  case doorCommit =>
    refine whenGranted_pending ?_ h
    split <;> simp
  case doorLapse =>
    refine whenGranted_pending ?_ h
    (repeat' split) <;> simp
  case pairingExpiry | stayDeadlineDue | escalationDue | limitDue =>
    exact whenGranted_pending (s.takeDue_pending (by simp)) h
  case entryDecision | exitDecision => exact whenGranted_pending (s.takePresentation_pending (by simp)) h
  case sweepStep => exact whenGranted_pending (by simp) h
  case frameReceived | receiveGap | framingError | lengthOver1024 | startByteReceived | frameSent | sweepIntervalExpiry
      | clockEnd | pollRoundStart | call | goodAnswer | missingAnswer | corruptAnswer | releaseTimerExpiry
      | heldTimerExpiry | supplyFall | supplyRise | attention | resetLineActive | resetLineReleased | mainSupplyLoss
      | mainSupplyUp =>
    simp only [execFrameReceived, execReceiveGap, execFramingError, execLengthOver1024, execStartByteReceived,
      execFrameSent, execSweepIntervalExpiry, execClockEnd, execPollRoundStart, execCall, execGoodAnswer,
      execMissingAnswer, execCorruptAnswer, execReleaseTimerExpiry, execHeldTimerExpiry, execSupplyFall, execSupplyRise,
      execAttention, execResetLineActive, execResetLineReleased, execMainSupplyLoss, execMainSupplyUp] at h
    (repeat' split at h) <;> cases h
    all_goals simp [State.startRound, State.beginTurn]

/-- Settles O1: the front of the queue is the first branch of the step. -/
theorem stepRunsFrontCommand : Obligations.StepRunsFrontCommand := by
  intro c s rest front
  rw [step, front]

end Sys2Proof.Machine
end

