-- ==== Sys2Proof/Proofs/AnswerSteps.lean ====
section
/-! The steps of a good answer (R137 to R145, R147): the link, the verdict and the door it releases, the contact events,
a forced door and the report. -/
namespace Sys2Proof.Machine

section
variable {s : State} {n : Nat} {x : Station}

/-! ### The door of a station, and a commit at it (R148) -/

/-- R148: the events of a station at which an entry may be committed. -/
def State.withCommit (s : State) (n : Nat) (events : List DoorEvent) : List DoorEvent :=
  if s.hasAdmitting n then raiseCommit events else events

theorem setDoor_setStation (hn : s.Listed n) (d : Door) :
    (s.setStation n x).setDoor n d = s.setStation n { x with door := d } :=
  setStation_again hn rfl fun st => { st with door := d }

theorem commitIfAdmitting_setStation (hn : s.Listed n) :
    (s.setStation n x).commitIfAdmitting n = s.setStation n { x with events := s.withCommit n x.events } := by
  have same : (s.setStation n x).hasAdmitting n = s.hasAdmitting n := rfl
  unfold State.commitIfAdmitting State.withCommit
  rw [same]
  split
  · exact setStation_again hn rfl fun st => { st with events := raiseCommit st.events }
  · rfl

/-- R147: a door alert of a station, by what the station holds. -/
theorem doorAlert_eq {t : State} (h : t.station n = x) (kind : AlertKind) (l : Level) : t.doorAlert n kind l =
    (t.put { kind := .alert, station := n, room := x.room, reason := .alert kind, value := .number l.code }).offer
      (.alert { kind := kind, level := l, room := x.room, station := n
                channel := if kind = .forced then some x.channel else none }) := by
  rw [← h]
  rfl

/-- R145, R147: a commit raised after the alert of the door is written with the door. -/
theorem alert_then_commit (hn : s.Listed n) (hroom : x.room = (s.station n).room)
    (hchannel : x.channel = (s.station n).channel) (kind : AlertKind) (l : Level) :
    ((s.setStation n x).doorAlert n kind l).commitIfAdmitting n
      = (s.setStation n { x with events := s.withCommit n x.events }).doorAlert n kind l := by
  have told : (s.doorAlert n kind l).Listed n := hn.of_stations (by simp)
  have admitting : (s.doorAlert n kind l).withCommit n x.events = s.withCommit n x.events := by
    simp [State.withCommit, State.hasAdmitting]
  rw [doorAlert_setStation hn hroom hchannel, commitIfAdmitting_setStation told, admitting]
  exact (doorAlert_setStation (x := { x with events := s.withCommit n x.events }) hn hroom hchannel kind l).symm

/-! ### The link and the verdict (R141, R143, R145) -/

theorem linkStep_online (h : (s.station n).link = .online) :
    s.linkStep n = s.setStation n { s.station n with missed := 0 } := by
  unfold State.linkStep
  rw [if_neg (by simp [h]), ← h]

theorem linkStep_silent (h : (s.station n).link = .silent) : s.linkStep n =
    ((s.setStation n { s.station n with missed := 0, link := .online }).put
      { kind := .link, station := n, room := (s.station n).room, value := .number 1 }).offer (.link n .online) :=
  if_pos h

/-- R145: a RELEASE delivered at a door that is not open releases it, its timer started anew. -/
theorem doorReleased_shut (hn : s.Listed n) (hd : x.door = .unknown ∨ x.door = .secure ∨ ∃ k, x.door = .released k)
    (seconds : Nat) :
    (s.setStation n x).doorReleased n seconds = s.setStation n { x with door := .released seconds } := by
  refine Eq.trans ?_ (setDoor_setStation hn (.released seconds))
  rw [State.doorReleased, station_setStation_self hn.1 hn.2]
  rcases hd with hd | hd | ⟨k, hd⟩ <;> rw [hd]

/-- R145: at an open door it starts the held timer anew, and a commit is raised. -/
theorem doorReleased_opened (hn : s.Listed n) {k : Nat} (hd : x.door = .opened k) (seconds : Nat) :
    (s.setStation n x).doorReleased n seconds =
      s.setStation n { x with door := .opened x.heldLimit, events := s.withCommit n x.events } := by
  have opened : (s.setStation n x).doorReleased n seconds =
      ((s.setStation n x).setDoor n (.opened x.heldLimit)).commitIfAdmitting n := by
    rw [State.doorReleased, station_setStation_self hn.1 hn.2, hd]
  rw [opened, setDoor_setStation hn, commitIfAdmitting_setStation hn]

/-- R145: at a door held open it clears HELD as well. -/
theorem doorReleased_heldOpen (hn : s.Listed n) (hroom : x.room = (s.station n).room)
    (hchannel : x.channel = (s.station n).channel) (hd : x.door = .heldOpen) (seconds : Nat) :
    (s.setStation n x).doorReleased n seconds =
      (s.setStation n { x with door := .opened x.heldLimit, events := s.withCommit n x.events }).doorAlert n .held
        .clear := by
  have opened : (s.setStation n x).doorReleased n seconds =
      (((s.setStation n x).setDoor n (.opened x.heldLimit)).doorAlert n .held .clear).commitIfAdmitting n := by
    rw [State.doorReleased, station_setStation_self hn.1 hn.2, hd]
  rw [opened, setDoor_setStation hn]
  exact alert_then_commit (x := { x with door := .opened x.heldLimit }) hn hroom hchannel .held .clear

/-- R145: a forced door stays forced, and a commit is raised. -/
theorem doorReleased_forcedOpen (hn : s.Listed n) (hd : x.door = .forcedOpen) (seconds : Nat) :
    (s.setStation n x).doorReleased n seconds =
      s.setStation n { x with door := .forcedOpen, events := s.withCommit n x.events } := by
  refine Eq.trans ?_ ((commitIfAdmitting_setStation hn).trans (by rw [hd]))
  rw [State.doorReleased, station_setStation_self hn.1 hn.2, hd]

theorem verdictStep_delivered {v : Verdict} {seen : Toggle} (hv : (s.station n).verdict = some v)
    (hsent : v.sent = true) (hseen : v.toggle = seen) : s.verdictStep n seen =
      if v.outcome = .release then (s.setStation n (s.station n).delivered).doorReleased n v.seconds
      else s.setStation n (s.station n).delivered := by
  simp [State.verdictStep, hv, hsent, hseen]

/-! ### The contact events (R144, R147) -/

theorem station_put (t : State) (r : TrailRecord) (n : Nat) : (t.put r).station n = t.station n :=
  station_congr (by simp) n

/-- R147: the channel of a forced SERVE station is barred and told before the alert. -/
theorem raiseForced_serve (hn : s.Listed n) (h : (s.station n).channel = .serve) : s.raiseForced n =
    (((s.setStation n { s.station n with door := .forcedOpen, channel := .barred }).put
      { kind := .channel, station := n, room := (s.station n).room, reason := .forced, value := .pair 0 2 }).put
      { kind := .alert, station := n, room := (s.station n).room, reason := .alert .forced, value := .number 1 }).offer
      (.alert { kind := .forced, level := .raised, room := (s.station n).room, station := n
                channel := some .barred }) := by
  have door : (s.setDoor n .forcedOpen).station n = { s.station n with door := .forcedOpen } :=
    station_setStation_self hn.1 hn.2
  have barred : (s.setDoor n .forcedOpen).writeChannel n .barred .forced =
      (s.setStation n { s.station n with door := .forcedOpen, channel := .barred }).put
        { kind := .channel, station := n, room := (s.station n).room, reason := .forced, value := .pair 0 2 } := by
    unfold State.writeChannel
    rw [door, State.setDoor, setStation_setStation]
    dsimp only
    rw [h]
    rfl
  unfold State.raiseForced
  dsimp only
  rw [if_pos h, barred]
  exact doorAlert_eq ((station_put ..).trans (station_setStation_self hn.1 hn.2)) .forced .raised

theorem raiseForced_other (hn : s.Listed n) (h : (s.station n).channel ≠ .serve) : s.raiseForced n =
    ((s.setStation n { s.station n with door := .forcedOpen }).put
      { kind := .alert, station := n, room := (s.station n).room, reason := .alert .forced, value := .number 1 }).offer
      (.alert { kind := .forced, level := .raised, room := (s.station n).room, station := n
                channel := some (s.station n).channel }) := by
  unfold State.raiseForced
  dsimp only
  rw [if_neg h]
  exact doorAlert_eq (station_setStation_self hn.1 hn.2) .forced .raised

theorem commitIfAdmitting_setDoor (hn : s.Listed n) (d : Door) : (s.setDoor n d).commitIfAdmitting n =
    s.setStation n { s.station n with door := d, events := s.withCommit n (s.station n).events } :=
  commitIfAdmitting_setStation hn

/-! ### The report (R138, R139) -/

theorem canTake_iff : s.canTake n = true ↔ (s.station n).channel ≠ .hold ∧ s.presentations.length ≤ 7
    ∧ (∀ p ∈ s.presentations, p.station ≠ n) ∧ (s.station n).verdict = none := by
  simp [State.canTake, Config.presentations, Nat.lt_succ_iff, and_assoc]

theorem badCredential_of_isCredential {c : Nat} (h : isCredential c) : badCredential c = false := by
  obtain ⟨low, high⟩ := h
  exact (badCredential_eq_false c).2 ⟨by omega, by omega⟩

theorem isNew_iff {st : Station} {t : Toggle} : st.isNew t = true ↔ st.expected ≠ .toggle (!t) := by
  unfold Station.isNew
  cases st.expected with
  | adopt => simp
  | toggle u => cases t <;> cases u <;> simp

/-- R138: a number that is no credential is acknowledged with the corrupt answer flag (for a repeat, log entry 17). -/
theorem reportStep_bad {c : Nat} (hc : c = 0 ∨ c = 4294967295) (t : Toggle) (side : Side) : s.reportStep n t side c =
    s.setStation n { s.station n with acknowledge := t, expected := .toggle (!t), corrupt := true } := by
  have bad : badCredential c = true := by rcases hc with rfl | rfl <;> rfl
  exact if_pos bad

section
variable {t : Toggle} {side : Side} {c : Nat} (hc : isCredential c)
include hc

theorem reportStep_repeat (h : (s.station n).expected = .toggle (!t)) : s.reportStep n t side c = s := by
  have old : ¬ (s.station n).isNew t = true := fun hnew => isNew_iff.1 hnew h
  rw [State.reportStep, badCredential_of_isCredential hc, if_neg nofun, if_neg old]

/-- R139: a new report taken into the queue. -/
theorem reportStep_taken (h : (s.station n).expected ≠ .toggle (!t)) (hfree : s.canTake n = true) :
    s.reportStep n t side c =
      { s.setStation n { s.station n with acknowledge := t, expected := .toggle (!t) } with
        presentations := s.presentations ++ [⟨n, side, c, s.now⟩] } := by
  rw [State.reportStep, badCredential_of_isCredential hc, if_neg nofun, if_pos (isNew_iff.2 h), if_pos hfree,
    Station.acknowledged]

/-- R138: a new report held back. -/
theorem reportStep_heldBack (h : (s.station n).expected ≠ .toggle (!t)) (hbusy : ¬ s.canTake n = true) :
    s.reportStep n t side c = s.setStation n ((s.station n).heldBack t) := by
  rw [State.reportStep, badCredential_of_isCredential hc, if_neg nofun, if_pos (isNew_iff.2 h), if_neg hbusy]

theorem reportStep_heldBack_toggle (h : (s.station n).expected = .toggle t) (hbusy : ¬ s.canTake n = true) :
    s.reportStep n t side c = s.setStation n (s.station n) := by
  have kept : (s.station n).heldBack t = s.station n := if_neg (by simp [h])
  rw [reportStep_heldBack hc (by simp [h]) hbusy, kept]

/-- R138: while the expected toggle is adopt, the report is kept unacknowledged. -/
theorem reportStep_heldBack_adopt (h : (s.station n).expected = .adopt) (hbusy : ¬ s.canTake n = true) :
    s.reportStep n t side c = s.setStation n { s.station n with acknowledge := !t } := by
  have kept : (s.station n).heldBack t = { s.station n with acknowledge := !t } := if_pos h
  rw [reportStep_heldBack hc (by simp [h]) hbusy, kept]

end

end

/-- Settles O29, step by step: the link, the verdict, the contact events, the door, the report. -/
theorem answerStepsTaken : Obligations.AnswerStepsTaken := by
  refine ⟨fun s n => ⟨linkStep_online, linkStep_silent⟩, fun s n seen h1 hl => ?_, fun s n => ⟨fun _ => rfl, rfl, rfl⟩,
    fun s n h1 hl => ?_, fun s n t side c => ?_⟩
  · have hn : s.Listed n := ⟨h1, hl⟩
    refine ⟨fun hv => by simp [State.verdictStep, hv], fun v hv hno => ?_, fun v hv hsent hseen => ?_⟩
    · have undelivered : ¬ (v.sent = true ∧ v.toggle = seen) := by simpa [imp_iff_not_or] using hno
      simp [State.verdictStep, hv, undelivered]
    · have step := verdictStep_delivered hv hsent hseen
      refine ⟨fun hother => step.trans (if_neg hother), fun hrelease => ?_⟩
      rw [if_pos hrelease] at step
      have before : (s.station n).delivered.door = (s.station n).door := rfl
      dsimp only
      cases hd : (s.station n).door with
      | unknown => exact step.trans (doorReleased_shut hn (.inl (before.trans hd)) _)
      | secure => exact step.trans (doorReleased_shut hn (.inr (.inl (before.trans hd))) _)
      | released k => exact step.trans (doorReleased_shut hn (.inr (.inr ⟨k, before.trans hd⟩)) _)
      | opened k => exact step.trans (doorReleased_opened hn (before.trans hd) _)
      | heldOpen =>
        exact (step.trans (doorReleased_heldOpen (x := (s.station n).delivered) hn rfl rfl (before.trans hd) _)).trans
          (doorAlert_eq (station_setStation_self h1 hl) .held .clear)
      | forcedOpen => exact step.trans (doorReleased_forcedOpen hn (before.trans hd) _)
  · have hn : s.Listed n := ⟨h1, hl⟩
    have secured : (s.setDoor n .secure).station n = { s.station n with door := .secure } :=
      station_setStation_self h1 hl
    dsimp only
    constructor
    · unfold State.doorOpened
      cases hd : (s.station n).door with
      | unknown => rfl
      | secure =>
        by_cases hserve : (s.station n).channel = .serve
        · simp only [if_pos hserve]
          exact raiseForced_serve hn hserve
        · simp only [if_neg hserve]
          exact raiseForced_other hn hserve
      | released => exact commitIfAdmitting_setDoor hn _
      | opened | heldOpen | forcedOpen => rfl
    · unfold State.doorClosed
      cases hd : (s.station n).door with
      | unknown | secure | released | opened => rfl
      | heldOpen => exact doorAlert_eq secured .held .clear
      | forcedOpen => exact doorAlert_eq secured .forced .clear
  · exact ⟨fun hc => reportStep_bad hc t side, fun hc => ⟨reportStep_repeat hc,
      fun hnew hfree => reportStep_taken hc hnew (canTake_iff.2 hfree),
      fun hnew hbusy => reportStep_heldBack_toggle hc hnew (mt canTake_iff.1 hbusy),
      fun hadopt hbusy => reportStep_heldBack_adopt hc hadopt (mt canTake_iff.1 hbusy)⟩⟩

end Sys2Proof.Machine
end

