-- ==== Sys2Proof/Proofs/DoorTimers.lean ====
section
/-! The release timers and the held timers (R128, R146, R147): their expiry, the seconds they count, and the part's own
act at count 0 (log entries 2 and 4). -/
namespace Sys2Proof.Machine

section
variable {s : State} {n : Nat}

/-! ### Expiry (R146, R147) -/

theorem isStation_of_le (h1 : 1 ≤ n) (h16 : n ≤ 16) : isStation n = true := by
  simp [isStation, Config.stations, h1, h16]

/-- R146: the door becomes SECURE, and a lapse is raised where an entry is under way. -/
theorem releaseExpires_released (hn : s.Listed n) {left : Nat} (hd : (s.station n).door = .released left) :
    s.releaseExpires n = s.setStation n
      { s.station n with
        door := .secure
        events := if s.hasAdmitting n then raiseLapse false (s.station n).events else (s.station n).events } := by
  have same : (s.setDoor n .secure).hasAdmitting n = s.hasAdmitting n := rfl
  unfold State.releaseExpires
  rw [hd]
  dsimp only
  rw [same]
  split
  · exact setStation_again hn rfl fun st => { st with events := raiseLapse false st.events }
  · rfl

/-- R147: the door becomes HELD_OPEN, and HELD is raised. -/
theorem heldExpires_opened (hn : s.Listed n) {left : Nat} (hd : (s.station n).door = .opened left) :
    s.heldExpires n = (((s.setStation n { s.station n with door := .heldOpen }).put
      { kind := .alert, station := n, room := (s.station n).room, reason := .alert .held, value := .number 1 }).offer
      (.alert { kind := .held, level := .raised, room := (s.station n).room, station := n })).pump := by
  have held : (s.setDoor n .heldOpen).station n = { s.station n with door := .heldOpen } :=
    station_setStation_self hn.1 hn.2
  unfold State.heldExpires
  rw [hd]
  dsimp only
  rw [State.doorAlert, held]
  rfl

/-! ### The seconds counted (R128, R176) -/

theorem tick_inReset (h : s.inReset = true) : s.tick = { s with clock := s.tick.clock } := by
  unfold State.tick
  rw [if_pos h]

theorem tick_stations (h : s.inReset = false) :
    s.tick.stations = s.stations.map (fun st => { st with door := st.door.tick }) := by
  simp [State.tick, h]

/-! ### The part's own act (log entry 2) -/

theorem ownTimer_iff {i : Instr} : s.ownTimer n = some i ↔
    (s.station n).door = .released 0 ∧ i = .releaseTimerExpiry n
      ∨ (s.station n).door = .opened 0 ∧ i = .heldTimerExpiry n := by
  unfold State.ownTimer
  cases (s.station n).door with
  | released left => cases left <;> simp [eq_comm]
  | opened left => cases left <;> simp [eq_comm]
  | unknown | secure | heldOpen | forcedOpen => simp

theorem ownTimer_eq_none {m : Nat} (h : (s.station m).door ≠ .released 0 ∧ (s.station m).door ≠ .opened 0) :
    s.ownTimer m = none := by
  obtain ⟨hreleased, hopened⟩ := h
  refine Option.eq_none_iff_forall_ne_some.2 fun i hi => ?_
  obtain ⟨hd, -⟩ | ⟨hd, -⟩ := ownTimer_iff.1 hi
  · exact hreleased hd
  · exact hopened hd

/-- The two rows that end a door timer. -/
def endsDoorTimer : Instr → Bool
  | .releaseTimerExpiry _ | .heldTimerExpiry _ => true
  | _ => false

theorem requestRow_endsDoorTimer (f : Frame) : endsDoorTimer (requestRow f) = false := by
  unfold requestRow modeRequestRow restartRow
  (repeat' split) <;> rfl

/-- R117: the arbiter grants no expiry of a door timer. -/
theorem granted_endsDoorTimer {i : Instr} (h : s.granted = some i) : endsDoorTimer i = false := by
  obtain ⟨c, hc⟩ := work_of_granted h
  cases c with
  | door =>
    obtain ⟨_, e, _, -, -, rfl⟩ := work_door_iff.1 hc
    cases e <;> rfl
  | timer =>
    obtain ⟨e, _, -, -, rfl⟩ := work_timer_iff.1 hc
    cases e.what <;> rfl
  | present =>
    obtain ⟨p, _, -, rfl⟩ := work_present_iff.1 hc
    split <;> rfl
  | request =>
    obtain ⟨f, -, -, rfl⟩ := work_request_iff.1 hc
    exact requestRow_endsDoorTimer f
  | sweep =>
    obtain ⟨-, rfl⟩ := work_sweep_iff.1 hc
    rfl

/-- The part ends a door timer of itself at a station whose timer has run out, and no sooner. -/
theorem ownTimer_of_ownAction {i : Instr} (h : s.ownAction = some i) (hi : endsDoorTimer i = true) :
    ∃ m, s.ownTimer m = some i := by
  unfold State.ownAction at h
  split at h
  · cases h
  · simp only [Option.or_eq_some_iff] at h
    obtain ((hreq | ⟨-, htimer⟩) | ⟨-, hsweep⟩) | ⟨-, hgranted⟩ := h
    · unfold State.ownRequest at hreq
      (repeat' split at hreq) <;> cases hreq
      rw [requestRow_endsDoorTimer] at hi
      cases hi
    · obtain ⟨m, -, hm⟩ := List.exists_of_findSome?_eq_some htimer
      exact ⟨m, hm⟩
    · unfold State.ownSweep at hsweep
      split at hsweep <;> cases hsweep
      cases hi
    · rw [granted_endsDoorTimer hgranted] at hi
      cases hi

/-- The stations are asked in ascending address order. -/
theorem findSome_ownTimer {i : Instr} (h1 : 1 ≤ n) (h16 : n ≤ 16) (before : ∀ m, 1 ≤ m → m < n → s.ownTimer m = none)
    (h : s.ownTimer n = some i) : (List.range' 1 Config.stations).findSome? s.ownTimer = some i := by
  obtain ⟨k, rfl⟩ := Nat.exists_eq_add_of_le h1
  have order : List.range' 1 Config.stations = List.range' 1 k ++ (1 + k) :: List.range' (1 + k + 1) (15 - k) := by
    rw [← List.range'_succ, List.range'_append_1, Config.stations]
    congr 1
    omega
  have earlier : (List.range' 1 k).findSome? s.ownTimer = none := List.findSome?_eq_none_iff.2 fun m hm => by
    obtain ⟨low, high⟩ := List.mem_range'_1.1 hm
    exact before m low high
  rw [order, List.findSome?_append, earlier, List.findSome?_cons, h]
  rfl

theorem ownRequest_eq_none (h : ∀ f, s.unserved = some f → servedAtAcceptance f = false) : s.ownRequest = none := by
  unfold State.ownRequest
  split
  · rename_i f hf
    rw [h f hf]
    rfl
  · rfl

theorem ownAction_of_ownTimer {i : Instr} (hr : s.inReset = false)
    (hreq : ∀ f, s.unserved = some f → servedAtAcceptance f = false) (h1 : 1 ≤ n) (h16 : n ≤ 16)
    (before : ∀ m, 1 ≤ m → m < n → s.ownTimer m = none) (h : s.ownTimer n = some i) : s.ownAction = some i := by
  unfold State.ownAction
  rw [hr, ownRequest_eq_none hreq, findSome_ownTimer h1 h16 before h]
  rfl

end

/-- Settles O32: the two expiries, the seconds counted, and the act at count 0. -/
theorem doorTimersExpire : Obligations.DoorTimersExpire := by
  refine ⟨fun s n left hr h1 h16 hlen hd => ?_, fun s n left hr h1 h16 hlen hd => ?_,
    fun s => ⟨tick_inReset, fun hr => ?_⟩, fun s n => ⟨fun h => ?_, fun h => ?_, fun h1 h16 hr hreq before => ?_⟩⟩
  · rw [← releaseExpires_released ⟨h1, hlen ▸ h16⟩ hd]
    change execReleaseTimerExpiry n s = _
    rw [execReleaseTimerExpiry, isStation_of_le h1 h16, hr]
    rfl
  · change execHeldTimerExpiry n s = _
    rw [execHeldTimerExpiry, isStation_of_le h1 h16, hr, heldExpires_opened ⟨h1, hlen ▸ h16⟩ hd]
    rfl
  · rw [tick_stations hr]
    refine List.map_congr_left fun st _ => ?_
    cases st.door <;> rfl
  · obtain ⟨m, hm⟩ := ownTimer_of_ownAction h rfl
    obtain ⟨hd, hi⟩ | ⟨-, hi⟩ := ownTimer_iff.1 hm
    · cases hi
      exact hd
    · cases hi
  · obtain ⟨m, hm⟩ := ownTimer_of_ownAction h rfl
    obtain ⟨-, hi⟩ | ⟨hd, hi⟩ := ownTimer_iff.1 hm
    · cases hi
    · cases hi
      exact hd
  · have act {i : Instr} (hi : s.ownTimer n = some i) : s.ownAction = some i :=
      ownAction_of_ownTimer hr hreq h1 h16 (fun m low high => ownTimer_eq_none (before m low high)) hi
    exact ⟨fun hd => act (ownTimer_iff.2 (.inl ⟨hd, rfl⟩)), fun hd => act (ownTimer_iff.2 (.inr ⟨hd, rfl⟩))⟩

end Sys2Proof.Machine
end

