-- ==== Sys2Proof/Proofs/Completion.lean ====
section
/-! The outcome of each command (R128, R135, R161): it completes when it names an event of the part, and faults
otherwise (log entry 28); none is refused. -/
namespace Sys2Proof.Machine

section
variable (i : Instr) (s : State) (serve : List Byte → State → Except ReplyCode (State × List Byte))

/-! ### The outcome of a job and of a request -/

theorem whenGranted_completes (job : State → State) : ∃ t, whenGranted i s job = .next t := by
  unfold whenGranted
  split <;> exact ⟨_, rfl⟩

theorem requestJob_completes : ∃ t, requestJob i s serve = .next t := by
  unfold requestJob
  (repeat' split) <;> exact ⟨_, rfl⟩

theorem acceptedRequest_completes : ∃ t, acceptedRequest i s serve = .next t := by
  unfold acceptedRequest
  split <;> exact ⟨_, rfl⟩

end

/-! ### The outcome of a command -/

/-- R135: characters that are no corrupt answer are none at all, or a good answer. -/
theorem corrupt_check (chars : List StationChar) :
    (chars.isEmpty || isGoodAnswer chars) = !WellFormed (.corruptAnswer chars) := by
  simp [WellFormed, Bool.not_and]

/-- A well-formed command completes: a request and a job whatever the arbiter grants, an event on every branch. -/
theorem exec_completes {c : Instr} (hc : WellFormed c = true) (s : State) : ∃ t, exec c s = .next t := by
  cases c <;> dsimp only [exec]
  case identify | status | settingsRead | trailRead | trailClose | trailFree | unknownKind =>
    exact acceptedRequest_completes ..
  case settingsWrite | clockSet | clockRead | permitAdd | permitAmend | permitRemove | permitRead | permitFind | revoke
      | unrevoke | revokeList | roomSet | roomMode | roomRead | occupantRelease | stationSet | stationChannel
      | stationRead | modeRequestRun | modeRequestReserve | modeRequestStandby | restartWarmRequest
      | restartCleanRequest =>
    exact requestJob_completes ..
  case doorCommit | doorLapse | pairingExpiry | stayDeadlineDue | escalationDue | limitDue | entryDecision
      | exitDecision | sweepStep =>
    exact whenGranted_completes ..
  case frameReceived bytes =>
    have frame : isFrame bytes = true := hc
    rw [execFrameReceived, if_neg (by simp [frame])]
    (repeat' split) <;> exact ⟨_, rfl⟩
  case goodAnswer chars =>
    have good : isGoodAnswer chars = true := hc
    rw [execGoodAnswer, if_neg (by simp [good])]
    split <;> exact ⟨_, rfl⟩
  case corruptAnswer chars =>
    rw [execCorruptAnswer, corrupt_check, hc, if_neg nofun]
    split <;> exact ⟨_, rfl⟩
  case releaseTimerExpiry n =>
    have station : isStation n = true := hc
    rw [execReleaseTimerExpiry, if_neg (by simp [station])]
    split <;> exact ⟨_, rfl⟩
  case heldTimerExpiry n =>
    have station : isStation n = true := hc
    rw [execHeldTimerExpiry, if_neg (by simp [station])]
    split <;> exact ⟨_, rfl⟩
  case receiveGap | framingError | lengthOver1024 | startByteReceived | frameSent | sweepIntervalExpiry | clockEnd
      | pollRoundStart | call | missingAnswer | supplyFall | supplyRise | attention | resetLineActive
      | resetLineReleased | mainSupplyLoss | mainSupplyUp =>
    simp only [execReceiveGap, execFramingError, execLengthOver1024, execStartByteReceived, execFrameSent,
      execSweepIntervalExpiry, execClockEnd, execPollRoundStart, execCall, execMissingAnswer, execSupplyFall,
      execSupplyRise, execAttention, execResetLineActive, execResetLineReleased, execMainSupplyLoss, execMainSupplyUp]
    (repeat' split) <;> exact ⟨_, rfl⟩

/-- Log entry 28: the commands that can name no event of the part are the five whose operand is checked first. -/
theorem exec_faults {c : Instr} (hc : WellFormed c = false) (s : State) : ∃ r, exec c s = .fault r := by
  cases c <;> dsimp only [exec]
  case frameReceived bytes =>
    have partFrame : isFrame bytes = false := hc
    exact ⟨_, if_pos (by simp [partFrame])⟩
  case goodAnswer chars =>
    have bad : isGoodAnswer chars = false := hc
    exact ⟨_, if_pos (by simp [bad])⟩
  case corruptAnswer chars => exact ⟨_, if_pos (by rw [corrupt_check, hc]; rfl)⟩
  case releaseTimerExpiry n | heldTimerExpiry n =>
    have nowhere : isStation n = false := hc
    exact ⟨_, if_pos (by simp [nowhere])⟩
  all_goals cases hc

/-- Settles O3: each direction by the command, the operand's check being the first branch of its meaning. -/
theorem completesIffWellFormed : Obligations.CompletesIffWellFormed :=
  fun _ s => ⟨fun hc => exec_completes hc s, fun hc => exec_faults hc s⟩

end Sys2Proof.Machine
end

