-- ==== Sys2Proof/Proofs/StationRequests.lean ====
section
/-! STATION-SET and STATION-CHANNEL served (R131, R132). -/
namespace Sys2Proof.Machine

/-! ### STATION-SET (R131) -/

section
variable {b : List Byte}

theorem readStationSet_malformed (h : b.length ≠ 5) : readStationSet b = .error .malformed := if_pos h

theorem readStationSet_range (h : b.length = 5) (hr : byteAt b 0 = 0 ∨ 16 < byteAt b 0 ∨ 12 < byteAt b 1) :
    readStationSet b = .error .range := by
  rw [readStationSet, if_neg (not_not.2 h), if_pos (by simp only [Config.stations, Config.rooms]; omega)]

theorem readStationSet_ok (h : b.length = 5) (h1 : 1 ≤ byteAt b 0) (h16 : byteAt b 0 ≤ 16) (h12 : byteAt b 1 ≤ 12) :
    readStationSet b
      = .ok (byteAt b 0, byteAt b 1, max 3 (min 30 (byteAt b 2)), max 10 (min 300 (valueAt b 3 2))) := by
  rw [readStationSet, if_neg (not_not.2 h), if_neg (by simp only [Config.stations, Config.rooms]; omega),
    clampTo_eq _ (by decide), clampTo_eq _ (by decide)]

end

section
variable {s : State} {b : List Byte} {n : Nat}

/-- R131 step 3. -/
theorem stationIdle_iff : s.stationIdle n = true ↔ (s.station n).channel = .hold ∧ (∀ g ∈ s.groups, g.station ≠ n)
    ∧ (∀ o ∈ s.pool, o.presence = .admitting → o.station ≠ n) ∧ (s.station n).verdict = none
    ∧ (∀ p ∈ s.presentations, p.station ≠ n) ∧ ((s.station n).door = .secure ∨ (s.station n).door = .unknown)
    ∧ (s.station n).events = [] := by
  have group : s.groupAt n = none ↔ ∀ g ∈ s.groups, g.station ≠ n := by simp [State.groupAt]
  have admitting : s.hasAdmitting n = false ↔ ∀ o ∈ s.pool, o.presence = .admitting → o.station ≠ n := by
    rw [← Bool.not_eq_true, hasAdmitting_iff]
    exact ⟨fun h o ho ha hn => h ⟨o, ho, hn, ha⟩, fun h ⟨o, ho, hn, ha⟩ => h o ho ha hn⟩
  simp only [State.stationIdle, Bool.and_eq_true, Bool.or_eq_true, Bool.not_eq_true', beq_iff_eq, bne_iff_ne,
    List.all_eq_true, List.isEmpty_iff, Option.isNone_iff_eq_none, group, admitting, and_assoc]

theorem serveStationSet_unread {code : ReplyCode} (h : readStationSet b = .error code) :
    serveStationSet b s = .error code := by
  unfold serveStationSet
  rw [h]

theorem serveStationSet_read {room release held : Nat} (h : readStationSet b = .ok (n, room, release, held)) :
    serveStationSet b s =
      if s.stationIdle n then
        .ok (s.setStation n ((s.station n).bound room release held),
          leBytes 1 n ++ leBytes 1 room ++ leBytes 1 release ++ leBytes 2 held)
      else .error .wrongState := by
  unfold serveStationSet
  rw [h]

end

/-- R131: a station bound, or bound to another room. -/
theorem bound_rebinds {st : Station} {room : Nat} (release held : Nat) (h : st.room = 0 ∨ room ≠ 0) :
    st.bound room release held = { st with room := room, releaseTime := release, heldLimit := held } :=
  if_neg (by tauto)

/-- R131: a bound station unbound. -/
theorem bound_unbinds {st : Station} (release held : Nat) (h : st.room ≠ 0) : st.bound 0 release held =
    { st with
      room := 0, releaseTime := release, heldLimit := held, link := .silent, missed := 0, expected := .adopt
      door := .unknown } := if_pos ⟨h, rfl⟩

/-! ### STATION-CHANNEL (R132) -/

theorem channelOf_code {k : Nat} (h : k ≤ 2) : (channelOf k).code = k := by
  interval_cases k <;> rfl

theorem Channel.code_inj {c d : Channel} : c.code = d.code ↔ c = d := by
  cases c <;> cases d <;> decide

section
variable {s : State} {b : List Byte} {n : Nat} {c : Channel}

theorem readStationChannel_malformed (h : b.length ≠ 2) : readStationChannel b = .error .malformed := if_pos h

theorem readStationChannel_range (h : b.length = 2) (hr : byteAt b 0 = 0 ∨ 16 < byteAt b 0 ∨ 2 < byteAt b 1) :
    readStationChannel b = .error .range := by
  rw [readStationChannel, if_neg (not_not.2 h), if_pos (by simp only [Config.stations]; omega)]

theorem readStationChannel_ok (h : b.length = 2) (h1 : 1 ≤ byteAt b 0) (h16 : byteAt b 0 ≤ 16) (h2 : byteAt b 1 ≤ 2) :
    readStationChannel b = .ok (byteAt b 0, channelOf (byteAt b 1)) := by
  rw [readStationChannel, if_neg (not_not.2 h), if_neg (by simp only [Config.stations]; omega)]

theorem serveStationChannel_unread {code : ReplyCode} (h : readStationChannel b = .error code) :
    serveStationChannel b s = .error code := by
  unfold serveStationChannel
  rw [h]

theorem serveStationChannel_read (h : readStationChannel b = .ok (n, c)) : serveStationChannel b s =
    if (s.station n).room = 0 ∧ c ≠ .hold then .error .wrongState
    else if (s.station n).channel = c then .ok (s, []) else .ok (s.writeChannel n c .operator, []) := by
  unfold serveStationChannel
  rw [h]

end

/-- Settles O26: each request by what its body reads as, STATION-SET by the idle test, STATION-CHANNEL by the room and
the channel stored. -/
theorem stationConfigured : Obligations.StationConfigured := by
  refine ⟨fun s f => ⟨fun hf hl => refuses_of_serve rfl hf (serveStationSet_unread (readStationSet_malformed hl)),
    fun hf hl => refuses_of_serve rfl hf (serveStationChannel_unread (readStationChannel_malformed hl))⟩, ?_, ?_⟩
  · intro s f n room rel held0 held1 hf hb st release held idle
    have hlen : f.body.length = 5 := by rw [hb]; rfl
    have h0 : byteAt f.body 0 = n.toNat := by rw [hb]; rfl
    have h1 : byteAt f.body 1 = room.toNat := by rw [hb]; rfl
    have h2 : byteAt f.body 2 = rel.toNat := by rw [hb]; rfl
    have h3 : valueAt f.body 3 2 = held0.toNat + 256 * held1.toNat := by rw [hb]; rfl
    refine ⟨fun hr => refuses_of_serve rfl hf (serveStationSet_unread (readStationSet_range hlen ?_)),
      fun n1 n16 r12 => ?_⟩
    · rw [h0, h1]
      exact hr
    have served := serveStationSet_read (s := s) (readStationSet_ok hlen (h0 ▸ n1) (h0 ▸ n16) (h1 ▸ r12))
    rw [h0, h1, h2, h3] at served
    have free : s.stationIdle n.toNat = true ↔ idle := stationIdle_iff
    refine ⟨fun busy => refuses_of_serve rfl hf (served.trans (if_neg (mt free.1 busy))), fun hidle hroom => ?_,
      fun hidle hbound hunbind => ?_⟩
    · have kept : st.room = 0 ∨ room.toNat ≠ 0 := hroom.imp_right fun hne h => hne (BitVec.eq_of_toNat_eq h)
      rw [if_pos (free.2 hidle), bound_rebinds _ _ kept] at served
      exact answers_of_serve rfl hf served
    · subst hunbind
      have zero : (0 : Byte).toNat = 0 := rfl
      rw [if_pos (free.2 hidle), zero, bound_unbinds _ _ hbound] at served
      exact answers_of_serve rfl hf served
  · intro s f n ch hf hb st
    have hlen : f.body.length = 2 := by rw [hb]; rfl
    have h0 : byteAt f.body 0 = n.toNat := by rw [hb]; rfl
    have h1 : byteAt f.body 1 = ch.toNat := by rw [hb]; rfl
    refine ⟨fun hr => refuses_of_serve rfl hf (serveStationChannel_unread (readStationChannel_range hlen ?_)),
      fun n1 n16 c2 => ?_⟩
    · rw [h0, h1]
      exact hr
    have served := serveStationChannel_read (s := s) (readStationChannel_ok hlen (h0 ▸ n1) (h0 ▸ n16) (h1 ▸ c2))
    have code : (channelOf ch.toNat).code = ch.toNat := channelOf_code c2
    have hold : channelOf ch.toNat = .hold ↔ ch = 1 := by
      rw [← Channel.code_inj, code, BitVec.toNat_eq]
      rfl
    have stored : st.channel = channelOf ch.toNat ↔ st.channel.code = ch.toNat := by rw [← Channel.code_inj, code]
    rw [h0, h1] at served
    have allowed (h : st.room ≠ 0 ∨ ch = 1) : ¬ (st.room = 0 ∧ channelOf ch.toNat ≠ .hold) := by
      rw [ne_eq, hold]
      tauto
    refine ⟨fun hroom hch => refuses_of_serve rfl hf (served.trans (if_pos ⟨hroom, mt hold.1 hch⟩)),
      fun hok hsame => answers_of_serve rfl hf (served.trans ?_), fun hok hnew => ⟨channelOf ch.toNat, code, ?_⟩⟩
    · rw [if_neg (allowed hok), if_pos (stored.2 hsame)]
    · have written : s.writeChannel n.toNat (channelOf ch.toNat) .operator
          = (s.setStation n.toNat { st with channel := channelOf ch.toNat }).put
            { kind := .channel, station := n.toNat, room := st.room, reason := .operator
              value := .pair st.channel.code ch.toNat } := by
        rw [State.writeChannel, code]
      rw [if_neg (allowed hok), if_neg (mt stored.1 hnew), written] at served
      exact answers_of_serve rfl hf served

end Sys2Proof.Machine
end

