-- ==== Sys2Proof/Proofs/StationLine.lean ====
section
/-! The station line (R134 to R137, R142, R174, R183): a round and its calls, a good answer and its values, and a miss
below the silence threshold. -/
namespace Sys2Proof.Machine

section
variable {s : State}

/-! ### Rounds and calls (R134, R135) -/

theorem lineRuns_iff :
    s.lineRuns = true ↔ s.inReset = false ∧ (s.supply.mode ≠ .standby ∨ s.supply.stopPending = true) := by
  simp [State.lineRuns]

theorem execPollRoundStart_starts (hl : s.lineRuns = true) (hr : s.line.round = none) :
    execPollRoundStart s = .next s.startRound := by
  simp [execPollRoundStart, hl, hr]

theorem execCall_calls {n : Nat} {rest : List Nat} {settle : Bool} (hl : s.lineRuns = true)
    (hr : s.line.round = some ⟨n :: rest, none, settle⟩) : execCall s = .next (s.beginTurn n rest settle) := by
  simp [execCall, hl, hr]

/-! ### The characters of a call (R135, R183) -/

/-- R135: the check character makes the sum of a call 0 modulo 256. -/
theorem charSum_callChars (n : Nat) (st : Station) : charSum (callChars n st) = 0 := by
  simp [callChars, charSum, plainChar]

theorem VerdictOutcome.code_le (o : VerdictOutcome) : o.code ≤ 2 := by cases o <;> decide
theorem ReasonClass.code_le (c : ReasonClass) : c.code ≤ 5 := by cases c <;> decide

theorem callChars_idle {n : Nat} {st : Station} (h : st.verdict = none) :
    ∃ control check : Byte, callChars n st = [⟨true, false, BitVec.ofNat 8 n⟩, plainChar control, plainChar check]
      ∧ control.toNat = st.acknowledge.toNat + 4 * st.verdictToggle.toNat := by
  refine ⟨_, _, by rw [callChars, callBody, h]; rfl, ?_⟩
  cases st.acknowledge <;> cases st.verdictToggle <;> rfl

/-- R183: the verdict a call carries. -/
theorem callChars_verdict {n : Nat} {st : Station} {v : Verdict} (h : st.verdict = some v) :
    ∃ control decided check : Byte,
      callChars n st = [⟨true, false, BitVec.ofNat 8 n⟩, plainChar control, plainChar decided,
          plainChar (BitVec.ofNat 8 v.seconds), plainChar check]
        ∧ control.toNat = st.acknowledge.toNat + 2 + 4 * v.toggle.toNat
        ∧ decided.toNat = v.outcome.code + 16 * v.reason.cls.code := by
  refine ⟨_, _, _, by rw [callChars, callBody, h]; rfl, ?_, ?_⟩
  · cases st.acknowledge <;> cases v.toggle <;> rfl
  · have outcome := v.outcome.code_le
    have cls := v.reason.cls.code_le
    exact Nat.mod_eq_of_lt (by omega)

end

/-- Settles O27: a round started, a turn begun, and the characters of the call. -/
theorem roundsAndCalls : Obligations.RoundsAndCalls := by
  refine ⟨fun s hr hm => ⟨fun hnone => ?_, fun n rest settle hround => ?_⟩,
    fun n st _ _ => ⟨charSum_callChars n st, callChars_idle, fun v => callChars_verdict⟩⟩
  · have started := execPollRoundStart_starts (lineRuns_iff.2 ⟨hr, hm⟩) hnone
    simp only [State.startRound, List.isEmpty_iff] at started
    exact started
  · exact execCall_calls (lineRuns_iff.2 ⟨hr, hm⟩) hround

section
variable {s : State} {n : Nat}

/-! ### A good answer (R135, R137, R174, R183) -/

theorem isGoodAnswer_length {chars : List StationChar} (h : isGoodAnswer chars = true) :
    chars.length = answerLength chars := by
  simp only [isGoodAnswer, Bool.and_eq_true, beq_iff_eq] at h
  obtain ⟨⟨_, length⟩, _⟩ := h
  exact length

theorem answerLength_cons (status : StationChar) (rest : List StationChar) :
    answerLength (status :: rest) = if status.data.getLsbD 0 then 7 else 2 := rfl

theorem isGoodAnswer_lengths {chars : List StationChar} (h : isGoodAnswer chars = true) :
    chars.length = 2 ∨ chars.length = 7 := by
  have length := isGoodAnswer_length h
  cases chars with
  | nil => cases h
  | cons status rest =>
    rw [length, answerLength_cons]
    split
    · exact .inr rfl
    · exact .inl rfl

/-- R183: bit 0 of the status character says that the answer carries a report. -/
theorem isGoodAnswer_report {status : StationChar} {rest : List StationChar}
    (h : isGoodAnswer (status :: rest) = true) : status.data.getLsbD 0 = (rest.length == 6) := by
  have length := isGoodAnswer_length h
  rw [answerLength_cons, List.length_cons] at length
  cases hb : status.data.getLsbD 0 <;> rw [hb] at length
  · have short : rest.length = 1 := Nat.succ.inj length
    rw [short]
    rfl
  · have long : rest.length = 6 := Nat.succ.inj length
    rw [long]
    rfl

theorem answerOf_none {status : StationChar} {rest : List StationChar} (h : status.data.getLsbD 0 = false) :
    answerOf (status :: rest) = { report := none, seen := status.data.getLsbD 2, open? := status.data.getLsbD 3
                                  latch := status.data.getLsbD 4 } := by
  unfold answerOf
  simp only [List.map_cons, List.getD_cons_zero, h]
  rfl

theorem answerOf_present {status side c0 c1 c2 c3 : StationChar} {rest : List StationChar}
    (h : status.data.getLsbD 0 = true) : answerOf (status :: side :: c0 :: c1 :: c2 :: c3 :: rest) =
      { report := some (status.data.getLsbD 1, if side.data.getLsbD 0 = true then .inside else .outside,
          c0.data.toNat + 256 * c1.data.toNat + 65536 * c2.data.toNat + 16777216 * c3.data.toNat)
        seen := status.data.getLsbD 2, open? := status.data.getLsbD 3, latch := status.data.getLsbD 4 } := by
  have number : valueAt ((status :: side :: c0 :: c1 :: c2 :: c3 :: rest).map StationChar.data) 2 4
      = c0.data.toNat + 256 * c1.data.toNat + 65536 * c2.data.toNat + 16777216 * c3.data.toNat := by
    simp only [valueAt, leNat, List.map_cons, List.drop_succ_cons, List.drop_zero, List.take_succ_cons, List.take_zero]
    omega
  unfold answerOf
  rw [number]
  simp only [List.map_cons, List.getD_cons_zero, h]
  rfl

/-- R137: the answer of a bound station is processed. -/
theorem takeAnswer_bound (h : (s.station n).room ≠ 0) (a : StationAnswer) :
    s.takeAnswer n a = ((s.linkStep n).verdictStep n a.seen).contactAndReport n a := if_neg h

/-- Log entry 16: the answer of an unbound station is not. -/
theorem takeAnswer_unbound (h : (s.station n).room = 0) (a : StationAnswer) : s.takeAnswer n a = s := if_pos h

theorem takeAnswer_line (a : StationAnswer) : (s.takeAnswer n a).line = s.line := by
  unfold State.takeAnswer State.contactAndReport
  dsimp only
  (repeat' split) <;> simp

theorem leaves_of_goodAnswer {chars : List StationChar} {turn : Turn} {settle : Bool} (hc : isGoodAnswer chars = true)
    (ht : s.turn = some (turn, settle)) :
    Leaves (.goodAnswer chars) s (s.takeAnswer turn.station (answerOf chars)).endTurn := by
  change execGoodAnswer chars s = _
  rw [execGoodAnswer, hc, ht]
  rfl

end

/-- Settles O28: the answer taken step by step, and the values of its characters. -/
theorem goodAnswerInFourSteps : Obligations.GoodAnswerInFourSteps := by
  refine ⟨fun chars s turn rest settle hc hr hround hroom => ?_, fun chars => isGoodAnswer_lengths,
    fun status check h => ⟨isGoodAnswer_report h, answerOf_none (isGoodAnswer_report h)⟩,
    fun status side c0 c1 c2 c3 check h => ⟨isGoodAnswer_report h, answerOf_present (isGoodAnswer_report h)⟩⟩
  intro n a judged contacted reported
  have left := leaves_of_goodAnswer hc (turn_of_round hr hround)
  have line : (s.takeAnswer n a).line = s.line := takeAnswer_line a
  have taken : s.takeAnswer n a = if s.supply.mode = .standby then judged else reported := by
    have supply : judged.supply = s.supply := by simp [judged]
    rw [takeAnswer_bound hroom]
    by_cases standby : s.supply.mode = .standby
    · rw [if_pos standby]
      exact if_pos (supply ▸ standby)
    · rw [if_neg standby]
      exact if_neg (supply ▸ standby)
  rw [endTurn_of_round (line ▸ hround), line, taken] at left
  exact left

/-! ### Misses (R135, R136, R142) -/

section
variable {s : State} {n : Nat} {x : Station}

/-- R136, R142: below the silence threshold, or at a SILENT station, a miss moves the missed count alone; in the settle
round it moves nothing. -/
theorem miss_counts {settle : Bool} (hn : s.Listed n) (hbound : x.room ≠ 0)
    (h : settle = true ∨ (if settle then x.missed else min 15 (x.missed + 1)) < s.settings.silenceThreshold
      ∨ x.link = .silent) :
    (s.setStation n x).miss n settle
      = s.setStation n { x with missed := if settle then x.missed else min 15 (x.missed + 1) } := by
  cases settle with
  | true => rfl
  | false =>
    have same : (s.setStation n x).station n = x := station_setStation_self hn.1 hn.2
    have quiet : ¬ (s.settings.silenceThreshold ≤ min 15 (x.missed + 1) ∧ x.link = .online) := by
      rintro ⟨reached, online⟩
      rcases h with settling | below | silent
      · cases settling
      · exact absurd below (Nat.not_lt.2 reached)
      · exact absurd (silent.symm.trans online) nofun
    have counted : (s.setStation n x).miss n false = (s.setStation n x).countMiss n := by
      simp [State.miss, same, hbound]
    rw [counted, State.countMiss, same]
    exact (if_neg quiet).trans (setStation_setStation ..)

/-- Log entry 16: an unbound station takes no miss. -/
theorem miss_unbound {settle : Bool} (hx : x.room = 0) :
    (s.setStation n x).miss n settle = s.setStation n x := by
  have unbound : ((s.setStation n x).station n).room = 0 := by
    by_contra bound
    have hn : s.Listed n := (listed_of_bound bound).of_length (by simp)
    rw [station_setStation_self hn.1 hn.2] at bound
    exact bound hx
  simp [State.miss, unbound]

end

/-- Settles O30: a missing or corrupt answer is a miss, counted at a bound station and without effect at another. -/
theorem missesCounted : Obligations.MissesCounted := by
  refine ⟨fun c s turn rest settle hc hr hround hlen h1 h16 hroom => ?_, fun s turn rest settle hr hround hroom =>
    ⟨fun chars hc => ?_, ?_, fun chars hne hbad => ?_⟩⟩
  · intro st missed hquiet
    have left := leaves_of_miss hc (turn_of_round hr hround)
    rw [miss_counts ⟨h1, hlen ▸ h16⟩ (by exact hroom) (by exact hquiet), endTurn_of_round (by exact hround)] at left
    exact left
  · have left := leaves_of_goodAnswer hc (turn_of_round hr hround)
    rw [takeAnswer_unbound hroom, endTurn_of_round hround] at left
    exact left
  · have left := leaves_of_miss (.inl rfl) (turn_of_round hr hround)
    rw [miss_unbound (by exact hroom), if_pos rfl, setStation_station, endTurn_of_round hround] at left
    exact left
  · have left := leaves_of_miss (.inr ⟨chars, hne, hbad, rfl⟩) (turn_of_round hr hround)
    rw [miss_unbound (by exact hroom), endTurn_of_round (by exact hround)] at left
    exact left

end Sys2Proof.Machine
end

