-- ==== Sys2Proof/Proofs/TrailWrites.lean ====
section
/-! A record handed to the trail and a FILLING half closed (R150, R151, R153, R154, R156): one rule for each way the
halves can stand. -/
namespace Sys2Proof.Machine

section
variable {t : Trail} {h : HalfId} {l : List TrailRecord} {r : TrailRecord}

/-! ### FULL and not FULL (R150) -/

theorem Trail.full_iff : t.full = true ↔ t.filling = none := Option.isNone_iff_eq_none

theorem Trail.full_of_closed (hx : (t.half h).state = .closed) (ho : (t.half h.other).state = .closed) :
    t.full = true := by
  have hab : t.a.state = .closed ∧ t.b.state = .closed := by
    cases h with
    | a => exact ⟨hx, ho⟩
    | b => exact ⟨ho, hx⟩
  simp [Trail.full_iff, Trail.filling, hab]

theorem Trail.not_full_of_filling (hx : (t.half h).state = .filling) : t.full = false := by
  cases h with
  | a => simp [Trail.full, Trail.filling, show t.a.state = .filling from hx]
  | b =>
    have hb : t.b.state = .filling := hx
    by_cases ha : t.a.state = .filling <;> simp [Trail.full, Trail.filling, ha, hb]

/-! ### A half closed (R153, R156) -/

/-- The half closes and the other, FREE, begins to fill. -/
theorem Trail.close_to_free (ho : (t.half h.other).state = .free) : t.close h l =
    { (t.setHalf h ⟨.closed, l⟩).setHalf h.other ⟨.filling, []⟩ with lastClosed := some h } := by
  refine (if_pos ho).trans ?_
  cases h <;> rfl

/-- The half closes and no other is FREE. -/
theorem Trail.close_to_full (ho : (t.half h.other).state ≠ .free) :
    t.close h l = { t.setHalf h ⟨.closed, l⟩ with lastClosed := some h } := if_neg ho

theorem Trail.not_full_close (ho : (t.half h.other).state = .free) : (t.close h l).full = false := by
  refine Trail.not_full_of_filling (h := h.other) ?_
  rw [Trail.close_to_free ho]
  exact congrArg Half.state (Trail.half_setHalf _ h.other _)

theorem Trail.full_close (ho : (t.half h.other).state = .closed) : (t.close h l).full = true := by
  rw [Trail.close_to_full (by simp [ho])]
  refine Trail.full_of_closed (h := h) (congrArg Half.state (Trail.half_setHalf t h _)) ?_
  exact (congrArg Half.state (Trail.half_setHalf_other t h _)).trans ho

/-! ### A record handed (R153, R154) -/

theorem Trail.put_appends (hf : t.filling = some h) (hl : (t.half h).records.length ≤ 62) :
    t.put r = (t.setHalf h ⟨.filling, (t.half h).records ++ [r]⟩, none) := by
  simp only [Trail.put, hf]
  exact if_pos (Nat.add_lt_add_right (Nat.lt_succ_of_le hl) 1)

/-- R153: the 64th record closes its half. -/
theorem Trail.put_closes (hf : t.filling = some h) (hl : (t.half h).records.length = 63) :
    t.put r = (t.close h ((t.half h).records ++ [r]),
      some (.trailHalf h false (t.close h ((t.half h).records ++ [r])).full)) := by
  simp only [Trail.put, hf, hl]
  exact if_neg (Nat.lt_irrefl _)

theorem Trail.put_loses (hf : t.filling = none) : t.put r = ({ t with lost := min 65535 (t.lost + 1) }, none) := by
  simp only [Trail.put, hf, Config.count16]

end

theorem put_of_trail_put {s : State} {r : TrailRecord} {t : Trail} {n : Option Notice}
    (h : s.trail.put (s.stamp r) = (t, n)) : s.put r = ({ s with trail := t } : State).offerSome n := by
  rw [State.put, h]

/-- Settles O33: a record handed, by the room left in the FILLING half and the state of the other. -/
theorem recordWrittenOrLost : Obligations.RecordWrittenOrLost := by
  intro s r stamped
  refine ⟨fun h hf hl => put_of_trail_put (Trail.put_appends hf hl), fun h hf hl ho => ?_, fun h hf hl ho => ?_,
    fun hf => put_of_trail_put (Trail.put_loses hf)⟩
  · have closes := Trail.put_closes (r := stamped) hf hl
    rw [Trail.not_full_close ho, Trail.close_to_free ho] at closes
    exact put_of_trail_put closes
  · have closes := Trail.put_closes (r := stamped) hf hl
    rw [Trail.full_close ho, Trail.close_to_full (by simp [ho])] at closes
    exact put_of_trail_put closes

end Sys2Proof.Machine
end

