-- ==== Sys2Proof/Proofs/TrailRequests.lean ====
section
/-! TRAIL-READ, TRAIL-CLOSE and TRAIL-FREE served (R155 to R157), and the bytes of the trail block and of a trail record
(R180, R184). -/
namespace Sys2Proof.Machine

/-! ### TRAIL-READ (R155) -/

section
variable {s : State} {b : List Byte} {code : ReplyCode}

theorem readTrailRange_malformed (hl : b.length ≠ 3) : readTrailRange b = .error .malformed := if_pos hl

theorem readTrailRange_range (hl : b.length = 3)
    (hr : byteAt b 0 = 0 ∨ 2 < byteAt b 0 ∨ 63 < byteAt b 1 ∨ byteAt b 2 = 0 ∨ 16 < byteAt b 2) :
    readTrailRange b = .error .range := by
  rw [readTrailRange, if_neg (not_not.2 hl), if_pos (by omega)]

theorem readTrailRange_ok (hl : b.length = 3) (h1 : 1 ≤ byteAt b 0) (h2 : byteAt b 0 ≤ 2) (hf : byteAt b 1 ≤ 63)
    (c1 : 1 ≤ byteAt b 2) (c16 : byteAt b 2 ≤ 16) :
    readTrailRange b = .ok (halfOf (byteAt b 0), byteAt b 1, byteAt b 2) := by
  rw [readTrailRange, if_neg (not_not.2 hl), if_neg (by omega)]

theorem serveTrailRead_unread (hb : readTrailRange b = .error code) : serveTrailRead b s = .error code := by
  unfold serveTrailRead
  rw [hb]

theorem serveTrailRead_read {h : HalfId} {first count : Nat} (hb : readTrailRange b = .ok (h, first, count)) :
    serveTrailRead b s = .ok (s, trailBlock s.trail ++ leBytes 1 (s.trail.range h first count).length
      ++ (s.trail.range h first count).flatMap TrailRecord.bytes) := by
  unfold serveTrailRead
  rw [hb]

end

section
variable (t : Trail) (h : HalfId) (first count : Nat)

theorem Trail.range_length :
    (t.range h first count).length = min count ((t.half h).records.length - first) := by
  simp [Trail.range]

theorem Trail.range_getElem? {i : Nat} (hi : i < (t.range h first count).length) :
    (t.range h first count)[i]? = (t.half h).records[first + i]? := by
  have below : i < count := by
    rw [Trail.range_length] at hi
    omega
  rw [Trail.range, List.getElem?_take_of_lt below, List.getElem?_drop]

theorem Trail.half_halfOf (k : Nat) : t.half (halfOf k) = if k = 1 then t.a else t.b := apply_ite ..

end

/-! ### TRAIL-CLOSE (R156) -/

section
variable {s : State} {b : List Byte} {h : HalfId}

theorem serveTrailClose_malformed (hb : b ≠ []) : serveTrailClose b s = .error .malformed := by
  rw [serveTrailClose, readNothing_malformed hb]

theorem serveTrailClose_full (hf : s.trail.filling = none) : serveTrailClose [] s = .error .wrongState := by
  rw [serveTrailClose, readNothing_nil, hf]

theorem serveTrailClose_filling (hf : s.trail.filling = some h) : serveTrailClose [] s =
    if (s.trail.half h).records = [] then .ok (s, leBytes 2 0 ++ trailBlock s.trail)
    else if (s.trail.half h.other).state ≠ .free then .error .wrongState
    else .ok (s.closeTrail h,
      leBytes 1 h.code ++ leBytes 1 (s.trail.half h).records.length ++ trailBlock (s.closeTrail h).trail) := by
  rw [serveTrailClose, readNothing_nil, hf]

theorem closeTrail_trail : (s.closeTrail h).trail = s.trail.close h (s.trail.half h).records := by
  simp only [State.closeTrail, State.offer_frame]

end

/-! ### TRAIL-FREE (R157) -/

section
variable {s : State} {b : List Byte} {h : HalfId} {code : ReplyCode}

theorem readHalf_malformed (hl : b.length ≠ 1) : readHalf b = .error .malformed := if_pos hl

theorem readHalf_range (hl : b.length = 1) (hr : byteAt b 0 = 0 ∨ 2 < byteAt b 0) : readHalf b = .error .range := by
  rw [readHalf, if_neg (not_not.2 hl), if_pos (by omega)]

theorem readHalf_ok (hl : b.length = 1) (h1 : 1 ≤ byteAt b 0) (h2 : byteAt b 0 ≤ 2) :
    readHalf b = .ok (halfOf (byteAt b 0)) := by
  rw [readHalf, if_neg (not_not.2 hl), if_neg (by omega)]

theorem serveTrailFree_unread (hb : readHalf b = .error code) : serveTrailFree b s = .error code := by
  unfold serveTrailFree
  rw [hb]

theorem serveTrailFree_read (hb : readHalf b = .ok h) : serveTrailFree b s =
    if (s.trail.half h).state = .closed then .ok (s.freeHalf h, trailBlock (s.freeHalf h).trail)
    else .error .wrongState := by
  unfold serveTrailFree
  rw [hb]

/-- R157: while a half fills, the half freed is FREE. -/
theorem freeHalf_frees (hf : s.trail.filling ≠ none) :
    s.freeHalf h = { s with trail := s.trail.setHalf h ⟨.free, []⟩ } := if_neg (mt Trail.full_iff.1 hf)

/-- R157: out of FULL the half freed fills, with the GAP record of the lost count. -/
theorem freeHalf_refills (hf : s.trail.filling = none) : s.freeHalf h =
    { s with
      trail :=
        { s.trail.setHalf h ⟨.filling,
            if s.trail.lost = 0 then [] else [s.stamp { kind := .gap, value := .number s.trail.lost }]⟩ with
          lost := 0 } } := if_pos (Trail.full_iff.2 hf)

end

/-! ### The trail block (R180) -/

theorem HalfState.code_mod (x : HalfState) : x.code % 256 = x.code := by cases x <;> rfl
theorem TrailKind.code_mod (k : TrailKind) : k.code % 256 = k.code := by cases k <;> rfl

theorem halfCode_mod (h : Option HalfId) : halfCode h % 256 = halfCode h := by
  cases h with
  | none => rfl
  | some h => cases h <;> rfl

theorem trailBlock_layout (t : Trail) :
    let b := trailBlock t
    b.length = 7 ∧ byteAt b 0 = t.a.state.code ∧ byteAt b 1 = t.a.records.length % 256 ∧ byteAt b 2 = t.b.state.code
      ∧ byteAt b 3 = t.b.records.length % 256 ∧ valueAt b 4 2 = t.lost % 65536
      ∧ byteAt b 6 = halfCode t.lastClosed := by
  simp [trailBlock, leBytes, byteAt, valueAt, leNat, HalfState.code_mod, halfCode_mod]
  omega

/-! ### The trail record (R184), its first 16 bytes and its value bytes -/

/-- R184: the bytes of a trail record before its value. -/
def trailRecordHead (r : TrailRecord) : List Byte :=
  leBytes 1 r.kind.code ++ leBytes 2 r.day ++ leBytes 4 r.second ++ leBytes 1 r.station ++ leBytes 1 r.room
    ++ leBytes 4 r.credential ++ leBytes 2 r.permit ++ leBytes 1 r.reason.code

section
variable (r : TrailRecord)

theorem trailRecord_parts : r.bytes = trailRecordHead r ++ r.value.bytes := rfl

theorem trailRecordHead_length : (trailRecordHead r).length = 16 := by simp [trailRecordHead, leBytes_length]

theorem trailValue_length (v : TrailValue) : v.bytes.length = 6 := by
  cases v <;> simp [TrailValue.bytes, leBytes_length]

theorem byteAt_trailRecordHead {i : Nat} (hi : i < 16) : byteAt r.bytes i = byteAt (trailRecordHead r) i := by
  rw [trailRecord_parts, byteAt_append_left _ _ (by rw [trailRecordHead_length]; exact hi)]

theorem valueAt_trailRecordHead {i w : Nat} (hi : i + w ≤ 16) : valueAt r.bytes i w = valueAt (trailRecordHead r) i w := by
  rw [trailRecord_parts, valueAt_append_left _ _ (by rw [trailRecordHead_length]; exact hi)]

theorem byteAt_trailValue (i : Nat) : byteAt r.bytes (16 + i) = byteAt r.value.bytes i :=
  byteAt_append_right _ _ (trailRecordHead_length r) i

theorem valueAt_trailValue (i w : Nat) : valueAt r.bytes (16 + i) w = valueAt r.value.bytes i w :=
  valueAt_append_right _ _ (trailRecordHead_length r) i w

theorem trailRecordHead_layout :
    let b := trailRecordHead r
    byteAt b 0 = r.kind.code ∧ valueAt b 1 2 = r.day % 65536 ∧ valueAt b 3 4 = r.second % 4294967296
      ∧ byteAt b 7 = r.station % 256 ∧ byteAt b 8 = r.room % 256 ∧ valueAt b 9 4 = r.credential % 4294967296
      ∧ valueAt b 13 2 = r.permit % 65536 ∧ byteAt b 15 = r.reason.code := by
  simp [trailRecordHead, leBytes, byteAt, valueAt, leNat, TrailKind.code_mod, Reason.code_mod]
  omega

theorem trailNumber_layout (n : Nat) : valueAt (TrailValue.number n).bytes 0 6 = n % 281474976710656 := by
  simp [TrailValue.bytes, leBytes, valueAt, leNat]
  omega

theorem trailPair_layout (old new : Nat) :
    byteAt (TrailValue.pair old new).bytes 0 = old % 256 ∧ byteAt (TrailValue.pair old new).bytes 1 = new % 256
      ∧ valueAt (TrailValue.pair old new).bytes 2 4 = 0 := by
  simp [TrailValue.bytes, leBytes, byteAt, valueAt, leNat]

theorem trailRecord_layout :
    let b := r.bytes
    b.length = 22 ∧ byteAt b 0 = r.kind.code ∧ valueAt b 1 2 = r.day % 65536 ∧ valueAt b 3 4 = r.second % 4294967296
      ∧ byteAt b 7 = r.station % 256 ∧ byteAt b 8 = r.room % 256 ∧ valueAt b 9 4 = r.credential % 4294967296
      ∧ valueAt b 13 2 = r.permit % 65536 ∧ byteAt b 15 = r.reason.code
      ∧ (∀ n, r.value = .number n → valueAt b 16 6 = n % 281474976710656)
      ∧ (∀ old new, r.value = .pair old new →
          byteAt b 16 = old % 256 ∧ byteAt b 17 = new % 256 ∧ valueAt b 18 4 = 0) := by
  obtain ⟨kind, day, second, station, room, credential, permit, reason⟩ := trailRecordHead_layout r
  refine ⟨by simp [trailRecord_parts, trailRecordHead_length, trailValue_length],
    (byteAt_trailRecordHead r (by decide)).trans kind, (valueAt_trailRecordHead r (by decide)).trans day,
    (valueAt_trailRecordHead r (by decide)).trans second, (byteAt_trailRecordHead r (by decide)).trans station,
    (byteAt_trailRecordHead r (by decide)).trans room, (valueAt_trailRecordHead r (by decide)).trans credential,
    (valueAt_trailRecordHead r (by decide)).trans permit, (byteAt_trailRecordHead r (by decide)).trans reason,
    fun n hn => ?_, fun old new hp => ?_⟩
  · have value := valueAt_trailValue r 0 6
    rw [hn] at value
    exact value.trans (trailNumber_layout n)
  · have first := byteAt_trailValue r 0
    have second := byteAt_trailValue r 1
    have rest := valueAt_trailValue r 2 4
    rw [hp] at first second rest
    obtain ⟨hold, hnew, hzero⟩ := trailPair_layout old new
    exact ⟨first.trans hold, second.trans hnew, rest.trans hzero⟩

end

/-! ### The three requests, each answered at acceptance (R164) -/

section
variable {s : State} {f : Frame}

theorem acceptedFor_trailRead (hr : s.inReset = false) (hu : s.unserved = some f) (hk : f.kind = 0x16) :
    s.acceptedFor .trailRead = some f :=
  acceptedFor_eq hr hu (by simp [servedAtAcceptance, hk]) (by simp [requestRow, hk])

theorem acceptedFor_trailClose (hr : s.inReset = false) (hu : s.unserved = some f) (hk : f.kind = 0x17) :
    s.acceptedFor .trailClose = some f :=
  acceptedFor_eq hr hu (by simp [servedAtAcceptance, hk]) (by simp [requestRow, hk])

theorem acceptedFor_trailFree (hr : s.inReset = false) (hu : s.unserved = some f) (hk : f.kind = 0x18) :
    s.acceptedFor .trailFree = some f :=
  acceptedFor_eq hr hu (by simp [servedAtAcceptance, hk]) (by simp [requestRow, hk])

end

/-- Settles O34: TRAIL-READ and TRAIL-FREE by what the body reads as, TRAIL-CLOSE by how the two halves stand, and the
block and the record by their layouts. -/
theorem trailRequestsServed : Obligations.TrailRequestsServed := by
  refine ⟨fun s f hr hu hk => ?_, fun s f hr hu hk => ?_, fun s f hr hu hk => ?_, trailBlock_layout,
    trailRecord_layout⟩
  · intro first count half
    have accepted := acceptedFor_trailRead hr hu hk
    refine ⟨fun hl => refuses_of_accepted rfl accepted (serveTrailRead_unread (readTrailRange_malformed hl)),
      fun hl hrange => refuses_of_accepted rfl accepted (serveTrailRead_unread (readTrailRange_range hl hrange)),
      fun hl h1 h2 hf c1 c16 => ?_⟩
    have named : half = s.trail.half (halfOf (byteAt f.body 0)) := (s.trail.half_halfOf _).symm
    rw [named]
    exact ⟨s.trail.range _ first count, s.trail.range_length .., fun i hi => s.trail.range_getElem? _ _ _ hi,
      answers_of_accepted rfl accepted (serveTrailRead_read (readTrailRange_ok hl h1 h2 hf c1 c16))⟩
  · have accepted := acceptedFor_trailClose hr hu hk
    refine ⟨fun hb => refuses_of_accepted rfl accepted (serveTrailClose_malformed hb), fun hb hf => ?_,
      fun h hb hf => ?_⟩
    · exact refuses_of_accepted rfl accepted (hb ▸ serveTrailClose_full hf)
    have served := serveTrailClose_filling hf
    rw [← hb] at served
    refine ⟨fun hempty => answers_of_accepted rfl accepted (served.trans (if_pos hempty)), fun hne ho => ?_,
      fun hne ho => ?_⟩
    · exact refuses_of_accepted rfl accepted (served.trans ((if_neg hne).trans (if_pos ho)))
    · intro closed
      rw [if_neg hne, if_neg (not_not.2 ho), closeTrail_trail, State.closeTrail, Trail.close_to_free ho] at served
      exact answers_of_accepted rfl accepted served
  · intro h gap refilled
    have accepted := acceptedFor_trailFree hr hu hk
    refine ⟨fun hl => refuses_of_accepted rfl accepted (serveTrailFree_unread (readHalf_malformed hl)),
      fun hl hrange => refuses_of_accepted rfl accepted (serveTrailFree_unread (readHalf_range hl hrange)),
      fun hl h1 h2 => ?_⟩
    have served : serveTrailFree f.body s = _ := serveTrailFree_read (h := h) (readHalf_ok hl h1 h2)
    refine ⟨fun hopen => refuses_of_accepted rfl accepted (served.trans (if_neg hopen)), fun hclosed hf => ?_,
      fun hclosed hf => ?_⟩
    · rw [if_pos hclosed, freeHalf_frees hf] at served
      exact answers_of_accepted rfl accepted served
    · rw [if_pos hclosed, freeHalf_refills hf] at served
      exact answers_of_accepted rfl accepted served

end Sys2Proof.Machine
end

