-- ==== Sys2Proof/Proofs/Crc.lean ====
section
/-! The CRC of R160 tells bytes apart that differ in one place: each step of it loses nothing of the register, so two
registers that once differ differ to the end. -/
namespace Sys2Proof.Machine

/-- The bits of a shifted register: the old ones moved up, and the polynomial where the top bit was set. -/
theorem crcShift_getLsbD (c : BitVec 16) (i : Nat) :
    (crcShift c).getLsbD i = ((c <<< 1).getLsbD i ^^ (c.msb && (0x1021#16).getLsbD i)) := by
  unfold crcShift
  cases c.msb <;> simp

/-- The bit shifted out is not lost: the polynomial's lowest bit puts it at the bottom of the register. -/
theorem crcShift_getLsbD_zero (c : BitVec 16) : (crcShift c).getLsbD 0 = c.msb :=
  (crcShift_getLsbD c 0).trans (by simp)

theorem crcShift_injective : Function.Injective crcShift := by
  intro c d h
  have top : c.msb = d.msb := by rw [← crcShift_getLsbD_zero, ← crcShift_getLsbD_zero, h]
  refine BitVec.eq_of_getElem_eq fun i hi => ?_
  by_cases last : i = 15
  · subst last
    simpa [BitVec.msb_eq_getLsbD_last] using top
  · have bit := congrArg (BitVec.getLsbD · (i + 1)) h
    simp only [crcShift_getLsbD, top, Bool.xor_left_inj] at bit
    simpa [show i + 1 < 16 by omega] using bit

theorem crcByte_injective_register (b : Byte) : Function.Injective (crcByte · b) := fun _ _ h =>
  (BitVec.xor_left_inj _).1 (crcShift_injective.iterate 8 h)

/-- A byte stands in the register's high half. -/
theorem highByte_injective : Function.Injective fun b : Byte => b.zeroExtend 16 <<< 8 := by
  intro x y h
  have value := congrArg BitVec.toNat h
  have := x.isLt
  have := y.isLt
  simp [Nat.shiftLeft_eq] at value
  exact BitVec.eq_of_toNat_eq (by omega)

theorem crcByte_injective_byte (c : BitVec 16) : Function.Injective (crcByte c) := fun _ _ h =>
  highByte_injective ((BitVec.xor_right_inj _).1 (crcShift_injective.iterate 8 h))

theorem foldl_crcByte_injective (l : List Byte) : Function.Injective (l.foldl crcByte) := by
  induction l with
  | nil => exact fun _ _ h => h
  | cons b l ih => exact fun _ _ h => crcByte_injective_register b (ih h)

/-- R160: one wrong byte gives another CRC. -/
theorem crc_ne_of_byte_ne (before after : List Byte) {x y : Byte} (hxy : x ≠ y) :
    crc (before ++ x :: after) ≠ crc (before ++ y :: after) := by
  intro h
  simp only [crc, List.foldl_append, List.foldl_cons] at h
  exact hxy (crcByte_injective_byte _ (foldl_crcByte_injective after h))

end Sys2Proof.Machine
end

