-- ==== Sys2Proof/Proofs/HostFrames.lean ====
section
/-! Frames in (R160 to R163): what the receiver reads of bytes laid out by R160, the frame accepted or discarded, and the
events that begin and end a frame (R161). -/
namespace Sys2Proof.Machine

/-! ### The bytes of a frame read back (R160, R179) -/

section
variable {f : Frame}

theorem covered_length (f : Frame) : f.covered.length = f.body.length + 4 := by
  simp [Frame.covered, leBytes]

theorem valueAt_leBytes_two (n : Nat) : valueAt (leBytes 2 n) 0 2 = n % 65536 := by
  simp [valueAt, leBytes, leNat]
  omega

theorem frameLength_covered (hb : f.body.length ≤ 1024) (l : List Byte) :
    frameLength (f.covered ++ l) = f.body.length := by
  rw [frameLength, Frame.covered, List.append_assoc, valueAt_append_left (o := 0) (w := 2) _ _ (leBytes_length ..).ge,
    valueAt_leBytes_two]
  omega

theorem isFrame_covered (hb : f.body.length ≤ 1024) (check : Nat) :
    isFrame (f.covered ++ leBytes 2 check) = true := by
  simp [isFrame, frameLength_covered hb, covered_length, leBytes_length, Config.maxBody, hb]

theorem frameOf_covered (hb : f.body.length ≤ 1024) (l : List Byte) : frameOf (f.covered ++ l) = f := by
  rw [frameOf, frameLength_covered hb]
  simp [Frame.covered, leBytes]

theorem crcAgrees_covered (hb : f.body.length ≤ 1024) (check : Nat) :
    crcAgrees (f.covered ++ leBytes 2 check) = true ↔ (crc f.covered).toNat = check % 65536 := by
  have carried := valueAt_append_right f.covered (leBytes 2 check) (covered_length f) 0 2
  rw [Nat.add_zero, valueAt_leBytes_two] at carried
  rw [crcAgrees, frameLength_covered hb, ← covered_length, List.take_left, covered_length, carried, beq_iff_eq]

end

/-! ### A complete frame (R162, R163) -/

section
variable {s : State} {f : Frame}

/-- R162: the receiver takes the frame that complete bytes carry where their CRC agrees, and discards it otherwise. -/
theorem exec_frameReceived (hb : f.body.length ≤ 1024) (check : Nat) (hr : s.inReset = false)
    (hrec : s.host.receiving = true) : exec (.frameReceived (f.covered ++ leBytes 2 check)) s
      = .next (if (crc f.covered).toNat = check % 65536 then (s.acceptFrame f).pump else s.discardFrame) := by
  show execFrameReceived _ s = _
  simp only [execFrameReceived, isFrame_covered hb, frameOf_covered hb, crcAgrees_covered hb, hr, hrec,
    Bool.not_true, Bool.or_self, Bool.false_eq_true, if_false]
  exact (apply_ite Host.Outcome.next ..).symm

/-- R162: a frame sent as R160 lays it out is accepted. -/
theorem exec_frameReceived_wire (hb : f.body.length ≤ 1024) (hr : s.inReset = false) (hrec : s.host.receiving = true) :
    exec (.frameReceived f.wire.tail) s = .next (s.acceptFrame f).pump :=
  (exec_frameReceived hb _ hr hrec).trans
    (congrArg _ (if_pos (Nat.mod_eq_of_lt (crc f.covered).isLt).symm))

theorem acceptFrame_first (h : s.host.outstanding = none) (f : Frame) : s.acceptFrame f =
    { s with host := { s.host with receiving := false, outstanding := some ⟨f, false⟩ } } := by
  rw [State.acceptFrame, h]

/-- R163: a frame that comes while a request is outstanding. -/
theorem acceptFrame_another (h : s.host.outstanding ≠ none) (f : Frame) : s.acceptFrame f =
    if s.host.busy.length < 4 then
      { s with host := { s.host with receiving := false, busy := s.host.busy ++ [(f.kind, f.tag)] } }
    else s.discardFrame := by
  obtain ⟨o, ho⟩ := Option.ne_none_iff_exists'.1 h
  rw [State.acceptFrame, ho]
  rfl

end

/-- Settles O6: the bytes sent are read back and their CRC agrees, so the frame is accepted; then by what is outstanding
and by the room in the BUSY list. -/
theorem frameSentIsAccepted : Obligations.FrameSentIsAccepted := by
  intro f s hb hr hrec
  have accepted := exec_frameReceived_wire (f := f) hb hr hrec
  refine ⟨fun ho => ?_, fun ho hroom => ?_, fun ho hfull => ?_⟩
  · rw [acceptFrame_first ho] at accepted
    exact accepted
  · rw [acceptFrame_another ho, if_pos (by omega)] at accepted
    exact accepted
  · rw [acceptFrame_another ho, if_neg (by omega)] at accepted
    exact accepted

/-- Settles O7: the frame on the line is read whole, and its CRC is not the one sent. -/
theorem oneByteErrorIsDiscarded : Obligations.OneByteErrorIsDiscarded := by
  intro f g before after x y s hb hlen hf hg hxy hr hrec
  have other : (crc g.covered).toNat ≠ (crc f.covered).toNat % 65536 := by
    rw [Nat.mod_eq_of_lt (crc f.covered).isLt, hf, hg]
    exact fun h => crc_ne_of_byte_ne before after hxy.symm (BitVec.eq_of_toNat_eq h)
  exact (exec_frameReceived (hlen ▸ hb) _ hr hrec).trans (congrArg _ (if_neg other))

/-! ### The events within a frame (R161) -/

section
variable {s : State}

/-- R175: outside STANDBY the host line's start byte wakes nothing. -/
theorem wakeEvent_awake (h : s.supply.mode ≠ .standby) (c : ModeCause) : s.wakeEvent c = s := if_pos h

theorem exec_startByte_hunting (hr : s.inReset = false) (hm : s.supply.mode ≠ .standby)
    (hrec : s.host.receiving = false) :
    Leaves .startByteReceived s { s with host := { s.host with receiving := true } } := by
  show execStartByteReceived s = _
  simp [execStartByteReceived, wakeEvent_awake, hr, hm, hrec, State.pump]

theorem exec_startByte_receiving (hrec : s.host.receiving = true) : exec .startByteReceived s = .next s := by
  show execStartByteReceived s = _
  simp [execStartByteReceived, hrec]

/-- R161 cases 1 to 3: the events that break off a frame share one meaning. -/
theorem exec_breaksOff {c : Instr} (hc : c ∈ [Instr.receiveGap, .framingError, .lengthOver1024]) :
    exec c s = if s.inReset || !s.host.receiving then .next s else .next s.discardFrame := by
  simp only [List.mem_cons, List.not_mem_nil, or_false] at hc
  obtain rfl | rfl | rfl := hc <;> rfl

end

/-- Settles O5: the start byte and the three events that break off a frame, each by whether a frame is under way. -/
theorem receiverEvents : Obligations.ReceiverEvents :=
  ⟨fun _ hr hm => ⟨exec_startByte_hunting hr hm, exec_startByte_receiving⟩, fun _ _ hc hr =>
    ⟨fun hrec => (exec_breaksOff hc).trans (if_neg (by simp [hr, hrec])),
      fun hrec => (exec_breaksOff hc).trans (if_pos (by simp [hrec]))⟩⟩

end Sys2Proof.Machine
end

