-- ==== Sys2Proof/Proofs/Transmitter.lean ====
section
/-! Frames out (R163, R165, R182): what a free transmitter begins, what follows a frame sent, and the bodies of the
notices; and the request IDENTIFY (R168). -/
namespace Sys2Proof.Machine

/-! ### What a free transmitter begins (R165) -/

section
variable {h : HostLine} (free : h.sending = none)
include free

theorem begin_reply {r : Frame} (hr : h.reply = some r) :
    h.begin = { h with reply := none, sending := some ⟨r, .reply⟩ } := by
  simp [HostLine.begin, free, hr]

theorem begin_busy {b : Byte × Byte} {bs : List (Byte × Byte)} (hr : h.reply = none) (hb : h.busy = b :: bs) :
    h.begin = { h with busy := bs, sending := some ⟨busyFrame b, .busy⟩ } := by
  simp [HostLine.begin, free, hr, hb]

theorem begin_notice {n : Notice} {ns : List Notice} (hr : h.reply = none) (hb : h.busy = [])
    (hn : h.notices = n :: ns) : h.begin = { h with notices := ns, sending := some ⟨n.frame, .notice⟩ } := by
  simp [HostLine.begin, free, hr, hb, hn]

theorem begin_idle (hr : h.reply = none) (hb : h.busy = []) (hn : h.notices = []) : h.begin = h := by
  simp [HostLine.begin, free, hr, hb, hn]

end

/-! ### A frame sent (R165) -/

/-- R165: the host line with the frame being sent finished, a reply having ended its request. -/
def HostLine.finished (h : HostLine) (source : SendSource) : HostLine :=
  { h with sending := none, outstanding := if source = .reply then none else h.outstanding }

/-- R165: where neither a stop nor a restart follows, the transmitter finishes a frame and looks at what waits. -/
theorem exec_frameSent {s : State} {x : Sending} (inputs : RestartInputs) (hr : s.inReset = false)
    (hs : s.host.sending = some x)
    (hx : x.source ≠ .reply ∨ s.supply.restartRequested = none ∧ s.supply.stopPending = false) :
    exec (.frameSent inputs) s = .next { s with host := (s.host.finished x.source).begin } := by
  show execFrameSent inputs s = _
  cases hsource : x.source with
  | reply =>
    obtain ⟨noRestart, noStop⟩ := hx.resolve_left (not_not.2 hsource)
    simp [execFrameSent, State.replySent, HostLine.finished, State.pump, hr, hs, hsource, noRestart, noStop]
  | busy => simp [execFrameSent, HostLine.finished, State.pump, hr, hs, hsource]
  | notice => simp [execFrameSent, HostLine.finished, State.pump, hr, hs, hsource]

/-! ### The notices (R182) -/

theorem AlertKind.code_mod (k : AlertKind) : k.code % 256 = k.code := by cases k <;> rfl

theorem decisionNotice_layout (d : DecisionNotice) :
    let f := (Notice.decision d).frame
    f.kind = 0x41 ∧ f.tag = 0 ∧ f.body.length = 21 ∧ byteAt f.body 0 = d.station % 256
      ∧ byteAt f.body 1 = d.side.code ∧ valueAt f.body 2 4 = d.credential % 4294967296
      ∧ valueAt f.body 6 5 = d.taken % 1099511627776 ∧ valueAt f.body 11 5 = d.decided % 1099511627776
      ∧ byteAt f.body 16 = d.outcome.code ∧ byteAt f.body 17 = d.reason.code
      ∧ valueAt f.body 18 2 = d.permit % 65536 ∧ byteAt f.body 20 = d.room % 256 := by
  simp [Notice.frame, Notice.kind, Notice.body, leBytes, byteAt, valueAt, leNat, Side.code_mod,
    VerdictOutcome.code_mod, Reason.code_mod]
  omega

theorem alertNotice_layout (a : AlertNotice) :
    let f := (Notice.alert a).frame
    f.kind = 0x42 ∧ f.tag = 0 ∧ f.body.length = 11 ∧ byteAt f.body 0 = a.kind.code ∧ byteAt f.body 1 = a.level.code
      ∧ byteAt f.body 2 = a.room % 256 ∧ byteAt f.body 3 = a.station % 256
      ∧ valueAt f.body 4 4 = a.credential % 4294967296 ∧ valueAt f.body 8 2 = a.permit % 65536
      ∧ byteAt f.body 10 = (match a.channel with | some c => c.code | none => 0) := by
  obtain ⟨kind, level, room, station, credential, permit, channel⟩ := a
  cases channel <;>
  · simp [Notice.frame, Notice.kind, Notice.body, leBytes, byteAt, valueAt, leNat, AlertKind.code_mod, Level.code_mod,
      Channel.code_mod]
    omega

theorem retiredNotice_layout (permit credential slot : Nat) :
    let f := (Notice.retired permit credential slot).frame
    f.kind = 0x45 ∧ f.tag = 0 ∧ f.body.length = 7 ∧ valueAt f.body 0 2 = permit % 65536
      ∧ valueAt f.body 2 4 = credential % 4294967296 ∧ byteAt f.body 6 = slot % 256 := by
  simp [Notice.frame, Notice.kind, Notice.body, leBytes, byteAt, valueAt, leNat]
  omega

/-- Settles O8: the frame sent leaves a free transmitter, which begins by what waits; and the notices by their layouts. -/
theorem transmitterTakesNextInOrder : Obligations.TransmitterTakesNextInOrder := by
  refine ⟨fun inputs s x hr hs hx => ?_, fun _ => rfl, fun _ _ => rfl, decisionNotice_layout, alertNotice_layout,
    fun _ _ => rfl, fun _ _ _ => rfl, retiredNotice_layout, fun _ _ _ => rfl⟩
  have free : (s.host.finished x.source).sending = none := rfl
  refine ⟨_, exec_frameSent inputs hr hs hx, rfl, ?_, fun r hreply => ?_, fun b bs hreply hbusy => ?_,
    fun n ns hreply hbusy hnotices => ?_, fun hreply hbusy hnotices => ?_⟩
  · obtain ⟨-, outstanding, -⟩ := (s.host.finished x.source).begin_keeps
    exact outstanding
  · rw [begin_reply free hreply]
    exact ⟨rfl, rfl, rfl, rfl⟩
  · rw [begin_busy free hreply hbusy]
    exact ⟨rfl, rfl, rfl⟩
  · rw [begin_notice free hreply hbusy hnotices]
    exact ⟨rfl, rfl, hbusy⟩
  · rw [begin_idle free hreply hbusy hnotices]
    exact free

/-! ### IDENTIFY (R168) -/

theorem identityBlock_eq (rateCode : Nat) : identityBlock rateCode =
    [0x61, 0xE8, 0x17, 1] ++ leBytes 1 rateCode ++ [12, 16, 0, 1, 8, 32, 48, 8, 4, 8, 80, 2, 64, 16] := rfl

theorem exec_identify (s : State) : exec .identify s = acceptedRequest .identify s
    (fun body s => (readNothing body).map fun _ => (s, identityBlock s.host.rateCode)) := rfl

/-- Settles O9: IDENTIFY is served at acceptance, and its service leaves the state it found. -/
theorem identifyReportsPart : Obligations.IdentifyReportsPart := by
  intro s f hr hu hk
  have accepted : s.acceptedFor .identify = some f :=
    acceptedFor_eq hr hu (by simp [servedAtAcceptance, hk]) (by simp [requestRow, hk])
  refine ⟨fun hb => ?_, fun hb => ?_⟩
  · exact answers_of_accepted (exec_identify s) accepted (by rw [hb, readNothing_nil, ← identityBlock_eq]; rfl)
  · exact refuses_of_accepted (exec_identify s) accepted (by rw [readNothing_malformed hb]; rfl)

end Sys2Proof.Machine
end

