-- ==== Sys2Proof/Proofs/RestartRequests.lean ====
section
/-! RESTART served, and the bodies MODE-REQUEST and RESTART refuse (R173, R177; log entry 13). -/
namespace Sys2Proof.Machine

section
variable {s : State} {top : Nat} {b : List Byte} {code : ReplyCode}

/-! ### The code of a one-byte body -/

theorem readCode_malformed (h : b.length ≠ 1) : readCode top b = .error .malformed := if_pos h

theorem readCode_range (hl : b.length = 1) (hr : top < byteAt b 0) : readCode top b = .error .range :=
  (if_neg (not_not.2 hl)).trans (if_pos hr)

/-! ### RESTART -/

/-- R177: RESTART served, by the restart it asks for. -/
def serveRestart (r : RestartRequest) (body : List Byte) (s : State) : Except ReplyCode (State × List Byte) :=
  (readCode 1 body).map fun _ => (s.requestRestart r, [])

theorem exec_restartWarm (s : State) :
    exec .restartWarmRequest s = requestJob .restartWarmRequest s (serveRestart .warm) := rfl

theorem exec_restartClean (s : State) :
    exec .restartCleanRequest s = requestJob .restartCleanRequest s (serveRestart .clean) := rfl

/-- R177: RESTART with a code of its table is accepted, and only asks for the restart. -/
theorem serveRestart_accepts {r : RestartRequest} {x : Byte} (hb : b = [x]) (hx : x.toNat ≤ 1) :
    serveRestart r b s = .ok (s.requestRestart r, []) := by
  rw [hb, serveRestart, readCode_of_mem hx]
  rfl

theorem serveRestart_unread {r : RestartRequest} (h : readCode 1 b = .error code) :
    serveRestart r b s = .error code := by
  rw [serveRestart, h]
  rfl

/-- R177: after an accepted RESTART the arbiter grants nothing. -/
theorem granted_eq_none_of_restart (h : s.supply.restartRequested ≠ none) : s.granted = none :=
  if_pos (by rw [Option.isSome_iff_ne_none.2 h, Bool.or_true])

/-! ### MODE-REQUEST refused -/

theorem serveModeRun_unread (h : readCode 2 b = .error code) : serveModeRun b s = .error code := by
  rw [serveModeRun, h]

end

/-- Settles O36: RESTART by the code its body carries, and each refused body by what it fails to read as. -/
theorem restartRequestsServed : Obligations.RestartRequestsServed := by
  refine ⟨fun s f => ⟨fun hf hb => ?_, fun hf hb => ?_, granted_eq_none_of_restart⟩,
    fun s f => ⟨fun i hi hf hl => ?_, fun hf hl hr => ?_, fun hf hl hr => ?_⟩⟩
  · exact answers_of_serve (exec_restartWarm s) hf (serveRestart_accepts hb (by decide))
  · exact answers_of_serve (exec_restartClean s) hf (serveRestart_accepts hb (by decide))
  · simp only [List.mem_cons, List.not_mem_nil, or_false] at hi
    obtain rfl | rfl := hi
    · exact refuses_of_serve (serve := serveModeRun) rfl hf (serveModeRun_unread (readCode_malformed hl))
    · exact refuses_of_serve (exec_restartWarm s) hf (serveRestart_unread (readCode_malformed hl))
  · exact refuses_of_serve (serve := serveModeRun) rfl hf (serveModeRun_unread (readCode_range hl hr))
  · exact refuses_of_serve (exec_restartWarm s) hf (serveRestart_unread (readCode_range hl hr))

end Sys2Proof.Machine
end
